-- ==== Sys2Proof/Word.lean ====
section
/-! DEFINITION. The word types of the cs-msgio framing block: bytes, command words, scalars, counts. -/

namespace Sys2Proof

/-- A byte is 8 bits (R9). -/
abbrev Byte := BitVec 8

/-- The command word `req.CMD` is 16 bits (R80). -/
abbrev CommandWord := BitVec 16

/-- The scalar operand `req.ARG` and the scalar result `rsp.RES` are 64 bits (R21). -/
abbrev Scalar := BitVec 64

/-- The count `rsp.CNT` is 32 bits (R21). -/
abbrev Count := BitVec 32

/-- A byte sequence; index 0 is the first byte transferred (R11). -/
abbrev Bytes := List Byte

end Sys2Proof
end

