-- ==== Sys2Proof/Syntax.lean ====
section
/-! DEFINITION. The syntax of the block: styles, byte orders, the 37 commands, request records, strap pins and the environment's moves. -/

namespace Sys2Proof

/-- The ten length-prefix styles, a closed set (R84). -/
inductive Style where
  | i8 | u8 | i16 | u16 | i32 | u32 | i64 | u64 | varint | uvarint
  deriving DecidableEq, Repr

/-- The byte order of a fixed-width prefix (R54, R83). -/
inductive ByteOrder where
  | big | little
  deriving DecidableEq, Repr

/-- The 37 commands of R92, one constructor per row of the opcode table. `ord` is the ORDER bit of a
format C word, an operand even where the command ignores it (R96); `st` is the STYLE field of MAXLEN. -/
inductive Instr where
  | encI8 (ord : ByteOrder)  -- ENC.I8, R112
  | encU8 (ord : ByteOrder)  -- ENC.U8, R113
  | encI16 (ord : ByteOrder)  -- ENC.I16, R114
  | encU16 (ord : ByteOrder)  -- ENC.U16, R115
  | encI32 (ord : ByteOrder)  -- ENC.I32, R116
  | encU32 (ord : ByteOrder)  -- ENC.U32, R117
  | encI64 (ord : ByteOrder)  -- ENC.I64, R118
  | encU64 (ord : ByteOrder)  -- ENC.U64, R119
  | encVarint (ord : ByteOrder)  -- ENC.VARINT, R120
  | encUvarint (ord : ByteOrder)  -- ENC.UVARINT, R121
  | decI8 (ord : ByteOrder)  -- DEC.I8, R124
  | decU8 (ord : ByteOrder)  -- DEC.U8, R125
  | decI16 (ord : ByteOrder)  -- DEC.I16, R126
  | decU16 (ord : ByteOrder)  -- DEC.U16, R127
  | decI32 (ord : ByteOrder)  -- DEC.I32, R128
  | decU32 (ord : ByteOrder)  -- DEC.U32, R129
  | decI64 (ord : ByteOrder)  -- DEC.I64, R130
  | decU64 (ord : ByteOrder)  -- DEC.U64, R131
  | decVarint (ord : ByteOrder)  -- DEC.VARINT, R132
  | decUvarint (ord : ByteOrder)  -- DEC.UVARINT, R133
  | maxlen (ord : ByteOrder) (st : Style)  -- MAXLEN, R138
  | rbFillRaw  -- RB.FILLRAW, R142
  | rbFillMsg  -- RB.FILLMSG, R143
  | rbDrain  -- RB.DRAIN, R147
  | rbDrainMsg  -- RB.DRAINMSG, R151
  | rbLen  -- RB.LEN, R152
  | rdReadMsg  -- RD.READMSG, R164
  | rdReadMsgC  -- RD.READMSGC, R165
  | rdRead  -- RD.READ, R166
  | rdReadByte  -- RD.READBYTE, R167
  | rdPeekLen  -- RD.PEEKLEN, R168
  | rdClose  -- RD.CLOSE, R169
  | wrWriteMsg  -- WR.WRITEMSG, R192
  | wrWrite  -- WR.WRITE, R193
  | wrWriteByte  -- WR.WRITEBYTE, R194
  | wrFlush  -- WR.FLUSH, R195
  | wrClose  -- WR.CLOSE, R196
  deriving DecidableEq, Repr

/-- A request record (R21): the command word, the scalar operand and the data operand. -/
structure Request where
  cmd : CommandWord  -- `req.CMD`
  arg : Scalar       -- `req.ARG`
  din : Bytes        -- `req.DIN`
  deriving DecidableEq, Repr

/-- The strap inputs as they stand at the pins when reset is released (R30, R241), before the check
that they are legal (R243). -/
structure StrapPins where
  cap : Nat
  rdStyle : BitVec 4
  rdOrder : Bool
  rdLeaveOpen : Bool
  wrStyle : BitVec 4
  wrOrder : Bool
  wrLeaveOpen : Bool
  deriving DecidableEq, Repr

namespace Machine

/-! ## The environment's moves -/

/-- What can cut a command short inside a transport call. -/
inductive Interruption where
  /-- The requester's cancel signal (R226 (b)). -/
  | cancelled
  /-- The transport reports a failure (R66, R221). -/
  | ioFail
  /-- The reset input is asserted, with these straps at the pins (R240 to R242). -/
  | reset (pins : StrapPins)
  deriving DecidableEq, Repr

/-- How a transport answers one call (R60, R61, R64, R226). -/
inductive Answer where
  /-- It moves bytes: `n` is the environment's choice of how many, brought into the range the rule allows. -/
  | move (n : Nat)
  /-- The call is cut short after up to `n` bytes have moved. Of a flush or a close that is cut short, `n`
  says whether the transport had done it: not if `n` is 0 (log 25). -/
  | interrupt (n : Nat) (why : Interruption)
  deriving DecidableEq, Repr

/-- What the environment does at one step (R20, R38, R62, R70, R226, R240). -/
inductive Event where
  /-- Requester `who` presents a command. -/
  | present (who : Nat) (req : Request)
  /-- The arbiter turns to requester `who`'s waiting command. -/
  | grant (who : Nat)
  /-- Requester `who` cancels its waiting command. -/
  | cancel (who : Nat)
  /-- Bytes arrive at the receive transport. -/
  | rxArrive (bytes : Bytes)
  /-- More of the transports' answers to coming calls are settled; the block sees nothing of it (log 2). -/
  | answers (rx tx : List Answer)
  /-- The reset input is asserted, with these straps at the pins. -/
  | reset (pins : StrapPins)
  deriving DecidableEq, Repr, Inhabited

end Machine

end Sys2Proof
end

