-- ==== Sys2Proof/Config.lean ====
section
/-! DEFINITION. The constants of the block and the values the spec leaves open (free values: opaque, so that no proof can see them). -/

namespace Sys2Proof

/-- The longest data operand a command may carry, `2^31 - 1` bytes (R7, D11). -/
abbrev PAYLOAD_MAX : Nat := 2147483647

/-- What a byte of the RBUF store that nothing has written reads as. DESIGN CHOICE (log 5): R39 lets a
model pick any bytes, since no rule lets them be seen. -/
abbrev unwrittenByte : Byte := 0#8

/-- FREE VALUE (log 3): the bytes of the infinite receive stream `source` that lie between its `k`-th byte
with bit 7 clear and the one before it; only their bits 6:0 count (R36: any byte sequence). -/
opaque Config.rxRun (source k : Nat) : List Byte

/-- FREE VALUE (log 3): the `k`-th byte of the infinite receive stream `source` among those with bit 7 clear,
or its `k`-th byte if none has; only its bits 6:0 count (R36: any byte sequence). -/
opaque Config.rxByte (source k : Nat) : Byte

/-- FREE VALUE (log 27): the `k`-th move of the environment that goes on for ever as `source` says (R38, R70,
R226: all its free choices). -/
opaque Config.move (source k : Nat) : Machine.Event

/-- FREE VALUE (log 26): the arbiter's `k`-th choice where no grant is written down (R70: which waiting
command a unit serves next is not determined). -/
opaque Config.arbiter (k : Nat) : Nat

/-- FREE VALUE (log 9): what `RD.next` holds after a cancelled or failed reader command (R226 (b):
"unspecified values"), for the n-th such event. -/
opaque Config.cancelledNext : Nat → Option Scalar

/-- FREE VALUE (log 9): the store after a cancelled or failed reader command (R226 (b)). -/
opaque Config.cancelledMem : Nat → List (Nat × Byte)

/-- FREE VALUE (log 9): `RB.start` after a cancelled or failed reader command (R226 (b)). -/
opaque Config.cancelledStart : Nat → Nat

/-- FREE VALUE (log 9): `RB.end` after a cancelled or failed reader command (R226 (b)). -/
opaque Config.cancelledStop : Nat → Nat

/-- FREE VALUE (log 9): `RB.queue` after a cancelled or failed reader command (R226 (b)). -/
opaque Config.cancelledQueue : Nat → List (Nat × Nat)

end Sys2Proof
end

