-- ==== Sys2Proof/WellFormed.lean ====
section
/-! DEFINITION. The checks on what the outside hands the block. Every term of `Instr` is well-formed: styles and orders are closed types (R84, R94), so the decoder has already refused what names no command. -/

namespace Sys2Proof

/-- `req.DIN` holds at most `PAYLOAD_MAX` bytes (R7, R21). -/
def Request.wellFormed (r : Request) : Bool := r.din.length ≤ PAYLOAD_MAX

/-- The straps are legal: both styles are among the ten, and `1 <= CAP <= PAYLOAD_MAX` (R7, R243). -/
def StrapPins.wellFormed (p : StrapPins) : Bool :=
  decide (p.rdStyle.toNat ≤ 9) && decide (p.wrStyle.toNat ≤ 9) &&
    decide (1 ≤ p.cap) && decide (p.cap ≤ PAYLOAD_MAX)

end Sys2Proof
end

