-- ==== Sys2Proof/Decode.lean ====
section
/-! DEFINITION. Decoding and encoding of the command word (30_encoding.md sections 1 to 4). -/

namespace Sys2Proof

/-- Why a command word selects no row of the opcode map; each is the status ILLEGAL_COMMAND (R217). -/
inductive DecodeError where
  /-- Bits 15:13 not 0, or bits 12:8 of a format U word not 0 (R95). -/
  | mustBeZero
  /-- An OP value that R92 does not list (R93). -/
  | reservedOp
  /-- STYLE 10 to 15 in a format C word (R94). -/
  | reservedStyle
  deriving DecidableEq, Repr

/-- What the decoder answers. -/
inductive Decoded where
  | command (i : Instr)
  | illegal (e : DecodeError)
  deriving DecidableEq, Repr

/-- The style code (R84, D4). -/
def Style.code : Style → BitVec 4
  | .i8 => 0
  | .u8 => 1
  | .i16 => 2
  | .u16 => 3
  | .i32 => 4
  | .u32 => 5
  | .i64 => 6
  | .u64 => 7
  | .varint => 8
  | .uvarint => 9

/-- The style a code names; 10 to 15 name none (R84, R94). -/
def Style.ofCode (c : BitVec 4) : Option Style :=
  match c.toNat with
  | 0 => some .i8
  | 1 => some .u8
  | 2 => some .i16
  | 3 => some .u16
  | 4 => some .i32
  | 5 => some .u32
  | 6 => some .i64
  | 7 => some .u64
  | 8 => some .varint
  | 9 => some .uvarint
  | _ => none

/-- The coding of the ORDER bit and of the order straps: 0 BIG, 1 LITTLE (R83). -/
def ByteOrder.ofBit (b : Bool) : ByteOrder := if b then .little else .big

/-- The ORDER bit of an order (R83). -/
def ByteOrder.bit : ByteOrder → Bool
  | .big => false
  | .little => true

/-- Field OP, bits 7:0 (R81). -/
def opField (w : CommandWord) : BitVec 8 := w.extractLsb' 0 8

/-- Field STYLE, bits 11:8 (R81). -/
def styleField (w : CommandWord) : BitVec 4 := w.extractLsb' 8 4

/-- Field ORDER, bit 12 (R81). -/
def orderField (w : CommandWord) : Bool := w.getLsbD 12

/-- Field ZERO, bits 15:13 (R81). -/
def zeroField (w : CommandWord) : BitVec 3 := w.extractLsb' 13 3

/-- OP 0x10, `ENC` in each style (R92). -/
def encOf (ord : ByteOrder) : Style → Instr
  | .i8 => .encI8 ord
  | .u8 => .encU8 ord
  | .i16 => .encI16 ord
  | .u16 => .encU16 ord
  | .i32 => .encI32 ord
  | .u32 => .encU32 ord
  | .i64 => .encI64 ord
  | .u64 => .encU64 ord
  | .varint => .encVarint ord
  | .uvarint => .encUvarint ord

/-- OP 0x11, `DEC` in each style (R92). -/
def decOf (ord : ByteOrder) : Style → Instr
  | .i8 => .decI8 ord
  | .u8 => .decU8 ord
  | .i16 => .decI16 ord
  | .u16 => .decU16 ord
  | .i32 => .decI32 ord
  | .u32 => .decU32 ord
  | .i64 => .decI64 ord
  | .u64 => .decU64 ord
  | .varint => .decVarint ord
  | .uvarint => .decUvarint ord

/-- The format C commands by OP (R82, R92). -/
def formatCOf (op : Nat) (ord : ByteOrder) (st : Style) : Option Instr :=
  match op with
  | 0x10 => some (encOf ord st)
  | 0x11 => some (decOf ord st)
  | 0x12 => some (.maxlen ord st)
  | _ => none

/-- The format U commands by OP (R82, R92). -/
def formatUOf (op : Nat) : Option Instr :=
  match op with
  | 0x20 => some .rbFillRaw
  | 0x21 => some .rbFillMsg
  | 0x22 => some .rbDrain
  | 0x23 => some .rbDrainMsg
  | 0x24 => some .rbLen
  | 0x30 => some .rdReadMsg
  | 0x31 => some .rdReadMsgC
  | 0x32 => some .rdRead
  | 0x33 => some .rdReadByte
  | 0x34 => some .rdPeekLen
  | 0x3f => some .rdClose
  | 0x40 => some .wrWriteMsg
  | 0x41 => some .wrWrite
  | 0x42 => some .wrWriteByte
  | 0x43 => some .wrFlush
  | 0x4f => some .wrClose
  | _ => none

/-- Is OP one of the three format C values (R82)? -/
def isFormatC (op : Nat) : Bool := op == 0x10 || op == 0x11 || op == 0x12

/-- Decoding reads the command word and nothing else (R81); every word selects one row or is an illegal
command (R97). -/
def decode (w : CommandWord) : Decoded :=
  if zeroField w ≠ 0#3 then .illegal .mustBeZero
  else if isFormatC (opField w).toNat then
    match Style.ofCode (styleField w) with
    | none => .illegal .reservedStyle
    | some st =>
      match formatCOf (opField w).toNat (ByteOrder.ofBit (orderField w)) st with
      | some i => .command i
      | none => .illegal .reservedOp
  else
    match formatUOf (opField w).toNat with
    | none => .illegal .reservedOp
    | some i =>
      if orderField w = true ∨ styleField w ≠ 0#4 then .illegal .mustBeZero else .command i

/-- A format C word from its fields (R81). -/
def formatC (op : BitVec 8) (st : Style) (ord : ByteOrder) : CommandWord :=
  0#3 ++ BitVec.ofBool ord.bit ++ st.code ++ op

/-- The command word of a command (R92). -/
def encode : Instr → CommandWord
  | .encI8 ord => formatC 0x10 .i8 ord
  | .encU8 ord => formatC 0x10 .u8 ord
  | .encI16 ord => formatC 0x10 .i16 ord
  | .encU16 ord => formatC 0x10 .u16 ord
  | .encI32 ord => formatC 0x10 .i32 ord
  | .encU32 ord => formatC 0x10 .u32 ord
  | .encI64 ord => formatC 0x10 .i64 ord
  | .encU64 ord => formatC 0x10 .u64 ord
  | .encVarint ord => formatC 0x10 .varint ord
  | .encUvarint ord => formatC 0x10 .uvarint ord
  | .decI8 ord => formatC 0x11 .i8 ord
  | .decU8 ord => formatC 0x11 .u8 ord
  | .decI16 ord => formatC 0x11 .i16 ord
  | .decU16 ord => formatC 0x11 .u16 ord
  | .decI32 ord => formatC 0x11 .i32 ord
  | .decU32 ord => formatC 0x11 .u32 ord
  | .decI64 ord => formatC 0x11 .i64 ord
  | .decU64 ord => formatC 0x11 .u64 ord
  | .decVarint ord => formatC 0x11 .varint ord
  | .decUvarint ord => formatC 0x11 .uvarint ord
  | .maxlen ord st => formatC 0x12 st ord
  | .rbFillRaw => 0x0020
  | .rbFillMsg => 0x0021
  | .rbDrain => 0x0022
  | .rbDrainMsg => 0x0023
  | .rbLen => 0x0024
  | .rdReadMsg => 0x0030
  | .rdReadMsgC => 0x0031
  | .rdRead => 0x0032
  | .rdReadByte => 0x0033
  | .rdPeekLen => 0x0034
  | .rdClose => 0x003f
  | .wrWriteMsg => 0x0040
  | .wrWrite => 0x0041
  | .wrWriteByte => 0x0042
  | .wrFlush => 0x0043
  | .wrClose => 0x004f

/-- The command the decoder reads from a word whose bits are `w` (log 16). Command words are 16 bits
(R80); a number that needs more bits is no command word. -/
def decodeTableWord (nbits w : Nat) : Option Instr :=
  if nbits ≤ 16 ∧ w < 65536 then
    match decode (BitVec.ofNat 16 (w % 2 ^ nbits)) with
    | .command i => some i
    | .illegal _ => none
  else none

end Sys2Proof
end

