-- ==== Sys2Proof/Machine/State.lean ====
section
/-! DEFINITION. The state of the block and of its environment (10_state.md), the stops, and reset. -/

namespace Sys2Proof.Machine

/-! ## Transactions -/

/-- The status codes that are produced (R210). -/
inductive Status where
  | ok | truncatedPrefix | incompleteFrame | destTooSmall | lengthExceedsPrefix | capacityExhausted
  | cancelled | illegalCommand | operandRange | unitClosed | unitPoisoned | ioFail
  deriving DecidableEq, Repr

/-- A response record (R21); a field that a command does not write has its default (R12). -/
structure Response where
  status : Status := .ok
  eos : Bool := false
  res : Scalar := 0#64
  cnt : Count := 0#32
  dout : Bytes := []
  deriving DecidableEq, Repr

/-- A response on its way to the requester that issued the command (R223). -/
structure Delivery where
  who : Nat
  rsp : Response
  deriving DecidableEq, Repr

/-- A command with its requester. `chunk` counts the chunks a `WR.WRITE` has already emitted (R193);
it is 0 for every other command. -/
structure Transaction where
  who : Nat
  req : Request
  chunk : Nat
  deriving DecidableEq, Repr

/-- No command is executing (R22: nothing of a command is kept after it). DESIGN CHOICE (log 12). -/
def Transaction.idle : Transaction := ⟨0, ⟨0#16, 0#64, []⟩, 0⟩

/-! ## Pieces of State -/

/-- A unit's lock (R31). Between steps only `RD.lock` can be held: by a reader command that is stuck on a
prefix that never ends (R252 (a), log 28). -/
inductive Lock where
  | free
  | held (who : Nat)
  deriving DecidableEq, Repr

/-- `RD.cfg` or `WR.cfg` (R30). -/
structure UnitCfg where
  style : Style
  order : ByteOrder
  leaveOpen : Bool
  deriving DecidableEq, Repr

/-- The configuration registers, loaded from the straps at reset and never written by a command (R30).
`CAP` is kept as CAP - 1 below `PAYLOAD_MAX`, so that 0 and values above `PAYLOAD_MAX` cannot be
written down (R243). -/
structure Straps where
  capLess1 : Fin PAYLOAD_MAX
  rd : UnitCfg
  wr : UnitCfg
  deriving DecidableEq, Repr

/-- `CAP`, the capacity of the RBUF store in bytes (R7, R30). -/
def Straps.CAP (c : Straps) : Nat := c.capLess1.val + 1

/-- The RBUF unit (R25 to R27). -/
structure RBuf where
  mem : List Host.Cell       -- `RB.mem`: the bytes written, by index; an unlisted index reads `unwrittenByte`
  start : Nat                -- `RB.start`
  stop : Nat                 -- `RB.end`
  queue : List (Nat × Nat)   -- `RB.queue`: (offset, length), oldest first
  deriving DecidableEq, Repr

/-- The empty buffer of reset (R39). -/
def RBuf.empty : RBuf := ⟨[], 0, 0, []⟩

/-- The READER's own registers (R29, R31 to R33). -/
structure Reader where
  next : Option Scalar       -- `RD.next`: none is UNKNOWN
  lock : Lock                -- `RD.lock`
  closed : Bool              -- `RD.closed`
  poisoned : Bool            -- `RD.poisoned`
  deriving DecidableEq, Repr

/-- The READER right after reset (R39). -/
def Reader.afterReset : Reader := ⟨none, .free, false, false⟩

/-- The WRITER's own registers (R34). -/
structure Writer where
  lock : Lock                -- `WR.lock`
  closed : Bool              -- `WR.closed`
  poisoned : Bool            -- `WR.poisoned`
  deriving DecidableEq, Repr

/-- The WRITER right after reset (R39). -/
def Writer.afterReset : Writer := ⟨.free, false, false⟩

/-- What follows the bytes written down of a receive stream, finite or infinite (R36). Between them the
four cases hold every byte sequence (log 3). -/
inductive RxTail where
  /-- Nothing: the stream is finite. -/
  | ends
  /-- These bytes, of which there is at least one, over and over. -/
  | cycle (first : Byte) (rest : Bytes)
  /-- The infinite stream `source` from its run `k` on, in which bytes with bit 7 clear never run out. -/
  | free (source k : Nat)
  /-- The infinite stream `source` from its byte `k` on, in which no byte has bit 7 clear. -/
  | endless (source k : Nat)
  deriving DecidableEq, Repr

/-- The receive transport (R36). `RX.stream`, the bytes still to come, is `stream` and then what `tail`
says. -/
structure RxPort where
  stream : Bytes             -- `RX.stream`: its bytes written down
  tail : RxTail              -- `RX.stream`: what follows them
  eof : Bool                 -- `RX.eof`
  closed : Bool              -- `RX.closed`
  closes : Nat               -- `RX.closes`
  script : List Answer       -- the model's own: the answers to the coming calls (log 2)
  deriving DecidableEq, Repr

/-- The transmit transport (R36). -/
structure TxPort where
  stream : Bytes             -- `TX.stream`
  flushes : Nat              -- `TX.flushes`
  closed : Bool              -- `TX.closed`
  closes : Nat               -- `TX.closes`
  script : List Answer       -- the model's own: the answers to the coming calls (log 2)
  deriving DecidableEq, Repr

/-- What follows the moves written down of the environment. It may go on for ever, as R251 has it when a
command waits for ever; between them the three cases hold every sequence of moves (log 27). -/
inductive Agenda where
  /-- Nothing: the environment does nothing more. -/
  | ends
  /-- These moves, of which there is at least one, over and over. -/
  | cycle (first : Event) (rest : List Event)
  /-- The infinite sequence of moves `source` from its move `k` on. -/
  | free (source k : Nat)
  deriving DecidableEq, Repr

/-! ## State -/

/-- Everything the spec gives the machine and its environment (R20 to R40), and the model's own fields
`schedule`, `agenda`, `turns`, `freeIdx` and the ports' scripts. -/
structure State where
  cfg : Straps
  rb : RBuf
  rd : Reader
  wr : Writer
  rx : RxPort
  tx : TxPort
  extraRequesters : Nat         -- NREQ - 1 (R7: NREQ is at least 1)
  rxEofSticky : Bool            -- RX_EOF_STICKY (R7, R62)
  waiting : List Transaction    -- commands presented and not yet ended, but for the one executing or stuck (R23, R70)
  txn : Transaction             -- the command that is executing (R21)
  rsp : Option Delivery         -- the response the last step delivered (R21, R22)
  schedule : List Event         -- the model's own: the environment's coming moves (log 1)
  agenda : Agenda               -- the model's own: the environment's moves after those (log 27)
  turns : Nat                   -- the model's own: the index of the arbiter's next free choice (log 26)
  freeIdx : Nat                 -- the model's own: the index of the next free value (log 9)
  deriving DecidableEq, Repr

/-- NREQ, the number of requesters (R7). -/
def State.NREQ (s : State) : Nat := s.extraRequesters + 1

/-! ## Stops -/

/-- Why the machine stops. -/
inductive Fault where
  /-- Raised by an access to the RBUF store outside `0 <= a`, `a + n <= CAP`, which R13 leaves undefined
  and no rule makes; only in states that break the invariants of R28. Safe (log 6). -/
  | storeAddress
  deriving DecidableEq, Repr

/-- What the model turns away: moves of the environment outside the spec's domain. -/
inductive Refusal where
  /-- Raised by a command that has no meaning in the model; no arm of `exec` raises it. Safe. -/
  | notModelled (mnemonic : String)
  /-- Raised when a requester number is not below NREQ (R7). Safe (log 13). -/
  | noSuchRequester
  /-- Raised when a requester presents a command before the response to its previous one, which waits or is
  stuck (R23). Safe (log 13). -/
  | requesterBusy
  /-- Raised when `req.DIN` is longer than PAYLOAD_MAX (R7; 93_implementation_defined.md item 5). Safe (log 13). -/
  | payloadTooLong
  /-- Raised when reset is released with illegal straps (R243). Safe (log 14). -/
  | illegalStraps
  deriving DecidableEq, Repr

/-! ## Reset -/

/-- The block right after reset with the given straps (R39), with the transports and the environment's
parameters as they stand at launch. -/
def State.launch (cfg : Straps) (rx : RxPort) (tx : TxPort) (extraRequesters : Nat) (rxEofSticky : Bool)
    (schedule : List Event) (agenda : Agenda) : State :=
  { cfg, rb := .empty, rd := .afterReset, wr := .afterReset, rx, tx, extraRequesters, rxEofSticky,
    waiting := [], txn := .idle, rsp := none, schedule, agenda, turns := 0, freeIdx := 0 }

/-- The straps of `State.reset`: CAP 4096 (the default of R7), the rest code 0. DESIGN CHOICE (log 7). -/
def Straps.default : Straps := ⟨4095, ⟨.i8, .big, false⟩, ⟨.i8, .big, false⟩⟩

/-- A receive transport at launch with nothing in it. DESIGN CHOICE (log 8). -/
def RxPort.atLaunch : RxPort := ⟨[], .ends, false, false, 0, []⟩

/-- A transmit transport at launch with nothing in it. DESIGN CHOICE (log 8). -/
def TxPort.atLaunch : TxPort := ⟨[], 0, false, 0, []⟩

/-- The machine right after reset (R39, R240), with the straps of log 7 and the launch state of log 8. -/
def State.reset : State := State.launch .default .atLaunch .atLaunch 0 true [] .ends

end Sys2Proof.Machine
end

