-- ==== Sys2Proof/Machine/Operands.lean ====
section
/-! DEFINITION. The style functions (R16, R84, R137), the unit of each command (R92) and what each command reads from its request (R85). -/

namespace Sys2Proof.Machine

/-! ## Styles -/

/-- `width(st)`, the byte count of a fixed-width style; none for a variable-width one (R16, R84). -/
def Style.width : Style → Option Nat
  | .i8 | .u8 => some 1
  | .i16 | .u16 => some 2
  | .i32 | .u32 => some 4
  | .i64 | .u64 => some 8
  | .varint | .uvarint => none

/-- `signed(st)` (R16, R84). -/
def Style.signed : Style → Bool
  | .i8 | .i16 | .i32 | .i64 | .varint => true
  | .u8 | .u16 | .u32 | .u64 | .uvarint => false

/-- `ival(st, v)`, the integer a 64-bit string stands for (R16). -/
def Style.ival (st : Style) (v : Scalar) : Int :=
  if Style.signed st then v.toInt else (v.toNat : Int)

/-- `MaxLen(st)`; none is UNBOUNDED (R137). -/
def Style.maxLen : Style → Option Nat
  | .i8 => some 127
  | .u8 => some 255
  | .i16 => some 32767
  | .u16 => some 65535
  | .i32 | .u32 | .i64 | .u64 | .varint | .uvarint => none

/-- `n <= MaxLen(st)`, UNBOUNDED being greater than every number (R137). -/
def Style.within (st : Style) (n : Nat) : Bool :=
  match Style.maxLen st with
  | none => true
  | some m => n ≤ m

/-! ## Units -/

/-- The unit that executes a command (R92, column unit). -/
inductive BlockUnit where
  | codec | reader | writer
  deriving DecidableEq, Repr

/-- The unit column of R92. `RB.*` commands are executed by the READER (R140). -/
def Instr.unit : Instr → BlockUnit
  | .encI8 _ | .encU8 _ | .encI16 _ | .encU16 _ | .encI32 _ | .encU32 _ | .encI64 _ | .encU64 _
  | .encVarint _ | .encUvarint _ | .decI8 _ | .decU8 _ | .decI16 _ | .decU16 _ | .decI32 _ | .decU32 _
  | .decI64 _ | .decU64 _ | .decVarint _ | .decUvarint _ | .maxlen _ _ => .codec
  | .rbFillRaw | .rbFillMsg | .rbDrain | .rbDrainMsg | .rbLen
  | .rdReadMsg | .rdReadMsgC | .rdRead | .rdReadByte | .rdPeekLen | .rdClose => .reader
  | .wrWriteMsg | .wrWrite | .wrWriteByte | .wrFlush | .wrClose => .writer

/-! ## Operands -/

/-- `req.ARG` of the executing command (R85). -/
def State.arg (s : State) : Scalar := s.txn.req.arg

/-- `u(req.ARG)`: a count or a destination capacity, unsigned (R85). -/
def State.argNat (s : State) : Nat := s.txn.req.arg.toNat

/-- `req.ARG[7:0]`, the byte of `WR.WRITEBYTE`; the rest is ignored (R85, R194). -/
def State.argByte (s : State) : Byte := s.txn.req.arg.extractLsb' 0 8

/-- `req.DIN` of the executing command (R85). -/
def State.din (s : State) : Bytes := s.txn.req.din

end Sys2Proof.Machine
end

