-- ==== Sys2Proof/Machine/Flags.lean ====
section
/-! DEFINITION. The response fields: status codes (R210), the end-of-stream flag (R24), counts and scalars (R21, R102). -/

namespace Sys2Proof.Machine

/-- The code in `rsp.STATUS` (R210). -/
def Status.code : Status → BitVec 8
  | .ok => 0x00
  | .truncatedPrefix => 0x01
  | .incompleteFrame => 0x02
  | .destTooSmall => 0x03
  | .lengthExceedsPrefix => 0x04
  | .capacityExhausted => 0x05
  | .cancelled => 0x06
  | .illegalCommand => 0x07
  | .operandRange => 0x08
  | .unitClosed => 0x09
  | .unitPoisoned => 0x0A
  | .ioFail => 0x0B

/-- `rsp.CNT` for a byte count (R21). -/
def cntOf (n : Nat) : Count := BitVec.ofNat 32 n

/-- `zext_64(n)` of a natural number (R152, R191). -/
def resOf (n : Nat) : Scalar := BitVec.ofNat 64 n

/-- The response of a command that returns data: DOUT and CNT = len(DOUT) (R85). -/
def Response.data (d : Bytes) : Response := { dout := d, cnt := cntOf d.length }

/-- The response of a command that returns a scalar (R85). -/
def Response.scalar (v : Scalar) : Response := { res := v }

/-- The response of a command that returns its status alone (R85). -/
def Response.done : Response := {}

/-- The response of a command that ends in a fault: the status, everything else default (R15). -/
def Response.fault (st : Status) : Response := { status := st }

/-- The response of a raw read that pulled an empty frame: what was drained, and EOS when nothing was
(R24, R166). -/
def Response.shortRead (d : Bytes) : Response :=
  { dout := d, cnt := cntOf d.length, eos := d.isEmpty }

end Sys2Proof.Machine
end

