-- ==== Sys2Proof/Machine/Memory.lean ====
section
/-! DEFINITION. The RBUF store as a list of (index, byte) pairs in canonical form: indices strictly rising, no entry equal to what an unlisted index reads as. -/

namespace Sys2Proof.Machine

/-- The byte at index `a` (R13, R25). -/
def memGet (m : List Host.Cell) (a : Nat) : Byte :=
  match m with
  | [] => unwrittenByte
  | (x, y) :: r => if x = a then y else memGet r a

/-- The store with `b` at index `a`, in canonical form again. -/
def memSet (m : List Host.Cell) (a : Nat) (b : Byte) : List Host.Cell :=
  match m with
  | [] => if b = unwrittenByte then [] else [(a, b)]
  | (x, y) :: r =>
    if a < x then (if b = unwrittenByte then (x, y) :: r else (a, b) :: (x, y) :: r)
    else if a = x then (if b = unwrittenByte then r else (a, b) :: r)
    else (x, y) :: memSet r a b

/-- `n` bytes from index `a` on (R13, `MemRead`). -/
def memGetN (m : List Host.Cell) (a : Nat) : Nat → Bytes
  | 0 => []
  | n + 1 => memGet m a :: memGetN m (a + 1) n

/-- The store with the bytes `s` at index `a` and up (R13, `MemWrite`). -/
def memSetN (m : List Host.Cell) (a : Nat) : Bytes → List Host.Cell
  | [] => m
  | b :: r => memSetN (memSet m a b) (a + 1) r

/-- Every listed index is at least `lo`, they rise strictly, and no listed byte is the unwritten one. -/
def memRising (lo : Nat) : List Host.Cell → Bool
  | [] => true
  | (x, y) :: r => decide (lo ≤ x) && (y != unwrittenByte) && memRising (x + 1) r

/-- The canonical form of a store of `cap` bytes: rising, and every listed index below `cap`. -/
def memWf (cap : Nat) (m : List Host.Cell) : Bool :=
  memRising 0 m && m.all (fun c => decide (c.1 < cap))

end Sys2Proof.Machine
end

