-- ==== Sys2Proof/Machine/Ops.lean ====
section
/-! DEFINITION. The operations every command is built from: ending a command and raising a fault, locks, reset, the transports' primitives, and the sequencing of one command. -/

namespace Sys2Proof.Machine

/-! ## Locks -/

/-- The lock of a unit; the CODEC takes none (R31, R35). -/
def State.lockOf (s : State) : BlockUnit → Lock
  | .codec => .free
  | .reader => s.rd.lock
  | .writer => s.wr.lock

/-- Take or free the lock of a unit (R70); nothing for the CODEC (R35). -/
def State.setLock (s : State) (u : BlockUnit) (l : Lock) : State :=
  match u with
  | .codec => s
  | .reader => { s with rd := { s.rd with lock := l } }
  | .writer => { s with wr := { s.wr with lock := l } }

/-! ## Ending a command; taking a fault -/

/-- The command ends with response `r`: the response goes to its requester, the unit's lock is freed,
nothing of the command is kept (R15, R22, R70, R223). -/
def State.endCommand (s : State) (u : BlockUnit) (r : Response) : State :=
  { s.setLock u .free with rsp := some ⟨s.txn.who, r⟩, txn := .idle }

/-- `raise st`, the one way a fault is taken: the command ends at once with that status and default
data; what it had written stays written (R15, R223). There is no handler and no return (R224). -/
def State.raise (s : State) (u : BlockUnit) (st : Status) : State :=
  s.endCommand u (.fault st)

/-- A `WR.WRITE` between two chunks: the lock is freed, and the command waits for it again with one
more chunk emitted (R193). No response yet. -/
def State.requeue (s : State) (u : BlockUnit) : State :=
  { s.setLock u .free with
      waiting := s.waiting ++ [{ s.txn with chunk := s.txn.chunk + 1 }], txn := .idle, rsp := none }

/-- The command never ends: it holds its unit's lock from now on, gives no response, and has no successor;
what else the machine has to do goes on (R252 (a), R35, R71). -/
def State.hang (s : State) (u : BlockUnit) : State :=
  { s.setLock u (.held s.txn.who) with txn := .idle, rsp := none }

/-! ## Reset -/

/-- The configuration the strap pins give, none if they are illegal (R241, R243). -/
def StrapPins.load (p : StrapPins) : Option Straps :=
  match Style.ofCode p.rdStyle, Style.ofCode p.wrStyle with
  | some r, some w =>
    if h : 1 ≤ p.cap ∧ p.cap ≤ PAYLOAD_MAX then
      some ⟨⟨p.cap - 1, by omega⟩, ⟨r, .ofBit p.rdOrder, p.rdLeaveOpen⟩, ⟨w, .ofBit p.wrOrder, p.wrLeaveOpen⟩⟩
    else none
  | _, _ => none

/-- Reset puts every piece of the block's state at the value of R39; commands in flight are abandoned
without a response; the transports stay as they are (R240, R242). -/
def State.afterReset (s : State) (cfg : Straps) : State :=
  { s with
      cfg := cfg, rb := .empty, rd := .afterReset, wr := .afterReset,
      waiting := [], txn := .idle, rsp := none }

/-- The reset input with these straps at the pins; illegal straps have no defined behaviour (R243). -/
def State.assertReset (s : State) (pins : StrapPins) : Host.Outcome State Fault Refusal :=
  match StrapPins.load pins with
  | some cfg => .next (s.afterReset cfg)
  | none => .refused .illegalStraps

/-! ## The RBUF invariants -/

/-- Consecutive records do not overlap and stand in order (I4 of R28). -/
def recordsOrdered : List (Nat × Nat) → Bool
  | [] => true
  | [_] => true
  | a :: b :: r => decide (a.1 + a.2 ≤ b.1) && recordsOrdered (b :: r)

/-- I1 to I4 of R28, and the canonical form of the store. -/
def RBuf.inv (cap : Nat) (b : RBuf) : Bool :=
  decide (b.start ≤ b.stop) && decide (b.stop ≤ cap) &&                                     -- I1
    (decide (b.start ≠ b.stop) || (decide (b.start = 0) && decide (b.stop = 0))) &&          -- I2
    b.queue.all (fun r => decide (b.start ≤ r.1) && decide (r.1 + r.2 ≤ b.stop)) &&          -- I3
    recordsOrdered b.queue && memWf cap b.mem                                               -- I4

/-! ## Poisoning -/

/-- The buffer after a cancelled reader command: unspecified, but satisfying I1 to I4 (R226 (b)). A free
value (log 9): any buffer that satisfies them, and the empty one if the free value does not. -/
def cancelledBuffer (cap n : Nat) : RBuf :=
  let b : RBuf := ⟨Config.cancelledMem n, Config.cancelledStart n, Config.cancelledStop n, Config.cancelledQueue n⟩
  if b.inv cap then b else .empty

/-- The unit is poisoned; the reader's cached length and buffer are unspecified from now on (R226 (b)). -/
def State.poison (s : State) : BlockUnit → State
  | .codec => s
  | .reader =>
    { s with
        rd := { s.rd with poisoned := true, next := Config.cancelledNext s.freeIdx },
        rb := cancelledBuffer s.cfg.CAP s.freeIdx,
        freeIdx := s.freeIdx + 1 }
  | .writer => { s with wr := { s.wr with poisoned := true } }

/-- A command is cut short inside a transport call: by a cancel (R226 (b)), by a transport failure
(R66, R221), or by reset (R242). -/
def State.interrupted (s : State) (u : BlockUnit) (why : Interruption) : Host.Outcome State Fault Refusal :=
  match why with
  | .cancelled => .next ((s.poison u).raise u .cancelled)
  | .ioFail => .next ((s.poison u).raise u .ioFail)
  | .reset pins => s.assertReset pins

/-! ## Sequencing one command -/

/-- How far a part of a command has come: it is done with a value, the command ends here, or it never ends
(R252 (a)). -/
inductive Run (α : Type) where
  | done (a : α) (s : State)
  | raised (st : Status) (s : State)
  | interrupted (why : Interruption) (s : State)
  | stuck (s : State)
  | stop (f : Fault)

/-- Go on with the next part if this one is done. -/
def Run.bind {α β : Type} (r : Run α) (k : α → State → Run β) : Run β :=
  match r with
  | .done a s => k a s
  | .raised st s => .raised st s
  | .interrupted why s => .interrupted why s
  | .stuck s => .stuck s
  | .stop f => .stop f

/-- A part that never ends leaves the state `home`. -/
def Run.stuckAt {α : Type} (r : Run α) (home : State) : Run α :=
  match r with
  | .stuck _ => .stuck home
  | r => r

/-- The end of a command of unit `u` whose last part answers its response (R15, R223). -/
def Run.finish (u : BlockUnit) (r : Run Response) : Host.Outcome State Fault Refusal :=
  match r with
  | .done rsp s => .next (s.endCommand u rsp)
  | .raised st s => .next (s.raise u st)
  | .interrupted why s => s.interrupted u why
  | .stuck s => .next (s.hang u)
  | .stop f => .fault f

/-- The end of one chunk of a `WR.WRITE`: the command ends, or waits for its next chunk (R193). -/
def Run.finishChunk (u : BlockUnit) (r : Run Bool) : Host.Outcome State Fault Refusal :=
  match r with
  | .done last s => .next (if last then s.endCommand u .done else s.requeue u)
  | .raised st s => .next (s.raise u st)
  | .interrupted why s => s.interrupted u why
  | .stuck s => .next (s.hang u)
  | .stop f => .fault f

/-! ## The receive transport -/

/-- The bytes a tail brings up next, and the tail behind them (R36; log 3). Only a finite stream's tail
brings up none. -/
def RxTail.unroll : RxTail → Bytes × RxTail
  | .ends => ([], .ends)
  | .cycle b r => (b :: r, .cycle b r)
  | .free n k => ((Config.rxRun n k).map (0x80#8 ||| ·) ++ [0x7F#8 &&& Config.rxByte n k], .free n (k + 1))
  | .endless n k => ([0x80#8 ||| Config.rxByte n k], .endless n (k + 1))

/-- The next byte of the receive stream and the port behind it; none at the end (R36). -/
def RxPort.next (p : RxPort) : Option (Byte × RxPort) :=
  match p.stream with
  | x :: r => some (x, { p with stream := r })
  | [] =>
    match p.tail.unroll with
    | ([], _) => none
    | (x :: r, t) => some (x, { p with stream := r, tail := t })

/-- The next `k` bytes of the receive stream, fewer at its end (R36, R60). -/
def RxPort.front (p : RxPort) (k : Nat) : Bytes :=
  match k with
  | 0 => []
  | k + 1 =>
    match p.next with
    | none => []
    | some (x, q) => x :: q.front k

/-- The receive stream without its first `j` bytes (R60). -/
def RxPort.drop (p : RxPort) (j : Nat) : RxPort :=
  match j with
  | 0 => p
  | j + 1 =>
    match p.next with
    | none => p
    | some (_, q) => q.drop j

/-- What `RxClose()` does to the port (R65). -/
def RxPort.close (p : RxPort) : RxPort :=
  if p.closed then p else { p with closed := true, closes := p.closes + 1 }

/-- How many bytes a call that can move `avail` of them moves: the environment's choice `n`, brought into
`1..avail` (R60, R64). With no choice written down it moves them all (log 2). -/
def movedBy (choice : Option Answer) (avail : Nat) : Nat :=
  match choice with
  | some (.move n) => max 1 (min n avail)
  | _ => avail

/-- `RxRead(k)` (R60): the environment chooses the size of the piece; 0 bytes means the end. A call may
be cut short (R226 (b)). A port that is already closed is read as an open one: DESIGN CHOICE (log 24). -/
def rxRead (k : Nat) (s : State) : Run Bytes :=
  let p := { s.rx with script := s.rx.script.tail }
  match s.rx.script.head? with
  | some (.interrupt n why) => .interrupted why { s with rx := p.drop (min n (p.front k).length) }
  | choice =>
    let avail := p.front k
    if avail.isEmpty then .done [] { s with rx := { p with eof := true } }
    else
      let j := movedBy choice avail.length
      .done (avail.take j) { s with rx := p.drop j }

/-- What `ReadExact` answers (R63). -/
inductive Got where
  | full (bytes : Bytes)
  | short (bytes : Bytes)
  deriving DecidableEq, Repr

/-- The loop of `ReadExact` (R63); `fuel` is at least the bytes still missing, and every turn takes at
least one or ends. -/
def readExactLoop (n : Nat) : Nat → Bytes → State → Run Got
  | 0, got, s => .done (.full got) s
  | fuel + 1, got, s =>
    if got.length < n then
      (rxRead (n - got.length) s).bind fun c s =>
        if c.isEmpty then .done (.short got) s else readExactLoop n fuel (got ++ c) s
    else .done (.full got) s

/-- `ReadExact(n)` (R63). -/
def readExact (n : Nat) (s : State) : Run Got := readExactLoop n n [] s

/-- `RxClose()` (R65). The transport may fail (R221), or reset strike (R242); whether the close had been done
by then is the answer's choice (log 25). A cancel has no effect here (R226 (c), log 2). -/
def rxClose (s : State) : Run PUnit :=
  let p := { s.rx with script := s.rx.script.tail }
  match s.rx.script.head? with
  | some (.interrupt n .ioFail) => .interrupted .ioFail { s with rx := if n = 0 then p else p.close }
  | some (.interrupt n (.reset pins)) => .interrupted (.reset pins) { s with rx := if n = 0 then p else p.close }
  | _ => .done .unit { s with rx := p.close }

/-! ## The transmit transport -/

/-- What `TxClose()` does to the port (R65). -/
def TxPort.close (p : TxPort) : TxPort :=
  if p.closed then p else { p with closed := true, closes := p.closes + 1 }

/-- What `TxFlush()` does to the port (R65). -/
def TxPort.flush (p : TxPort) : TxPort := { p with flushes := p.flushes + 1 }

/-- The loop of `TxWrite` over `writeSome` (R64): each call accepts 1 to all of the bytes left. `fuel` is
at least the bytes still left. A call may be cut short, some front part accepted (R226 (b)). A port that
is already closed is written as an open one: DESIGN CHOICE (log 24). -/
def txWriteLoop : Nat → Bytes → State → Run PUnit
  | 0, _, s => .done .unit s
  | fuel + 1, bytes, s =>
    if bytes.isEmpty then .done .unit s
    else
      let p := { s.tx with script := s.tx.script.tail }
      match s.tx.script.head? with
      | some (.interrupt n why) =>
        .interrupted why { s with tx := { p with stream := p.stream ++ bytes.take n } }
      | choice =>
        let a := movedBy choice bytes.length
        txWriteLoop fuel (bytes.drop a) { s with tx := { p with stream := p.stream ++ bytes.take a } }

/-- `TxWrite(s)` (R64). -/
def txWrite (bytes : Bytes) (s : State) : Run PUnit := txWriteLoop bytes.length bytes s

/-- A flush or a close of the transmit transport, `act` being what it does to the port (R65). The transport
may fail (R221), or reset strike (R242); whether the port had done it by then is the answer's choice
(log 25). A cancel has no effect here (R226 (c), log 2). -/
def txControl (act : TxPort → TxPort) (s : State) : Run PUnit :=
  let p := { s.tx with script := s.tx.script.tail }
  match s.tx.script.head? with
  | some (.interrupt n .ioFail) => .interrupted .ioFail { s with tx := if n = 0 then p else act p }
  | some (.interrupt n (.reset pins)) => .interrupted (.reset pins) { s with tx := if n = 0 then p else act p }
  | _ => .done .unit { s with tx := act p }

/-- `TxFlush()` (R65). Whether a flush that fails or that reset cuts short counts in TX.flushes is the
answer's choice (log 25), and a port that is already closed is flushed as an open one: DESIGN CHOICE
(log 24). -/
def txFlush (s : State) : Run PUnit := txControl TxPort.flush s

/-- `TxClose()` (R65). Whether a close that fails or that reset cuts short counts in TX.closes is the
answer's choice: DESIGN CHOICE (log 25). -/
def txClose (s : State) : Run PUnit := txControl TxPort.close s

/-! ## Unit checks -/

/-- The checks every `RD.*` and `RB.*` command but `RD.CLOSE` begins with, closed first (R160). -/
def readerChecks (s : State) : Run PUnit :=
  if s.rd.closed then .raised .unitClosed s
  else if s.rd.poisoned then .raised .unitPoisoned s
  else .done .unit s

/-- The checks every `WR.*` command but `WR.CLOSE` begins with, closed first (R190). -/
def writerChecks (s : State) : Run PUnit :=
  if s.wr.closed then .raised .unitClosed s
  else if s.wr.poisoned then .raised .unitPoisoned s
  else .done .unit s

end Sys2Proof.Machine
end

