-- ==== Sys2Proof/Machine/Codec.lean ====
section
/-! DEFINITION. The CODEC unit (40_codec.md): EncodePrefix, DecodePrefix, and the meanings of `ENC.*`, `DEC.*`, `MAXLEN`. -/

namespace Sys2Proof.Machine

/-! ## Encoding (R111) -/

/-- The `w` low bytes of `V`, least significant first (R111). -/
def leBytes (V : Scalar) (w : Nat) : Bytes :=
  (List.range w).map fun i => V.extractLsb' (8 * i) 8

/-- The bytes of a fixed-width prefix put into wire order, or back: BIG order is the reverse, a single
byte ignores the order (R87 to R89, R111; which end is big: log 19). -/
def wireOrder (ord : ByteOrder) (le : Bytes) : Bytes :=
  match ord with
  | .little => le
  | .big => if le.length = 1 then le else le.reverse

/-- Is the integer `ival(st, V)` representable in `8w` bits with the style's signedness (R111)? -/
def fitsWidth (st : Style) (w : Nat) (V : Scalar) : Bool :=
  if Style.signed st then
    decide (-(2 : Int) ^ (8 * w - 1) ≤ V.toInt) && decide (V.toInt ≤ (2 : Int) ^ (8 * w - 1) - 1)
  else decide (V.toNat ≤ 2 ^ (8 * w) - 1)

/-- The variable-width loop (R90, R111): 7-bit groups, least significant first, bit 7 set on all but the
last. A 64-bit string has at most 10 groups, so 10 turns are enough. -/
def varintLoop : Nat → Scalar → Bytes
  | 0, _ => []
  | turns + 1, V =>
    let g : Byte := (V.extractLsb' 0 7).zeroExtend 8
    let V' := V >>> 7
    if V' ≠ 0#64 then (0x80#8 ||| g) :: varintLoop turns V' else [g]

/-- `EncodePrefix(st, ord, V)` (R111); none is the fault OPERAND_RANGE. -/
def encodePrefix (st : Style) (ord : ByteOrder) (V : Scalar) : Option Bytes :=
  match Style.width st with
  | some w => if fitsWidth st w V then some (wireOrder ord (leBytes V w)) else none
  | none => some (varintLoop 10 V)

/-! ## Decoding (R123) -/

/-- Have enough bytes of a prefix been taken? A fixed-width prefix ends after `width(st)` bytes, a
variable-width one at the first byte with bit 7 clear (R98, R123). -/
def prefixComplete (st : Style) (got : Bytes) : Bool :=
  match Style.width st with
  | some w => got.length == w
  | none =>
    match got.getLast? with
    | some x => !x.getLsbD 7
    | none => false

/-- The number whose bytes are given, least significant first. -/
def leNat : Bytes → Nat
  | [] => 0
  | b :: r => b.toNat + 256 * leNat r

/-- The variable-width value: the OR of the 7-bit groups, bits beyond bit 63 dropped (R123). -/
def varintValue (shift : Nat) : Bytes → Scalar
  | [] => 0#64
  | x :: r =>
    (if shift < 64 then (x.extractLsb' 0 7).zeroExtend 64 <<< shift else 0#64) ||| varintValue (shift + 7) r

/-- The 64-bit string a complete prefix stands for (R123): sign-extended for a signed fixed-width style,
zero-extended for an unsigned one. -/
def prefixValue (st : Style) (ord : ByteOrder) (got : Bytes) : Scalar :=
  match Style.width st with
  | some w =>
    let X := leNat (wireOrder ord got)
    if Style.signed st then (BitVec.ofNat (8 * w) X).signExtend 64 else (BitVec.ofNat (8 * w) X).zeroExtend 64
  | none => varintValue 0 got

/-- The loop of DecodePrefix over a byte sequence (R122, R123): bytes are taken one by one until the
prefix is complete; none is the fault TRUNCATED_PREFIX. -/
def decodeLoop (st : Style) (ord : ByteOrder) (got : Bytes) : Bytes → Option (Scalar × Nat)
  | [] => none
  | x :: r =>
    let got := got ++ [x]
    if prefixComplete st got then some (prefixValue st ord got, got.length) else decodeLoop st ord got r

/-- `DecodePrefix(st, ord, DIN)`: the 64-bit string and the number of bytes consumed (R123). -/
def decodePrefix (st : Style) (ord : ByteOrder) (src : Bytes) : Option (Scalar × Nat) :=
  decodeLoop st ord [] src

/-! ## The shared bodies of the commands (R110: nothing but the response is written) -/

/-- `ENC.<st>` (R112 to R121). -/
def encBody (st : Style) (ord : ByteOrder) (s : State) : Run Response :=
  match encodePrefix st ord s.arg with
  | some pre => .done (.data pre) s
  | none => .raised .operandRange s

/-- `DEC.<st>` (R124 to R133). -/
def decBody (st : Style) (ord : ByteOrder) (s : State) : Run Response :=
  match decodePrefix st ord s.din with
  | some (V, c) => .done { res := V, cnt := cntOf c } s
  | none => .raised .truncatedPrefix s

/-- `MAXLEN` (R138): all ones for UNBOUNDED. -/
def maxlenBody (st : Style) (s : State) : Run Response :=
  match Style.maxLen st with
  | some m => .done (.scalar (resOf m)) s
  | none => .done (.scalar (BitVec.allOnes 64)) s

/-! ## The meanings -/

/-- `ENC.I8` (R112). -/
def execEncI8 (ord : ByteOrder) (s : State) : Host.Outcome State Fault Refusal :=
  (encBody .i8 ord s).finish .codec

/-- `ENC.U8` (R113). -/
def execEncU8 (ord : ByteOrder) (s : State) : Host.Outcome State Fault Refusal :=
  (encBody .u8 ord s).finish .codec

/-- `ENC.I16` (R114). -/
def execEncI16 (ord : ByteOrder) (s : State) : Host.Outcome State Fault Refusal :=
  (encBody .i16 ord s).finish .codec

/-- `ENC.U16` (R115). -/
def execEncU16 (ord : ByteOrder) (s : State) : Host.Outcome State Fault Refusal :=
  (encBody .u16 ord s).finish .codec

/-- `ENC.I32` (R116). -/
def execEncI32 (ord : ByteOrder) (s : State) : Host.Outcome State Fault Refusal :=
  (encBody .i32 ord s).finish .codec

/-- `ENC.U32` (R117). -/
def execEncU32 (ord : ByteOrder) (s : State) : Host.Outcome State Fault Refusal :=
  (encBody .u32 ord s).finish .codec

/-- `ENC.I64` (R118). -/
def execEncI64 (ord : ByteOrder) (s : State) : Host.Outcome State Fault Refusal :=
  (encBody .i64 ord s).finish .codec

/-- `ENC.U64` (R119). -/
def execEncU64 (ord : ByteOrder) (s : State) : Host.Outcome State Fault Refusal :=
  (encBody .u64 ord s).finish .codec

/-- `ENC.VARINT` (R120). -/
def execEncVarint (ord : ByteOrder) (s : State) : Host.Outcome State Fault Refusal :=
  (encBody .varint ord s).finish .codec

/-- `ENC.UVARINT` (R121). -/
def execEncUvarint (ord : ByteOrder) (s : State) : Host.Outcome State Fault Refusal :=
  (encBody .uvarint ord s).finish .codec

/-- `DEC.I8` (R124). -/
def execDecI8 (ord : ByteOrder) (s : State) : Host.Outcome State Fault Refusal :=
  (decBody .i8 ord s).finish .codec

/-- `DEC.U8` (R125). -/
def execDecU8 (ord : ByteOrder) (s : State) : Host.Outcome State Fault Refusal :=
  (decBody .u8 ord s).finish .codec

/-- `DEC.I16` (R126). -/
def execDecI16 (ord : ByteOrder) (s : State) : Host.Outcome State Fault Refusal :=
  (decBody .i16 ord s).finish .codec

/-- `DEC.U16` (R127). -/
def execDecU16 (ord : ByteOrder) (s : State) : Host.Outcome State Fault Refusal :=
  (decBody .u16 ord s).finish .codec

/-- `DEC.I32` (R128). -/
def execDecI32 (ord : ByteOrder) (s : State) : Host.Outcome State Fault Refusal :=
  (decBody .i32 ord s).finish .codec

/-- `DEC.U32` (R129). -/
def execDecU32 (ord : ByteOrder) (s : State) : Host.Outcome State Fault Refusal :=
  (decBody .u32 ord s).finish .codec

/-- `DEC.I64` (R130). -/
def execDecI64 (ord : ByteOrder) (s : State) : Host.Outcome State Fault Refusal :=
  (decBody .i64 ord s).finish .codec

/-- `DEC.U64` (R131). -/
def execDecU64 (ord : ByteOrder) (s : State) : Host.Outcome State Fault Refusal :=
  (decBody .u64 ord s).finish .codec

/-- `DEC.VARINT` (R132). -/
def execDecVarint (ord : ByteOrder) (s : State) : Host.Outcome State Fault Refusal :=
  (decBody .varint ord s).finish .codec

/-- `DEC.UVARINT` (R133). -/
def execDecUvarint (ord : ByteOrder) (s : State) : Host.Outcome State Fault Refusal :=
  (decBody .uvarint ord s).finish .codec

/-- `MAXLEN` (R138); ORDER is ignored (R96). -/
def execMaxlen (_ord : ByteOrder) (st : Style) (s : State) : Host.Outcome State Fault Refusal :=
  (maxlenBody st s).finish .codec

end Sys2Proof.Machine
end

