-- ==== Sys2Proof/Machine/Rbuf.lean ====
section
/-! DEFINITION. The RBUF unit (41_rbuf.md): the buffer's operations and the meanings of `RB.*`. -/

namespace Sys2Proof.Machine

/-! ## The store's two primitives (R13) -/

/-- `MemRead(a, n)`, defined only inside the store (R13); none outside it (log 6). -/
def RBuf.read (cap : Nat) (b : RBuf) (a n : Nat) : Option Bytes :=
  if a + n ≤ cap then some (memGetN b.mem a n) else none

/-- `MemWrite(a, len(s), s)`, defined only inside the store (R13); none outside it (log 6). -/
def RBuf.write (cap : Nat) (b : RBuf) (a : Nat) (s : Bytes) : Option RBuf :=
  if a + s.length ≤ cap then some { b with mem := memSetN b.mem a s } else none

/-! ## The operations -/

/-- The unread bytes, `[start, end)` (R25, R26). -/
def RBuf.unread (b : RBuf) : Bytes := memGetN b.mem b.start (b.stop - b.start)

/-- `Normalize()`, compaction on empty (R149). -/
def RBuf.normalize (b : RBuf) : RBuf :=
  if b.start = b.stop ∧ b.start ≠ 0 then
    { b with queue := b.queue.map (fun r => (0, r.2)), start := 0, stop := 0 }
  else b

/-- What `RbFill` answers. -/
inductive Filled where
  | ok (b : RBuf)
  | exhausted   -- CAPACITY_EXHAUSTED: nothing written
  | outside     -- outside the store (log 6)
  deriving DecidableEq, Repr

/-- `RbFill(s, asMsg)` (R141). -/
def RBuf.fill (cap : Nat) (b : RBuf) (s : Bytes) (asMsg : Bool) : Filled :=
  if s.length > cap - b.stop then .exhausted
  else
    match b.write cap b.stop s with
    | none => .outside
    | some b' =>
      .ok { b' with
              stop := b.stop + s.length,
              queue := if asMsg then b.queue ++ [(b.stop, s.length)] else b.queue }

/-- `RbDrain(m)` (R146): the bytes and the buffer after it; none outside the store (log 6). -/
def RBuf.drain (cap : Nat) (b : RBuf) (m : Nat) : Option (Bytes × RBuf) :=
  let k := min m (b.stop - b.start)
  match b.read cap b.start k with
  | none => none
  | some out =>
    let start := b.start + k
    some (out, RBuf.normalize { b with start := start, queue := b.queue.filter (fun r => start ≤ r.1) })

/-- The gap-closing move of `RbDrainMsg` (R150): the bytes from `o + l` to the end move down by `l`. The
bytes are moved in ascending order, so each is read before it is overwritten: one read of the block and
one write of it. -/
def RBuf.closeGap (cap : Nat) (b : RBuf) (o l : Nat) : Option RBuf :=
  match b.read cap (o + l) (b.stop - (o + l)) with
  | none => none
  | some rest =>
    match b.write cap o rest with
    | none => none
    | some b' => some { b' with stop := b.stop - l, queue := b.queue.map (fun r => (r.1 - l, r.2)) }

/-- `RbDrainMsg()` (R150): the message and the buffer after it; none outside the store (log 6). -/
def RBuf.drainMsg (cap : Nat) (b : RBuf) : Option (Bytes × RBuf) :=
  match b.queue with
  | [] => some ([], b)
  | (o, l) :: rest =>
    match b.read cap o l with
    | none => none
    | some out =>
      let b := { b with queue := rest }
      if o = b.start then some (out, RBuf.normalize { b with start := b.start + l })
      else
        match b.closeGap cap o l with
        | none => none
        | some b' => some (out, b'.normalize)

/-! ## The operations inside a command -/

/-- `RbFill` inside a command (R141, R215). -/
def rbFill (bytes : Bytes) (asMsg : Bool) (s : State) : Run PUnit :=
  match s.rb.fill s.cfg.CAP bytes asMsg with
  | .ok b => .done .unit { s with rb := b }
  | .exhausted => .raised .capacityExhausted s
  | .outside => .stop .storeAddress

/-- `RbDrain` inside a command (R146). -/
def rbDrain (m : Nat) (s : State) : Run Bytes :=
  match s.rb.drain s.cfg.CAP m with
  | some (out, b) => .done out { s with rb := b }
  | none => .stop .storeAddress

/-- `RbDrainMsg` inside a command (R150). -/
def rbDrainMsg (s : State) : Run Bytes :=
  match s.rb.drainMsg s.cfg.CAP with
  | some (out, b) => .done out { s with rb := b }
  | none => .stop .storeAddress

/-! ## The meanings (each begins with the unit checks, R140, R160) -/

/-- `RB.FILLRAW` (R142). -/
def execRbFillRaw (s : State) : Host.Outcome State Fault Refusal :=
  ((readerChecks s).bind fun _ s => (rbFill s.din false s).bind fun _ s => .done .done s).finish .reader

/-- `RB.FILLMSG` (R143). -/
def execRbFillMsg (s : State) : Host.Outcome State Fault Refusal :=
  ((readerChecks s).bind fun _ s => (rbFill s.din true s).bind fun _ s => .done .done s).finish .reader

/-- `RB.DRAIN` (R147). -/
def execRbDrain (s : State) : Host.Outcome State Fault Refusal :=
  ((readerChecks s).bind fun _ s => (rbDrain s.argNat s).bind fun d s => .done (.data d) s).finish .reader

/-- `RB.DRAINMSG` (R151). -/
def execRbDrainMsg (s : State) : Host.Outcome State Fault Refusal :=
  ((readerChecks s).bind fun _ s => (rbDrainMsg s).bind fun d s => .done (.data d) s).finish .reader

/-- `RB.LEN` (R152). -/
def execRbLen (s : State) : Host.Outcome State Fault Refusal :=
  ((readerChecks s).bind fun _ s => .done (.scalar (resOf (s.rb.stop - s.rb.start))) s).finish .reader

end Sys2Proof.Machine
end

