-- ==== Sys2Proof/Machine/Reader.lean ====
section
/-! DEFINITION. The READER unit (42_reader.md): length resolution, frame fetch and the meanings of `RD.*`. -/

namespace Sys2Proof.Machine

/-! ## Length resolution and frame fetch -/

/-- `RxNext()` (R161): the next byte of the receive transport, none at its end. -/
def rxNext (s : State) : Run (Option Byte) :=
  (rxRead 1 s).bind fun c s => .done c.head? s

/-- DecodePrefix over the receive transport (R123, R161): none is TRUNCATED_PREFIX, the bytes taken being
gone. When the turns run out the prefix never ends, and the command is stuck (R252 (a)): see `decodeTurns`. -/
def decodeRxLoop (st : Style) (ord : ByteOrder) : Nat → Bytes → State → Run (Option Scalar)
  | 0, _, s => .stuck s
  | turns + 1, got, s =>
    (rxNext s).bind fun x s =>
      match x with
      | none => .done none s
      | some x =>
        let got := got ++ [x]
        if prefixComplete st got then .done (some (prefixValue st ord got)) s
        else decodeRxLoop st ord turns got s

/-- At least as many bytes as any prefix that ends can take: those written down, those the tail brings up
next, and the 8 bytes of the widest fixed prefix. A variable-width prefix that has taken so many has seen
a whole cycle with bit 7 set, or stands in a tail with no byte with bit 7 clear: it never ends (log 4). -/
def RxPort.reach (p : RxPort) : Nat := p.stream.length + p.tail.unroll.1.length + 8

/-- More turns than any prefix that ends or is cut short can take: one more for each answer written down,
and one to find the end (log 4). -/
def decodeTurns (s : State) : Nat := s.rx.reach + s.rx.script.length + 1

/-- `s` while the command takes the bytes of a prefix that never ends: the answers written down are used up,
and how many bytes are gone is settled only when something ends the command (R226 (b), log 28). -/
def State.prefixPending (s : State) : State := { s with rx := { s.rx with script := [] } }

/-- `Resolve()` (R161): the length of the next frame; 0 and nothing cached on a truncated prefix. -/
def resolve (s : State) : Run Int :=
  match s.rd.next with
  | some v => .done (Style.ival s.cfg.rd.style v) s
  | none =>
    ((decodeRxLoop s.cfg.rd.style s.cfg.rd.order (decodeTurns s) [] s).stuckAt s.prefixPending).bind fun r s =>
      match r with
      | none => .done 0 s
      | some V => .done (Style.ival s.cfg.rd.style V) { s with rd := { s.rd with next := some V } }

/-- `RD.next <- UNKNOWN` (R163). -/
def State.forgetNext (s : State) : State := { s with rd := { s.rd with next := none } }

/-- `PullFrame()` (R163): none is EMPTY. -/
def pullFrame (s : State) : Run (Option Bytes) :=
  (resolve s).bind fun L s =>
    if L < 1 then .done none s.forgetNext
    else
      (readExact L.toNat s).bind fun g s =>
        match g with
        | .short _ => .raised .incompleteFrame s.forgetNext
        | .full p => .done (some p) s.forgetNext

/-- `TakeMsg(dstCap)` (R165). -/
def takeMsg (dstCap : Nat) (s : State) : Run Bytes :=
  match s.rb.queue with
  | [] => rbDrainMsg s
  | (_, l) :: _ => if l > dstCap then .raised .destTooSmall s else rbDrainMsg s

/-! ## The bodies of the reads -/

/-- The body of `RD.READMSG` (R164). -/
def readMsgBody (s : State) : Run Response :=
  (readerChecks s).bind fun _ s =>
    (rbDrainMsg s).bind fun m s =>
      if m.length > 0 then .done (.data m) s
      else
        (pullFrame s).bind fun p s =>
          match p with
          | none => .done .done s
          | some p =>
            (rbFill p true s).bind fun _ s =>
              (rbDrainMsg s).bind fun m s => .done (.data m) s

/-- The body of `RD.READMSGC` (R165). -/
def readMsgCBody (dstCap : Nat) (s : State) : Run Response :=
  (readerChecks s).bind fun _ s =>
    (takeMsg dstCap s).bind fun m s =>
      if m.length > 0 then .done (.data m) s
      else
        (resolve s).bind fun L s =>
          if 1 ≤ L ∧ (dstCap : Int) < L then .raised .destTooSmall s
          else
            (pullFrame s).bind fun p s =>
              match p with
              | none => .done .done s
              | some p =>
                (rbFill p true s).bind fun _ s =>
                  (takeMsg dstCap s).bind fun m s => .done (.data m) s

/-- The body of `RD.READ` with the count given (R166). -/
def readBody (count : Nat) (s : State) : Run Response :=
  (readerChecks s).bind fun _ s =>
    (rbDrain count s).bind fun d1 s =>
      if d1.length = count then .done (.data d1) s
      else
        (pullFrame s).bind fun p s =>
          match p with
          | none => .done (.shortRead d1) s
          | some p =>
            (rbFill p false s).bind fun _ s =>
              (rbDrain (count - d1.length) s).bind fun d2 s => .done (.data (d1 ++ d2)) s

/-- The body of `RD.PEEKLEN` (R168). -/
def peekLenBody (s : State) : Run Response :=
  (readerChecks s).bind fun _ s =>
    (resolve s).bind fun _ s =>
      match s.rd.next with
      | some v => .done (.scalar v) s
      | none => .done (.scalar 0#64) s

/-- The body of `RD.CLOSE` (R169): no unit checks. -/
def rdCloseBody (s : State) : Run Response :=
  if s.rd.closed then .done .done s
  else
    let s := { s with rd := { s.rd with closed := true } }
    if s.cfg.rd.leaveOpen then .done .done s
    else (rxClose s).bind fun _ s => .done .done s

/-! ## The meanings -/

/-- `RD.READMSG` (R164). -/
def execRdReadMsg (s : State) : Host.Outcome State Fault Refusal :=
  (readMsgBody s).finish .reader

/-- `RD.READMSGC` (R165). -/
def execRdReadMsgC (s : State) : Host.Outcome State Fault Refusal :=
  (readMsgCBody s.argNat s).finish .reader

/-- `RD.READ` (R166). -/
def execRdRead (s : State) : Host.Outcome State Fault Refusal :=
  (readBody s.argNat s).finish .reader

/-- `RD.READBYTE` (R167): `RD.READ` with count 1, whatever ARG holds. -/
def execRdReadByte (s : State) : Host.Outcome State Fault Refusal :=
  (readBody 1 s).finish .reader

/-- `RD.PEEKLEN` (R168). -/
def execRdPeekLen (s : State) : Host.Outcome State Fault Refusal :=
  (peekLenBody s).finish .reader

/-- `RD.CLOSE` (R169). -/
def execRdClose (s : State) : Host.Outcome State Fault Refusal :=
  (rdCloseBody s).finish .reader

end Sys2Proof.Machine
end

