-- ==== Sys2Proof/Machine/Writer.lean ====
section
/-! DEFINITION. The WRITER unit (43_writer.md): EmitFrame and the meanings of `WR.*`. -/

namespace Sys2Proof.Machine

/-- `EmitFrame(p)` (R191): prefix and payload go out as one. -/
def emitFrame (p : Bytes) (s : State) : Run PUnit :=
  if Style.within s.cfg.wr.style p.length then
    match encodePrefix s.cfg.wr.style s.cfg.wr.order (resOf p.length) with
    | some pre => txWrite (pre ++ p) s
    | none => .raised .operandRange s
  else .raised .lengthExceedsPrefix s

/-- Chunk `i` of `data`: all of it under an unbounded style, else `M` bytes from `i * M` on, fewer at the
end (R193). -/
def chunkOf (st : Style) (data : Bytes) (i : Nat) : Bytes :=
  match Style.maxLen st with
  | none => data
  | some M => (data.drop (i * M)).take M

/-- Is chunk `i` of `count` bytes the last one (R193)? -/
def lastChunk (st : Style) (count i : Nat) : Bool :=
  match Style.maxLen st with
  | none => true
  | some M => count ≤ (i + 1) * M

/-- One chunk of `WR.WRITE` (R193): the unit checks stand before every chunk, and the command ends with
the last one. `count <= M` is the case of one chunk. The answer says whether it was the last. -/
def writeBody (s : State) : Run Bool :=
  (writerChecks s).bind fun _ s =>
    if s.argNat > s.din.length then .raised .operandRange s
    else
      (emitFrame (chunkOf s.cfg.wr.style (s.din.take s.argNat) s.txn.chunk) s).bind fun _ s =>
        .done (lastChunk s.cfg.wr.style s.argNat s.txn.chunk) s

/-- The body of `WR.CLOSE` (R196): no unit checks, no flush. -/
def wrCloseBody (s : State) : Run Response :=
  if s.wr.closed then .done .done s
  else
    let s := { s with wr := { s.wr with closed := true } }
    if s.cfg.wr.leaveOpen then .done .done s
    else (txClose s).bind fun _ s => .done .done s

/-- `WR.WRITEMSG` (R192). -/
def execWrWriteMsg (s : State) : Host.Outcome State Fault Refusal :=
  ((writerChecks s).bind fun _ s => (emitFrame s.din s).bind fun _ s => .done .done s).finish .writer

/-- `WR.WRITE` (R193): one chunk; between chunks the command goes back to wait for the lock. -/
def execWrWrite (s : State) : Host.Outcome State Fault Refusal :=
  (writeBody s).finishChunk .writer

/-- `WR.WRITEBYTE` (R194). -/
def execWrWriteByte (s : State) : Host.Outcome State Fault Refusal :=
  ((writerChecks s).bind fun _ s => (emitFrame [s.argByte] s).bind fun _ s => .done .done s).finish .writer

/-- `WR.FLUSH` (R195). -/
def execWrFlush (s : State) : Host.Outcome State Fault Refusal :=
  ((writerChecks s).bind fun _ s => (txFlush s).bind fun _ s => .done .done s).finish .writer

/-- `WR.CLOSE` (R196). -/
def execWrClose (s : State) : Host.Outcome State Fault Refusal :=
  (wrCloseBody s).finish .writer

end Sys2Proof.Machine
end

