-- ==== Sys2Proof/Machine/Dispatch.lean ====
section
/-! DEFINITION. The dispatch from a command to its meaning, one arm per row of R92. -/

namespace Sys2Proof.Machine

def exec (i : Instr) (s : State) : Host.Outcome State Fault Refusal :=
  match i with
  | .encI8 ord => Sys2Proof.Machine.execEncI8 ord s
  | .encU8 ord => Sys2Proof.Machine.execEncU8 ord s
  | .encI16 ord => Sys2Proof.Machine.execEncI16 ord s
  | .encU16 ord => Sys2Proof.Machine.execEncU16 ord s
  | .encI32 ord => Sys2Proof.Machine.execEncI32 ord s
  | .encU32 ord => Sys2Proof.Machine.execEncU32 ord s
  | .encI64 ord => Sys2Proof.Machine.execEncI64 ord s
  | .encU64 ord => Sys2Proof.Machine.execEncU64 ord s
  | .encVarint ord => Sys2Proof.Machine.execEncVarint ord s
  | .encUvarint ord => Sys2Proof.Machine.execEncUvarint ord s
  | .decI8 ord => Sys2Proof.Machine.execDecI8 ord s
  | .decU8 ord => Sys2Proof.Machine.execDecU8 ord s
  | .decI16 ord => Sys2Proof.Machine.execDecI16 ord s
  | .decU16 ord => Sys2Proof.Machine.execDecU16 ord s
  | .decI32 ord => Sys2Proof.Machine.execDecI32 ord s
  | .decU32 ord => Sys2Proof.Machine.execDecU32 ord s
  | .decI64 ord => Sys2Proof.Machine.execDecI64 ord s
  | .decU64 ord => Sys2Proof.Machine.execDecU64 ord s
  | .decVarint ord => Sys2Proof.Machine.execDecVarint ord s
  | .decUvarint ord => Sys2Proof.Machine.execDecUvarint ord s
  | .maxlen ord st => Sys2Proof.Machine.execMaxlen ord st s
  | .rbFillRaw => Sys2Proof.Machine.execRbFillRaw s
  | .rbFillMsg => Sys2Proof.Machine.execRbFillMsg s
  | .rbDrain => Sys2Proof.Machine.execRbDrain s
  | .rbDrainMsg => Sys2Proof.Machine.execRbDrainMsg s
  | .rbLen => Sys2Proof.Machine.execRbLen s
  | .rdReadMsg => Sys2Proof.Machine.execRdReadMsg s
  | .rdReadMsgC => Sys2Proof.Machine.execRdReadMsgC s
  | .rdRead => Sys2Proof.Machine.execRdRead s
  | .rdReadByte => Sys2Proof.Machine.execRdReadByte s
  | .rdPeekLen => Sys2Proof.Machine.execRdPeekLen s
  | .rdClose => Sys2Proof.Machine.execRdClose s
  | .wrWriteMsg => Sys2Proof.Machine.execWrWriteMsg s
  | .wrWrite => Sys2Proof.Machine.execWrWrite s
  | .wrWriteByte => Sys2Proof.Machine.execWrWriteByte s
  | .wrFlush => Sys2Proof.Machine.execWrFlush s
  | .wrClose => Sys2Proof.Machine.execWrClose s

end Sys2Proof.Machine
end

