-- ==== Sys2Proof/Machine/Environment.lean ====
section
/-! DEFINITION. The environment's coming moves and what they do to the machine: presenting, granting, cancelling, arriving bytes (20_memory.md R62, R70; 60_exceptions.md R226), and how a table word is put where the next step takes it. -/

namespace Sys2Proof.Machine

/-! ## The coming moves -/

/-- The moves an agenda brings up next, and the agenda behind them (log 27). -/
def Agenda.unroll : Agenda → List Event × Agenda
  | .ends => ([], .ends)
  | .cycle e r => (e :: r, .cycle e r)
  | .free n k => ([Config.move n k], .free n (k + 1))

/-- `s` with its next move written down, if there is one: the same moves are to come. -/
def State.lookAhead (s : State) : State :=
  match s.schedule with
  | [] => { s with schedule := s.agenda.unroll.1, agenda := s.agenda.unroll.2 }
  | _ :: _ => s

/-- The environment's next move, if there is one. -/
def State.coming (s : State) : Option Event := s.lookAhead.schedule.head?

/-- A step begins: the environment's next move is taken off the schedule, and the response of the step
before is no longer there (R22). -/
def State.beginStep (s : State) (rest : List Event) : State :=
  { s with schedule := rest, rsp := none }

/-- The waiting command of requester `who`, if it has one (R23: at most one). -/
def State.pending (s : State) (who : Nat) : Option Transaction :=
  s.waiting.find? (fun t => t.who == who)

/-- The requester whose reader command is stuck (R252 (a)): between steps it is the holder of `RD.lock`. -/
def State.stuck (s : State) : Option Nat :=
  match s.rd.lock with
  | .free => none
  | .held who => some who

/-- Requester `who` still waits for the response to its last command (R23). -/
def State.busy (s : State) (who : Nat) : Bool := (s.pending who).isSome || decide (s.stuck = some who)

/-- The waiting commands without requester `who`'s. -/
def State.without (s : State) (who : Nat) : List Transaction :=
  s.waiting.eraseP (fun t => t.who == who)

/-- Requester `who` presents a command (R20, R23); what the spec leaves outside its domain is refused
(log 13). -/
def State.present (s : State) (who : Nat) (req : Request) : Host.Outcome State Fault Refusal :=
  if ¬ who < s.NREQ then .refused .noSuchRequester
  else if s.busy who then .refused .requesterBusy
  else if !req.wellFormed then .refused .payloadTooLong
  else .next { s with waiting := s.waiting ++ [⟨who, req, 0⟩] }

/-- What the arbiter's turn to a requester comes to. -/
inductive Selection where
  /-- It has no command waiting, or the unit's lock is held: nothing happens (log 15). -/
  | nothing
  /-- Its word selects no row (R93 to R95). -/
  | illegal (t : Transaction)
  /-- Its command runs. -/
  | run (i : Instr) (t : Transaction)
  deriving DecidableEq, Repr

/-- The arbiter turns to requester `who` (R70). Decoding comes first and needs no lock (R222). -/
def State.select (s : State) (who : Nat) : Selection :=
  match s.pending who with
  | none => .nothing
  | some t =>
    match decode t.req.cmd with
    | .illegal _ => .illegal t
    | .command i => if s.lockOf (Instr.unit i) = .free then .run i t else .nothing

/-- The command `t` begins: it no longer waits, and it holds its unit's lock (R70). -/
def State.granted (s : State) (u : BlockUnit) (t : Transaction) : State :=
  { s.setLock u (.held t.who) with waiting := s.without t.who, txn := t }

/-- A waiting command ends without having run: a response with this status, nothing else (R217, R226 (a)). -/
def State.dismiss (s : State) (t : Transaction) (st : Status) : State :=
  { s with waiting := s.without t.who, rsp := some ⟨t.who, .fault st⟩ }

/-- A command that waits for a lock is cancelled and ends CANCELLED, having done nothing more (R226 (a)); a
cancel with no such command has no effect, and CODEC commands and illegal words wait for no lock (c; R222
puts ILLEGAL_COMMAND first). -/
def State.cancelWaiting (s : State) (who : Nat) : State :=
  match s.pending who with
  | none => s
  | some t =>
    match decode t.req.cmd with
    | .illegal _ => s
    | .command i => if Instr.unit i = .codec then s else s.dismiss t .cancelled

/-! ## A command that is stuck (R252) -/

/-- The stuck command of requester `who` is cut short inside its receive call, as any other is: only so, or
by reset, does it end (R252 (a), R226 (b), R221). -/
def State.strike (s : State) (who : Nat) (why : Interruption) : Host.Outcome State Fault Refusal :=
  State.interrupted { s with txn := { Transaction.idle with who := who } } .reader why

/-- The receive transport answers the calls of the stuck command of requester `who`, one byte each at most
(R60, R161): each byte leaves the prefix without an end, until an answer cuts the command short. -/
def State.feed (who : Nat) : List Answer → State → Host.Outcome State Fault Refusal
  | [], s => .next { s with rx := { s.rx with script := [] } }
  | .move _ :: r, s => State.feed who r { s with rx := s.rx.drop 1 }
  | .interrupt n why :: r, s =>
    State.strike { s with rx := { s.rx.drop (min n 1) with script := r } } who why

/-- Requester `who` cancels (R226): its stuck command ends CANCELLED (b, R252 (a)), or its waiting one (a). -/
def State.cancel (s : State) (who : Nat) : Host.Outcome State Fault Refusal :=
  if s.stuck = some who then s.strike who .cancelled else .next (s.cancelWaiting who)

/-! ## Commands that need not wait (R251) -/

/-- The unit a command word is for; none if it selects no row. -/
def wordUnit (w : CommandWord) : Option BlockUnit :=
  match decode w with
  | .command i => some (Instr.unit i)
  | .illegal _ => none

/-- The requester's waiting command can be served now (R70). -/
def State.servable (s : State) (who : Nat) : Bool := decide (s.select who ≠ .nothing)

/-- The command `t` can be served now and shares its unit with no other waiting command; a CODEC command
and an illegal word wait for no unit (R35, R93). -/
def State.uncontested (s : State) (t : Transaction) : Bool :=
  s.servable t.who &&
    match wordUnit t.req.cmd with
    | none | some .codec => true
    | some u => s.waiting.all fun o => o.who == t.who || decide (wordUnit o.req.cmd ≠ some u)

/-- At this very moment another requester presents a command for the unit of `t`. -/
def Event.contests (e : Event) (t : Transaction) : Bool :=
  match e, wordUnit t.req.cmd with
  | .present who req, some .reader => who != t.who && decide (wordUnit req.cmd = some .reader)
  | .present who req, some .writer => who != t.who && decide (wordUnit req.cmd = some .writer)
  | _, _ => false

/-- The arbiter's own choice among the requesters whose command can be served: which one is not determined
(R70), a free value (log 26). -/
def State.chosen (s : State) : Option Nat :=
  let able := s.waiting.filter fun t => s.servable t.who
  able[Config.arbiter s.turns % able.length]?.map Transaction.who

/-- The requester that is served in this step without a grant in the schedule. A command is served at once
unless other requesters contend for its unit (R251). Then the schedule decides, and with no move to come the
arbiter chooses (R70). Reset can strike at any moment (R242), and a grant that the schedule holds for this
step goes first. How contention is read is DEDUCED (log 26). -/
def State.due (s : State) : Option Nat :=
  match s.schedule with
  | [] =>
    match s.waiting.find? s.uncontested with
    | some t => some t.who
    | none => s.chosen
  | .reset _ :: _ => none
  | .grant who :: _ => if s.servable who then none else (s.waiting.find? s.uncontested).map Transaction.who
  | e :: _ => (s.waiting.find? fun t => s.uncontested t && !e.contests t).map Transaction.who

/-! ## Bytes that arrive -/

/-- Bytes arrive at the receive transport between commands: not once it has reported the end, if that is
for ever (R62); behind an infinite stream nothing can be added. -/
def State.rxArrive (s : State) (bytes : Bytes) : State :=
  if (s.rx.eof && s.rxEofSticky) || decide (s.rx.tail ≠ .ends) then s
  else { s with rx := { s.rx with stream := s.rx.stream ++ bytes } }

/-- More answers of the transports are settled: they come after those that already are (log 2). -/
def State.settle (s : State) (rx tx : List Answer) : State :=
  { s with
      rx := { s.rx with script := s.rx.script ++ rx }, tx := { s.tx with script := s.tx.script ++ tx } }

/-- The move `answers`: with a reader command stuck the receive transport answers that one's calls first. -/
def State.answered (s : State) (rx tx : List Answer) : Host.Outcome State Fault Refusal :=
  match s.stuck with
  | none => .next (s.settle rx tx)
  | some who => State.feed who (s.rx.script ++ rx) (s.settle rx tx)

/-! ## One turn, one move -/

/-- A step begins with a turn that comes of itself: the schedule waits. -/
def State.beginTurn (s : State) : State := { s with rsp := none, turns := s.turns + 1 }

/-- Requester `who`'s turn: its waiting command runs whole, one chunk of a `WR.WRITE` (R20, R68), or
nothing happens (log 15). -/
def State.serve (s : State) (who : Nat) : Host.Outcome State Fault Refusal :=
  match s.select who with
  | .nothing => .next s
  | .illegal t => .next (s.dismiss t .illegalCommand)
  | .run i t => exec i (s.granted (Instr.unit i) t)

/-- The next move of the schedule; with none the block does nothing on its own (R233, R244). -/
def State.move (s : State) : Host.Outcome State Fault Refusal :=
  match s.schedule with
  | [] => .next (s.beginStep [])
  | .present who req :: rest => (s.beginStep rest).present who req
  | .grant who :: rest => (s.beginStep rest).serve who
  | .cancel who :: rest => (s.beginStep rest).cancel who
  | .rxArrive bytes :: rest => .next ((s.beginStep rest).rxArrive bytes)
  | .answers rx tx :: rest => (s.beginStep rest).answered rx tx
  | .reset pins :: rest => (s.beginStep rest).assertReset pins

/-! ## A word for the next step -/

/-- Requester 0 has presented the word `w` with ARG 0 and no DIN, both locks are free, and the next move
is a grant to it (log 16). -/
def State.withCommand (s : State) (w : CommandWord) : State :=
  { s with
      rd := { s.rd with lock := .free }, wr := { s.wr with lock := .free },
      waiting := ⟨0, ⟨w, 0#64, []⟩, 0⟩ :: s.waiting, schedule := .grant 0 :: s.schedule }

end Sys2Proof.Machine
end

