-- ==== Sys2Proof/Machine/Step.lean ====
section
/-! DEFINITION. One step of the machine: a command that need not wait, or the environment's next move. -/

namespace Sys2Proof.Machine

/-- One step (R20): a command that need not wait is served, and the schedule waits (R251, log 26); with none
it is the environment's next move. -/
def step (s : State) : Host.Outcome State Fault Refusal :=
  let s := s.lookAhead
  match s.due with
  | some who => s.beginTurn.serve who
  | none => s.move

/-- `s` with the command word `w` presented and about to be granted (log 16), so that the next step runs
it. The bits of `w` from `nbits` on are 0. -/
def State.withFetchWord (s : State) (nbits w : Nat) : State :=
  s.withCommand (BitVec.ofNat 16 (w % 2 ^ nbits))

end Sys2Proof.Machine
end

