-- ==== Sys2Proof/Safety.lean ====
section
/-! DEFINITION. What statements speak of: the environment's good behaviour, the invariant, what lies on the wire, and readings of several commands in a row. -/

namespace Sys2Proof.Machine

/-! ## The environment -/

/-- The answer only moves bytes: no cancel, no failure, no reset strikes inside the call. -/
def Answer.isMove : Answer → Bool
  | .move _ => true
  | .interrupt _ _ => false

/-- The answer is not a reset. -/
def Answer.notReset : Answer → Bool
  | .interrupt _ (.reset _) => false
  | _ => true

/-- The receive transport is never cut short in a call (R60); the sizes of its pieces are free (R61). -/
def State.rxCalm (s : State) : Bool := s.rx.script.all Answer.isMove

/-- The transmit transport is never cut short in a call (R64). -/
def State.txCalm (s : State) : Bool := s.tx.script.all Answer.isMove

/-- No reset is asserted in the coming step (R240). -/
def State.noReset (s : State) : Bool :=
  s.rx.script.all Answer.notReset && s.tx.script.all Answer.notReset &&
    match s.coming with
    | some (.reset _) => false
    | some (.answers rx _) => s.stuck.isNone || rx.all Answer.notReset
    | _ => true

/-- The reader serves commands: neither closed nor poisoned (R160). -/
def State.readerReady (s : State) : Bool := !s.rd.closed && !s.rd.poisoned

/-- The writer serves commands: neither closed nor poisoned (R190). -/
def State.writerReady (s : State) : Bool := !s.wr.closed && !s.wr.poisoned

/-- `s` with other answers written down for the transports. -/
def State.withScripts (s : State) (rx tx : List Answer) : State :=
  { s with rx := { s.rx with script := rx }, tx := { s.tx with script := tx } }

/-- An outcome without what is left of the transports' scripts. -/
def forgetScripts : Host.Outcome State Fault Refusal → Host.Outcome State Fault Refusal
  | .next s => .next (s.withScripts [] [])
  | .fault f => .fault f
  | .refused r => .refused r

/-! ## The invariant -/

/-- What holds at reset and after every step: the RBUF invariants I1 to I4 and the store's canonical form
(R28), `WR.lock` FREE and nothing of a command kept (R22, R31), `RD.lock` FREE but for a stuck command of a
requester there is, which has no other (R252, R23), at most one waiting command per requester, from a
requester there is, within the domain (R7, R23), and each transport closed at most once (R65). -/
def State.Inv (s : State) : Prop :=
  s.rb.inv s.cfg.CAP = true ∧ s.wr.lock = .free ∧ s.txn = .idle ∧
    (∀ who, s.stuck = some who → who < s.NREQ ∧ ∀ t ∈ s.waiting, t.who ≠ who) ∧
    s.waiting.Pairwise (fun t u => t.who ≠ u.who) ∧
    (∀ t ∈ s.waiting, t.who < s.NREQ ∧ t.req.wellFormed = true) ∧
    s.rx.closes = s.rx.closed.toNat ∧ s.tx.closes = s.tx.closed.toNat

/-! ## Bytes and frames -/

/-- The number whose bytes are given, most significant first (R87). -/
def bigNat (bytes : Bytes) : Nat := bytes.foldl (fun n b => 256 * n + b.toNat) 0

/-- The number a variable-width prefix's groups add up to, least significant group first (R90, R139 (c)). -/
def groupSum : Bytes → Nat
  | [] => 0
  | b :: r => b.toNat % 128 + 128 * groupSum r

/-- A frame on the wire: the encoded length, then the payload (R86). -/
def frameOf (c : UnitCfg) (p : Bytes) : Bytes :=
  (encodePrefix c.style c.order (resOf p.length)).getD [] ++ p

/-- The byte sequence is a concatenation of whole frames, each within the style's maximum and the longest
payload a command can carry (R7, R197). -/
def WholeFrames (c : UnitCfg) (wire : Bytes) : Prop :=
  ∃ ps : List Bytes, (∀ p ∈ ps, Style.within c.style p.length = true ∧ p.length ≤ PAYLOAD_MAX) ∧
    wire = (ps.map (frameOf c)).flatten

/-- The next length as a 64-bit string, and the receive transport behind its prefix. The length is the
cached one if there is one (R29), else the one decoded from the stream; none when the stream ends inside
the prefix (R161), or the prefix never ends (R252 (a)). -/
def State.upcoming (s : State) : Option (Scalar × RxPort) :=
  match s.rd.next with
  | some v => some (v, s.rx)
  | none =>
    match decodePrefix s.cfg.rd.style s.cfg.rd.order (s.rx.front s.rx.reach) with
    | some (V, c) => some (V, s.rx.drop c)
    | none => none

/-- The receive stream holds `n` more bytes, as an infinite one always does (R36). -/
def RxPort.holds (p : RxPort) (n : Nat) : Bool := decide ((p.front n).length = n)

/-- The buffer after a raw drain of everything unread (R146, R149): the cursors are 0, the store is as
before, and of the records only zero-length ones at the old end are left, at 0. -/
def RBuf.drained (b : RBuf) : RBuf :=
  { mem := b.mem, start := 0, stop := 0,
    queue := (b.queue.filter (fun r => b.stop ≤ r.1)).map (fun r => (0, r.2)) }

/-- The store holds in `m'` what it held in `m`, outside `lo <= a < lo + n`. -/
def SameOutside (m m' : List Host.Cell) (lo n : Nat) : Prop :=
  ∀ a, (a < lo ∨ lo + n ≤ a) → memGet m' a = memGet m a

/-- Nothing but the reader's unit, its buffer, its transport and the ended command differs. -/
def OnlyReaderDiffers (s t : State) : Prop :=
  t = { s with rb := t.rb, rd := t.rd, rx := t.rx, rsp := t.rsp, txn := .idle }

/-- `t` is what reset with these straps leaves of `s` (R39, R240 to R242): a fresh block configured by the
straps, no command in flight and no response, and everything of the environment as in `s`. -/
def ResetLeft (pins : StrapPins) (s t : State) : Prop :=
  t.rb.start = 0 ∧ t.rb.stop = 0 ∧ t.rb.queue = [] ∧ t.rd = ⟨none, .free, false, false⟩ ∧
    t.wr = ⟨.free, false, false⟩ ∧ t.waiting = [] ∧ t.rsp = none ∧ t.rx = s.rx ∧ t.tx = s.tx ∧
    t.cfg.CAP = pins.cap ∧
    t.cfg.rd.style.code = pins.rdStyle ∧ t.cfg.rd.order.bit = pins.rdOrder ∧
    t.cfg.rd.leaveOpen = pins.rdLeaveOpen ∧
    t.cfg.wr.style.code = pins.wrStyle ∧ t.cfg.wr.order.bit = pins.wrOrder ∧
    t.cfg.wr.leaveOpen = pins.wrLeaveOpen ∧
    t = { s with cfg := t.cfg, rb := t.rb, rd := t.rd, wr := t.wr, waiting := [], txn := .idle, rsp := none }

/-! ## Tables as the spec prints them -/

/-- The fixed-width styles of R84: name, signed, width in bytes. -/
def fixedStyles : List (Style × Bool × Nat) :=
  [(.i8, true, 1), (.u8, false, 1), (.i16, true, 2), (.u16, false, 2),
   (.i32, true, 4), (.u32, false, 4), (.i64, true, 8), (.u64, false, 8)]

/-- The variable-width styles of R84. -/
def variableStyles : List Style := [.varint, .uvarint]

/-- `MAXLEN`'s result for every style (R137, R138). -/
def maxLenRows : List (Style × Scalar) :=
  [(.i8, 127#64), (.u8, 255#64), (.i16, 32767#64), (.u16, 65535#64)] ++
  [Style.i32, .u32, .i64, .u64, .varint, .uvarint].map (fun st => (st, BitVec.allOnes 64))

/-- The styles whose MaxLen is a number (R137). -/
def boundedStyles : List (Style × Nat) := [(.i8, 127), (.u8, 255), (.i16, 32767), (.u16, 65535)]

/-- The styles whose MaxLen is UNBOUNDED (R137). -/
def unboundedStyles : List Style := [.i32, .u32, .i64, .u64, .varint, .uvarint]

/-- (match, mask) of every row of R92. -/
def tableRows : List (CommandWord × CommandWord) :=
  [(0x0010, 0xEFFF), (0x0110, 0xEFFF), (0x0210, 0xEFFF), (0x0310, 0xEFFF), (0x0410, 0xEFFF),
   (0x0510, 0xEFFF), (0x0610, 0xEFFF), (0x0710, 0xEFFF), (0x0810, 0xEFFF), (0x0910, 0xEFFF)] ++
  [(0x0011, 0xEFFF), (0x0111, 0xEFFF), (0x0211, 0xEFFF), (0x0311, 0xEFFF), (0x0411, 0xEFFF),
   (0x0511, 0xEFFF), (0x0611, 0xEFFF), (0x0711, 0xEFFF), (0x0811, 0xEFFF), (0x0911, 0xEFFF)] ++
  [(0x0012, 0xE0FF),
   (0x0020, 0xFFFF), (0x0021, 0xFFFF), (0x0022, 0xFFFF), (0x0023, 0xFFFF), (0x0024, 0xFFFF),
   (0x0030, 0xFFFF), (0x0031, 0xFFFF), (0x0032, 0xFFFF), (0x0033, 0xFFFF), (0x0034, 0xFFFF), (0x003F, 0xFFFF),
   (0x0040, 0xFFFF), (0x0041, 0xFFFF), (0x0042, 0xFFFF), (0x0043, 0xFFFF), (0x004F, 0xFFFF)]

/-! ## Writes -/

/-- The frame of `p` is what the command `i` hands to the transmit transport in `s`: the payload of a
`WR.WRITEMSG` (R192), the byte of a `WR.WRITEBYTE` (R194), or the chunk whose turn it is of a `WR.WRITE`
(R193), the style admitting its length. -/
def Emits (s : State) (i : Instr) (p : Bytes) : Prop :=
  s.writerReady = true ∧
    ((i = .wrWriteMsg ∧ p = s.din) ∨ (i = .wrWriteByte ∧ p = [s.arg.extractLsb' 0 8]) ∨
      (i = .wrWrite ∧ s.arg.toNat ≤ s.din.length ∧
        ((s.cfg.wr.style ∈ unboundedStyles ∧ p = s.din.take s.arg.toNat) ∨
          ∃ M, (s.cfg.wr.style, M) ∈ boundedStyles ∧
            p = ((s.din.take s.arg.toNat).drop (s.txn.chunk * M)).take M))) ∧
    p.length ≤ PAYLOAD_MAX ∧ Style.within s.cfg.wr.style p.length = true

/-- How many of `left` bytes a transmit transport that answers so has accepted (R64). -/
def accepted : List Answer → Nat → Nat
  | [], _ => 0
  | a :: r, left => movedBy (some a) left + accepted r (left - movedBy (some a) left)

/-! ## Several commands in a row -/

/-- The data of `n` `RD.READMSG` commands in a row; none if one does not answer OK. -/
def readMsgs : Nat → State → Option (List Bytes)
  | 0, _ => some []
  | n + 1, s =>
    match exec .rdReadMsg s with
    | .next t =>
      match t.rsp with
      | some ⟨_, ⟨.ok, _, _, _, d⟩⟩ => (readMsgs n t).map (d :: ·)
      | _ => none
    | _ => none

/-- The data of `RD.READ` commands with these counts in a row, one after another, and the EOS flag of the
last; none if one does not answer OK. -/
def rawReads : List Nat → State → Option (Bytes × Bool)
  | [], _ => some ([], false)
  | c :: r, s =>
    match exec .rdRead { s with txn := { s.txn with req := { s.txn.req with arg := BitVec.ofNat 64 c } } } with
    | .next t =>
      match t.rsp with
      | some ⟨_, ⟨.ok, eos, _, _, d⟩⟩ =>
        match rawReads r t with
        | some (rest, last) => some (d ++ rest, if r.isEmpty then eos else last)
        | none => none
      | _ => none
    | _ => none

end Sys2Proof.Machine
end

