-- ==== Sys2Proof/Certificates/Slice0/Obligations.lean ====
section
/-! DEFINITION. The statements for the provers, from the numbered rules of spec/. -/

open Sys2Proof Sys2Proof.Machine

/-! ## Command words -/

/-- R80 to R84, R92: decoding and encoding agree, in both directions, for every command. -/
def Obligations.DecodeEncodeAgree : Prop :=
  (∀ i : Instr, decode (encode i) = .command i) ∧
    (∀ (w : CommandWord) (i : Instr), decode w = .command i → encode i = w)

/-- R92 to R97: a word is a command exactly when it matches a row of the opcode map (for MAXLEN, with a
style code that is not reserved), and no word matches two rows. -/
def Obligations.WordSelectsOneRowOrIsIllegal : Prop :=
  (∀ w : CommandWord,
    (∃ i, decode w = .command i) ↔
      ∃ r ∈ tableRows, w &&& r.2 = r.1 ∧ (r.1 = 0x0012#16 → (styleField w).toNat ≤ 9)) ∧
  tableRows.Pairwise (fun r r' => ∀ w : CommandWord, ¬ (w &&& r.2 = r.1 ∧ w &&& r'.2 = r'.1))

/-- A few words of R92, written out. -/
def Obligations.SampleWordsDecode : Prop :=
  decode 0x0910#16 = .command (.encUvarint .big) ∧ decode 0x1311#16 = .command (.decU16 .little) ∧
  decode 0x1912#16 = .command (.maxlen .little .uvarint) ∧ decode 0x0023#16 = .command .rbDrainMsg ∧
  decode 0x0031#16 = .command .rdReadMsgC ∧ decode 0x0041#16 = .command .wrWrite

/-! ## The step -/

/-- R70, R81: when the arbiter turns to a requester whose waiting word decodes to a command and the unit's
lock is free, the step is `exec` of that command, in the state where the command no longer waits, is the
executing one and holds the lock. R251: a command that is the only one waiting, its unit's lock free, is
served at once, without a turn in the schedule, unless reset strikes or another requester presents a
command for that unit (that contention is read so is the model's inference, log 26). R70: where several
wait and the environment makes no more moves, the step is the turn of one of them that can be served;
which one is not determined (a free value, log 26). -/
def Obligations.StepRunsGrantedCommand : Prop :=
  (∀ (s : State) (r : Nat) (rest : List Event) (t : Transaction) (i : Instr),
    s.schedule = .grant r :: rest → s.waiting.find? (fun t => t.who == r) = some t →
    decode t.req.cmd = .command i → s.lockOf (Instr.unit i) = .free →
    step s = exec i
      { (s.setLock (Instr.unit i) (.held t.who)) with
          schedule := rest, rsp := none, txn := t, waiting := s.waiting.eraseP (fun u => u.who == t.who) }) ∧
  (∀ (s : State) (t : Transaction) (i : Instr),
    s.waiting = [t] → decode t.req.cmd = .command i → s.lockOf (Instr.unit i) = .free →
    (∀ pins, s.coming ≠ some (.reset pins)) → s.coming ≠ some (.grant t.who) →
    (∀ r q j, s.coming = some (.present r q) → decode q.cmd = .command j →
      r = t.who ∨ Instr.unit j ≠ Instr.unit i ∨ Instr.unit i = .codec) →
    step s = exec i
      { (s.lookAhead.setLock (Instr.unit i) (.held t.who)) with
          rsp := none, txn := t, waiting := [], turns := s.turns + 1 }) ∧
  (∀ (s : State) (t : Transaction) (i : Instr),
    s.schedule = [] → s.agenda = .ends → s.waiting.Pairwise (fun t u => t.who ≠ u.who) →
    t ∈ s.waiting → decode t.req.cmd = .command i → s.lockOf (Instr.unit i) = .free →
    ∃ u ∈ s.waiting,
      (∃ e, decode u.req.cmd = .illegal e ∧ step s = .next { s with
        waiting := s.waiting.eraseP (fun v => v.who == u.who), turns := s.turns + 1,
        rsp := some ⟨u.who, { status := .illegalCommand }⟩ }) ∨
      (∃ j, decode u.req.cmd = .command j ∧ s.lockOf (Instr.unit j) = .free ∧
        step s = exec j
          { (s.setLock (Instr.unit j) (.held u.who)) with
              rsp := none, txn := u, waiting := s.waiting.eraseP (fun v => v.who == u.who),
              turns := s.turns + 1 }))

/-- R93, R217: a granted word that selects no row completes with ILLEGAL_COMMAND; whatever the locks and
the units' states are, nothing else of the machine changes. -/
def Obligations.IllegalWordChangesNothing : Prop :=
  ∀ (s : State) (r : Nat) (rest : List Event) (t : Transaction) (e : DecodeError),
    s.schedule = .grant r :: rest → s.waiting.find? (fun t => t.who == r) = some t →
    decode t.req.cmd = .illegal e →
    step s = .next { s with
      schedule := rest, waiting := s.waiting.eraseP (fun u => u.who == t.who),
      rsp := some ⟨t.who, { status := .illegalCommand }⟩ }

/-- R244, R233: with no command waiting and no move of the environment to come the block does nothing on its own. R62: bytes
that arrive when no command is to be served join the receive stream and nothing else happens; once the
transport has reported the end for ever none can, and that the model's move then does nothing is its own
choice (log 21). -/
def Obligations.BlockDoesNothingOnItsOwn : Prop :=
  (∀ s : State, s.schedule = [] → s.agenda = .ends → s.waiting = [] → step s = .next { s with rsp := none }) ∧
  (∀ (s : State) (bytes : Bytes) (rest : List Event),
    s.schedule = .rxArrive bytes :: rest → s.rx.tail = .ends → s.due = none →
    (s.rx.eof = true ∧ s.rxEofSticky = true → step s = .next { s with schedule := rest, rsp := none }) ∧
    (s.rx.eof = false ∨ s.rxEofSticky = false →
      step s = .next { s with
        schedule := rest, rsp := none, rx := { s.rx with stream := s.rx.stream ++ bytes } }))

/-- R23: when no command is to be served, a requester's command joins the waiting ones; R7, R23 and
93_implementation_defined.md item 5 leave a number that is no requester, a requester whose last command
still waits or is stuck and a DIN that is too long outside the spec: that these are refused, by name, is the model's choice
(log 13). R251, R70: with two requesters on the reader, one command waits for ever, every two steps leading
back to the same state, while the other requester's RB.LEN is served again and again (the run is one of
the model's environments, log 27). -/
def Obligations.PresentedCommandWaits : Prop :=
  (∀ (s : State) (r : Nat) (q : Request) (rest : List Event), s.schedule = .present r q :: rest → s.due = none →
    (r < s.extraRequesters + 1 ∧ (∀ t ∈ s.waiting, t.who ≠ r) ∧ s.rd.lock ≠ .held r ∧
        q.din.length ≤ 2147483647 →
      step s = .next { s with schedule := rest, rsp := none, waiting := s.waiting ++ [⟨r, q, 0⟩] }) ∧
    (¬ r < s.extraRequesters + 1 → step s = .refused .noSuchRequester) ∧
    (r < s.extraRequesters + 1 ∧ ((∃ t ∈ s.waiting, t.who = r) ∨ s.rd.lock = .held r) → step s = .refused .requesterBusy) ∧
    (r < s.extraRequesters + 1 ∧ (∀ t ∈ s.waiting, t.who ≠ r) ∧ s.rd.lock ≠ .held r ∧
        2147483647 < q.din.length →
      step s = .refused .payloadTooLong)) ∧
  (∀ (s : State) (t : Transaction) (i : Instr) (q : Request) (n : Nat), s.Inv → s.rd.lock = .free →
    s.schedule = [] → s.agenda = .cycle (.grant 1) [.present 1 q] → q = ⟨0x0024#16, 0#64, []⟩ →
    t.who = 0 → decode t.req.cmd = .command i → Instr.unit i = .reader →
    s.waiting = [t, ⟨1, q, 0⟩] → s.rsp = none →
    Host.Core.run Sys2Proof.core (2 * n) s = .next s ∧
    ∃ u : State, Host.Core.run Sys2Proof.core (2 * n + 1) s = .next u ∧ t ∈ u.waiting ∧
      ∃ r, u.rsp = some ⟨1, r⟩)

/-- R226 (a): a cancel while the command waits for a lock, held or contended for, ends it CANCELLED, with no
state change and no poisoning. R226 (c): a cancel has no effect on a CODEC command, which never waits and is
served first, nor when the requester has no command waiting or stuck; that it has none on an illegal word either
is read from R222 (log 18). -/
def Obligations.CancelWhileWaiting : Prop :=
  (∀ (s : State) (r : Nat) (rest : List Event) (t : Transaction) (i : Instr),
    s.schedule = .cancel r :: rest → s.due = none → s.waiting.find? (fun t => t.who == r) = some t →
    s.rd.lock ≠ .held r → decode t.req.cmd = .command i →
    step s = .next { s with
      schedule := rest, waiting := s.waiting.eraseP (fun u => u.who == t.who),
      rsp := some ⟨t.who, { status := .cancelled }⟩ }) ∧
  (∀ (s : State) (r : Nat) (rest : List Event) (t : Transaction),
    s.schedule = .cancel r :: rest → s.waiting = [t] → t.who = r →
    ((∃ i, decode t.req.cmd = .command i ∧ Instr.unit i = .codec) ∨ (∃ e, decode t.req.cmd = .illegal e)) →
    step s = step { s with schedule := .grant r :: s.schedule, turns := s.turns + 1 }) ∧
  (∀ (s : State) (r : Nat) (rest : List Event),
    s.schedule = .cancel r :: rest → s.due = none → (∀ t ∈ s.waiting, t.who ≠ r) → s.rd.lock ≠ .held r →
    step s = .next { s with schedule := rest, rsp := none })

/-! ## Reset -/

/-- R39, R240 to R242: reset with legal straps loads them, empties the buffer and the cache, clears the
closed and poisoned bits, frees the locks, abandons the commands in flight, and leaves the transports. R242:
a reset that strikes inside a transport call leaves the same fresh block and gives no response. Inside a
receive call of one of the five reads, RX.stream has lost some front part, k bytes, of the k + j that the
whole command takes when nothing strikes (the call is made: the command then uses up one answer more than
`moves`) and it ends. Inside a transmit call of a write, when the answers `moves` have left some of its
frame, TX.stream has gained what they accepted and n bytes more. Inside a flush or a close, whether it had
been done is what the answer's number says (the model's reading, log 25). -/
def Obligations.ResetLeavesFreshBlock : Prop :=
  ∀ (s : State) (pins : StrapPins),
    pins.rdStyle.toNat ≤ 9 → pins.wrStyle.toNat ≤ 9 → 1 ≤ pins.cap → pins.cap ≤ 2147483647 →
    (∀ rest, s.schedule = .reset pins :: rest →
      ∃ t, step s = .next t ∧ ResetLeft pins { s with schedule := rest } t) ∧
    (∀ (i : Instr) (moves sc : List Answer) (m n : Nat) (calm : Host.Outcome State Fault Refusal),
      i ∈ [Instr.rdReadMsg, .rdReadMsgC, .rdRead, .rdReadByte, .rdPeekLen] →
      moves.all Answer.isMove = true → s.rx.script = moves ++ .interrupt n (.reset pins) :: sc →
      calm = exec i { s with rx := { s.rx with script := moves ++ [.move m] } } →
      (∃ u, calm = .next u ∧ u.rx.script = []) →
      ∃ (t : State) (k : Nat) (eof : Bool), exec i s = .next t ∧
        ResetLeft pins { s with rx := { s.rx.drop k with eof := eof, script := sc } } t ∧
        (∀ u, calm = .next u → u.rsp ≠ none →
          ∃ j, u.rx = { s.rx.drop (k + j) with eof := u.rx.eof, script := [] })) ∧
    (∀ (i : Instr) (p : Bytes) (moves sc : List Answer) (n : Nat), Emits s i p →
      moves.all Answer.isMove = true → s.tx.script = moves ++ .interrupt n (.reset pins) :: sc →
      accepted moves (frameOf s.cfg.wr p).length < (frameOf s.cfg.wr p).length →
      ∃ t, exec i s = .next t ∧
        ResetLeft pins
          { s with tx := { s.tx with
              stream := s.tx.stream ++
                (frameOf s.cfg.wr p).take (accepted moves (frameOf s.cfg.wr p).length + n),
              script := sc } } t) ∧
    (∀ (n : Nat) (sc : List Answer),
      (s.writerReady = true → s.tx.script = .interrupt n (.reset pins) :: sc →
        ∃ t, exec .wrFlush s = .next t ∧
          ResetLeft pins
            { s with tx := { s.tx with
                flushes := if n = 0 then s.tx.flushes else s.tx.flushes + 1, script := sc } } t) ∧
      (s.wr.closed = false → s.cfg.wr.leaveOpen = false → s.tx.script = .interrupt n (.reset pins) :: sc →
        ∃ t, exec .wrClose s = .next t ∧
          ResetLeft pins
            { s with tx := (if n = 0 then { s.tx with script := sc } else
              { s.tx with
                  closed := true, closes := if s.tx.closed then s.tx.closes else s.tx.closes + 1,
                  script := sc }) } t) ∧
      (s.rd.closed = false → s.cfg.rd.leaveOpen = false → s.rx.script = .interrupt n (.reset pins) :: sc →
        ∃ t, exec .rdClose s = .next t ∧
          ResetLeft pins
            { s with rx := (if n = 0 then { s.rx with script := sc } else
              { s.rx with
                  closed := true, closes := if s.rx.closed then s.rx.closes else s.rx.closes + 1,
                  script := sc }) } t))

/-- R39 with R28: the invariant holds after every launch with legal straps, whatever the transports hold,
and so at `State.reset` (whose straps and transports are the model's choice, logs 7 and 8). -/
def Obligations.InvHoldsAtLaunch : Prop :=
  State.reset.Inv ∧
  ∀ (cfg : Straps) (rx : RxPort) (tx : TxPort) (n : Nat) (sticky : Bool) (sched : List Event)
      (agenda : Agenda),
    rx.closes = rx.closed.toNat → tx.closes = tx.closed.toNat →
    (State.launch cfg rx tx n sticky sched agenda).Inv

/-! ## Rules about every step -/

/-- R28, R31, R22, R23, R65, R252: every step keeps the invariant. -/
def Obligations.EveryStepKeepsInv : Prop :=
  ∀ s t : State, s.Inv → step s = .next t → t.Inv

/-- R13: from a state that keeps the invariant no step stops in a fault: no access leaves the store. R252 (c):
over a finite receive stream every command ends: with no command stuck, none gets stuck. -/
def Obligations.FiniteStreamNeverFaults : Prop :=
  (∀ (s : State) (f : Fault), s.Inv → step s ≠ .fault f) ∧
  (∀ s t : State, s.Inv → s.rx.tail = .ends → s.rd.lock = .free → step s = .next t → t.rd.lock = .free)

/-- R197: TX.stream stays a concatenation of whole frames, as long as no transmit call is cut short and
the writer's configuration stays. -/
def Obligations.WireHoldsWholeFrames : Prop :=
  ∀ s t : State, s.Inv → s.txCalm = true → WholeFrames s.cfg.wr s.tx.stream → step s = .next t →
    t.cfg.wr = s.cfg.wr → WholeFrames t.cfg.wr t.tx.stream

/-- R30, R32, R33: but for reset, no step writes the configuration or clears a closed or poisoned bit. -/
def Obligations.OnlyResetClearsStickyBits : Prop :=
  ∀ s t : State, s.noReset = true → step s = .next t →
    t.cfg = s.cfg ∧
    (s.rd.closed = true → t.rd.closed = true) ∧ (s.rd.poisoned = true → t.rd.poisoned = true) ∧
    (s.wr.closed = true → t.wr.closed = true) ∧ (s.wr.poisoned = true → t.wr.poisoned = true)

/-- R35, R71, R110: what each unit's commands leave alone: a CODEC command everything but the response;
a reader command the writer and TX; a writer command the reader, its buffer and RX. -/
def Obligations.UnitsLeaveEachOtherAlone : Prop :=
  ∀ (i : Instr) (s t : State), s.noReset = true → exec i s = .next t →
    (Instr.unit i = .codec → ∃ r, t = { s with rsp := some ⟨s.txn.who, r⟩, txn := .idle }) ∧
    (Instr.unit i = .reader →
      t = { s with rb := t.rb, rd := t.rd, rx := t.rx, rsp := t.rsp, txn := .idle, freeIdx := t.freeIdx }) ∧
    (Instr.unit i = .writer →
      t = { s with wr := t.wr, tx := t.tx, rsp := t.rsp, txn := .idle, waiting := t.waiting })

/-- R15, R24, R21: a response with a status other than OK carries no data; EOS comes only from the raw
reads, with no data; and CNT counts the bytes of DOUT (but for DEC, where it counts source bytes). -/
def Obligations.ResponseFieldsAreDefaultOrWritten : Prop :=
  ∀ (i : Instr) (s t : State) (d : Delivery), exec i s = .next t → t.rsp = some d →
    (d.rsp.status ≠ .ok → d.rsp = { status := d.rsp.status }) ∧
    (d.rsp.eos = true → (i = .rdRead ∨ i = .rdReadByte) ∧ d.rsp.dout = [] ∧ d.rsp.cnt = 0#32) ∧
    ((∀ st ord, i ≠ decOf ord st) → d.rsp.cnt = BitVec.ofNat 32 d.rsp.dout.length)

/-- R61: the sizes of the pieces the receive transport delivers change no response and no state, for any
command. R64: nor do the counts the transmit transport accepts. -/
def Obligations.PieceSizesDoNotMatter : Prop :=
  ∀ (i : Instr) (s : State) (a b a' b' : List Answer),
    a.all Answer.isMove = true → b.all Answer.isMove = true →
    a'.all Answer.isMove = true → b'.all Answer.isMove = true →
    forgetScripts (exec i (s.withScripts a b)) = forgetScripts (exec i (s.withScripts a' b'))

/-- R210: the status codes. -/
def Obligations.StatusCodesAreTheTable : Prop :=
  [Status.ok, .truncatedPrefix, .incompleteFrame, .destTooSmall, .lengthExceedsPrefix, .capacityExhausted,
    .cancelled, .illegalCommand, .operandRange, .unitClosed, .unitPoisoned, .ioFail].map Status.code =
  [0x00#8, 0x01#8, 0x02#8, 0x03#8, 0x04#8, 0x05#8, 0x06#8, 0x07#8, 0x08#8, 0x09#8, 0x0A#8, 0x0B#8]

/-- R15, R223: raising a fault delivers the status with default data to the command's requester, frees the
lock of the command's unit, keeps nothing of the command, and leaves the rest as it had become, the other
unit's lock too. -/
def Obligations.RaiseDeliversStatusAndFreesLock : Prop :=
  ∀ (s : State) (st : Status),
    s.raise .codec st = { s with rsp := some ⟨s.txn.who, { status := st }⟩, txn := .idle } ∧
    s.raise .reader st =
      { s with rsp := some ⟨s.txn.who, { status := st }⟩, txn := .idle, rd := { s.rd with lock := .free } } ∧
    s.raise .writer st =
      { s with rsp := some ⟨s.txn.who, { status := st }⟩, txn := .idle, wr := { s.wr with lock := .free } }

/-- R160, R190, R219, R220, R222: every command but the two CLOSE answers UNIT_CLOSED on a closed unit, and
UNIT_POISONED on a poisoned one that is not closed, before anything else, with no state change. -/
def Obligations.ClosedOrPoisonedUnitAnswersSo : Prop :=
  ∀ (i : Instr) (s : State),
    (Instr.unit i = .reader → i ≠ .rdClose →
      (s.rd.closed = true → exec i s = .next (s.raise .reader .unitClosed)) ∧
      (s.rd.closed = false → s.rd.poisoned = true → exec i s = .next (s.raise .reader .unitPoisoned))) ∧
    (Instr.unit i = .writer → i ≠ .wrClose →
      (s.wr.closed = true → exec i s = .next (s.raise .writer .unitClosed)) ∧
      (s.wr.closed = false → s.wr.poisoned = true → exec i s = .next (s.raise .writer .unitPoisoned)))

/-! ## CODEC -/

/-- R87 to R89, R112 to R119: ENC.I8, U8, I16, U16, I32, U32, I64, U64 with an integer the style can
represent answer OK with its bytes in the order selected, and CNT = width. -/
def Obligations.EncodeFixedWidthBytes : Prop :=
  ∀ (st : Style) (sg : Bool) (w : Nat) (ord : ByteOrder) (s : State), (st, sg, w) ∈ fixedStyles →
    (sg = true → -(2 : Int) ^ (8 * w - 1) ≤ s.arg.toInt ∧ s.arg.toInt ≤ (2 : Int) ^ (8 * w - 1) - 1) →
    (sg = false → s.arg.toNat ≤ 2 ^ (8 * w) - 1) →
    ∃ pre : Bytes, pre.length = w ∧
      (∀ k, k < w →
        pre[k]? = some (s.arg.extractLsb' (8 * (if ord = .little then k else w - 1 - k)) 8)) ∧
      exec (encOf ord st) s = .next (s.endCommand .codec { dout := pre, cnt := BitVec.ofNat 32 w })

/-- R111, R218 (a): ENC with a fixed-width style and an integer it cannot represent answers OPERAND_RANGE. -/
def Obligations.EncodeOutOfRangeFaults : Prop :=
  ∀ (st : Style) (sg : Bool) (w : Nat) (ord : ByteOrder) (s : State), (st, sg, w) ∈ fixedStyles →
    ((sg = true ∧ (s.arg.toInt < -(2 : Int) ^ (8 * w - 1) ∨ (2 : Int) ^ (8 * w - 1) - 1 < s.arg.toInt)) ∨
      (sg = false ∧ 2 ^ (8 * w) - 1 < s.arg.toNat)) →
    exec (encOf ord st) s = .next (s.raise .codec .operandRange)

/-- R90, R91, R120, R121: ENC.VARINT and ENC.UVARINT cut the 64-bit string into 7-bit groups, least
significant first, up to the last one that is not 0, and set bit 7 on all but that one. -/
def Obligations.EncodeVarintGroups : Prop :=
  ∀ (st : Style) (ord : ByteOrder) (s : State), st ∈ variableStyles →
    ∃ (m : Nat) (pre : Bytes), m ≤ 9 ∧
      (∀ k, m < k → k ≤ 9 → s.arg.extractLsb' (7 * k) 7 = 0#7) ∧
      (m = 0 ∨ s.arg.extractLsb' (7 * m) 7 ≠ 0#7) ∧
      pre.length = m + 1 ∧
      (∀ k, k < m → pre[k]? = some (0x80#8 ||| (s.arg.extractLsb' (7 * k) 7).zeroExtend 8)) ∧
      pre[m]? = some ((s.arg.extractLsb' (7 * m) 7).zeroExtend 8) ∧
      exec (encOf ord st) s = .next (s.endCommand .codec { dout := pre, cnt := BitVec.ofNat 32 (m + 1) })

/-- R123 to R131: DEC.I8, U8, I16, U16, I32, U32, I64, U64 with a source of at least `width` bytes answer
OK with the integer of the first `width` bytes in the order selected, extended to 64 bits; the rest of
the source is ignored. -/
def Obligations.DecodeFixedWidthValue : Prop :=
  ∀ (st : Style) (sg : Bool) (w : Nat) (ord : ByteOrder) (s : State) (X : Nat), (st, sg, w) ∈ fixedStyles →
    w ≤ s.din.length →
    X = bigNat (if ord = .little then (s.din.take w).reverse else s.din.take w) →
    exec (decOf ord st) s = .next (s.endCommand .codec
      { res := if sg = true ∧ 2 ^ (8 * w - 1) ≤ X then BitVec.ofInt 64 ((X : Int) - 2 ^ (8 * w)) else BitVec.ofNat 64 X,
        cnt := BitVec.ofNat 32 w })

/-- R123, R132, R133, R139 (c): DEC.VARINT and DEC.UVARINT take bytes up to the first one with bit 7 clear;
the value is the sum of the groups mod 2^64; CNT counts the bytes taken. -/
def Obligations.DecodeVarintValue : Prop :=
  ∀ (st : Style) (ord : ByteOrder) (s : State) (cont : Bytes) (x : Byte) (rest : Bytes), st ∈ variableStyles →
    s.din = cont ++ x :: rest → (∀ b ∈ cont, b.getLsbD 7 = true) → x.getLsbD 7 = false →
    exec (decOf ord st) s = .next (s.endCommand .codec
      { res := BitVec.ofNat 64 (groupSum (cont ++ [x])), cnt := BitVec.ofNat 32 (cont.length + 1) })

/-- R211: DEC of a source that ends before the prefix is complete answers TRUNCATED_PREFIX. -/
def Obligations.DecodeTruncatedFaults : Prop :=
  (∀ (st : Style) (sg : Bool) (w : Nat) (ord : ByteOrder) (s : State), (st, sg, w) ∈ fixedStyles →
    s.din.length < w → exec (decOf ord st) s = .next (s.raise .codec .truncatedPrefix)) ∧
  (∀ (st : Style) (ord : ByteOrder) (s : State), st ∈ variableStyles →
    (∀ b ∈ s.din, b.getLsbD 7 = true) → exec (decOf ord st) s = .next (s.raise .codec .truncatedPrefix))

/-- R134, R136: decoding an encoder's output, whatever follows it, gives the same 64-bit string and takes
exactly the bytes produced, for every style and order. The converse fails for the variable-width styles:
some bytes decode to a value that is encoded by others. -/
def Obligations.CodecRoundTrip : Prop :=
  (∀ (st : Style) (ord : ByteOrder) (V : Scalar) (pre rest : Bytes),
    encodePrefix st ord V = some pre → decodePrefix st ord (pre ++ rest) = some (V, pre.length)) ∧
  (∀ (st : Style) (ord : ByteOrder), st ∈ variableStyles →
    ∃ (V : Scalar) (pre pre' : Bytes), pre ≠ pre' ∧ encodePrefix st ord V = some pre ∧
      decodePrefix st ord pre' = some (V, pre'.length))

/-- R138: MAXLEN answers the style's bound, all ones for the unbounded ones; ORDER is ignored. -/
def Obligations.MaxLenTable : Prop :=
  ∀ (st : Style) (v : Scalar) (ord : ByteOrder) (s : State), (st, v) ∈ maxLenRows →
    exec (.maxlen ord st) s = .next (s.endCommand .codec { res := v })

/-! ## RBUF -/

/-- R141 to R143: RB.FILLRAW and RB.FILLMSG of bytes that fit append them at RB.end; FILLMSG records
(RB.end, length); every other byte of the store is as before. R215, R53: of more than CAP - RB.end bytes
they answer CAPACITY_EXHAUSTED and change nothing. -/
def Obligations.FillAppendsBytesOrFaults : Prop :=
  ∀ (s : State) (i : Instr), (i = .rbFillRaw ∨ i = .rbFillMsg) → s.readerReady = true →
    s.rb.inv s.cfg.CAP = true →
    (s.din.length ≤ s.cfg.CAP - s.rb.stop →
      ∃ mem, exec i s = .next (State.endCommand
          { s with rb :=
              { mem := mem, start := s.rb.start, stop := s.rb.stop + s.din.length,
                queue := if i = .rbFillMsg then s.rb.queue ++ [(s.rb.stop, s.din.length)] else s.rb.queue } }
          .reader {}) ∧
        (∀ k, k < s.din.length → s.din[k]? = some (memGet mem (s.rb.stop + k))) ∧
        SameOutside s.rb.mem mem s.rb.stop s.din.length) ∧
    (s.cfg.CAP - s.rb.stop < s.din.length → exec i s = .next (s.raise .reader .capacityExhausted))

/-- R146 to R149: RB.DRAIN returns the oldest unread bytes, up to maxCount; records it passes are gone; a
buffer it empties has both cursors at 0, and the zero-length records left stand at 0. No byte of the
store changes. -/
def Obligations.DrainReturnsOldestBytes : Prop :=
  ∀ (s : State) (k : Nat), s.readerReady = true → s.rb.inv s.cfg.CAP = true →
    k = min s.arg.toNat (s.rb.stop - s.rb.start) →
    ∃ b : RBuf, exec .rbDrain s = .next (State.endCommand { s with rb := b } .reader
        { dout := s.rb.unread.take k, cnt := BitVec.ofNat 32 k }) ∧
      b.mem = s.rb.mem ∧
      (k < s.rb.stop - s.rb.start ∨ k = 0 →
        b.start = s.rb.start + k ∧ b.stop = s.rb.stop ∧
          b.queue = s.rb.queue.filter (fun r => s.rb.start + k ≤ r.1)) ∧
      (0 < k ∧ k = s.rb.stop - s.rb.start →
        b.start = 0 ∧ b.stop = 0 ∧
          b.queue = (s.rb.queue.filter (fun r => s.rb.stop ≤ r.1)).map (fun r => (0, r.2)))

/-- R150, R151: RB.DRAINMSG with no record answers OK with no data and changes nothing, even with raw bytes
buffered. With the head record at the front it returns its bytes and advances RB.start, or resets the
cursors if that empties the buffer; no byte of the store changes. With raw bytes in front of the head
record it returns the record's bytes and moves the bytes behind it down by its length, with RB.end and the
later records; the raw bytes in front stay. -/
def Obligations.DrainMsgReturnsHeadRecord : Prop :=
  (∀ s : State, s.readerReady = true → s.rb.queue = [] →
    exec .rbDrainMsg s = .next (s.endCommand .reader {})) ∧
  (∀ (s : State) (l : Nat) (q : List (Nat × Nat)), s.readerReady = true → s.rb.inv s.cfg.CAP = true →
    s.rb.queue = (s.rb.start, l) :: q →
    ∃ b : RBuf, exec .rbDrainMsg s = .next (State.endCommand { s with rb := b } .reader
        { dout := memGetN s.rb.mem s.rb.start l, cnt := BitVec.ofNat 32 l }) ∧
      b.mem = s.rb.mem ∧
      (s.rb.start + l < s.rb.stop ∨ l = 0 →
        b.start = s.rb.start + l ∧ b.stop = s.rb.stop ∧ b.queue = q) ∧
      (0 < l ∧ s.rb.start + l = s.rb.stop →
        b.start = 0 ∧ b.stop = 0 ∧ b.queue = q.map (fun r => (0, r.2)))) ∧
  (∀ (s : State) (o l : Nat) (q : List (Nat × Nat)), s.readerReady = true → s.rb.inv s.cfg.CAP = true →
    s.rb.queue = (o, l) :: q → o ≠ s.rb.start →
    ∃ mem, exec .rbDrainMsg s = .next (State.endCommand
        { s with rb :=
            { mem := mem, start := s.rb.start, stop := s.rb.stop - l, queue := q.map (fun r => (r.1 - l, r.2)) } }
        .reader { dout := memGetN s.rb.mem o l, cnt := BitVec.ofNat 32 l }) ∧
      (∀ a, o ≤ a → a < s.rb.stop - l → memGet mem a = memGet s.rb.mem (a + l)) ∧
      SameOutside s.rb.mem mem o (s.rb.stop - l - o))

/-- R152: RB.LEN answers the unread byte count and changes nothing. -/
def Obligations.LenCountsUnreadBytes : Prop :=
  ∀ s : State, s.readerReady = true →
    exec .rbLen s = .next (s.endCommand .reader { res := BitVec.ofNat 64 (s.rb.stop - s.rb.start) })

/-- R154: from a buffer with no record, a message fill that succeeds and the message drain after it return
the message and leave the cursors, the queue and the unread bytes as they were. -/
def Obligations.FillThenDrainMsgRestores : Prop :=
  ∀ (cap : Nat) (b b1 : RBuf) (m : Bytes), b.inv cap = true → b.queue = [] → b.fill cap m true = .ok b1 →
    ∃ b2, b1.drainMsg cap = some (m, b2) ∧ b2.start = b.start ∧ b2.stop = b.stop ∧ b2.queue = [] ∧
      b2.unread = b.unread

/-! ## READER -/

/-- R164, R165: with a record of at least one byte at the head of the queue, RD.READMSG does what
RB.DRAINMSG does, and so does RD.READMSGC if the record fits: the transport is not touched. -/
def Obligations.RecordedMessageComesFirst : Prop :=
  ∀ (s : State) (o l : Nat) (q : List (Nat × Nat)), s.rb.inv s.cfg.CAP = true →
    s.rb.queue = (o, l) :: q → 1 ≤ l →
    exec .rdReadMsg s = exec .rbDrainMsg s ∧
    (l ≤ s.arg.toNat → exec .rdReadMsgC s = exec .rbDrainMsg s)

/-- R144, R164 (c), R165: a zero-length record at the head is removed by RD.READMSG and RD.READMSGC, and the
command goes on. Alone in the queue it is as if it had not been there. With another record behind it, a
whole frame that is next on the transport is stored and recorded, and the older record's message is
returned. -/
def Obligations.EmptyHeadRecordIsSkipped : Prop :=
  (∀ (s : State) (o : Nat) (i : Instr), (i = .rdReadMsg ∨ i = .rdReadMsgC) → s.rb.inv s.cfg.CAP = true →
    s.readerReady = true → s.rb.queue = [(o, 0)] →
    exec i s = exec i { s with rb := { s.rb with queue := [] } }) ∧
  (∀ (s : State) (o o' l' : Nat) (q : List (Nat × Nat)) (i : Instr) (V : Scalar) (rest : RxPort) (L : Nat),
    (i = .rdReadMsg ∨ (i = .rdReadMsgC ∧ L ≤ s.arg.toNat ∧ l' ≤ s.arg.toNat)) →
    s.readerReady = true → s.rxCalm = true → s.rb.inv s.cfg.CAP = true →
    s.rb.queue = (o, 0) :: (o', l') :: q →
    s.upcoming = some (V, rest) → Style.ival s.cfg.rd.style V = (L : Int) → 1 ≤ L →
    rest.holds L = true → L ≤ s.cfg.CAP - s.rb.stop →
    ∃ t, exec i s = .next t ∧ OnlyReaderDiffers s t ∧
      t.rsp = some ⟨s.txn.who, { dout := memGetN s.rb.mem o' l', cnt := BitVec.ofNat 32 l' }⟩ ∧
      t.rd = { s.rd with next := none, lock := .free } ∧
      t.rx = { rest.drop L with script := t.rx.script } ∧
      t.rb.queue.length = q.length + 1 ∧
      (∀ o'' l'', t.rb.queue.getLast? = some (o'', l'') →
        l'' = L ∧ memGetN t.rb.mem o'' l'' = rest.front L))

/-- R163, R164, R165: with no record buffered and a whole frame of length L next on the transport, whose
stream may be finite or infinite, RD.READMSG (and RD.READMSGC with dstCap at least L) returns its payload;
the frame is gone from the transport, the cache is UNKNOWN, and the buffer's cursors, queue and unread
bytes are as before; the payload has passed through the store at RB.end. -/
def Obligations.ReadMsgReturnsNextFrame : Prop :=
  ∀ (s : State) (i : Instr) (V : Scalar) (rest : RxPort) (L : Nat),
    (i = .rdReadMsg ∨ (i = .rdReadMsgC ∧ L ≤ s.arg.toNat)) →
    s.readerReady = true → s.rxCalm = true → s.rb.inv s.cfg.CAP = true → s.rb.queue = [] →
    s.upcoming = some (V, rest) → Style.ival s.cfg.rd.style V = (L : Int) → 1 ≤ L →
    rest.holds L = true → L ≤ s.cfg.CAP - s.rb.stop →
    ∃ t, exec i s = .next t ∧ OnlyReaderDiffers s t ∧
      t.rsp = some ⟨s.txn.who, { dout := rest.front L, cnt := BitVec.ofNat 32 L }⟩ ∧
      t.rd = { s.rd with next := none, lock := .free } ∧
      t.rx = { rest.drop L with script := t.rx.script } ∧
      t.rb.start = s.rb.start ∧ t.rb.stop = s.rb.stop ∧ t.rb.queue = [] ∧ t.rb.unread = s.rb.unread ∧
      SameOutside s.rb.mem t.rb.mem s.rb.stop L

/-- R161 to R164: with no record buffered, a next length below 1 (zero, or negative under a signed style)
makes RD.READMSG and RD.READMSGC answer OK with no data and consume that frame, on a finite or an infinite
stream; a finite stream that ends inside the prefix does the same, with the stream empty and RX.eof set. -/
def Obligations.ReadMsgOfEmptyFrameOrEnd : Prop :=
  ∀ (s : State) (i : Instr), (i = .rdReadMsg ∨ i = .rdReadMsgC) →
    s.readerReady = true → s.rxCalm = true → s.rb.queue = [] →
    (∀ V rest, s.upcoming = some (V, rest) → Style.ival s.cfg.rd.style V < 1 →
      ∃ sc, exec i s = .next (State.endCommand
        { s with rd := { s.rd with next := none }, rx := { rest with script := sc } } .reader {})) ∧
    (s.upcoming = none → s.rx.tail = .ends →
      ∃ sc, exec i s = .next (State.endCommand
        { s with rx := { s.rx with stream := [], eof := true, script := sc } } .reader {}))

/-- R165, R213, R222: RD.READMSGC answers DEST_TOO_SMALL when the recorded message at the head, or with no
record the next frame, is longer than dstCap: nothing is consumed but the prefix, which stays in RD.next.
With a zero-length record at the head, which is removed, and an older one behind it, the next frame's length
is tested first: a frame longer than dstCap stays on the transport; a frame that fits is consumed and
recorded, and when the older record is then longer than dstCap it stays recorded in front, and
DEST_TOO_SMALL is answered on the final drain. -/
def Obligations.ReadMsgCTooSmallConsumesNothing : Prop :=
  (∀ (s : State) (o l : Nat) (q : List (Nat × Nat)), s.readerReady = true →
    s.rb.queue = (o, l) :: q → s.arg.toNat < l →
    exec .rdReadMsgC s = .next (s.raise .reader .destTooSmall)) ∧
  (∀ (s : State) (V : Scalar) (rest : RxPort), s.readerReady = true → s.rxCalm = true →
    s.rb.queue = [] → s.upcoming = some (V, rest) →
    1 ≤ Style.ival s.cfg.rd.style V → (s.arg.toNat : Int) < Style.ival s.cfg.rd.style V →
    ∃ sc, exec .rdReadMsgC s = .next (State.raise
      { s with rd := { s.rd with next := some V }, rx := { rest with script := sc } }
      .reader .destTooSmall)) ∧
  (∀ (s : State) (o o' l' : Nat) (q : List (Nat × Nat)) (V : Scalar) (rest : RxPort),
    s.readerReady = true → s.rxCalm = true → s.rb.inv s.cfg.CAP = true →
    s.rb.queue = (o, 0) :: (o', l') :: q → 1 ≤ l' → s.upcoming = some (V, rest) →
    1 ≤ Style.ival s.cfg.rd.style V → (s.arg.toNat : Int) < Style.ival s.cfg.rd.style V →
    ∃ t, exec .rdReadMsgC s = .next t ∧ OnlyReaderDiffers s t ∧
      t.rsp = some ⟨s.txn.who, { status := .destTooSmall }⟩ ∧
      t.rd = { s.rd with next := some V, lock := .free } ∧ t.rx = { rest with script := t.rx.script } ∧
      t.rb.start = s.rb.start ∧ t.rb.stop = s.rb.stop ∧ t.rb.queue = (o', l') :: q ∧
      SameOutside s.rb.mem t.rb.mem 0 0) ∧
  (∀ (s : State) (o o' l' : Nat) (q : List (Nat × Nat)) (V : Scalar) (rest : RxPort) (L : Nat),
    s.readerReady = true → s.rxCalm = true → s.rb.inv s.cfg.CAP = true →
    s.rb.queue = (o, 0) :: (o', l') :: q →
    s.upcoming = some (V, rest) → Style.ival s.cfg.rd.style V = (L : Int) → 1 ≤ L → L ≤ s.arg.toNat →
    s.arg.toNat < l' → rest.holds L = true → L ≤ s.cfg.CAP - s.rb.stop →
    ∃ t, exec .rdReadMsgC s = .next t ∧ OnlyReaderDiffers s t ∧
      t.rsp = some ⟨s.txn.who, { status := .destTooSmall }⟩ ∧
      t.rd = { s.rd with next := none, lock := .free } ∧
      t.rx = { rest.drop L with script := t.rx.script } ∧
      t.rb.start = s.rb.start ∧ t.rb.stop = s.rb.stop + L ∧
      t.rb.queue = (o', l') :: q ++ [(s.rb.stop, L)] ∧
      memGetN t.rb.mem s.rb.stop L = rest.front L ∧ SameOutside s.rb.mem t.rb.mem s.rb.stop L)

/-- R165: with dstCap = 2^64 - 1, RD.READMSGC does what RD.READMSG does. -/
def Obligations.ReadMsgCWithLargestDstCap : Prop :=
  ∀ s : State, s.arg = BitVec.allOnes 64 → s.rxCalm = true → s.rb.inv s.cfg.CAP = true →
    forgetScripts (exec .rdReadMsgC s) = forgetScripts (exec .rdReadMsg s)

/-- R166: RD.READ with no more than the unread bytes asked for does what RB.DRAIN does; the transport is not
touched. R167: RD.READBYTE is RD.READ with count 1 whatever ARG holds, and returns the first unread byte
when there is one. -/
def Obligations.ReadFromBufferIsDrain : Prop :=
  (∀ s : State, s.rb.inv s.cfg.CAP = true → s.arg.toNat ≤ s.rb.stop - s.rb.start →
    exec .rdRead s = exec .rbDrain s) ∧
  (∀ s : State, exec .rdReadByte s =
    exec .rdRead { s with txn := { s.txn with req := { s.txn.req with arg := 1#64 } } }) ∧
  (∀ s : State, s.readerReady = true → s.rb.inv s.cfg.CAP = true → s.rb.start < s.rb.stop →
    ∃ b, exec .rdReadByte s = .next (State.endCommand { s with rb := b } .reader
        { dout := [memGet s.rb.mem s.rb.start], cnt := 1#32 }) ∧
      b.mem = s.rb.mem ∧ b.unread = s.rb.unread.drop 1)

/-- R166, R167: when more is asked for than is unread and a whole frame of length L is next on the
transport, whose stream may be finite or infinite, RD.READ count (and RD.READBYTE, count 1) returns the
unread bytes and then bytes of that one frame; the rest of the frame is left as raw bytes, with no
record. The frame has been stored from index 0 on; every other byte of the store is as before. -/
def Obligations.ReadPullsOneFrame : Prop :=
  ∀ (s : State) (i : Instr) (count : Nat) (V : Scalar) (rest : RxPort) (L : Nat),
    ((i = .rdRead ∧ count = s.arg.toNat) ∨ (i = .rdReadByte ∧ count = 1)) →
    s.readerReady = true → s.rxCalm = true → s.rb.inv s.cfg.CAP = true →
    s.rb.stop - s.rb.start < count →
    s.upcoming = some (V, rest) → Style.ival s.cfg.rd.style V = (L : Int) → 1 ≤ L →
    rest.holds L = true → L ≤ s.cfg.CAP →
    ∃ (t : State) (k : Nat), k = min (count - (s.rb.stop - s.rb.start)) L ∧
      exec i s = .next t ∧ OnlyReaderDiffers s t ∧
      t.rsp = some ⟨s.txn.who,
        { dout := s.rb.unread ++ rest.front k, cnt := BitVec.ofNat 32 (s.rb.stop - s.rb.start + k) }⟩ ∧
      t.rd = { s.rd with next := none, lock := .free } ∧
      t.rx = { rest.drop L with script := t.rx.script } ∧
      t.rb.unread = (rest.front L).drop k ∧ t.rb.queue = [] ∧
      (k < L → t.rb.start = k ∧ t.rb.stop = L) ∧ (k = L → t.rb.start = 0 ∧ t.rb.stop = 0) ∧
      SameOutside s.rb.mem t.rb.mem 0 L

/-- R166, R167: when more is asked for than is unread and the next length is below 1, on a finite or an
infinite stream, or a finite stream ends inside the prefix, RD.READ and RD.READBYTE return the unread bytes,
with EOS exactly when there are none; the buffer is empty then. -/
def Obligations.ReadOfEmptyFrameOrEnd : Prop :=
  ∀ (s : State) (i : Instr) (count : Nat),
    ((i = .rdRead ∧ count = s.arg.toNat) ∨ (i = .rdReadByte ∧ count = 1)) →
    s.readerReady = true → s.rxCalm = true → s.rb.inv s.cfg.CAP = true →
    s.rb.stop - s.rb.start < count →
    ((s.upcoming = none ∧ s.rx.tail = .ends) ∨
      ∃ V rest, s.upcoming = some (V, rest) ∧ Style.ival s.cfg.rd.style V < 1) →
    ∃ t, exec i s = .next t ∧ OnlyReaderDiffers s t ∧
      t.rsp = some ⟨s.txn.who,
        { dout := s.rb.unread, cnt := BitVec.ofNat 32 (s.rb.stop - s.rb.start), eos := s.rb.unread.isEmpty }⟩ ∧
      t.rd = { s.rd with next := none, lock := .free } ∧
      t.rb.start = 0 ∧ t.rb.stop = 0 ∧ t.rb.mem = s.rb.mem ∧
      (∀ V rest, s.upcoming = some (V, rest) → t.rx = { rest with script := t.rx.script }) ∧
      (s.upcoming = none → t.rx = { s.rx with stream := [], eof := true, script := t.rx.script })

/-- R163, R212: a frame that the transport cannot complete makes RD.READMSG (and RD.READMSGC with dstCap at
least L) answer INCOMPLETE_FRAME: the transport is at its end, the cache UNKNOWN, the buffer untouched.
RD.READ and RD.READBYTE that ask for more than is unread do the same, and the bytes they had drained
before are lost. Only a finite stream can be short. -/
def Obligations.IncompleteFrameLosesPayload : Prop :=
  (∀ (s : State) (i : Instr) (V : Scalar) (rest : RxPort),
    (i = .rdReadMsg ∨ (i = .rdReadMsgC ∧ Style.ival s.cfg.rd.style V ≤ (s.arg.toNat : Int))) →
    s.readerReady = true → s.rxCalm = true → s.rx.tail = .ends → s.rb.queue = [] →
    s.upcoming = some (V, rest) → 1 ≤ Style.ival s.cfg.rd.style V →
    (rest.stream.length : Int) < Style.ival s.cfg.rd.style V →
    ∃ sc, exec i s = .next (State.raise
      { s with rd := { s.rd with next := none }, rx := { s.rx with stream := [], eof := true, script := sc } }
      .reader .incompleteFrame)) ∧
  (∀ (s : State) (i : Instr) (V : Scalar) (rest : RxPort),
    ((i = .rdRead ∧ s.rb.stop - s.rb.start < s.arg.toNat) ∨ (i = .rdReadByte ∧ s.rb.start = s.rb.stop)) →
    s.readerReady = true → s.rxCalm = true → s.rx.tail = .ends → s.rb.inv s.cfg.CAP = true →
    s.upcoming = some (V, rest) → 1 ≤ Style.ival s.cfg.rd.style V →
    (rest.stream.length : Int) < Style.ival s.cfg.rd.style V →
    ∃ sc, exec i s = .next (State.raise
      { s with
          rb := s.rb.drained, rd := { s.rd with next := none },
          rx := { s.rx with stream := [], eof := true, script := sc } }
      .reader .incompleteFrame))

/-- R164, R215: a whole frame longer than CAP - RB.end makes RD.READMSG (and RD.READMSGC with dstCap at least
L) answer CAPACITY_EXHAUSTED: the frame is gone from the transport, the cache is UNKNOWN, the buffer is as
before. R166: a whole frame longer than CAP does the same to RD.READ and RD.READBYTE that ask for more
than is unread, and the bytes they had drained before are lost. R252 (d): on an infinite stream, which
holds every number of bytes, a length however huge ends so too, with RX advanced by it. -/
def Obligations.OversizeFrameIsConsumedAndLost : Prop :=
  (∀ (s : State) (i : Instr) (V : Scalar) (rest : RxPort) (L : Nat),
    (i = .rdReadMsg ∨ (i = .rdReadMsgC ∧ L ≤ s.arg.toNat)) →
    s.readerReady = true → s.rxCalm = true → s.rb.queue = [] →
    s.upcoming = some (V, rest) → Style.ival s.cfg.rd.style V = (L : Int) →
    rest.holds L = true → s.cfg.CAP - s.rb.stop < L →
    ∃ sc, exec i s = .next (State.raise
      { s with rd := { s.rd with next := none }, rx := { rest.drop L with script := sc } }
      .reader .capacityExhausted)) ∧
  (∀ (s : State) (i : Instr) (V : Scalar) (rest : RxPort) (L : Nat),
    ((i = .rdRead ∧ s.rb.stop - s.rb.start < s.arg.toNat) ∨ (i = .rdReadByte ∧ s.rb.start = s.rb.stop)) →
    s.readerReady = true → s.rxCalm = true → s.rb.inv s.cfg.CAP = true →
    s.upcoming = some (V, rest) → Style.ival s.cfg.rd.style V = (L : Int) →
    rest.holds L = true → s.cfg.CAP < L →
    ∃ sc, exec i s = .next (State.raise
      { s with
          rb := s.rb.drained, rd := { s.rd with next := none }, rx := { rest.drop L with script := sc } }
      .reader .capacityExhausted)) ∧
  (∀ (p : RxPort) (k : Nat), (p.tail ≠ .ends → p.holds k = true) ∧
    (p.tail = .ends → p.front k = p.stream.take k ∧ p.drop k = { p with stream := p.stream.drop k }))

/-- R168: RD.PEEKLEN answers the cached length without touching the transport; with none cached it decodes
one prefix, of a finite or an infinite stream, and caches it; at the end of a finite stream it answers 0
and caches nothing. The buffer is not looked at. -/
def Obligations.PeekLenResolvesOnce : Prop :=
  ∀ s : State, s.readerReady = true → s.rxCalm = true →
    (∀ v, s.rd.next = some v → exec .rdPeekLen s = .next (s.endCommand .reader { res := v })) ∧
    (∀ V rest, s.rd.next = none → s.upcoming = some (V, rest) →
      ∃ sc, exec .rdPeekLen s = .next (State.endCommand
        { s with rd := { s.rd with next := some V }, rx := { rest with script := sc } }
        .reader { res := V })) ∧
    (s.upcoming = none → s.rx.tail = .ends →
      ∃ sc, exec .rdPeekLen s = .next (State.endCommand
        { s with rx := { s.rx with stream := [], eof := true, script := sc } } .reader { res := 0#64 }))

/-- R169, R196, R65: RD.CLOSE and WR.CLOSE always succeed over transports that do not fail; the second does
nothing; the first sets the closed bit and, unless LEAVE_OPEN, closes the transport, which counts a close
only if it was open. R226 (c): a cancel has no effect on the close (log 2). R221, R15: a transport that
fails the close leaves the closed bit set, poisons the unit and answers IO_FAIL; whether the transport had
closed is not said by the spec, and is what the answer's number says (logs 10 and 25). -/
def Obligations.CloseClosesOnce : Prop :=
  (∀ s : State, s.rxCalm = true ∨ (∃ n sc, s.rx.script = .interrupt n .cancelled :: sc) →
    (s.rd.closed = true → exec .rdClose s = .next (s.endCommand .reader {})) ∧
    (s.rd.closed = false → s.cfg.rd.leaveOpen = true →
      exec .rdClose s = .next (State.endCommand { s with rd := { s.rd with closed := true } } .reader {})) ∧
    (s.rd.closed = false → s.cfg.rd.leaveOpen = false →
      exec .rdClose s = .next (State.endCommand
        { s with
            rd := { s.rd with closed := true },
            rx := { s.rx with
              closed := true, closes := if s.rx.closed then s.rx.closes else s.rx.closes + 1,
              script := s.rx.script.tail } } .reader {}))) ∧
  (∀ s : State, s.txCalm = true ∨ (∃ n sc, s.tx.script = .interrupt n .cancelled :: sc) →
    (s.wr.closed = true → exec .wrClose s = .next (s.endCommand .writer {})) ∧
    (s.wr.closed = false → s.cfg.wr.leaveOpen = true →
      exec .wrClose s = .next (State.endCommand { s with wr := { s.wr with closed := true } } .writer {})) ∧
    (s.wr.closed = false → s.cfg.wr.leaveOpen = false →
      exec .wrClose s = .next (State.endCommand
        { s with
            wr := { s.wr with closed := true },
            tx := { s.tx with
              closed := true, closes := if s.tx.closed then s.tx.closes else s.tx.closes + 1,
              script := s.tx.script.tail } } .writer {}))) ∧
  (∀ (s : State) (n : Nat) (sc : List Answer), s.rd.closed = false → s.cfg.rd.leaveOpen = false →
    s.rx.script = .interrupt n .ioFail :: sc →
    ∃ t, exec .rdClose s = .next t ∧ t.rsp = some ⟨s.txn.who, { status := .ioFail }⟩ ∧
      t.rd = { s.rd with next := t.rd.next, lock := .free, closed := true, poisoned := true } ∧
      t.rx = (if n = 0 then { s.rx with script := sc } else
        { s.rx with
            closed := true, closes := if s.rx.closed then s.rx.closes else s.rx.closes + 1, script := sc }) ∧
      t.rb.inv s.cfg.CAP = true ∧
      t = { s with rb := t.rb, rd := t.rd, rx := t.rx, rsp := t.rsp, txn := .idle, freeIdx := t.freeIdx }) ∧
  (∀ (s : State) (n : Nat) (sc : List Answer), s.wr.closed = false → s.cfg.wr.leaveOpen = false →
    s.tx.script = .interrupt n .ioFail :: sc →
    exec .wrClose s = .next (State.raise
      { s with
          wr := { s.wr with closed := true, poisoned := true },
          tx := (if n = 0 then { s.tx with script := sc } else
            { s.tx with
                closed := true, closes := if s.tx.closed then s.tx.closes else s.tx.closes + 1,
                script := sc }) } .writer .ioFail))

/-- R226 (b), R221 (log 10): a cancel or a failure that strikes in any receive call, of a prefix or of a
payload, of RD.READMSG, RD.READMSGC, RD.READ, RD.READBYTE or RD.PEEKLEN ends the command CANCELLED or IO_FAIL,
frees the lock and poisons the reader. RX.stream has lost some front part, k bytes, of the k + j that the
whole command takes when nothing strikes and it ends; the buffer keeps its invariants, and what it and
RD.next hold is not said; nothing else changes. The call is made: the command uses up one answer more than
`moves` when nothing strikes. -/
def Obligations.InterruptedReadPoisons : Prop :=
  ∀ (s : State) (i : Instr) (moves sc : List Answer) (m n : Nat) (why : Interruption)
      (calm : Host.Outcome State Fault Refusal),
    i ∈ [Instr.rdReadMsg, .rdReadMsgC, .rdRead, .rdReadByte, .rdPeekLen] →
    (why = .cancelled ∨ why = .ioFail) → s.rb.inv s.cfg.CAP = true →
    moves.all Answer.isMove = true → s.rx.script = moves ++ .interrupt n why :: sc →
    calm = exec i { s with rx := { s.rx with script := moves ++ [.move m] } } →
    (∃ u, calm = .next u ∧ u.rx.script = []) →
    ∃ (t : State) (k : Nat), exec i s = .next t ∧
      t.rsp = some ⟨s.txn.who, { status := if why = .cancelled then .cancelled else .ioFail }⟩ ∧
      t.rd = { s.rd with next := t.rd.next, lock := .free, poisoned := true } ∧
      t.rx = { s.rx.drop k with eof := t.rx.eof, script := sc } ∧
      (∀ u, calm = .next u → u.rsp ≠ none →
        ∃ j, u.rx = { s.rx.drop (k + j) with eof := u.rx.eof, script := [] }) ∧
      t.rb.inv s.cfg.CAP = true ∧
      t = { s with rb := t.rb, rd := t.rd, rx := t.rx, rsp := t.rsp, txn := .idle, freeIdx := t.freeIdx }

/-- R252 (a): under a variable-width style, an endless receive stream of bytes with bit 7 set leaves every
command that resolves a length, with none cached, stuck: RD.PEEKLEN, RD.READMSG and RD.READMSGC with no
record buffered, RD.READ and RD.READBYTE that ask for more than is unread. It gives no response and holds
RD.lock, and no other prefix leaves a command so. While it is stuck a reader's command that is granted waits
on, and (R35, R71, R110, R251) a writer's or CODEC's command that is the only one waiting is served at once.
A cancel ends it CANCELLED, and so does one inside a receive call, or a failure, when the transport answers
again: the prefix has then lost a byte for each move and up to one more, the reader is poisoned, the lock is
free (that a stuck command stands in State as the holder of RD.lock, and that the bytes it takes are
counted as the answers come, are the model's choices, log 28). -/
def Obligations.EndlessPrefixHasNoSuccessor : Prop :=
  (∀ (s : State) (i : Instr),
    (i = .rdPeekLen ∨ ((i = .rdReadMsg ∨ i = .rdReadMsgC) ∧ s.rb.queue = []) ∨
      (i = .rdRead ∧ s.rb.stop - s.rb.start < s.arg.toNat) ∨ (i = .rdReadByte ∧ s.rb.start = s.rb.stop)) →
    s.readerReady = true → s.rxCalm = true → s.rb.inv s.cfg.CAP = true → s.rd.next = none →
    s.cfg.rd.style ∈ variableStyles →
    s.rx.tail ≠ .ends → (∀ k, ∀ b ∈ s.rx.front k, b.getLsbD 7 = true) →
    exec i s = .next { s with
      rb := if i = .rdRead ∨ i = .rdReadByte then s.rb.drained else s.rb,
      rd := { s.rd with lock := .held s.txn.who }, rx := { s.rx with script := [] }, txn := .idle, rsp := none }) ∧
  (∀ (s t : State) (i : Instr), Instr.unit i = .reader → s.rxCalm = true → exec i s = .next t → t.rsp = none →
    s.rd.next = none ∧ s.cfg.rd.style ∈ variableStyles ∧ s.rx.tail ≠ .ends ∧
      ∀ k, ∀ b ∈ s.rx.front k, b.getLsbD 7 = true) ∧
  (∀ (s : State) (who r : Nat) (rest : List Event) (t : Transaction) (i : Instr), s.rd.lock = .held who →
    s.schedule = .grant r :: rest → s.due = none → s.waiting.find? (fun t => t.who == r) = some t →
    decode t.req.cmd = .command i → Instr.unit i = .reader →
    step s = .next { s with schedule := rest, rsp := none }) ∧
  (∀ (s : State) (who : Nat) (t : Transaction) (i : Instr), s.rd.lock = .held who → s.wr.lock = .free →
    s.schedule = [] → s.agenda = .ends → s.waiting = [t] → decode t.req.cmd = .command i →
    (Instr.unit i = .reader → step s = .next { s with rsp := none }) ∧
    (Instr.unit i = .writer → step s = exec i
      { s with
          wr := { s.wr with lock := .held t.who }, rsp := none, txn := t, waiting := [], turns := s.turns + 1 }) ∧
    (Instr.unit i = .codec → step s = exec i
      { s with rsp := none, txn := t, waiting := [], turns := s.turns + 1 })) ∧
  (∀ (s : State) (who : Nat) (rest : List Event), s.rd.lock = .held who → s.due = none →
    s.schedule = .cancel who :: rest →
    ∃ t, step s = .next t ∧ t.rsp = some ⟨who, { status := .cancelled }⟩ ∧
      t.rd = { s.rd with next := t.rd.next, lock := .free, poisoned := true } ∧ t.rb.inv s.cfg.CAP = true ∧
      t = { s with
        schedule := rest, rb := t.rb, rd := t.rd, rsp := t.rsp, txn := .idle, freeIdx := t.freeIdx }) ∧
  (∀ (s : State) (who n : Nat) (why : Interruption) (moves sc tx : List Answer) (rest : List Event),
    s.rd.lock = .held who → s.due = none → s.rx.script = [] → (why = .cancelled ∨ why = .ioFail) →
    moves.all Answer.isMove = true → s.schedule = .answers (moves ++ .interrupt n why :: sc) tx :: rest →
    ∃ t, step s = .next t ∧
      t.rsp = some ⟨who, { status := if why = .cancelled then .cancelled else .ioFail }⟩ ∧
      t.rd = { s.rd with next := t.rd.next, lock := .free, poisoned := true } ∧ t.rb.inv s.cfg.CAP = true ∧
      t.rx = { s.rx.drop (moves.length + min n 1) with script := sc } ∧
      t = { s with
        schedule := rest, rb := t.rb, rd := t.rd, rx := t.rx, tx := { s.tx with script := s.tx.script ++ tx },
        rsp := t.rsp, txn := .idle, freeIdx := t.freeIdx })

/-- R172: an RD command that finds no record leaves none, whatever its outcome, as long as no transport call
is cut short. -/
def Obligations.ReaderCommandsLeaveNoRecord : Prop :=
  ∀ (s t : State) (i : Instr),
    i ∈ [Instr.rdReadMsg, .rdReadMsgC, .rdRead, .rdReadByte, .rdPeekLen, .rdClose] →
    s.rxCalm = true → s.rb.queue = [] → exec i s = .next t → t.rb.queue = []

/-- R174: over a finite stream of whole frames, each of which fits behind what is buffered, RD.READMSG
commands return the payloads, one each, in order, and then no data for ever. -/
def Obligations.ReadMsgsReturnPayloadsInOrder : Prop :=
  ∀ (s : State) (ps : List Bytes), s.readerReady = true → s.rxCalm = true → s.rx.tail = .ends →
    s.rb.inv s.cfg.CAP = true → s.rb.queue = [] → s.rd.next = none →
    (∀ p ∈ ps, p.length ≤ s.cfg.CAP - s.rb.stop ∧ Style.within s.cfg.rd.style p.length = true) →
    s.rx.stream = (ps.map (frameOf s.cfg.rd)).flatten →
    ∀ k, readMsgs (ps.length + k) s = some (ps ++ List.replicate k [])

/-- R173: over a finite stream of whole frames with lengths from 1 to CAP, raw reads with counts of at least
1 all answer OK and return the payloads' bytes in order, whatever the counts; when the last one answers
EOS, all of them have come; and it does, once there have been more reads than bytes. -/
def Obligations.RawReadsReconstructStream : Prop :=
  ∀ (s : State) (ps : List Bytes) (counts : List Nat),
    s.readerReady = true → s.rxCalm = true → s.rx.tail = .ends →
    s.rb.inv s.cfg.CAP = true → s.rb.start = s.rb.stop → s.rb.queue = [] → s.rd.next = none →
    (∀ p ∈ ps, 1 ≤ p.length ∧ p.length ≤ s.cfg.CAP ∧ Style.within s.cfg.rd.style p.length = true) →
    s.rx.stream = (ps.map (frameOf s.cfg.rd)).flatten →
    (∀ c ∈ counts, 1 ≤ c ∧ c < 2 ^ 64) →
    ∃ (out : Bytes) (last : Bool), rawReads counts s = some (out, last) ∧
      out <+: ps.flatten ∧ (last = true → out = ps.flatten) ∧
      (ps.flatten.length < counts.length → last = true)

/-! ## WRITER -/

/-- R191, R192, R86: WR.WRITEMSG of a payload within the style's maximum appends its encoded length and the
payload to TX.stream, and nothing else changes. -/
def Obligations.WriteMsgAppendsFrame : Prop :=
  ∀ s : State, s.writerReady = true → s.txCalm = true → s.din.length ≤ 2147483647 →
    Style.within s.cfg.wr.style s.din.length = true →
    ∃ (pre : Bytes) (sc : List Answer),
      encodePrefix s.cfg.wr.style s.cfg.wr.order (BitVec.ofNat 64 s.din.length) = some pre ∧
      exec .wrWriteMsg s = .next (State.endCommand
        { s with tx := { s.tx with stream := s.tx.stream ++ pre ++ s.din, script := sc } } .writer {})

/-- R192, R214: WR.WRITEMSG of a payload longer than MaxLen answers LENGTH_EXCEEDS_PREFIX and writes nothing.
R193, R218 (b): WR.WRITE with count above len(DIN) answers OPERAND_RANGE and writes nothing. -/
def Obligations.WriteFaultsWriteNothing : Prop :=
  (∀ (s : State) (M : Nat), s.writerReady = true → (s.cfg.wr.style, M) ∈ boundedStyles → M < s.din.length →
    exec .wrWriteMsg s = .next (s.raise .writer .lengthExceedsPrefix)) ∧
  (∀ s : State, s.writerReady = true → s.din.length < s.arg.toNat →
    exec .wrWrite s = .next (s.raise .writer .operandRange))

/-- R193: WR.WRITE under an unbounded style emits one frame with the first count bytes. -/
def Obligations.WriteUnboundedIsOneFrame : Prop :=
  ∀ s : State, s.writerReady = true → s.txCalm = true → s.cfg.wr.style ∈ unboundedStyles →
    s.din.length ≤ 2147483647 → s.arg.toNat ≤ s.din.length →
    ∃ sc, exec .wrWrite s = .next (State.endCommand
      { s with tx := { s.tx with
          stream := s.tx.stream ++ frameOf s.cfg.wr (s.din.take s.arg.toNat), script := sc } } .writer {})

/-- R193: WR.WRITE under a style with maximum M emits, at its chunk k, the frame of bytes k * M up to
(k + 1) * M of the first count bytes; it ends with the chunk that reaches count, and otherwise frees the
lock and waits for its next chunk (how it waits is the model's choice, log 17). -/
def Obligations.WriteEmitsOneChunk : Prop :=
  ∀ (s : State) (M : Nat), s.writerReady = true → s.txCalm = true → (s.cfg.wr.style, M) ∈ boundedStyles →
    s.arg.toNat ≤ s.din.length →
    ∃ (sc : List Answer) (s' : State),
      s' = { s with tx := { s.tx with
        stream := s.tx.stream ++
          frameOf s.cfg.wr (((s.din.take s.arg.toNat).drop (s.txn.chunk * M)).take M),
        script := sc } } ∧
      exec .wrWrite s = .next
        (if s.arg.toNat ≤ (s.txn.chunk + 1) * M then s'.endCommand .writer {}
         else { s' with
           wr := { s.wr with lock := .free }, txn := .idle, rsp := none,
           waiting := s.waiting ++ [⟨s.txn.who, s.txn.req, s.txn.chunk + 1⟩] })

/-- R193, R199: one requester's WR.WRITE of count bytes under a style with maximum M, granted as often as it
has chunks, puts ceil(count / M) frames (one if count is 0) on the wire, all but the last with M bytes, and
answers OK. -/
def Obligations.WriteRunsToGreedyFrames : Prop :=
  ∀ (s : State) (t : Transaction) (M n : Nat) (rest : List Event),
    s.writerReady = true → s.txCalm = true → s.wr.lock = .free → (s.cfg.wr.style, M) ∈ boundedStyles →
    t.req.cmd = 0x0041#16 → t.chunk = 0 → t.req.arg.toNat ≤ t.req.din.length → s.waiting = [t] →
    n = max 1 ((t.req.arg.toNat + (M - 1)) / M) →
    s.schedule = List.replicate n (.grant t.who) ++ rest →
    ∃ u : State, Host.Core.run Sys2Proof.core n s = .next u ∧
      u.tx.stream = s.tx.stream ++ ((List.range n).map (fun k =>
        frameOf s.cfg.wr (((t.req.din.take t.req.arg.toNat).drop (k * M)).take M))).flatten ∧
      u.rsp = some ⟨t.who, {}⟩ ∧ u.waiting = [] ∧ u.schedule = rest ∧ u.wr.lock = .free

/-- R194, R101: WR.WRITEBYTE is WR.WRITEMSG of the one byte ARG[7:0], and appends a frame of length 1. -/
def Obligations.WriteByteIsWriteMsgOfOne : Prop :=
  (∀ s : State, exec .wrWriteByte s =
    exec .wrWriteMsg
      { s with txn := { s.txn with req := { s.txn.req with din := [s.arg.extractLsb' 0 8] } } }) ∧
  (∀ s : State, s.writerReady = true → s.txCalm = true →
    ∃ sc, exec .wrWriteByte s = .next (State.endCommand
      { s with tx := { s.tx with
          stream := s.tx.stream ++ frameOf s.cfg.wr [s.arg.extractLsb' 0 8], script := sc } } .writer {}))

/-- R195, R65: WR.FLUSH counts one flush of the transport and changes nothing else; R226 (c): a cancel has no
effect on it (log 2). R221: a transport that fails the flush poisons the writer and answers IO_FAIL; whether
that flush counts is not said by the spec, and is what the answer's number says (log 25). -/
def Obligations.FlushCountsOneFlush : Prop :=
  (∀ s : State, s.writerReady = true →
    (s.txCalm = true ∨ ∃ n sc, s.tx.script = .interrupt n .cancelled :: sc) →
    exec .wrFlush s = .next (State.endCommand
      { s with tx := { s.tx with flushes := s.tx.flushes + 1, script := s.tx.script.tail } } .writer {})) ∧
  (∀ (s : State) (n : Nat) (sc : List Answer), s.writerReady = true → s.tx.script = .interrupt n .ioFail :: sc →
    exec .wrFlush s = .next (State.raise
      { s with
          wr := { s.wr with poisoned := true },
          tx := { s.tx with flushes := if n = 0 then s.tx.flushes else s.tx.flushes + 1, script := sc } }
      .writer .ioFail))

/-- R226 (b), R221, R197: whatever strikes, but reset (which ResetLeavesFreshBlock covers), inside the
transmit calls of a WR.WRITEMSG, of a WR.WRITEBYTE or of a chunk of a WR.WRITE, TX.stream gains some front
part of its frame: either nothing has struck and the command goes on as over a calm transport, or it ends
CANCELLED or IO_FAIL and the writer is poisoned. A cancel or a failure inside any one call, one that is made
because the answers `moves` before it have left some of the frame, ends the command so: TX.stream has gained
what those accepted and n bytes more, or the whole frame. -/
def Obligations.InterruptedWriteLeavesFrontPart : Prop :=
  ∀ (s : State) (i : Instr) (p : Bytes), Emits s i p →
    (s.tx.script.all Answer.notReset = true →
      forgetScripts (exec i s) = forgetScripts (exec i { s with tx := { s.tx with script := [] } }) ∨
      ∃ (k : Nat) (st : Status) (sc : List Answer), (st = .cancelled ∨ st = .ioFail) ∧
        exec i s = .next (State.raise
          { s with
              wr := { s.wr with poisoned := true },
              tx := { s.tx with stream := s.tx.stream ++ (frameOf s.cfg.wr p).take k, script := sc } }
          .writer st)) ∧
    (∀ (moves sc : List Answer) (n : Nat) (why : Interruption), (why = .cancelled ∨ why = .ioFail) →
      moves.all Answer.isMove = true → s.tx.script = moves ++ .interrupt n why :: sc →
      accepted moves (frameOf s.cfg.wr p).length < (frameOf s.cfg.wr p).length →
      exec i s = .next (State.raise
        { s with
            wr := { s.wr with poisoned := true },
            tx := { s.tx with
              stream := s.tx.stream ++
                (frameOf s.cfg.wr p).take (accepted moves (frameOf s.cfg.wr p).length + n),
              script := sc } }
        .writer (if why = .cancelled then .cancelled else .ioFail)))

/-! ## Both ends -/

/-- S1, R134, R164, R192: with the same style and order at both ends, a message written and looped back into
an empty receive stream is what RD.READMSG returns, for every length within MaxLen and the buffer's room. -/
def Obligations.WriteThenReadReturnsMessage : Prop :=
  ∀ s : State, s.writerReady = true → s.readerReady = true → s.txCalm = true → s.rxCalm = true →
    s.cfg.rd.style = s.cfg.wr.style → s.cfg.rd.order = s.cfg.wr.order →
    s.rx.tail = .ends → s.rx.stream = [] → s.rb.inv s.cfg.CAP = true → s.rb.queue = [] → s.rd.next = none →
    Style.within s.cfg.wr.style s.din.length = true → s.din.length ≤ s.cfg.CAP - s.rb.stop →
    ∃ t u, exec .wrWriteMsg s = .next t ∧
      exec .rdReadMsg { t with rx := { t.rx with stream := t.tx.stream.drop s.tx.stream.length } } = .next u ∧
      u.rsp = some ⟨t.txn.who, { dout := s.din, cnt := BitVec.ofNat 32 s.din.length }⟩ ∧
      u.rx.stream = [] ∧ u.rd.next = none
end

