-- ==== Sys2Proof/Laws/Codec.lean ====
section
/-! SUPPORT. The CODEC's functions: lengths, bytes one by one, and when an encode cannot fault. -/

namespace Sys2Proof.Machine

@[simp] theorem leBytes_length (V : Scalar) (w : Nat) : (leBytes V w).length = w := by simp [leBytes]

theorem leBytes_getElem? (V : Scalar) (w k : Nat) (h : k < w) :
    (leBytes V w)[k]? = some (V.extractLsb' (8 * k) 8) := by
  simp [leBytes, h]

@[simp] theorem wireOrder_length (ord : ByteOrder) (bs : Bytes) : (wireOrder ord bs).length = bs.length := by
  cases ord <;> simp only [wireOrder]
  split <;> simp

/-- Wire order put back twice is where it began (R87, R88). -/
@[simp] theorem wireOrder_wireOrder (ord : ByteOrder) (bs : Bytes) : wireOrder ord (wireOrder ord bs) = bs := by
  cases ord <;> simp only [wireOrder]
  by_cases h : bs.length = 1 <;> simp [h]

/-- The value of bytes that a number of fewer bytes was cut into (R88). -/
theorem leNat_lt (bs : Bytes) : leNat bs < 2 ^ (8 * bs.length) := by
  induction bs with
  | nil => simp [leNat]
  | cons b r ih =>
    have := b.isLt
    simp only [leNat, List.length_cons]
    rw [show 8 * (r.length + 1) = 8 * r.length + 8 by omega, Nat.pow_add]
    omega

theorem varintLoop_ne_nil (n : Nat) (V : Scalar) : varintLoop (n + 1) V ≠ [] := by
  simp only [varintLoop]
  split <;> simp

theorem varintLoop_length_le (n : Nat) (V : Scalar) : (varintLoop n V).length ≤ n := by
  induction n generalizing V with
  | zero => simp [varintLoop]
  | succ n ih =>
    simp only [varintLoop]
    split
    · simpa using ih _
    · simp

/-- A fixed-width prefix has the style's width (R135). -/
theorem encodePrefix_length_fixed {st : Style} {ord : ByteOrder} {V : Scalar} {pre : Bytes} {w : Nat}
    (hw : Style.width st = some w) (h : encodePrefix st ord V = some pre) : pre.length = w := by
  simp only [encodePrefix, hw] at h
  split at h
  · cases h; simp
  · cases h

/-- A variable-width prefix has 1 to 10 bytes (R135). -/
theorem encodePrefix_length_variable {st : Style} {ord : ByteOrder} {V : Scalar} {pre : Bytes}
    (hw : Style.width st = none) (h : encodePrefix st ord V = some pre) :
    1 ≤ pre.length ∧ pre.length ≤ 10 := by
  simp only [encodePrefix, hw, Option.some.injEq] at h
  subst h
  exact ⟨List.length_pos_iff.2 (varintLoop_ne_nil 9 V), varintLoop_length_le 10 V⟩

/-- `EncodePrefix` of a frame's length cannot fault (R191). -/
theorem encodePrefix_within {st : Style} {n : Nat} (ord : ByteOrder) (h : Style.within st n = true)
    (hn : n ≤ PAYLOAD_MAX) : ∃ pre, encodePrefix st ord (resOf n) = some pre := by
  have hn' : n ≤ 2147483647 := hn
  have htn : (resOf n).toNat = n := by
    simp only [resOf, BitVec.toNat_ofNat]
    exact Nat.mod_eq_of_lt (by omega)
  have hti : (resOf n).toInt = (n : Int) := by
    rw [BitVec.toInt_eq_toNat_of_lt (by omega), htn]
  cases st <;> simp only [Style.within, Style.maxLen, decide_eq_true_eq] at h <;>
    simp only [encodePrefix, Style.width] <;>
    first
    | exact ⟨_, rfl⟩
    | (rw [if_pos]
       · exact ⟨_, rfl⟩
       · simp only [fitsWidth, Style.signed, if_true, Bool.false_eq_true, if_false, Bool.and_eq_true,
           decide_eq_true_eq, hti, htn]
         norm_num
         try omega)

/-! ## Decoding -/

/-- A byte that completes the prefix ends the decode. -/
theorem decodeLoop_complete {st : Style} {ord : ByteOrder} {got : Bytes} {x : Byte} {r : Bytes}
    (h : prefixComplete st (got ++ [x]) = true) :
    decodeLoop st ord got (x :: r) = some (prefixValue st ord (got ++ [x]), got.length + 1) := by
  simp [decodeLoop, h]

/-- A byte that does not complete it is taken. -/
theorem decodeLoop_more {st : Style} {ord : ByteOrder} {got : Bytes} {x : Byte} {r : Bytes}
    (h : prefixComplete st (got ++ [x]) = false) :
    decodeLoop st ord got (x :: r) = decodeLoop st ord (got ++ [x]) r := by
  simp [decodeLoop, h]

/-- A decode takes at least one byte and no more than there are (R122). -/
theorem decodeLoop_count {st : Style} {ord : ByteOrder} {got src : Bytes} {V : Scalar} {c : Nat}
    (h : decodeLoop st ord got src = some (V, c)) : got.length < c ∧ c ≤ got.length + src.length := by
  induction src generalizing got with
  | nil => simp [decodeLoop] at h
  | cons x r ih =>
    by_cases hc : prefixComplete st (got ++ [x]) = true
    · rw [decodeLoop_complete hc] at h
      simp only [Option.some.injEq, Prod.mk.injEq] at h
      simp only [List.length_cons]
      omega
    · rw [decodeLoop_more (by simpa using hc)] at h
      have := ih h
      simp only [List.length_append, List.length_cons, List.length_nil] at this ⊢
      omega

/-- What follows a complete prefix does not matter (R136). -/
theorem decodeLoop_append {st : Style} {ord : ByteOrder} {got src : Bytes} {V : Scalar} {c : Nat}
    (h : decodeLoop st ord got src = some (V, c)) (rest : Bytes) :
    decodeLoop st ord got (src ++ rest) = some (V, c) := by
  induction src generalizing got with
  | nil => simp [decodeLoop] at h
  | cons x r ih =>
    by_cases hc : prefixComplete st (got ++ [x]) = true
    · rw [decodeLoop_complete hc] at h
      rw [List.cons_append, decodeLoop_complete hc, h]
    · rw [decodeLoop_more (by simpa using hc)] at h
      rw [List.cons_append, decodeLoop_more (by simpa using hc)]
      exact ih h

end Sys2Proof.Machine
end

