-- ==== Sys2Proof/Laws/Memory.lean ====
section
/-! SUPPORT. The laws of the RBUF store: what is read after a write, and that every write keeps the canonical form. -/

namespace Sys2Proof.Machine

/-! ## One byte -/

theorem memRising_mono {lo lo' : Nat} {m : List Host.Cell} (h : memRising lo m = true) (hl : lo' ≤ lo) :
    memRising lo' m = true := by
  cases m with
  | nil => rfl
  | cons c r =>
    simp only [memRising, Bool.and_eq_true, decide_eq_true_eq] at h ⊢
    exact ⟨⟨by omega, h.1.2⟩, h.2⟩

/-- Below the first listed index nothing is listed. -/
theorem memGet_below {lo a : Nat} {m : List Host.Cell} (h : memRising lo m = true) (ha : a < lo) :
    memGet m a = unwrittenByte := by
  induction m generalizing lo with
  | nil => rfl
  | cons c r ih =>
    obtain ⟨x, y⟩ := c
    simp only [memRising, Bool.and_eq_true, decide_eq_true_eq] at h
    simp only [memGet]
    rw [if_neg (by omega)]
    exact ih h.2 (by omega)

/-- Read after write, at the index written and at every other one. -/
theorem memGet_memSet {lo : Nat} {m : List Host.Cell} (h : memRising lo m = true) (a : Nat) (b : Byte)
    (a' : Nat) : memGet (memSet m a b) a' = if a' = a then b else memGet m a' := by
  induction m generalizing lo with
  | nil =>
    simp only [memSet]
    by_cases hb : b = unwrittenByte <;> simp [memGet, hb, eq_comm (a := a)]
  | cons c r ih =>
    obtain ⟨x, y⟩ := c
    simp only [memRising, Bool.and_eq_true, decide_eq_true_eq] at h
    obtain ⟨⟨hlo, hy⟩, hr⟩ := h
    simp only [memSet]
    by_cases hax : a < x
    · by_cases hb : b = unwrittenByte
      · simp only [hax, hb, if_true]
        by_cases haa : a' = a
        · subst haa
          have : x ≠ a' := by omega
          simp [memGet, this, memGet_below hr (show a' < x + 1 by omega)]
        · simp [haa]
      · simp only [hax, hb, if_true, if_false]
        by_cases haa : a' = a
        · simp [memGet, haa]
        · have : a ≠ a' := fun e => haa e.symm
          simp [memGet, haa, this]
    · by_cases hex : a = x
      · subst hex
        by_cases hb : b = unwrittenByte
        · simp only [hb, if_true, lt_irrefl, if_false]
          by_cases haa : a' = a
          · subst haa; simp [memGet_below hr (show a' < a' + 1 by omega)]
          · have : a ≠ a' := fun e => haa e.symm
            simp [memGet, haa, this]
        · simp only [hb, if_true, if_false, lt_irrefl]
          by_cases haa : a' = a
          · simp [memGet, haa]
          · have : a ≠ a' := fun e => haa e.symm
            simp [memGet, haa, this]
      · simp only [hax, hex, if_false, memGet]
        by_cases hxa : x = a'
        · have : a' ≠ a := by omega
          simp [hxa, this]
        · simp only [hxa, if_false]
          exact ih hr

/-- A write of one byte keeps the canonical form. -/
theorem memRising_memSet {lo : Nat} {m : List Host.Cell} (h : memRising lo m = true) {a : Nat} (ha : lo ≤ a)
    (b : Byte) : memRising lo (memSet m a b) = true := by
  induction m generalizing lo with
  | nil => by_cases hb : b = unwrittenByte <;> simp [memSet, memRising, hb, ha]
  | cons c r ih =>
    obtain ⟨x, y⟩ := c
    simp only [memRising, Bool.and_eq_true, decide_eq_true_eq] at h
    obtain ⟨⟨hlo, hy⟩, hr⟩ := h
    simp only [memSet]
    by_cases hax : a < x
    · by_cases hb : b = unwrittenByte
      · simp [hax, hb, memRising, hlo, hr]
        simpa using hy
      · simp [hax, hb, memRising, ha, hr, Nat.succ_le_of_lt hax]
        simpa using hy
    · by_cases hex : a = x
      · subst hex
        by_cases hb : b = unwrittenByte
        · simpa [hb] using memRising_mono hr (by omega)
        · simp [hb, memRising, ha, hr]
      · simp only [hax, hex, if_false, memRising, Bool.and_eq_true, decide_eq_true_eq]
        exact ⟨⟨hlo, hy⟩, ih hr (by omega)⟩

/-- A write of one byte below `cap` lists nothing at or above `cap`. -/
theorem memSet_below_cap {cap : Nat} {m : List Host.Cell} (h : m.all (fun c => decide (c.1 < cap)) = true)
    {a : Nat} (ha : a < cap) (b : Byte) : (memSet m a b).all (fun c => decide (c.1 < cap)) = true := by
  induction m with
  | nil => by_cases hb : b = unwrittenByte <;> simp [memSet, hb, ha]
  | cons c r ih =>
    obtain ⟨x, y⟩ := c
    simp only [List.all_cons, Bool.and_eq_true, decide_eq_true_eq] at h
    simp only [memSet]
    split
    · split
      · simp only [List.all_cons, Bool.and_eq_true, decide_eq_true_eq]; exact h
      · simp only [List.all_cons, Bool.and_eq_true, decide_eq_true_eq]; exact ⟨ha, h⟩
    · split
      · split
        · exact h.2
        · simp only [List.all_cons, Bool.and_eq_true, decide_eq_true_eq]; exact ⟨ha, h.2⟩
      · simp only [List.all_cons, Bool.and_eq_true, decide_eq_true_eq]; exact ⟨h.1, ih h.2⟩

/-! ## Many bytes -/

@[simp] theorem memGetN_length (m : List Host.Cell) (a n : Nat) : (memGetN m a n).length = n := by
  induction n generalizing a with
  | zero => rfl
  | succ n ih => simp [memGetN, ih]

theorem memGetN_getElem? (m : List Host.Cell) (a n k : Nat) (hk : k < n) :
    (memGetN m a n)[k]? = some (memGet m (a + k)) := by
  induction n generalizing a k with
  | zero => omega
  | succ n ih =>
    cases k with
    | zero => simp [memGetN]
    | succ k =>
      simp only [memGetN, List.getElem?_cons_succ]
      rw [ih (a + 1) k (by omega)]
      congr 2; omega

theorem memGetN_append (m : List Host.Cell) (a i j : Nat) :
    memGetN m a (i + j) = memGetN m a i ++ memGetN m (a + i) j := by
  induction i generalizing a with
  | zero => simp [memGetN]
  | succ i ih =>
    rw [show i + 1 + j = (i + j) + 1 by omega]
    simp only [memGetN, List.cons_append]
    rw [ih (a + 1), show a + 1 + i = a + (i + 1) by omega]

theorem memGetN_take (m : List Host.Cell) (a n k : Nat) (h : k ≤ n) :
    (memGetN m a n).take k = memGetN m a k := by
  conv_lhs => rw [show n = k + (n - k) by omega, memGetN_append]
  rw [List.take_left' (by simp)]

theorem memGetN_drop (m : List Host.Cell) (a n k : Nat) (h : k ≤ n) :
    (memGetN m a n).drop k = memGetN m (a + k) (n - k) := by
  conv_lhs => rw [show n = k + (n - k) by omega, memGetN_append]
  rw [List.drop_left' (by simp)]

/-- Two stores that hold the same bytes in a range read the same there. -/
theorem memGetN_congr {m m' : List Host.Cell} {a a' n : Nat}
    (h : ∀ k, k < n → memGet m (a + k) = memGet m' (a' + k)) : memGetN m a n = memGetN m' a' n := by
  induction n generalizing a a' with
  | zero => rfl
  | succ n ih =>
    simp only [memGetN]
    congr 1
    · simpa using h 0 (by omega)
    · refine ih fun k hk => ?_
      have := h (k + 1) (by omega)
      rwa [show a + 1 + k = a + (k + 1) by omega, show a' + 1 + k = a' + (k + 1) by omega]

/-- A write of several bytes keeps the canonical form. -/
theorem memRising_memSetN {lo : Nat} {m : List Host.Cell} (h : memRising lo m = true) {a : Nat} (ha : lo ≤ a)
    (bs : Bytes) : memRising lo (memSetN m a bs) = true := by
  induction bs generalizing m a with
  | nil => exact h
  | cons b r ih => exact ih (memRising_memSet h ha b) (by omega)

theorem memSetN_below_cap {cap : Nat} {m : List Host.Cell} (h : m.all (fun c => decide (c.1 < cap)) = true)
    {a : Nat} (bs : Bytes) (ha : a + bs.length ≤ cap) :
    (memSetN m a bs).all (fun c => decide (c.1 < cap)) = true := by
  induction bs generalizing m a with
  | nil => exact h
  | cons b r ih =>
    simp only [List.length_cons] at ha
    exact ih (memSet_below_cap h (by omega) b) (by omega)

/-- A write inside the store keeps the store's canonical form (R13). -/
theorem memWf_memSetN {cap : Nat} {m : List Host.Cell} (h : memWf cap m = true) {a : Nat} (bs : Bytes)
    (ha : a + bs.length ≤ cap) : memWf cap (memSetN m a bs) = true := by
  simp only [memWf, Bool.and_eq_true] at h ⊢
  exact ⟨memRising_memSetN h.1 (by omega) bs, memSetN_below_cap h.2 bs ha⟩

/-- Read after a write of several bytes, inside and outside the range written. -/
theorem memGet_memSetN {lo : Nat} {m : List Host.Cell} (h : memRising lo m = true) {a : Nat} (ha : lo ≤ a)
    (bs : Bytes) (a' : Nat) :
    memGet (memSetN m a bs) a' = if a ≤ a' ∧ a' < a + bs.length then bs[a' - a]?.getD unwrittenByte
      else memGet m a' := by
  induction bs generalizing m a with
  | nil =>
    rw [if_neg (by simp only [List.length_nil]; omega)]; rfl
  | cons b r ih =>
    simp only [memSetN, List.length_cons]
    rw [ih (memRising_memSet h ha b) (by omega), memGet_memSet h]
    by_cases h1 : a' = a
    · subst h1; simp
    · by_cases h2 : a ≤ a' ∧ a' < a + (r.length + 1)
      · rw [if_pos (by omega), if_pos h2, show a' - a = (a' - (a + 1)) + 1 by omega,
          List.getElem?_cons_succ]
      · rw [if_neg (by omega), if_neg h2, if_neg h1]

/-- What was written is what is read. -/
theorem memGetN_memSetN_same {lo : Nat} {m : List Host.Cell} (h : memRising lo m = true) {a : Nat}
    (ha : lo ≤ a) (bs : Bytes) : memGetN (memSetN m a bs) a bs.length = bs := by
  refine List.ext_getElem? fun k => ?_
  by_cases hk : k < bs.length
  · rw [memGetN_getElem? _ _ _ _ hk, memGet_memSetN h ha, if_pos (by omega), Nat.add_sub_cancel_left,
      List.getElem?_eq_getElem hk]; rfl
  · rw [List.getElem?_eq_none (by simp; omega), List.getElem?_eq_none (by omega)]

/-- A read that misses the range written. -/
theorem memGetN_memSetN_other {lo : Nat} {m : List Host.Cell} (h : memRising lo m = true) {a : Nat}
    (ha : lo ≤ a) (bs : Bytes) {a' n : Nat} (hd : a' + n ≤ a ∨ a + bs.length ≤ a') :
    memGetN (memSetN m a bs) a' n = memGetN m a' n := by
  refine memGetN_congr fun k hk => ?_
  rw [memGet_memSetN h ha, if_neg (by omega)]

/-! ## Equal bytes, equal stores -/

/-- In canonical form, stores that read the same are the same data. -/
theorem mem_ext {lo lo' : Nat} {m m' : List Host.Cell} (h : memRising lo m = true)
    (h' : memRising lo' m' = true) (heq : ∀ a, memGet m a = memGet m' a) : m = m' := by
  induction m generalizing lo lo' m' with
  | nil =>
    cases m' with
    | nil => rfl
    | cons c r =>
      obtain ⟨x, y⟩ := c
      simp only [memRising, Bool.and_eq_true, decide_eq_true_eq, bne_iff_ne] at h'
      have := heq x
      simp [memGet] at this
      exact absurd this.symm (by simpa using h'.1.2)
  | cons c r ih =>
    obtain ⟨x, y⟩ := c
    cases m' with
    | nil =>
      simp only [memRising, Bool.and_eq_true, decide_eq_true_eq, bne_iff_ne] at h
      have := heq x
      simp [memGet] at this
      exact absurd this (by simpa using h.1.2)
    | cons c' r' =>
      obtain ⟨x', y'⟩ := c'
      simp only [memRising, Bool.and_eq_true, decide_eq_true_eq, bne_iff_ne] at h h'
      have hx : x = x' := by
        rcases Nat.lt_trichotomy x x' with hlt | he | hgt
        · have := heq x
          simp only [memGet, if_true] at this
          rw [if_neg (by omega), memGet_below h'.2 (by omega)] at this
          exact absurd this h.1.2
        · exact he
        · have := heq x'
          simp only [memGet, if_true] at this
          rw [if_neg (by omega), memGet_below h.2 (by omega)] at this
          exact absurd this.symm h'.1.2
      subst hx
      have hy : y = y' := by simpa [memGet] using heq x
      subst hy
      congr 1
      refine ih h.2 h'.2 fun a => ?_
      by_cases ha : x = a
      · subst ha; rw [memGet_below h.2 (by omega), memGet_below h'.2 (by omega)]
      · simpa [memGet, ha] using heq a

/-- Writing back what is there changes nothing. -/
theorem memSetN_memGetN {lo : Nat} {m : List Host.Cell} (h : memRising lo m = true) {a : Nat} (ha : lo ≤ a)
    (n : Nat) : memSetN m a (memGetN m a n) = m := by
  refine mem_ext (memRising_memSetN h ha _) h fun a' => ?_
  rw [memGet_memSetN h ha]
  split
  · rename_i hr
    rw [memGetN_length] at hr
    rw [memGetN_getElem? _ _ _ _ (by omega), show a + (a' - a) = a' by omega]; rfl
  · rfl

/-- The store of reset is in canonical form (R39). -/
theorem memWf_reset (cap : Nat) : memWf cap State.reset.rb.mem = true := rfl

end Sys2Proof.Machine
end

