-- ==== Sys2Proof/Laws/PerInstr.lean ====
section
/-! SUPPORT. The family RowWord: the command word of every instruction lies in its own row of the opcode map (R92), one lemma per constructor. -/

open Sys2Proof Sys2Proof.Machine

/-- The place of a command's row in the opcode map (R92), counted from 0. -/
def Sys2Proof.Laws.RowWord.row : Instr → Nat
  | .encI8 _ => 0
  | .encU8 _ => 1
  | .encI16 _ => 2
  | .encU16 _ => 3
  | .encI32 _ => 4
  | .encU32 _ => 5
  | .encI64 _ => 6
  | .encU64 _ => 7
  | .encVarint _ => 8
  | .encUvarint _ => 9
  | .decI8 _ => 10
  | .decU8 _ => 11
  | .decI16 _ => 12
  | .decU16 _ => 13
  | .decI32 _ => 14
  | .decU32 _ => 15
  | .decI64 _ => 16
  | .decU64 _ => 17
  | .decVarint _ => 18
  | .decUvarint _ => 19
  | .maxlen _ _ => 20
  | .rbFillRaw => 21
  | .rbFillMsg => 22
  | .rbDrain => 23
  | .rbDrainMsg => 24
  | .rbLen => 25
  | .rdReadMsg => 26
  | .rdReadMsgC => 27
  | .rdRead => 28
  | .rdReadByte => 29
  | .rdPeekLen => 30
  | .rdClose => 31
  | .wrWriteMsg => 32
  | .wrWrite => 33
  | .wrWriteByte => 34
  | .wrFlush => 35
  | .wrClose => 36

/-- The command word of `i` matches row `row i` of the opcode map and no other (R92, R97). -/
def Sys2Proof.Laws.RowWord.Statement (i : Instr) : Prop :=
  ∀ k r, tableRows[k]? = some r → (encode i &&& r.2 = r.1 ↔ k = Sys2Proof.Laws.RowWord.row i)

/-- The check behind the family, as a Boolean over the rows. -/
def Sys2Proof.Laws.RowWord.check (w : CommandWord) (k : Nat) : Nat → List (CommandWord × CommandWord) → Bool
  | _, [] => true
  | j, r :: rest => decide (w &&& r.2 = r.1 ↔ j = k) && Sys2Proof.Laws.RowWord.check w k (j + 1) rest

theorem Sys2Proof.Laws.RowWord.of_check {w : CommandWord} {k : Nat} (rows : List (CommandWord × CommandWord))
    (j : Nat) (h : Sys2Proof.Laws.RowWord.check w k j rows = true) :
    ∀ n r, rows[n]? = some r → (w &&& r.2 = r.1 ↔ j + n = k) := by
  induction rows generalizing j with
  | nil => intro n r hr; simp at hr
  | cons a rest ih =>
    simp only [Sys2Proof.Laws.RowWord.check, Bool.and_eq_true, decide_eq_true_eq] at h
    intro n r hr
    cases n with
    | zero => simp only [List.getElem?_cons_zero, Option.some.injEq] at hr; subst hr; exact h.1
    | succ n =>
      have := ih (j + 1) h.2 n r (by simpa using hr)
      rwa [show j + (n + 1) = j + 1 + n by omega]

theorem Sys2Proof.Laws.RowWord.of_row {i : Instr}
    (h : Sys2Proof.Laws.RowWord.check (encode i) (Sys2Proof.Laws.RowWord.row i) 0 tableRows = true) :
    Sys2Proof.Laws.RowWord.Statement i := by
  intro k r hr
  have := Sys2Proof.Laws.RowWord.of_check tableRows 0 h k r hr
  rwa [Nat.zero_add] at this

theorem Sys2Proof.Laws.RowWord.encI8 (ord : ByteOrder) : Sys2Proof.Laws.RowWord.Statement (.encI8 ord) := by
  cases ord <;> exact Sys2Proof.Laws.RowWord.of_row (by decide)

theorem Sys2Proof.Laws.RowWord.encU8 (ord : ByteOrder) : Sys2Proof.Laws.RowWord.Statement (.encU8 ord) := by
  cases ord <;> exact Sys2Proof.Laws.RowWord.of_row (by decide)

theorem Sys2Proof.Laws.RowWord.encI16 (ord : ByteOrder) : Sys2Proof.Laws.RowWord.Statement (.encI16 ord) := by
  cases ord <;> exact Sys2Proof.Laws.RowWord.of_row (by decide)

theorem Sys2Proof.Laws.RowWord.encU16 (ord : ByteOrder) : Sys2Proof.Laws.RowWord.Statement (.encU16 ord) := by
  cases ord <;> exact Sys2Proof.Laws.RowWord.of_row (by decide)

theorem Sys2Proof.Laws.RowWord.encI32 (ord : ByteOrder) : Sys2Proof.Laws.RowWord.Statement (.encI32 ord) := by
  cases ord <;> exact Sys2Proof.Laws.RowWord.of_row (by decide)

theorem Sys2Proof.Laws.RowWord.encU32 (ord : ByteOrder) : Sys2Proof.Laws.RowWord.Statement (.encU32 ord) := by
  cases ord <;> exact Sys2Proof.Laws.RowWord.of_row (by decide)

theorem Sys2Proof.Laws.RowWord.encI64 (ord : ByteOrder) : Sys2Proof.Laws.RowWord.Statement (.encI64 ord) := by
  cases ord <;> exact Sys2Proof.Laws.RowWord.of_row (by decide)

theorem Sys2Proof.Laws.RowWord.encU64 (ord : ByteOrder) : Sys2Proof.Laws.RowWord.Statement (.encU64 ord) := by
  cases ord <;> exact Sys2Proof.Laws.RowWord.of_row (by decide)

theorem Sys2Proof.Laws.RowWord.encVarint (ord : ByteOrder) : Sys2Proof.Laws.RowWord.Statement (.encVarint ord) := by
  cases ord <;> exact Sys2Proof.Laws.RowWord.of_row (by decide)

theorem Sys2Proof.Laws.RowWord.encUvarint (ord : ByteOrder) : Sys2Proof.Laws.RowWord.Statement (.encUvarint ord) := by
  cases ord <;> exact Sys2Proof.Laws.RowWord.of_row (by decide)

theorem Sys2Proof.Laws.RowWord.decI8 (ord : ByteOrder) : Sys2Proof.Laws.RowWord.Statement (.decI8 ord) := by
  cases ord <;> exact Sys2Proof.Laws.RowWord.of_row (by decide)

theorem Sys2Proof.Laws.RowWord.decU8 (ord : ByteOrder) : Sys2Proof.Laws.RowWord.Statement (.decU8 ord) := by
  cases ord <;> exact Sys2Proof.Laws.RowWord.of_row (by decide)

theorem Sys2Proof.Laws.RowWord.decI16 (ord : ByteOrder) : Sys2Proof.Laws.RowWord.Statement (.decI16 ord) := by
  cases ord <;> exact Sys2Proof.Laws.RowWord.of_row (by decide)

theorem Sys2Proof.Laws.RowWord.decU16 (ord : ByteOrder) : Sys2Proof.Laws.RowWord.Statement (.decU16 ord) := by
  cases ord <;> exact Sys2Proof.Laws.RowWord.of_row (by decide)

theorem Sys2Proof.Laws.RowWord.decI32 (ord : ByteOrder) : Sys2Proof.Laws.RowWord.Statement (.decI32 ord) := by
  cases ord <;> exact Sys2Proof.Laws.RowWord.of_row (by decide)

theorem Sys2Proof.Laws.RowWord.decU32 (ord : ByteOrder) : Sys2Proof.Laws.RowWord.Statement (.decU32 ord) := by
  cases ord <;> exact Sys2Proof.Laws.RowWord.of_row (by decide)

theorem Sys2Proof.Laws.RowWord.decI64 (ord : ByteOrder) : Sys2Proof.Laws.RowWord.Statement (.decI64 ord) := by
  cases ord <;> exact Sys2Proof.Laws.RowWord.of_row (by decide)

theorem Sys2Proof.Laws.RowWord.decU64 (ord : ByteOrder) : Sys2Proof.Laws.RowWord.Statement (.decU64 ord) := by
  cases ord <;> exact Sys2Proof.Laws.RowWord.of_row (by decide)

theorem Sys2Proof.Laws.RowWord.decVarint (ord : ByteOrder) : Sys2Proof.Laws.RowWord.Statement (.decVarint ord) := by
  cases ord <;> exact Sys2Proof.Laws.RowWord.of_row (by decide)

theorem Sys2Proof.Laws.RowWord.decUvarint (ord : ByteOrder) : Sys2Proof.Laws.RowWord.Statement (.decUvarint ord) := by
  cases ord <;> exact Sys2Proof.Laws.RowWord.of_row (by decide)

theorem Sys2Proof.Laws.RowWord.maxlen (ord : ByteOrder) (st : Style) :
    Sys2Proof.Laws.RowWord.Statement (.maxlen ord st) := by
  cases ord <;> cases st <;> exact Sys2Proof.Laws.RowWord.of_row (by decide)

theorem Sys2Proof.Laws.RowWord.rbFillRaw : Sys2Proof.Laws.RowWord.Statement .rbFillRaw :=
  Sys2Proof.Laws.RowWord.of_row (by decide)

theorem Sys2Proof.Laws.RowWord.rbFillMsg : Sys2Proof.Laws.RowWord.Statement .rbFillMsg :=
  Sys2Proof.Laws.RowWord.of_row (by decide)

theorem Sys2Proof.Laws.RowWord.rbDrain : Sys2Proof.Laws.RowWord.Statement .rbDrain :=
  Sys2Proof.Laws.RowWord.of_row (by decide)

theorem Sys2Proof.Laws.RowWord.rbDrainMsg : Sys2Proof.Laws.RowWord.Statement .rbDrainMsg :=
  Sys2Proof.Laws.RowWord.of_row (by decide)

theorem Sys2Proof.Laws.RowWord.rbLen : Sys2Proof.Laws.RowWord.Statement .rbLen :=
  Sys2Proof.Laws.RowWord.of_row (by decide)

theorem Sys2Proof.Laws.RowWord.rdReadMsg : Sys2Proof.Laws.RowWord.Statement .rdReadMsg :=
  Sys2Proof.Laws.RowWord.of_row (by decide)

theorem Sys2Proof.Laws.RowWord.rdReadMsgC : Sys2Proof.Laws.RowWord.Statement .rdReadMsgC :=
  Sys2Proof.Laws.RowWord.of_row (by decide)

theorem Sys2Proof.Laws.RowWord.rdRead : Sys2Proof.Laws.RowWord.Statement .rdRead :=
  Sys2Proof.Laws.RowWord.of_row (by decide)

theorem Sys2Proof.Laws.RowWord.rdReadByte : Sys2Proof.Laws.RowWord.Statement .rdReadByte :=
  Sys2Proof.Laws.RowWord.of_row (by decide)

theorem Sys2Proof.Laws.RowWord.rdPeekLen : Sys2Proof.Laws.RowWord.Statement .rdPeekLen :=
  Sys2Proof.Laws.RowWord.of_row (by decide)

theorem Sys2Proof.Laws.RowWord.rdClose : Sys2Proof.Laws.RowWord.Statement .rdClose :=
  Sys2Proof.Laws.RowWord.of_row (by decide)

theorem Sys2Proof.Laws.RowWord.wrWriteMsg : Sys2Proof.Laws.RowWord.Statement .wrWriteMsg :=
  Sys2Proof.Laws.RowWord.of_row (by decide)

theorem Sys2Proof.Laws.RowWord.wrWrite : Sys2Proof.Laws.RowWord.Statement .wrWrite :=
  Sys2Proof.Laws.RowWord.of_row (by decide)

theorem Sys2Proof.Laws.RowWord.wrWriteByte : Sys2Proof.Laws.RowWord.Statement .wrWriteByte :=
  Sys2Proof.Laws.RowWord.of_row (by decide)

theorem Sys2Proof.Laws.RowWord.wrFlush : Sys2Proof.Laws.RowWord.Statement .wrFlush :=
  Sys2Proof.Laws.RowWord.of_row (by decide)

theorem Sys2Proof.Laws.RowWord.wrClose : Sys2Proof.Laws.RowWord.Statement .wrClose :=
  Sys2Proof.Laws.RowWord.of_row (by decide)
end

