-- ==== Sys2Proof/Laws/Rbuf.lean ====
section
/-! SUPPORT. The buffer's invariants (R28) and, for each of its operations, one lemma that says everything it does. -/

namespace Sys2Proof.Machine

/-! ## The invariants as propositions -/

theorem recordsOrdered_iff (q : List (Nat × Nat)) :
    recordsOrdered q = true ↔ q.Pairwise (fun a b => a.1 + a.2 ≤ b.1) := by
  induction q with
  | nil => simp [recordsOrdered]
  | cons a q ih =>
    cases q with
    | nil => simp [recordsOrdered]
    | cons b r =>
      simp only [recordsOrdered, Bool.and_eq_true, decide_eq_true_eq, ih]
      rw [List.pairwise_cons (a := a)]
      constructor
      · rintro ⟨hab, hp⟩
        refine ⟨fun c hc => ?_, hp⟩
        rcases List.mem_cons.1 hc with rfl | hc
        · exact hab
        · have := (List.pairwise_cons.1 hp).1 c hc
          omega
      · rintro ⟨h, hp⟩
        exact ⟨h b (by simp), hp⟩

/-- I1 to I4 of R28 and the canonical form, as one proposition each. -/
structure RBuf.Ok (cap : Nat) (b : RBuf) : Prop where
  le : b.start ≤ b.stop
  fits : b.stop ≤ cap
  empty : b.start = b.stop → b.stop = 0
  inside : ∀ r ∈ b.queue, b.start ≤ r.1 ∧ r.1 + r.2 ≤ b.stop
  ordered : b.queue.Pairwise (fun a b => a.1 + a.2 ≤ b.1)
  rising : memRising 0 b.mem = true
  below : b.mem.all (fun c => decide (c.1 < cap)) = true

theorem RBuf.inv_iff (cap : Nat) (b : RBuf) : b.inv cap = true ↔ b.Ok cap := by
  constructor
  · intro h
    simp only [RBuf.inv, memWf, Bool.and_eq_true, Bool.or_eq_true, decide_eq_true_eq, recordsOrdered_iff,
      List.all_eq_true] at h
    obtain ⟨⟨⟨⟨⟨h1, h2⟩, h3⟩, h4⟩, h5⟩, h6, h7⟩ := h
    exact ⟨h1, h2, fun e => by omega, h4, h5, h6, by simpa [List.all_eq_true] using h7⟩
  · intro ⟨h1, h2, h3, h4, h5, h6, h7⟩
    simp only [RBuf.inv, memWf, Bool.and_eq_true, Bool.or_eq_true, decide_eq_true_eq, recordsOrdered_iff,
      List.all_eq_true]
    refine ⟨⟨⟨⟨⟨h1, h2⟩, ?_⟩, h4⟩, h5⟩, h6, by simpa [List.all_eq_true] using h7⟩
    by_cases e : b.start = b.stop
    · right; have := h3 e; omega
    · exact .inl e

theorem RBuf.empty_inv (cap : Nat) : RBuf.empty.inv cap = true := by
  rw [RBuf.inv_iff]
  exact ⟨le_refl _, Nat.zero_le _, fun _ => rfl, by simp [RBuf.empty], List.Pairwise.nil, rfl, rfl⟩

@[simp] theorem RBuf.unread_length (b : RBuf) : b.unread.length = b.stop - b.start := memGetN_length ..

/-! ## Fill (R141) -/

/-- A fill that fits. -/
theorem RBuf.fill_fits {cap : Nat} {b : RBuf} (h : b.inv cap = true) {bs : Bytes}
    (hs : bs.length ≤ cap - b.stop) (asMsg : Bool) :
    b.fill cap bs asMsg = .ok
      { mem := memSetN b.mem b.stop bs, start := b.start, stop := b.stop + bs.length,
        queue := if asMsg then b.queue ++ [(b.stop, bs.length)] else b.queue } := by
  have := (RBuf.inv_iff cap b).1 h
  have hcap := this.fits
  simp only [RBuf.fill, RBuf.write]
  rw [if_neg (by omega), if_pos (by omega)]

/-- A fill that does not fit. -/
theorem RBuf.fill_exhausted {cap : Nat} {b : RBuf} {bs : Bytes} (hs : cap - b.stop < bs.length)
    (asMsg : Bool) : b.fill cap bs asMsg = .exhausted := by
  simp [RBuf.fill, hs]

/-- A fill keeps the invariants (R153). -/
theorem RBuf.fill_inv {cap : Nat} {b b' : RBuf} (h : b.inv cap = true) {bs : Bytes} {asMsg : Bool}
    (hf : b.fill cap bs asMsg = .ok b') : b'.inv cap = true := by
  have hk := (RBuf.inv_iff cap b).1 h
  by_cases hs : bs.length ≤ cap - b.stop
  · rw [RBuf.fill_fits h hs] at hf
    cases hf
    rw [RBuf.inv_iff]
    obtain ⟨h1, h2, h3, h4, h5, h6, h7⟩ := hk
    refine ⟨by dsimp only; omega, by dsimp only; omega, ?_, ?_, ?_,
      memRising_memSetN h6 (Nat.zero_le _) bs, memSetN_below_cap h7 bs (by omega)⟩
    · intro e
      dsimp only at e ⊢
      have := h3 (by omega)
      omega
    · intro r hr
      dsimp only at hr ⊢
      split at hr
      · rcases List.mem_append.1 hr with hr | hr
        · have := h4 r hr; omega
        · simp only [List.mem_singleton] at hr; subst hr; dsimp only; omega
      · have := h4 r hr; omega
    · dsimp only
      split
      · rw [List.pairwise_append]
        refine ⟨h5, by simp, fun a ha c hc => ?_⟩
        simp only [List.mem_singleton] at hc
        subst hc
        exact (h4 a ha).2
      · exact h5
  · rw [RBuf.fill_exhausted (by omega)] at hf
    cases hf

/-- Inside the invariants a fill never leaves the store (R13). -/
theorem RBuf.fill_inside {cap : Nat} {b : RBuf} (h : b.inv cap = true) (bs : Bytes) (asMsg : Bool) :
    b.fill cap bs asMsg ≠ .outside := by
  by_cases hs : bs.length ≤ cap - b.stop
  · rw [RBuf.fill_fits h hs]; nofun
  · rw [RBuf.fill_exhausted (by omega)]; nofun

/-! ## Raw drain (R146, R149) -/

/-- A drain that leaves something unread, or takes nothing. -/
theorem RBuf.drain_part {cap : Nat} {b : RBuf} (h : b.inv cap = true) {m : Nat}
    (hm : m < b.stop - b.start ∨ b.start = b.stop) :
    b.drain cap m = some (b.unread.take m,
      { b with
          start := b.start + min m (b.stop - b.start),
          queue := b.queue.filter (fun r => b.start + min m (b.stop - b.start) ≤ r.1) }) := by
  obtain ⟨h1, h2, h3, h4, h5, h6, h7⟩ := (RBuf.inv_iff cap b).1 h
  simp only [RBuf.drain, RBuf.read]
  rw [if_pos (by omega)]
  simp only [Option.some.injEq, Prod.mk.injEq]
  constructor
  · rw [RBuf.unread]
    rcases Nat.lt_or_ge m (b.stop - b.start) with hlt | hge
    · rw [Nat.min_eq_left (by omega), memGetN_take _ _ _ _ (by omega)]
    · rw [Nat.min_eq_right hge, List.take_of_length_le (by simpa using hge)]
  · rw [RBuf.normalize, if_neg]
    rintro ⟨e, ne⟩
    dsimp only at e ne
    rcases hm with hm | hm
    · omega
    · have := h3 hm; omega

/-- A drain of everything that is unread, when something is. -/
theorem RBuf.drain_all {cap : Nat} {b : RBuf} (h : b.inv cap = true) {m : Nat}
    (hm : b.stop - b.start ≤ m) (hne : b.start < b.stop) :
    b.drain cap m = some (b.unread,
      { mem := b.mem, start := 0, stop := 0,
        queue := (b.queue.filter (fun r => b.stop ≤ r.1)).map (fun r => (0, r.2)) }) := by
  obtain ⟨h1, h2, h3, h4, h5, h6, h7⟩ := (RBuf.inv_iff cap b).1 h
  simp only [RBuf.drain, RBuf.read, Nat.min_eq_right hm]
  rw [if_pos (by omega)]
  simp only [Option.some.injEq, Prod.mk.injEq]
  refine ⟨rfl, ?_⟩
  rw [RBuf.normalize, if_pos ⟨by dsimp only; omega, by dsimp only; omega⟩]
  simp only [RBuf.mk.injEq, true_and]
  rw [show b.start + (b.stop - b.start) = b.stop by omega]

/-- A drain keeps the invariants and the store (R153). -/
theorem RBuf.drain_inv {cap : Nat} {b b' : RBuf} (h : b.inv cap = true) {m : Nat} {out : Bytes}
    (hd : b.drain cap m = some (out, b')) :
    b'.inv cap = true ∧ b'.mem = b.mem ∧ out = b.unread.take m ∧ b'.unread = b.unread.drop m := by
  obtain ⟨h1, h2, h3, h4, h5, h6, h7⟩ := (RBuf.inv_iff cap b).1 h
  by_cases hm : m < b.stop - b.start ∨ b.start = b.stop
  · rw [RBuf.drain_part h hm] at hd
    simp only [Option.some.injEq, Prod.mk.injEq] at hd
    obtain ⟨rfl, rfl⟩ := hd
    refine ⟨?_, rfl, rfl, ?_⟩
    · rw [RBuf.inv_iff]
      refine ⟨by dsimp only; omega, h2, fun e => by dsimp only at e ⊢; omega, ?_, h5.filter _, h6, h7⟩
      intro r hr
      simp only [List.mem_filter, decide_eq_true_eq] at hr
      exact ⟨hr.2, (h4 r hr.1).2⟩
    · simp only [RBuf.unread]
      rcases hm with hm | hm
      · rw [memGetN_drop _ _ _ _ (by omega), Nat.min_eq_left (by omega)]; congr 1; omega
      · simp [hm, memGetN]
  · rw [not_or, Nat.not_lt] at hm
    rw [RBuf.drain_all h hm.1 (by omega)] at hd
    simp only [Option.some.injEq, Prod.mk.injEq] at hd
    obtain ⟨rfl, rfl⟩ := hd
    refine ⟨?_, rfl, by rw [List.take_of_length_le (by simpa using hm.1)], ?_⟩
    · rw [RBuf.inv_iff]
      have hz : ∀ r ∈ b.queue.filter (fun r => b.stop ≤ r.1), r.2 = 0 := by
        intro r hr
        simp only [List.mem_filter, decide_eq_true_eq] at hr
        have := h4 r hr.1
        omega
      refine ⟨le_refl _, Nat.zero_le _, fun _ => rfl, ?_, ?_, h6, h7⟩
      · intro r hr
        obtain ⟨r', hr', rfl⟩ := List.mem_map.1 hr
        simp [hz r' hr']
      · rw [List.pairwise_map]
        refine List.Pairwise.imp_of_mem (R := fun _ _ => True) ?_ (List.pairwise_of_forall (by simp))
        intro a c ha _ _
        simp [hz a ha]
    · rw [List.drop_of_length_le (by simpa using hm.1)]; rfl

/-- Inside the invariants a drain never leaves the store (R13). -/
theorem RBuf.drain_isSome {cap : Nat} {b : RBuf} (h : b.inv cap = true) (m : Nat) :
    ∃ out b', b.drain cap m = some (out, b') := by
  by_cases hm : m < b.stop - b.start ∨ b.start = b.stop
  · exact ⟨_, _, RBuf.drain_part h hm⟩
  · rw [not_or, Nat.not_lt] at hm
    have := ((RBuf.inv_iff cap b).1 h).le
    exact ⟨_, _, RBuf.drain_all h hm.1 (by omega)⟩

/-! ## Message drain (R150) -/

/-- No record: nothing happens. -/
@[simp] theorem RBuf.drainMsg_nil {cap : Nat} {b : RBuf} (hq : b.queue = []) :
    b.drainMsg cap = some ([], b) := by
  simp [RBuf.drainMsg, hq]

/-- The head record at the front. -/
theorem RBuf.drainMsg_front {cap : Nat} {b : RBuf} (h : b.inv cap = true) {l : Nat} {q : List (Nat × Nat)}
    (hq : b.queue = (b.start, l) :: q) :
    b.drainMsg cap = some (memGetN b.mem b.start l,
      RBuf.normalize { b with start := b.start + l, queue := q }) := by
  obtain ⟨h1, h2, h3, h4, h5, h6, h7⟩ := (RBuf.inv_iff cap b).1 h
  have := h4 (b.start, l) (by simp [hq])
  simp only [RBuf.drainMsg, hq, RBuf.read]
  rw [if_pos (by dsimp only at this; omega)]
  simp

/-- The head record behind raw bytes: the gap closes. -/
theorem RBuf.drainMsg_behind {cap : Nat} {b : RBuf} (h : b.inv cap = true) {o l : Nat}
    {q : List (Nat × Nat)} (hq : b.queue = (o, l) :: q) (ho : o ≠ b.start) :
    b.drainMsg cap = some (memGetN b.mem o l,
      { mem := memSetN b.mem o (memGetN b.mem (o + l) (b.stop - (o + l))),
        start := b.start, stop := b.stop - l, queue := q.map (fun r => (r.1 - l, r.2)) }) := by
  obtain ⟨h1, h2, h3, h4, h5, h6, h7⟩ := (RBuf.inv_iff cap b).1 h
  have hr := h4 (o, l) (by simp [hq])
  dsimp only at hr
  simp only [RBuf.drainMsg, hq, RBuf.read, RBuf.closeGap, RBuf.write]
  rw [if_pos (by omega)]
  simp only
  rw [if_neg ho, if_pos (by omega)]
  simp only [memGetN_length]
  rw [if_pos (by omega)]
  simp only [Option.some.injEq, Prod.mk.injEq, true_and]
  rw [RBuf.normalize, if_neg (by dsimp only; omega)]

/-- A message drain keeps the invariants (R153). -/
theorem RBuf.drainMsg_inv {cap : Nat} {b b' : RBuf} (h : b.inv cap = true) {out : Bytes}
    (hd : b.drainMsg cap = some (out, b')) : b'.inv cap = true := by
  obtain ⟨h1, h2, h3, h4, h5, h6, h7⟩ := (RBuf.inv_iff cap b).1 h
  rcases hq : b.queue with _ | ⟨⟨o, l⟩, q⟩
  · rw [RBuf.drainMsg_nil hq] at hd
    cases hd
    exact h
  · have hr := h4 (o, l) (by simp [hq])
    dsimp only at hr
    rw [hq, List.pairwise_cons] at h5
    have hq4 : ∀ r ∈ q, b.start ≤ r.1 ∧ r.1 + r.2 ≤ b.stop := fun r hr => h4 r (by simp [hq, hr])
    by_cases ho : o = b.start
    · subst ho
      rw [RBuf.drainMsg_front h hq] at hd
      cases hd
      rw [RBuf.inv_iff, RBuf.normalize]
      split
      · rename_i hc
        dsimp only at hc
        refine ⟨le_refl _, Nat.zero_le _, fun _ => rfl, ?_, ?_, h6, h7⟩
        · intro r hr'
          obtain ⟨r', hm, rfl⟩ := List.mem_map.1 hr'
          have := hq4 r' hm
          have := h5.1 r' hm
          dsimp only at this ⊢
          omega
        · rw [List.pairwise_map]
          refine List.Pairwise.imp_of_mem (R := fun _ _ => True) ?_ (List.pairwise_of_forall (by simp))
          intro a c ha _ _
          have := hq4 a ha
          have := h5.1 a ha
          dsimp only at this ⊢
          omega
      · rename_i hc
        dsimp only at hc
        refine ⟨by dsimp only; omega, h2, fun e => by dsimp only at e ⊢; omega, ?_, h5.2, h6, h7⟩
        intro r hr'
        have := h5.1 r hr'
        have := hq4 r hr'
        dsimp only at *
        omega
    · rw [RBuf.drainMsg_behind h hq ho] at hd
      cases hd
      rw [RBuf.inv_iff]
      refine ⟨by dsimp only; omega, by dsimp only; omega, fun e => by dsimp only at e ⊢; omega, ?_, ?_,
        memRising_memSetN h6 (Nat.zero_le _) _, memSetN_below_cap h7 _ (by rw [memGetN_length]; omega)⟩
      · intro r hr'
        obtain ⟨r', hm, rfl⟩ := List.mem_map.1 hr'
        have := h5.1 r' hm
        have := hq4 r' hm
        dsimp only at *
        omega
      · rw [List.pairwise_map]
        refine h5.2.imp_of_mem ?_
        intro a c ha hc hac
        have := h5.1 a ha
        dsimp only at *
        omega

/-- Inside the invariants a message drain never leaves the store (R13). -/
theorem RBuf.drainMsg_isSome {cap : Nat} {b : RBuf} (h : b.inv cap = true) :
    ∃ out b', b.drainMsg cap = some (out, b') := by
  rcases hq : b.queue with _ | ⟨⟨o, l⟩, q⟩
  · exact ⟨_, _, RBuf.drainMsg_nil hq⟩
  · by_cases ho : o = b.start
    · subst ho; exact ⟨_, _, RBuf.drainMsg_front h hq⟩
    · exact ⟨_, _, RBuf.drainMsg_behind h hq ho⟩

/-- A message drain never lengthens the queue, and never adds a record (R150). -/
theorem RBuf.drainMsg_queue_length {cap : Nat} {b b' : RBuf} {out : Bytes}
    (hd : b.drainMsg cap = some (out, b')) : b'.queue.length = b.queue.length - 1 := by
  simp only [RBuf.drainMsg] at hd
  split at hd
  · cases hd; simp_all
  · rename_i o l rest hq
    split at hd
    · cases hd
    · split at hd
      · cases hd
        simp only [RBuf.normalize]
        split <;> simp [hq]
      · simp only [RBuf.closeGap] at hd
        repeat' (split at hd)
        all_goals first | (cases hd; done) | skip
        all_goals
          cases hd
          simp only [RBuf.normalize, RBuf.write] at *
          repeat' (split at *)
          all_goals simp_all
          all_goals grind

/-! ## The operations inside a command -/

/-- `rbFill` inside the invariants. -/
theorem rbFill_fits {s : State} (h : s.rb.inv s.cfg.CAP = true) {bs : Bytes}
    (hs : bs.length ≤ s.cfg.CAP - s.rb.stop) (asMsg : Bool) :
    rbFill bs asMsg s = .done .unit { s with rb :=
      { mem := memSetN s.rb.mem s.rb.stop bs, start := s.rb.start, stop := s.rb.stop + bs.length,
        queue := if asMsg then s.rb.queue ++ [(s.rb.stop, bs.length)] else s.rb.queue } } := by
  simp [rbFill, RBuf.fill_fits h hs]

theorem rbFill_exhausted {s : State} {bs : Bytes} (hs : s.cfg.CAP - s.rb.stop < bs.length) (asMsg : Bool) :
    rbFill bs asMsg s = .raised .capacityExhausted s := by
  simp [rbFill, RBuf.fill_exhausted hs]

/-- `rbDrain` inside the invariants. -/
theorem rbDrain_inv {s : State} (h : s.rb.inv s.cfg.CAP = true) (m : Nat) :
    ∃ b, rbDrain m s = .done (s.rb.unread.take m) { s with rb := b } ∧ b.inv s.cfg.CAP = true ∧
      b.mem = s.rb.mem ∧ b.unread = s.rb.unread.drop m := by
  obtain ⟨out, b, hd⟩ := RBuf.drain_isSome h m
  obtain ⟨h1, h2, rfl, h4⟩ := RBuf.drain_inv h hd
  exact ⟨b, by simp [rbDrain, hd], h1, h2, h4⟩

/-- `rbDrainMsg` inside the invariants. -/
theorem rbDrainMsg_inv {s : State} (h : s.rb.inv s.cfg.CAP = true) :
    ∃ out b, rbDrainMsg s = .done out { s with rb := b } ∧ s.rb.drainMsg s.cfg.CAP = some (out, b) ∧
      b.inv s.cfg.CAP = true := by
  obtain ⟨out, b, hd⟩ := RBuf.drainMsg_isSome h
  exact ⟨out, b, by simp [rbDrainMsg, hd], hd, RBuf.drainMsg_inv h hd⟩

@[simp] theorem rbDrainMsg_nil {s : State} (hq : s.rb.queue = []) : rbDrainMsg s = .done [] s := by
  simp [rbDrainMsg, RBuf.drainMsg_nil hq]

end Sys2Proof.Machine
end

