-- ==== Sys2Proof/Laws/State.lean ====
section
/-! SUPPORT. One lemma per field of State per update, so that no later proof unfolds a record update. -/

namespace Sys2Proof.Machine

/-! ## `setLock` -/

@[simp] theorem State.setLock_cfg (s : State) (u : BlockUnit) (l : Lock) : (s.setLock u l).cfg = s.cfg := by cases u <;> rfl
@[simp] theorem State.setLock_rb (s : State) (u : BlockUnit) (l : Lock) : (s.setLock u l).rb = s.rb := by cases u <;> rfl
@[simp] theorem State.setLock_rd (s : State) (u : BlockUnit) (l : Lock) : (s.setLock u l).rd = if u = .reader then { s.rd with lock := l } else s.rd := by cases u <;> rfl
@[simp] theorem State.setLock_wr (s : State) (u : BlockUnit) (l : Lock) : (s.setLock u l).wr = if u = .writer then { s.wr with lock := l } else s.wr := by cases u <;> rfl
@[simp] theorem State.setLock_rx (s : State) (u : BlockUnit) (l : Lock) : (s.setLock u l).rx = s.rx := by cases u <;> rfl
@[simp] theorem State.setLock_tx (s : State) (u : BlockUnit) (l : Lock) : (s.setLock u l).tx = s.tx := by cases u <;> rfl
@[simp] theorem State.setLock_extraRequesters (s : State) (u : BlockUnit) (l : Lock) : (s.setLock u l).extraRequesters = s.extraRequesters := by cases u <;> rfl
@[simp] theorem State.setLock_rxEofSticky (s : State) (u : BlockUnit) (l : Lock) : (s.setLock u l).rxEofSticky = s.rxEofSticky := by cases u <;> rfl
@[simp] theorem State.setLock_waiting (s : State) (u : BlockUnit) (l : Lock) : (s.setLock u l).waiting = s.waiting := by cases u <;> rfl
@[simp] theorem State.setLock_txn (s : State) (u : BlockUnit) (l : Lock) : (s.setLock u l).txn = s.txn := by cases u <;> rfl
@[simp] theorem State.setLock_rsp (s : State) (u : BlockUnit) (l : Lock) : (s.setLock u l).rsp = s.rsp := by cases u <;> rfl
@[simp] theorem State.setLock_schedule (s : State) (u : BlockUnit) (l : Lock) : (s.setLock u l).schedule = s.schedule := by cases u <;> rfl
@[simp] theorem State.setLock_agenda (s : State) (u : BlockUnit) (l : Lock) : (s.setLock u l).agenda = s.agenda := by cases u <;> rfl
@[simp] theorem State.setLock_turns (s : State) (u : BlockUnit) (l : Lock) : (s.setLock u l).turns = s.turns := by cases u <;> rfl
@[simp] theorem State.setLock_freeIdx (s : State) (u : BlockUnit) (l : Lock) : (s.setLock u l).freeIdx = s.freeIdx := by cases u <;> rfl

/-! ## `endCommand` -/

@[simp] theorem State.endCommand_cfg (s : State) (u : BlockUnit) (r : Response) : (s.endCommand u r).cfg = s.cfg := by cases u <;> rfl
@[simp] theorem State.endCommand_rb (s : State) (u : BlockUnit) (r : Response) : (s.endCommand u r).rb = s.rb := by cases u <;> rfl
@[simp] theorem State.endCommand_rd (s : State) (u : BlockUnit) (r : Response) : (s.endCommand u r).rd = if u = .reader then { s.rd with lock := .free } else s.rd := by cases u <;> rfl
@[simp] theorem State.endCommand_wr (s : State) (u : BlockUnit) (r : Response) : (s.endCommand u r).wr = if u = .writer then { s.wr with lock := .free } else s.wr := by cases u <;> rfl
@[simp] theorem State.endCommand_rx (s : State) (u : BlockUnit) (r : Response) : (s.endCommand u r).rx = s.rx := by cases u <;> rfl
@[simp] theorem State.endCommand_tx (s : State) (u : BlockUnit) (r : Response) : (s.endCommand u r).tx = s.tx := by cases u <;> rfl
@[simp] theorem State.endCommand_extraRequesters (s : State) (u : BlockUnit) (r : Response) : (s.endCommand u r).extraRequesters = s.extraRequesters := by cases u <;> rfl
@[simp] theorem State.endCommand_rxEofSticky (s : State) (u : BlockUnit) (r : Response) : (s.endCommand u r).rxEofSticky = s.rxEofSticky := by cases u <;> rfl
@[simp] theorem State.endCommand_waiting (s : State) (u : BlockUnit) (r : Response) : (s.endCommand u r).waiting = s.waiting := by cases u <;> rfl
@[simp] theorem State.endCommand_txn (s : State) (u : BlockUnit) (r : Response) : (s.endCommand u r).txn = .idle := by cases u <;> rfl
@[simp] theorem State.endCommand_rsp (s : State) (u : BlockUnit) (r : Response) : (s.endCommand u r).rsp = some ⟨s.txn.who, r⟩ := by cases u <;> rfl
@[simp] theorem State.endCommand_schedule (s : State) (u : BlockUnit) (r : Response) : (s.endCommand u r).schedule = s.schedule := by cases u <;> rfl
@[simp] theorem State.endCommand_agenda (s : State) (u : BlockUnit) (r : Response) : (s.endCommand u r).agenda = s.agenda := by cases u <;> rfl
@[simp] theorem State.endCommand_turns (s : State) (u : BlockUnit) (r : Response) : (s.endCommand u r).turns = s.turns := by cases u <;> rfl
@[simp] theorem State.endCommand_freeIdx (s : State) (u : BlockUnit) (r : Response) : (s.endCommand u r).freeIdx = s.freeIdx := by cases u <;> rfl

/-! ## `raise` -/

@[simp] theorem State.raise_cfg (s : State) (u : BlockUnit) (st : Status) : (s.raise u st).cfg = s.cfg := by cases u <;> rfl
@[simp] theorem State.raise_rb (s : State) (u : BlockUnit) (st : Status) : (s.raise u st).rb = s.rb := by cases u <;> rfl
@[simp] theorem State.raise_rd (s : State) (u : BlockUnit) (st : Status) : (s.raise u st).rd = if u = .reader then { s.rd with lock := .free } else s.rd := by cases u <;> rfl
@[simp] theorem State.raise_wr (s : State) (u : BlockUnit) (st : Status) : (s.raise u st).wr = if u = .writer then { s.wr with lock := .free } else s.wr := by cases u <;> rfl
@[simp] theorem State.raise_rx (s : State) (u : BlockUnit) (st : Status) : (s.raise u st).rx = s.rx := by cases u <;> rfl
@[simp] theorem State.raise_tx (s : State) (u : BlockUnit) (st : Status) : (s.raise u st).tx = s.tx := by cases u <;> rfl
@[simp] theorem State.raise_extraRequesters (s : State) (u : BlockUnit) (st : Status) : (s.raise u st).extraRequesters = s.extraRequesters := by cases u <;> rfl
@[simp] theorem State.raise_rxEofSticky (s : State) (u : BlockUnit) (st : Status) : (s.raise u st).rxEofSticky = s.rxEofSticky := by cases u <;> rfl
@[simp] theorem State.raise_waiting (s : State) (u : BlockUnit) (st : Status) : (s.raise u st).waiting = s.waiting := by cases u <;> rfl
@[simp] theorem State.raise_txn (s : State) (u : BlockUnit) (st : Status) : (s.raise u st).txn = .idle := by cases u <;> rfl
@[simp] theorem State.raise_rsp (s : State) (u : BlockUnit) (st : Status) : (s.raise u st).rsp = some ⟨s.txn.who, .fault st⟩ := by cases u <;> rfl
@[simp] theorem State.raise_schedule (s : State) (u : BlockUnit) (st : Status) : (s.raise u st).schedule = s.schedule := by cases u <;> rfl
@[simp] theorem State.raise_agenda (s : State) (u : BlockUnit) (st : Status) : (s.raise u st).agenda = s.agenda := by cases u <;> rfl
@[simp] theorem State.raise_turns (s : State) (u : BlockUnit) (st : Status) : (s.raise u st).turns = s.turns := by cases u <;> rfl
@[simp] theorem State.raise_freeIdx (s : State) (u : BlockUnit) (st : Status) : (s.raise u st).freeIdx = s.freeIdx := by cases u <;> rfl

/-! ## `requeue` -/

@[simp] theorem State.requeue_cfg (s : State) (u : BlockUnit) : (s.requeue u).cfg = s.cfg := by cases u <;> rfl
@[simp] theorem State.requeue_rb (s : State) (u : BlockUnit) : (s.requeue u).rb = s.rb := by cases u <;> rfl
@[simp] theorem State.requeue_rd (s : State) (u : BlockUnit) : (s.requeue u).rd = if u = .reader then { s.rd with lock := .free } else s.rd := by cases u <;> rfl
@[simp] theorem State.requeue_wr (s : State) (u : BlockUnit) : (s.requeue u).wr = if u = .writer then { s.wr with lock := .free } else s.wr := by cases u <;> rfl
@[simp] theorem State.requeue_rx (s : State) (u : BlockUnit) : (s.requeue u).rx = s.rx := by cases u <;> rfl
@[simp] theorem State.requeue_tx (s : State) (u : BlockUnit) : (s.requeue u).tx = s.tx := by cases u <;> rfl
@[simp] theorem State.requeue_extraRequesters (s : State) (u : BlockUnit) : (s.requeue u).extraRequesters = s.extraRequesters := by cases u <;> rfl
@[simp] theorem State.requeue_rxEofSticky (s : State) (u : BlockUnit) : (s.requeue u).rxEofSticky = s.rxEofSticky := by cases u <;> rfl
@[simp] theorem State.requeue_waiting (s : State) (u : BlockUnit) : (s.requeue u).waiting = s.waiting ++ [{ s.txn with chunk := s.txn.chunk + 1 }] := by cases u <;> rfl
@[simp] theorem State.requeue_txn (s : State) (u : BlockUnit) : (s.requeue u).txn = .idle := by cases u <;> rfl
@[simp] theorem State.requeue_rsp (s : State) (u : BlockUnit) : (s.requeue u).rsp = none := by cases u <;> rfl
@[simp] theorem State.requeue_schedule (s : State) (u : BlockUnit) : (s.requeue u).schedule = s.schedule := by cases u <;> rfl
@[simp] theorem State.requeue_agenda (s : State) (u : BlockUnit) : (s.requeue u).agenda = s.agenda := by cases u <;> rfl
@[simp] theorem State.requeue_turns (s : State) (u : BlockUnit) : (s.requeue u).turns = s.turns := by cases u <;> rfl
@[simp] theorem State.requeue_freeIdx (s : State) (u : BlockUnit) : (s.requeue u).freeIdx = s.freeIdx := by cases u <;> rfl

/-! ## `beginStep` -/

@[simp] theorem State.beginStep_cfg (s : State) (rest : List Event) : (s.beginStep rest).cfg = s.cfg := rfl
@[simp] theorem State.beginStep_rb (s : State) (rest : List Event) : (s.beginStep rest).rb = s.rb := rfl
@[simp] theorem State.beginStep_rd (s : State) (rest : List Event) : (s.beginStep rest).rd = s.rd := rfl
@[simp] theorem State.beginStep_wr (s : State) (rest : List Event) : (s.beginStep rest).wr = s.wr := rfl
@[simp] theorem State.beginStep_rx (s : State) (rest : List Event) : (s.beginStep rest).rx = s.rx := rfl
@[simp] theorem State.beginStep_tx (s : State) (rest : List Event) : (s.beginStep rest).tx = s.tx := rfl
@[simp] theorem State.beginStep_extraRequesters (s : State) (rest : List Event) : (s.beginStep rest).extraRequesters = s.extraRequesters := rfl
@[simp] theorem State.beginStep_rxEofSticky (s : State) (rest : List Event) : (s.beginStep rest).rxEofSticky = s.rxEofSticky := rfl
@[simp] theorem State.beginStep_waiting (s : State) (rest : List Event) : (s.beginStep rest).waiting = s.waiting := rfl
@[simp] theorem State.beginStep_txn (s : State) (rest : List Event) : (s.beginStep rest).txn = s.txn := rfl
@[simp] theorem State.beginStep_rsp (s : State) (rest : List Event) : (s.beginStep rest).rsp = none := rfl
@[simp] theorem State.beginStep_schedule (s : State) (rest : List Event) : (s.beginStep rest).schedule = rest := rfl
@[simp] theorem State.beginStep_agenda (s : State) (rest : List Event) : (s.beginStep rest).agenda = s.agenda := rfl
@[simp] theorem State.beginStep_turns (s : State) (rest : List Event) : (s.beginStep rest).turns = s.turns := rfl
@[simp] theorem State.beginStep_freeIdx (s : State) (rest : List Event) : (s.beginStep rest).freeIdx = s.freeIdx := rfl

/-! ## `lookAhead`, `beginTurn`, `settle` -/

@[simp] theorem State.lookAhead_cfg (s : State) : s.lookAhead.cfg = s.cfg := by unfold State.lookAhead; split <;> rfl
@[simp] theorem State.lookAhead_rb (s : State) : s.lookAhead.rb = s.rb := by unfold State.lookAhead; split <;> rfl
@[simp] theorem State.lookAhead_rd (s : State) : s.lookAhead.rd = s.rd := by unfold State.lookAhead; split <;> rfl
@[simp] theorem State.lookAhead_wr (s : State) : s.lookAhead.wr = s.wr := by unfold State.lookAhead; split <;> rfl
@[simp] theorem State.lookAhead_rx (s : State) : s.lookAhead.rx = s.rx := by unfold State.lookAhead; split <;> rfl
@[simp] theorem State.lookAhead_tx (s : State) : s.lookAhead.tx = s.tx := by unfold State.lookAhead; split <;> rfl
@[simp] theorem State.lookAhead_extraRequesters (s : State) : s.lookAhead.extraRequesters = s.extraRequesters := by unfold State.lookAhead; split <;> rfl
@[simp] theorem State.lookAhead_rxEofSticky (s : State) : s.lookAhead.rxEofSticky = s.rxEofSticky := by unfold State.lookAhead; split <;> rfl
@[simp] theorem State.lookAhead_waiting (s : State) : s.lookAhead.waiting = s.waiting := by unfold State.lookAhead; split <;> rfl
@[simp] theorem State.lookAhead_txn (s : State) : s.lookAhead.txn = s.txn := by unfold State.lookAhead; split <;> rfl
@[simp] theorem State.lookAhead_rsp (s : State) : s.lookAhead.rsp = s.rsp := by unfold State.lookAhead; split <;> rfl
@[simp] theorem State.lookAhead_turns (s : State) : s.lookAhead.turns = s.turns := by unfold State.lookAhead; split <;> rfl
@[simp] theorem State.lookAhead_freeIdx (s : State) : s.lookAhead.freeIdx = s.freeIdx := by unfold State.lookAhead; split <;> rfl

theorem State.lookAhead_cons {s : State} {e : Event} {rest : List Event} (h : s.schedule = e :: rest) :
    s.lookAhead = s := by simp [State.lookAhead, h]

theorem State.lookAhead_nil {s : State} (h : s.schedule = []) :
    s.lookAhead = { s with schedule := s.agenda.unroll.1, agenda := s.agenda.unroll.2 } := by
  simp [State.lookAhead, h]

/-- With no move to come there is nothing to write down. -/
theorem State.lookAhead_ends {s : State} (h : s.schedule = []) (ha : s.agenda = .ends) : s.lookAhead = s := by
  rw [State.lookAhead_nil h, ha]
  cases s
  simp_all [Agenda.unroll]

@[simp] theorem State.lockOf_lookAhead (s : State) (u : BlockUnit) : s.lookAhead.lockOf u = s.lockOf u := by
  cases u <;> simp [State.lockOf]

@[simp] theorem State.beginTurn_cfg (s : State) : s.beginTurn.cfg = s.cfg := rfl
@[simp] theorem State.beginTurn_rb (s : State) : s.beginTurn.rb = s.rb := rfl
@[simp] theorem State.beginTurn_rd (s : State) : s.beginTurn.rd = s.rd := rfl
@[simp] theorem State.beginTurn_wr (s : State) : s.beginTurn.wr = s.wr := rfl
@[simp] theorem State.beginTurn_rx (s : State) : s.beginTurn.rx = s.rx := rfl
@[simp] theorem State.beginTurn_tx (s : State) : s.beginTurn.tx = s.tx := rfl
@[simp] theorem State.beginTurn_extraRequesters (s : State) : s.beginTurn.extraRequesters = s.extraRequesters := rfl
@[simp] theorem State.beginTurn_rxEofSticky (s : State) : s.beginTurn.rxEofSticky = s.rxEofSticky := rfl
@[simp] theorem State.beginTurn_waiting (s : State) : s.beginTurn.waiting = s.waiting := rfl
@[simp] theorem State.beginTurn_txn (s : State) : s.beginTurn.txn = s.txn := rfl
@[simp] theorem State.beginTurn_rsp (s : State) : s.beginTurn.rsp = none := rfl
@[simp] theorem State.beginTurn_schedule (s : State) : s.beginTurn.schedule = s.schedule := rfl
@[simp] theorem State.beginTurn_agenda (s : State) : s.beginTurn.agenda = s.agenda := rfl
@[simp] theorem State.beginTurn_turns (s : State) : s.beginTurn.turns = s.turns + 1 := rfl
@[simp] theorem State.beginTurn_freeIdx (s : State) : s.beginTurn.freeIdx = s.freeIdx := rfl

@[simp] theorem State.settle_cfg (s : State) (a b : List Answer) : (s.settle a b).cfg = s.cfg := rfl
@[simp] theorem State.settle_rb (s : State) (a b : List Answer) : (s.settle a b).rb = s.rb := rfl
@[simp] theorem State.settle_rd (s : State) (a b : List Answer) : (s.settle a b).rd = s.rd := rfl
@[simp] theorem State.settle_wr (s : State) (a b : List Answer) : (s.settle a b).wr = s.wr := rfl
@[simp] theorem State.settle_rx (s : State) (a b : List Answer) : (s.settle a b).rx = { s.rx with script := s.rx.script ++ a } := rfl
@[simp] theorem State.settle_tx (s : State) (a b : List Answer) : (s.settle a b).tx = { s.tx with script := s.tx.script ++ b } := rfl
@[simp] theorem State.settle_extraRequesters (s : State) (a b : List Answer) : (s.settle a b).extraRequesters = s.extraRequesters := rfl
@[simp] theorem State.settle_rxEofSticky (s : State) (a b : List Answer) : (s.settle a b).rxEofSticky = s.rxEofSticky := rfl
@[simp] theorem State.settle_waiting (s : State) (a b : List Answer) : (s.settle a b).waiting = s.waiting := rfl
@[simp] theorem State.settle_txn (s : State) (a b : List Answer) : (s.settle a b).txn = s.txn := rfl
@[simp] theorem State.settle_rsp (s : State) (a b : List Answer) : (s.settle a b).rsp = s.rsp := rfl
@[simp] theorem State.settle_schedule (s : State) (a b : List Answer) : (s.settle a b).schedule = s.schedule := rfl
@[simp] theorem State.settle_agenda (s : State) (a b : List Answer) : (s.settle a b).agenda = s.agenda := rfl
@[simp] theorem State.settle_turns (s : State) (a b : List Answer) : (s.settle a b).turns = s.turns := rfl
@[simp] theorem State.settle_freeIdx (s : State) (a b : List Answer) : (s.settle a b).freeIdx = s.freeIdx := rfl

/-! ## `hang`, `prefixPending` -/

@[simp] theorem State.hang_cfg (s : State) (u : BlockUnit) : (s.hang u).cfg = s.cfg := by cases u <;> rfl
@[simp] theorem State.hang_rb (s : State) (u : BlockUnit) : (s.hang u).rb = s.rb := by cases u <;> rfl
@[simp] theorem State.hang_rd (s : State) (u : BlockUnit) : (s.hang u).rd = if u = .reader then { s.rd with lock := .held s.txn.who } else s.rd := by cases u <;> rfl
@[simp] theorem State.hang_wr (s : State) (u : BlockUnit) : (s.hang u).wr = if u = .writer then { s.wr with lock := .held s.txn.who } else s.wr := by cases u <;> rfl
@[simp] theorem State.hang_rx (s : State) (u : BlockUnit) : (s.hang u).rx = s.rx := by cases u <;> rfl
@[simp] theorem State.hang_tx (s : State) (u : BlockUnit) : (s.hang u).tx = s.tx := by cases u <;> rfl
@[simp] theorem State.hang_extraRequesters (s : State) (u : BlockUnit) : (s.hang u).extraRequesters = s.extraRequesters := by cases u <;> rfl
@[simp] theorem State.hang_rxEofSticky (s : State) (u : BlockUnit) : (s.hang u).rxEofSticky = s.rxEofSticky := by cases u <;> rfl
@[simp] theorem State.hang_waiting (s : State) (u : BlockUnit) : (s.hang u).waiting = s.waiting := by cases u <;> rfl
@[simp] theorem State.hang_txn (s : State) (u : BlockUnit) : (s.hang u).txn = .idle := by cases u <;> rfl
@[simp] theorem State.hang_rsp (s : State) (u : BlockUnit) : (s.hang u).rsp = none := by cases u <;> rfl
@[simp] theorem State.hang_schedule (s : State) (u : BlockUnit) : (s.hang u).schedule = s.schedule := by cases u <;> rfl
@[simp] theorem State.hang_agenda (s : State) (u : BlockUnit) : (s.hang u).agenda = s.agenda := by cases u <;> rfl
@[simp] theorem State.hang_turns (s : State) (u : BlockUnit) : (s.hang u).turns = s.turns := by cases u <;> rfl
@[simp] theorem State.hang_freeIdx (s : State) (u : BlockUnit) : (s.hang u).freeIdx = s.freeIdx := by cases u <;> rfl

@[simp] theorem State.prefixPending_cfg (s : State) : s.prefixPending.cfg = s.cfg := rfl
@[simp] theorem State.prefixPending_rb (s : State) : s.prefixPending.rb = s.rb := rfl
@[simp] theorem State.prefixPending_rd (s : State) : s.prefixPending.rd = s.rd := rfl
@[simp] theorem State.prefixPending_wr (s : State) : s.prefixPending.wr = s.wr := rfl
@[simp] theorem State.prefixPending_rx (s : State) : s.prefixPending.rx = { s.rx with script := [] } := rfl
@[simp] theorem State.prefixPending_tx (s : State) : s.prefixPending.tx = s.tx := rfl
@[simp] theorem State.prefixPending_extraRequesters (s : State) : s.prefixPending.extraRequesters = s.extraRequesters := rfl
@[simp] theorem State.prefixPending_rxEofSticky (s : State) : s.prefixPending.rxEofSticky = s.rxEofSticky := rfl
@[simp] theorem State.prefixPending_waiting (s : State) : s.prefixPending.waiting = s.waiting := rfl
@[simp] theorem State.prefixPending_txn (s : State) : s.prefixPending.txn = s.txn := rfl
@[simp] theorem State.prefixPending_rsp (s : State) : s.prefixPending.rsp = s.rsp := rfl
@[simp] theorem State.prefixPending_schedule (s : State) : s.prefixPending.schedule = s.schedule := rfl
@[simp] theorem State.prefixPending_agenda (s : State) : s.prefixPending.agenda = s.agenda := rfl
@[simp] theorem State.prefixPending_turns (s : State) : s.prefixPending.turns = s.turns := rfl
@[simp] theorem State.prefixPending_freeIdx (s : State) : s.prefixPending.freeIdx = s.freeIdx := rfl

/-! ## `granted` -/

@[simp] theorem State.granted_cfg (s : State) (u : BlockUnit) (t : Transaction) : (s.granted u t).cfg = s.cfg := by cases u <;> rfl
@[simp] theorem State.granted_rb (s : State) (u : BlockUnit) (t : Transaction) : (s.granted u t).rb = s.rb := by cases u <;> rfl
@[simp] theorem State.granted_rd (s : State) (u : BlockUnit) (t : Transaction) : (s.granted u t).rd = if u = .reader then { s.rd with lock := .held t.who } else s.rd := by cases u <;> rfl
@[simp] theorem State.granted_wr (s : State) (u : BlockUnit) (t : Transaction) : (s.granted u t).wr = if u = .writer then { s.wr with lock := .held t.who } else s.wr := by cases u <;> rfl
@[simp] theorem State.granted_rx (s : State) (u : BlockUnit) (t : Transaction) : (s.granted u t).rx = s.rx := by cases u <;> rfl
@[simp] theorem State.granted_tx (s : State) (u : BlockUnit) (t : Transaction) : (s.granted u t).tx = s.tx := by cases u <;> rfl
@[simp] theorem State.granted_extraRequesters (s : State) (u : BlockUnit) (t : Transaction) : (s.granted u t).extraRequesters = s.extraRequesters := by cases u <;> rfl
@[simp] theorem State.granted_rxEofSticky (s : State) (u : BlockUnit) (t : Transaction) : (s.granted u t).rxEofSticky = s.rxEofSticky := by cases u <;> rfl
@[simp] theorem State.granted_waiting (s : State) (u : BlockUnit) (t : Transaction) : (s.granted u t).waiting = s.without t.who := by cases u <;> rfl
@[simp] theorem State.granted_txn (s : State) (u : BlockUnit) (t : Transaction) : (s.granted u t).txn = t := by cases u <;> rfl
@[simp] theorem State.granted_rsp (s : State) (u : BlockUnit) (t : Transaction) : (s.granted u t).rsp = s.rsp := by cases u <;> rfl
@[simp] theorem State.granted_schedule (s : State) (u : BlockUnit) (t : Transaction) : (s.granted u t).schedule = s.schedule := by cases u <;> rfl
@[simp] theorem State.granted_agenda (s : State) (u : BlockUnit) (t : Transaction) : (s.granted u t).agenda = s.agenda := by cases u <;> rfl
@[simp] theorem State.granted_turns (s : State) (u : BlockUnit) (t : Transaction) : (s.granted u t).turns = s.turns := by cases u <;> rfl
@[simp] theorem State.granted_freeIdx (s : State) (u : BlockUnit) (t : Transaction) : (s.granted u t).freeIdx = s.freeIdx := by cases u <;> rfl

/-! ## `dismiss` -/

@[simp] theorem State.dismiss_cfg (s : State) (t : Transaction) (st : Status) : (s.dismiss t st).cfg = s.cfg := rfl
@[simp] theorem State.dismiss_rb (s : State) (t : Transaction) (st : Status) : (s.dismiss t st).rb = s.rb := rfl
@[simp] theorem State.dismiss_rd (s : State) (t : Transaction) (st : Status) : (s.dismiss t st).rd = s.rd := rfl
@[simp] theorem State.dismiss_wr (s : State) (t : Transaction) (st : Status) : (s.dismiss t st).wr = s.wr := rfl
@[simp] theorem State.dismiss_rx (s : State) (t : Transaction) (st : Status) : (s.dismiss t st).rx = s.rx := rfl
@[simp] theorem State.dismiss_tx (s : State) (t : Transaction) (st : Status) : (s.dismiss t st).tx = s.tx := rfl
@[simp] theorem State.dismiss_extraRequesters (s : State) (t : Transaction) (st : Status) : (s.dismiss t st).extraRequesters = s.extraRequesters := rfl
@[simp] theorem State.dismiss_rxEofSticky (s : State) (t : Transaction) (st : Status) : (s.dismiss t st).rxEofSticky = s.rxEofSticky := rfl
@[simp] theorem State.dismiss_waiting (s : State) (t : Transaction) (st : Status) : (s.dismiss t st).waiting = s.without t.who := rfl
@[simp] theorem State.dismiss_txn (s : State) (t : Transaction) (st : Status) : (s.dismiss t st).txn = s.txn := rfl
@[simp] theorem State.dismiss_rsp (s : State) (t : Transaction) (st : Status) : (s.dismiss t st).rsp = some ⟨t.who, .fault st⟩ := rfl
@[simp] theorem State.dismiss_schedule (s : State) (t : Transaction) (st : Status) : (s.dismiss t st).schedule = s.schedule := rfl
@[simp] theorem State.dismiss_agenda (s : State) (t : Transaction) (st : Status) : (s.dismiss t st).agenda = s.agenda := rfl
@[simp] theorem State.dismiss_turns (s : State) (t : Transaction) (st : Status) : (s.dismiss t st).turns = s.turns := rfl
@[simp] theorem State.dismiss_freeIdx (s : State) (t : Transaction) (st : Status) : (s.dismiss t st).freeIdx = s.freeIdx := rfl

/-! ## `afterReset` -/

@[simp] theorem State.afterReset_cfg (s : State) (cfg : Straps) : (s.afterReset cfg).cfg = cfg := rfl
@[simp] theorem State.afterReset_rb (s : State) (cfg : Straps) : (s.afterReset cfg).rb = .empty := rfl
@[simp] theorem State.afterReset_rd (s : State) (cfg : Straps) : (s.afterReset cfg).rd = .afterReset := rfl
@[simp] theorem State.afterReset_wr (s : State) (cfg : Straps) : (s.afterReset cfg).wr = .afterReset := rfl
@[simp] theorem State.afterReset_rx (s : State) (cfg : Straps) : (s.afterReset cfg).rx = s.rx := rfl
@[simp] theorem State.afterReset_tx (s : State) (cfg : Straps) : (s.afterReset cfg).tx = s.tx := rfl
@[simp] theorem State.afterReset_extraRequesters (s : State) (cfg : Straps) : (s.afterReset cfg).extraRequesters = s.extraRequesters := rfl
@[simp] theorem State.afterReset_rxEofSticky (s : State) (cfg : Straps) : (s.afterReset cfg).rxEofSticky = s.rxEofSticky := rfl
@[simp] theorem State.afterReset_waiting (s : State) (cfg : Straps) : (s.afterReset cfg).waiting = [] := rfl
@[simp] theorem State.afterReset_txn (s : State) (cfg : Straps) : (s.afterReset cfg).txn = .idle := rfl
@[simp] theorem State.afterReset_rsp (s : State) (cfg : Straps) : (s.afterReset cfg).rsp = none := rfl
@[simp] theorem State.afterReset_schedule (s : State) (cfg : Straps) : (s.afterReset cfg).schedule = s.schedule := rfl
@[simp] theorem State.afterReset_agenda (s : State) (cfg : Straps) : (s.afterReset cfg).agenda = s.agenda := rfl
@[simp] theorem State.afterReset_turns (s : State) (cfg : Straps) : (s.afterReset cfg).turns = s.turns := rfl
@[simp] theorem State.afterReset_freeIdx (s : State) (cfg : Straps) : (s.afterReset cfg).freeIdx = s.freeIdx := rfl

/-! ## `forgetNext` -/

@[simp] theorem State.forgetNext_cfg (s : State) : (s.forgetNext).cfg = s.cfg := rfl
@[simp] theorem State.forgetNext_rb (s : State) : (s.forgetNext).rb = s.rb := rfl
@[simp] theorem State.forgetNext_rd (s : State) : (s.forgetNext).rd = { s.rd with next := none } := rfl
@[simp] theorem State.forgetNext_wr (s : State) : (s.forgetNext).wr = s.wr := rfl
@[simp] theorem State.forgetNext_rx (s : State) : (s.forgetNext).rx = s.rx := rfl
@[simp] theorem State.forgetNext_tx (s : State) : (s.forgetNext).tx = s.tx := rfl
@[simp] theorem State.forgetNext_extraRequesters (s : State) : (s.forgetNext).extraRequesters = s.extraRequesters := rfl
@[simp] theorem State.forgetNext_rxEofSticky (s : State) : (s.forgetNext).rxEofSticky = s.rxEofSticky := rfl
@[simp] theorem State.forgetNext_waiting (s : State) : (s.forgetNext).waiting = s.waiting := rfl
@[simp] theorem State.forgetNext_txn (s : State) : (s.forgetNext).txn = s.txn := rfl
@[simp] theorem State.forgetNext_rsp (s : State) : (s.forgetNext).rsp = s.rsp := rfl
@[simp] theorem State.forgetNext_schedule (s : State) : (s.forgetNext).schedule = s.schedule := rfl
@[simp] theorem State.forgetNext_agenda (s : State) : (s.forgetNext).agenda = s.agenda := rfl
@[simp] theorem State.forgetNext_turns (s : State) : (s.forgetNext).turns = s.turns := rfl
@[simp] theorem State.forgetNext_freeIdx (s : State) : (s.forgetNext).freeIdx = s.freeIdx := rfl

/-! ## `withScripts` -/

@[simp] theorem State.withScripts_cfg (s : State) (a b : List Answer) : (s.withScripts a b).cfg = s.cfg := rfl
@[simp] theorem State.withScripts_rb (s : State) (a b : List Answer) : (s.withScripts a b).rb = s.rb := rfl
@[simp] theorem State.withScripts_rd (s : State) (a b : List Answer) : (s.withScripts a b).rd = s.rd := rfl
@[simp] theorem State.withScripts_wr (s : State) (a b : List Answer) : (s.withScripts a b).wr = s.wr := rfl
@[simp] theorem State.withScripts_rx (s : State) (a b : List Answer) : (s.withScripts a b).rx = { s.rx with script := a } := rfl
@[simp] theorem State.withScripts_tx (s : State) (a b : List Answer) : (s.withScripts a b).tx = { s.tx with script := b } := rfl
@[simp] theorem State.withScripts_extraRequesters (s : State) (a b : List Answer) : (s.withScripts a b).extraRequesters = s.extraRequesters := rfl
@[simp] theorem State.withScripts_rxEofSticky (s : State) (a b : List Answer) : (s.withScripts a b).rxEofSticky = s.rxEofSticky := rfl
@[simp] theorem State.withScripts_waiting (s : State) (a b : List Answer) : (s.withScripts a b).waiting = s.waiting := rfl
@[simp] theorem State.withScripts_txn (s : State) (a b : List Answer) : (s.withScripts a b).txn = s.txn := rfl
@[simp] theorem State.withScripts_rsp (s : State) (a b : List Answer) : (s.withScripts a b).rsp = s.rsp := rfl
@[simp] theorem State.withScripts_schedule (s : State) (a b : List Answer) : (s.withScripts a b).schedule = s.schedule := rfl
@[simp] theorem State.withScripts_agenda (s : State) (a b : List Answer) : (s.withScripts a b).agenda = s.agenda := rfl
@[simp] theorem State.withScripts_turns (s : State) (a b : List Answer) : (s.withScripts a b).turns = s.turns := rfl
@[simp] theorem State.withScripts_freeIdx (s : State) (a b : List Answer) : (s.withScripts a b).freeIdx = s.freeIdx := rfl

/-! ## `poison` -/

@[simp] theorem State.poison_cfg (s : State) (u : BlockUnit) : (s.poison u).cfg = s.cfg := by cases u <;> rfl
@[simp] theorem State.poison_wr (s : State) (u : BlockUnit) : (s.poison u).wr = if u = .writer then { s.wr with poisoned := true } else s.wr := by cases u <;> rfl
@[simp] theorem State.poison_rx (s : State) (u : BlockUnit) : (s.poison u).rx = s.rx := by cases u <;> rfl
@[simp] theorem State.poison_tx (s : State) (u : BlockUnit) : (s.poison u).tx = s.tx := by cases u <;> rfl
@[simp] theorem State.poison_extraRequesters (s : State) (u : BlockUnit) : (s.poison u).extraRequesters = s.extraRequesters := by cases u <;> rfl
@[simp] theorem State.poison_rxEofSticky (s : State) (u : BlockUnit) : (s.poison u).rxEofSticky = s.rxEofSticky := by cases u <;> rfl
@[simp] theorem State.poison_waiting (s : State) (u : BlockUnit) : (s.poison u).waiting = s.waiting := by cases u <;> rfl
@[simp] theorem State.poison_txn (s : State) (u : BlockUnit) : (s.poison u).txn = s.txn := by cases u <;> rfl
@[simp] theorem State.poison_rsp (s : State) (u : BlockUnit) : (s.poison u).rsp = s.rsp := by cases u <;> rfl
@[simp] theorem State.poison_schedule (s : State) (u : BlockUnit) : (s.poison u).schedule = s.schedule := by cases u <;> rfl
@[simp] theorem State.poison_agenda (s : State) (u : BlockUnit) : (s.poison u).agenda = s.agenda := by cases u <;> rfl
@[simp] theorem State.poison_turns (s : State) (u : BlockUnit) : (s.poison u).turns = s.turns := by cases u <;> rfl
@[simp] theorem State.poison_freeIdx (s : State) (u : BlockUnit) : (s.poison u).freeIdx = if u = .reader then s.freeIdx + 1 else s.freeIdx := by cases u <;> rfl

/-! ## `withCommand` -/

@[simp] theorem State.withCommand_cfg (s : State) (w : CommandWord) : (s.withCommand w).cfg = s.cfg := rfl
@[simp] theorem State.withCommand_rb (s : State) (w : CommandWord) : (s.withCommand w).rb = s.rb := rfl
@[simp] theorem State.withCommand_rd (s : State) (w : CommandWord) : (s.withCommand w).rd = { s.rd with lock := .free } := rfl
@[simp] theorem State.withCommand_wr (s : State) (w : CommandWord) : (s.withCommand w).wr = { s.wr with lock := .free } := rfl
@[simp] theorem State.withCommand_rx (s : State) (w : CommandWord) : (s.withCommand w).rx = s.rx := rfl
@[simp] theorem State.withCommand_tx (s : State) (w : CommandWord) : (s.withCommand w).tx = s.tx := rfl
@[simp] theorem State.withCommand_extraRequesters (s : State) (w : CommandWord) : (s.withCommand w).extraRequesters = s.extraRequesters := rfl
@[simp] theorem State.withCommand_rxEofSticky (s : State) (w : CommandWord) : (s.withCommand w).rxEofSticky = s.rxEofSticky := rfl
@[simp] theorem State.withCommand_waiting (s : State) (w : CommandWord) : (s.withCommand w).waiting = ⟨0, ⟨w, 0#64, []⟩, 0⟩ :: s.waiting := rfl
@[simp] theorem State.withCommand_txn (s : State) (w : CommandWord) : (s.withCommand w).txn = s.txn := rfl
@[simp] theorem State.withCommand_rsp (s : State) (w : CommandWord) : (s.withCommand w).rsp = s.rsp := rfl
@[simp] theorem State.withCommand_schedule (s : State) (w : CommandWord) : (s.withCommand w).schedule = .grant 0 :: s.schedule := rfl
@[simp] theorem State.withCommand_agenda (s : State) (w : CommandWord) : (s.withCommand w).agenda = s.agenda := rfl
@[simp] theorem State.withCommand_turns (s : State) (w : CommandWord) : (s.withCommand w).turns = s.turns := rfl
@[simp] theorem State.withCommand_freeIdx (s : State) (w : CommandWord) : (s.withCommand w).freeIdx = s.freeIdx := rfl

/-- The operands read the executing command's request and nothing else (R85). -/
@[simp] theorem State.argNat_eq (s : State) : s.argNat = s.arg.toNat := rfl

@[simp] theorem State.lockOf_endCommand (s : State) (u : BlockUnit) (r : Response) :
    (s.endCommand u r).lockOf u = .free := by cases u <;> rfl

@[simp] theorem State.lockOf_requeue (s : State) (u : BlockUnit) : (s.requeue u).lockOf u = .free := by
  cases u <;> rfl

/-- Poisoning keeps or establishes the buffer's invariants, whatever the free values are (R226 (b)). -/
theorem cancelledBuffer_inv (cap n : Nat) : (cancelledBuffer cap n).inv cap = true := by
  unfold cancelledBuffer
  dsimp only
  split
  · assumption
  · simp [RBuf.inv, RBuf.empty, recordsOrdered, memWf, memRising]

end Sys2Proof.Machine
end

