-- ==== Sys2Proof/Laws/Transport.lean ====
section
/-! SUPPORT. Sequencing of a command's parts, and what the transports' operations can do: once for any script of answers, and once for a calm transport. -/

namespace Sys2Proof.Machine

/-! ## Sequencing -/

@[simp] theorem Run.bind_done {α β : Type} (a : α) (s : State) (k : α → State → Run β) :
    (Run.done a s).bind k = k a s := rfl

@[simp] theorem Run.bind_raised {α β : Type} (st : Status) (s : State) (k : α → State → Run β) :
    (Run.raised st s).bind k = .raised st s := rfl

@[simp] theorem Run.bind_interrupted {α β : Type} (why : Interruption) (s : State) (k : α → State → Run β) :
    (Run.interrupted why s).bind k = .interrupted why s := rfl

@[simp] theorem Run.bind_stuck {α β : Type} (s : State) (k : α → State → Run β) :
    (Run.stuck s).bind k = .stuck s := rfl

@[simp] theorem Run.stuckAt_done {α : Type} (a : α) (s h : State) : (Run.done a s).stuckAt h = .done a s := rfl

@[simp] theorem Run.stuckAt_raised {α : Type} (st : Status) (s h : State) :
    (Run.raised st s : Run α).stuckAt h = .raised st s := rfl

@[simp] theorem Run.stuckAt_interrupted {α : Type} (why : Interruption) (s h : State) :
    (Run.interrupted why s : Run α).stuckAt h = .interrupted why s := rfl

@[simp] theorem Run.stuckAt_stuck {α : Type} (s h : State) : (Run.stuck s : Run α).stuckAt h = .stuck h := rfl

@[simp] theorem Run.stuckAt_stop {α : Type} (f : Fault) (h : State) : (Run.stop f : Run α).stuckAt h = .stop f := rfl

@[simp] theorem Run.bind_stop {α β : Type} (f : Fault) (k : α → State → Run β) :
    (Run.stop f).bind k = .stop f := rfl

@[simp] theorem Run.finish_done (u : BlockUnit) (r : Response) (s : State) :
    (Run.done r s).finish u = .next (s.endCommand u r) := rfl

@[simp] theorem Run.finish_raised (u : BlockUnit) (st : Status) (s : State) :
    (Run.raised st s).finish u = .next (s.raise u st) := rfl

@[simp] theorem Run.finish_interrupted (u : BlockUnit) (why : Interruption) (s : State) :
    (Run.interrupted why s).finish u = s.interrupted u why := rfl

@[simp] theorem Run.finish_stuck (u : BlockUnit) (s : State) : (Run.stuck s).finish u = .next (s.hang u) := rfl

@[simp] theorem Run.finish_stop (u : BlockUnit) (f : Fault) : (Run.stop f).finish u = .fault f := rfl

@[simp] theorem Run.finishChunk_done (u : BlockUnit) (last : Bool) (s : State) :
    (Run.done last s).finishChunk u = .next (if last then s.endCommand u .done else s.requeue u) := rfl

@[simp] theorem Run.finishChunk_raised (u : BlockUnit) (st : Status) (s : State) :
    (Run.raised st s).finishChunk u = .next (s.raise u st) := rfl

@[simp] theorem Run.finishChunk_interrupted (u : BlockUnit) (why : Interruption) (s : State) :
    (Run.interrupted why s).finishChunk u = s.interrupted u why := rfl

@[simp] theorem Run.finishChunk_stuck (u : BlockUnit) (s : State) :
    (Run.stuck s).finishChunk u = .next (s.hang u) := rfl

@[simp] theorem Run.finishChunk_stop (u : BlockUnit) (f : Fault) : (Run.stop f).finishChunk u = .fault f := rfl

/-- Whichever way a part of a command comes out, its state satisfies `P`. -/
def Run.Holds {α : Type} (P : State → Prop) : Run α → Prop
  | .done _ s => P s
  | .raised _ s => P s
  | .interrupted _ s => P s
  | .stuck s => P s
  | .stop _ => True

/-- What one part keeps and the rest keeps, both together keep. -/
theorem Run.Holds.bind {α β : Type} {P Q : State → Prop} {r : Run α} {k : α → State → Run β}
    (h : r.Holds P) (hPQ : ∀ s, P s → Q s) (hk : ∀ a s, P s → (k a s).Holds Q) : (r.bind k).Holds Q := by
  cases r with
  | done a s => exact hk a s h
  | raised st s => exact hPQ s h
  | interrupted why s => exact hPQ s h
  | stuck s => exact hPQ s h
  | stop f => trivial

theorem Run.Holds.imp {α : Type} {P Q : State → Prop} {r : Run α} (h : r.Holds P)
    (hPQ : ∀ s, P s → Q s) : r.Holds Q := by
  cases r with
  | stop f => trivial
  | _ => exact hPQ _ h

/-! ## Unit checks -/

theorem readerChecks_ready {s : State} (h : s.readerReady = true) : readerChecks s = .done .unit s := by
  simp only [State.readerReady, Bool.and_eq_true, Bool.not_eq_true'] at h
  simp [readerChecks, h.1, h.2]

theorem writerChecks_ready {s : State} (h : s.writerReady = true) : writerChecks s = .done .unit s := by
  simp only [State.writerReady, Bool.and_eq_true, Bool.not_eq_true'] at h
  simp [writerChecks, h.1, h.2]

/-! ## The receive stream (R36) -/

/-- A tail brings up no bytes exactly when the stream is finite. -/
theorem RxTail.unroll_eq_nil {t : RxTail} : t.unroll.1 = [] ↔ t = .ends := by
  cases t <;> simp [RxTail.unroll]

/-- The port with other flags and answers, and the same stream. -/
def RxPort.flagged (p : RxPort) (eof closed : Bool) (closes : Nat) (script : List Answer) : RxPort :=
  { p with eof := eof, closed := closed, closes := closes, script := script }

/-- Taking a byte looks at the stream only, and changes only the stream. -/
theorem RxPort.next_flagged (p : RxPort) (e c : Bool) (n : Nat) (sc : List Answer) :
    (p.flagged e c n sc).next = p.next.map fun y => (y.1, y.2.flagged e c n sc) := by
  rcases p with ⟨_ | ⟨x, r⟩, t, _⟩
  · rcases hu : t.unroll with ⟨_ | ⟨y, r⟩, t'⟩ <;> simp [RxPort.next, RxPort.flagged, hu]
  · rfl

@[simp] theorem RxPort.front_flagged (p : RxPort) (e c : Bool) (n : Nat) (sc : List Answer) (k : Nat) :
    (p.flagged e c n sc).front k = p.front k := by
  induction k generalizing p with
  | zero => rfl
  | succ k ih =>
    rw [RxPort.front, RxPort.front, RxPort.next_flagged]
    rcases p.next with _ | ⟨x, q⟩
    · rfl
    · simp [ih]

@[simp] theorem RxPort.drop_flagged (p : RxPort) (e c : Bool) (n : Nat) (sc : List Answer) (j : Nat) :
    (p.flagged e c n sc).drop j = (p.drop j).flagged e c n sc := by
  induction j generalizing p with
  | zero => rfl
  | succ j ih =>
    rw [RxPort.drop, RxPort.drop, RxPort.next_flagged]
    rcases p.next with _ | ⟨x, q⟩
    · rfl
    · simp [ih]

@[simp] theorem RxPort.front_at (p : RxPort) (e : Bool) (sc : List Answer) (k : Nat) :
    RxPort.front { p with eof := e, script := sc } k = p.front k := p.front_flagged e p.closed p.closes sc k

/-- Dropping bytes changes only the stream. -/
theorem RxPort.drop_fields (p : RxPort) (j : Nat) :
    (p.drop j).eof = p.eof ∧ (p.drop j).closed = p.closed ∧ (p.drop j).closes = p.closes ∧
      (p.drop j).script = p.script := by
  have h := p.drop_flagged p.eof p.closed p.closes p.script j
  rw [show p.flagged p.eof p.closed p.closes p.script = p from rfl] at h
  rw [h]
  exact ⟨rfl, rfl, rfl, rfl⟩

theorem RxPort.holds_iff {p : RxPort} {n : Nat} : p.holds n = true ↔ (p.front n).length = n := by
  rw [RxPort.holds, decide_eq_true_iff]

@[simp] theorem RxPort.holds_at (p : RxPort) (e : Bool) (sc : List Answer) (n : Nat) :
    RxPort.holds { p with eof := e, script := sc } n = p.holds n := by
  rw [RxPort.holds, RxPort.holds, RxPort.front_at]

@[simp] theorem RxPort.drop_at (p : RxPort) (e : Bool) (sc : List Answer) (j : Nat) :
    RxPort.drop { p with eof := e, script := sc } j = { p.drop j with eof := e, script := sc } := by
  have h := p.drop_flagged e p.closed p.closes sc j
  obtain ⟨-, h2, h3, -⟩ := p.drop_fields j
  simpa only [RxPort.flagged, ← h2, ← h3] using h

theorem RxPort.front_succ {p q : RxPort} {x : Byte} (h : p.next = some (x, q)) (k : Nat) :
    p.front (k + 1) = x :: q.front k := by rw [RxPort.front, h]

theorem RxPort.drop_succ {p q : RxPort} {x : Byte} (h : p.next = some (x, q)) (j : Nat) :
    p.drop (j + 1) = q.drop j := by rw [RxPort.drop, h]

/-- Bytes taken in two goes are those taken in one. -/
theorem RxPort.front_add (p : RxPort) (j k : Nat) : p.front (j + k) = p.front j ++ (p.drop j).front k := by
  induction j generalizing p with
  | zero => simp [RxPort.front, RxPort.drop]
  | succ j ih =>
    rw [Nat.succ_add, RxPort.front, RxPort.front, RxPort.drop]
    rcases hn : p.next with _ | ⟨x, q⟩
    · cases k <;> simp [RxPort.front, hn]
    · simp [ih]

/-- Bytes dropped in two goes are those dropped in one. -/
theorem RxPort.drop_add (p : RxPort) (j k : Nat) : p.drop (j + k) = (p.drop j).drop k := by
  induction j generalizing p with
  | zero => simp [RxPort.drop]
  | succ j ih =>
    rw [Nat.succ_add, RxPort.drop, RxPort.drop]
    rcases hn : p.next with _ | ⟨x, q⟩
    · cases k <;> simp [RxPort.drop, hn]
    · simp [ih]

theorem RxPort.front_length_le (p : RxPort) (k : Nat) : (p.front k).length ≤ k := by
  induction k generalizing p with
  | zero => simp [RxPort.front]
  | succ k ih =>
    rw [RxPort.front]
    rcases p.next with _ | ⟨x, q⟩
    · simp
    · simpa using ih q

/-- A stream that gives fewer bytes than asked for is at its end behind them. -/
theorem RxPort.front_of_short {p : RxPort} {j : Nat} (h : (p.front j).length < j) (k : Nat) :
    (p.drop j).front k = [] := by
  induction j generalizing p with
  | zero => omega
  | succ j ih =>
    rw [RxPort.front] at h
    rw [RxPort.drop]
    rcases hn : p.next with _ | ⟨x, q⟩
    · cases k <;> simp [RxPort.front, hn]
    · rw [hn] at h
      exact ih (by simpa using h)

/-- The front of a front (R63: however the bytes come, they are the same). -/
theorem RxPort.take_front (p : RxPort) {j k : Nat} (h : j ≤ k) : (p.front k).take j = p.front j := by
  obtain ⟨i, rfl⟩ := Nat.exists_eq_add_of_le h
  rw [RxPort.front_add]
  have hle := p.front_length_le j
  rcases Nat.lt_or_eq_of_le hle with hlt | heq
  · rw [RxPort.front_of_short hlt, List.append_nil, List.take_of_length_le hle]
  · rw [List.take_append_of_le_length (by omega), List.take_of_length_le (by omega)]

/-- The front of a shorter wish is never longer, and what is short once is short for good. -/
theorem RxPort.holds_mono {p : RxPort} {j k : Nat} (h : j ≤ k) (hk : p.holds k = true) : p.holds j = true := by
  rw [RxPort.holds_iff] at hk ⊢
  have := congrArg List.length (p.take_front h)
  rw [List.length_take, hk] at this
  simpa [Nat.min_eq_left h] using this.symm

/-- The bytes written down come first. -/
theorem RxPort.front_stream (p : RxPort) (k : Nat) :
    p.front (p.stream.length + k) = p.stream ++ RxPort.front { p with stream := [] } k := by
  rcases p with ⟨l, t, e, c, n, sc⟩
  induction l with
  | nil => simp
  | cons x r ih =>
    rw [List.length_cons, Nat.add_right_comm, RxPort.front]
    exact congrArg (x :: ·) ih

/-- Then what the tail brings up. -/
theorem RxPort.front_unroll (p : RxPort) : p.front (p.stream.length + p.tail.unroll.1.length) =
    p.stream ++ p.tail.unroll.1 := by
  rw [RxPort.front_stream]
  congr 1
  rcases hu : p.tail.unroll with ⟨_ | ⟨x, r⟩, t⟩
  · rfl
  · rw [List.length_cons, RxPort.front]
    simp only [RxPort.next, hu]
    have := RxPort.front_stream { p with stream := r, tail := t } 0
    simpa [RxPort.front] using this

@[simp] theorem RxPort.front_finite {p : RxPort} (h : p.tail = .ends) (k : Nat) :
    p.front k = p.stream.take k := by
  induction k generalizing p with
  | zero => simp [RxPort.front]
  | succ k ih =>
    rw [RxPort.front]
    rcases hs : p.stream with _ | ⟨x, r⟩
    · simp [RxPort.next, hs, h, RxTail.unroll]
    · simp [RxPort.next, hs, ih (p := { p with stream := r }) h]

@[simp] theorem RxPort.drop_finite {p : RxPort} (h : p.tail = .ends) (j : Nat) :
    p.drop j = { p with stream := p.stream.drop j } := by
  induction j generalizing p with
  | zero => simp [RxPort.drop]
  | succ j ih =>
    rw [RxPort.drop]
    rcases hs : p.stream with _ | ⟨x, r⟩
    · have : p.next = none := by simp [RxPort.next, hs, h, RxTail.unroll]
      rw [this, List.drop_nil, ← hs]
    · simp [RxPort.next, hs, ih (p := { p with stream := r }) h]

/-- An infinite stream always has a next byte, and stays infinite behind it. -/
theorem RxPort.next_infinite {p : RxPort} (h : p.tail ≠ .ends) :
    ∃ x q, p.next = some (x, q) ∧ q.tail ≠ .ends := by
  rcases hs : p.stream with _ | ⟨x, r⟩
  · rcases ht : p.tail with _ | ⟨b, r⟩ | ⟨n, k⟩ | ⟨n, k⟩
    · exact absurd ht h
    · exact ⟨b, _, by simp [RxPort.next, hs, ht, RxTail.unroll]; rfl, by simp⟩
    · rcases hu : (RxTail.free n k).unroll.1 with _ | ⟨x, r⟩
      · simp [RxTail.unroll] at hu
      · refine ⟨x, { p with stream := r, tail := .free n (k + 1) }, ?_, by simp⟩
        simp only [RxPort.next, hs, ht]
        simp only [RxTail.unroll] at hu ⊢
        rw [hu]
    · exact ⟨_, _, by simp [RxPort.next, hs, ht, RxTail.unroll]; exact ⟨rfl, rfl⟩, by simp⟩
  · exact ⟨x, { p with stream := r }, by simp [RxPort.next, hs], h⟩

/-- An infinite stream holds any number of bytes (R36). -/
theorem RxPort.holds_infinite {p : RxPort} (h : p.tail ≠ .ends) (k : Nat) : p.holds k = true := by
  rw [RxPort.holds_iff]
  induction k generalizing p with
  | zero => rfl
  | succ k ih =>
    obtain ⟨x, q, hn, hq⟩ := RxPort.next_infinite h
    simpa [RxPort.front, hn] using ih hq

theorem movedBy_bounds (choice : Option Answer) {avail : Nat} (h : 1 ≤ avail) :
    1 ≤ movedBy choice avail ∧ movedBy choice avail ≤ avail := by
  unfold movedBy
  split <;> omega

/-- Everything `RxRead` can do: it is cut short, it finds the end, or it takes a piece (R60). -/
theorem rxRead_cases (k : Nat) (s : State) :
    (∃ n why sc, s.rx.script = .interrupt n why :: sc ∧
      rxRead k s = .interrupted why
        { s with rx := RxPort.drop { s.rx with script := sc } (min n (s.rx.front k).length) }) ∨
    (s.rx.front k = [] ∧
      rxRead k s = .done [] { s with rx := { s.rx with eof := true, script := s.rx.script.tail } }) ∨
    (∃ j, 1 ≤ j ∧ j ≤ (s.rx.front k).length ∧
      rxRead k s = .done ((s.rx.front k).take j)
        { s with rx := RxPort.drop { s.rx with script := s.rx.script.tail } j }) := by
  have hf : ∀ sc, RxPort.front { s.rx with script := sc } k = s.rx.front k := fun sc => s.rx.front_at s.rx.eof sc k
  rcases hs : s.rx.script with _ | ⟨a, sc⟩
  · right
    rcases he : s.rx.front k with _ | ⟨c, cs⟩
    · left
      simp [rxRead, hs, hf, he]
    · right
      refine ⟨movedBy none (s.rx.front k).length, ?_⟩
      have hb := movedBy_bounds none (show 1 ≤ (s.rx.front k).length by simp [he])
      rw [← he]
      refine ⟨hb.1, hb.2, ?_⟩
      simp [rxRead, hs, hf, he]
  · cases a with
    | interrupt n why =>
      left
      exact ⟨n, why, sc, rfl, by simp [rxRead, hs, hf]⟩
    | move n =>
      right
      rcases he : s.rx.front k with _ | ⟨c, cs⟩
      · left
        simp [rxRead, hs, hf, he]
      · right
        refine ⟨movedBy (some (.move n)) (s.rx.front k).length, ?_⟩
        have hb := movedBy_bounds (some (.move n)) (show 1 ≤ (s.rx.front k).length by simp [he])
        rw [← he]
        refine ⟨hb.1, hb.2, ?_⟩
        simp [rxRead, hs, hf, he]

/-- `RxRead` never raises and never stops, and writes nothing but the receive transport. -/
theorem rxRead_holds (k : Nat) (s : State) : (rxRead k s).Holds (fun t => t = { s with rx := t.rx }) := by
  rcases rxRead_cases k s with ⟨n, why, sc, -, h⟩ | ⟨-, h⟩ | ⟨j, -, -, h⟩ <;> rw [h] <;> rfl

/-! ## A calm receive transport -/

/-- `s` after calm receive calls: the receive stream is as in `p`, `eof` the end flag, `sc` the answers left. -/
def State.rxAt (s : State) (p : RxPort) (eof : Bool) (sc : List Answer) : State :=
  { s with rx := { p with eof := eof, script := sc } }

@[simp] theorem State.rxAt_rxAt (s : State) (p q : RxPort) (e f : Bool) (x y : List Answer) :
    (s.rxAt p e x).rxAt q f y = s.rxAt q f y := rfl

@[simp] theorem State.rxAt_self (s : State) : s.rxAt s.rx s.rx.eof s.rx.script = s := rfl

@[simp] theorem State.rxAt_rx (s : State) (p : RxPort) (e : Bool) (x : List Answer) :
    (s.rxAt p e x).rx = { p with eof := e, script := x } := rfl

@[simp] theorem State.rxAt_rd (s : State) (p : RxPort) (e : Bool) (x : List Answer) :
    (s.rxAt p e x).rd = s.rd := rfl

@[simp] theorem State.rxAt_rb (s : State) (p : RxPort) (e : Bool) (x : List Answer) :
    (s.rxAt p e x).rb = s.rb := rfl

@[simp] theorem State.rxAt_cfg (s : State) (p : RxPort) (e : Bool) (x : List Answer) :
    (s.rxAt p e x).cfg = s.cfg := rfl

@[simp] theorem State.rxAt_txn (s : State) (p : RxPort) (e : Bool) (x : List Answer) :
    (s.rxAt p e x).txn = s.txn := rfl

/-- Flags and answers of the port do not show: they are overwritten. -/
@[simp] theorem State.rxAt_flags (s : State) (p : RxPort) (e f : Bool) (x y : List Answer) :
    s.rxAt { p with eof := f, script := y } e x = s.rxAt p e x := rfl

/-- One calm call (R60). -/
theorem rxRead_calm {k : Nat} {s : State} (hc : s.rxCalm = true) (hk : 1 ≤ k) :
    ∃ sc, sc.all Answer.isMove = true ∧
      ((s.rx.front 1 = [] ∧ rxRead k s = .done [] (s.rxAt s.rx true sc)) ∨
        (∃ j, 1 ≤ j ∧ j ≤ k ∧ s.rx.holds j = true ∧
          rxRead k s = .done (s.rx.front j) (s.rxAt (s.rx.drop j) s.rx.eof sc))) := by
  have htail : s.rx.script.tail.all Answer.isMove = true := by
    simp only [State.rxCalm, List.all_eq_true] at hc ⊢
    exact fun a ha => hc a (List.mem_of_mem_tail ha)
  refine ⟨s.rx.script.tail, htail, ?_⟩
  rcases rxRead_cases k s with ⟨n, why, sc, hs, -⟩ | ⟨he, h⟩ | ⟨j, h1, h2, h⟩
  · simp [State.rxCalm, hs, Answer.isMove] at hc
  · left
    rw [← s.rx.take_front hk, he]
    exact ⟨rfl, h⟩
  · right
    have hjk : j ≤ k := Nat.le_trans h2 (s.rx.front_length_le k)
    have hj := congrArg List.length (s.rx.take_front hjk)
    rw [List.length_take, Nat.min_eq_left h2] at hj
    refine ⟨j, h1, hjk, RxPort.holds_iff.2 hj.symm, ?_⟩
    rw [h, s.rx.take_front hjk]
    exact congrArg (fun p => Run.done (s.rx.front j) { s with rx := p }) (s.rx.drop_at s.rx.eof s.rx.script.tail j)

/-- `ReadExact(n)` over a calm transport: all `n` bytes, or all that is left and the end (R63). -/
theorem readExact_calm {s : State} (hc : s.rxCalm = true) (n : Nat) :
    ∃ sc, sc.all Answer.isMove = true ∧ readExact n s =
      if s.rx.holds n then .done (.full (s.rx.front n)) (s.rxAt (s.rx.drop n) s.rx.eof sc)
      else .done (.short (s.rx.front n)) (s.rxAt (s.rx.drop n) true sc) := by
  have key : ∀ (fuel : Nat) (got : Bytes) (s : State) (m : Nat), s.rxCalm = true →
      got.length + m = n → m ≤ fuel →
      ∃ sc, sc.all Answer.isMove = true ∧ readExactLoop n fuel got s =
        if s.rx.holds m then .done (.full (got ++ s.rx.front m)) (s.rxAt (s.rx.drop m) s.rx.eof sc)
        else .done (.short (got ++ s.rx.front m)) (s.rxAt (s.rx.drop m) true sc) := by
    intro fuel
    induction fuel with
    | zero =>
      intro got s m hc hg hl
      obtain rfl : m = 0 := by omega
      exact ⟨s.rx.script, hc, by simp [readExactLoop, RxPort.holds, RxPort.front, RxPort.drop]⟩
    | succ fuel ih =>
      intro got s m hc hg hl
      by_cases hm : m = 0
      · subst hm
        have hlt : ¬ got.length < n := by omega
        exact ⟨s.rx.script, hc, by simp [readExactLoop, hlt, RxPort.holds, RxPort.front, RxPort.drop]⟩
      · have hlt : got.length < n := by omega
        have hsub : n - got.length = m := by omega
        obtain ⟨sc, hsc, ⟨he, h⟩ | ⟨j, h1, h2, h3, h⟩⟩ := rxRead_calm hc (show 1 ≤ m by omega)
        · have hnone : s.rx.next = none := by
            rcases hn : s.rx.next with _ | ⟨x, q⟩
            · rfl
            · simp [RxPort.front, hn] at he
          obtain ⟨m', rfl⟩ : ∃ m', m = m' + 1 := ⟨m - 1, by omega⟩
          exact ⟨sc, hsc, by simp [readExactLoop, hlt, hsub, h, RxPort.holds, RxPort.front, RxPort.drop, hnone]⟩
        · obtain ⟨m', rfl⟩ := Nat.exists_eq_add_of_le h2
          have hlen : (got ++ s.rx.front j).length + m' = n := by
            rw [List.length_append, RxPort.holds_iff.1 h3]; omega
          obtain ⟨sc', hsc', h'⟩ := ih (got ++ s.rx.front j) (s.rxAt (s.rx.drop j) s.rx.eof sc) m'
            (by simpa [State.rxCalm] using hsc) hlen (by omega)
          refine ⟨sc', hsc', ?_⟩
          have hne : (s.rx.front j).isEmpty = false := by
            rw [List.isEmpty_eq_false_iff, ← List.length_pos_iff, RxPort.holds_iff.1 h3]; exact h1
          have hh : s.rx.holds (j + m') = (s.rx.drop j).holds m' := by
            simp only [RxPort.holds, RxPort.front_add, List.length_append, RxPort.holds_iff.1 h3,
              Nat.add_left_cancel_iff]
          simp only [readExactLoop, hlt, if_true, hsub, h, Run.bind_done, hne, Bool.false_eq_true, if_false, h',
            State.rxAt_rx, State.rxAt_rxAt, RxPort.front_at, RxPort.drop_at, State.rxAt_flags]
          simp only [RxPort.holds_at, hh, RxPort.front_add, RxPort.drop_add, List.append_assoc]
  obtain ⟨sc, hsc, h⟩ := key n [] s n hc (Nat.zero_add n) (Nat.le_refl _)
  exact ⟨sc, hsc, by simpa [readExact] using h⟩

/-! ## The transmit transport -/

/-- `TxWrite` over a calm transport: the bytes join TX.stream, however they are cut up (R64). -/
theorem txWrite_calm {s : State} (hc : s.txCalm = true) (bytes : Bytes) :
    ∃ sc, sc.all Answer.isMove = true ∧ txWrite bytes s =
      .done .unit { s with tx := { s.tx with stream := s.tx.stream ++ bytes, script := sc } } := by
  have key : ∀ (fuel : Nat) (bytes : Bytes) (s : State), s.txCalm = true → bytes.length ≤ fuel →
      ∃ sc, sc.all Answer.isMove = true ∧ txWriteLoop fuel bytes s =
        .done .unit { s with tx := { s.tx with stream := s.tx.stream ++ bytes, script := sc } } := by
    intro fuel
    induction fuel with
    | zero =>
      intro bytes s hc hl
      have : bytes = [] := by simpa using hl
      subst this
      exact ⟨s.tx.script, hc, by simp [txWriteLoop]⟩
    | succ fuel ih =>
      intro bytes s hc hl
      by_cases hb : bytes = []
      · subst hb; exact ⟨s.tx.script, hc, by simp [txWriteLoop]⟩
      · have hpos : 1 ≤ bytes.length := List.length_pos_iff.2 hb
        have htail : s.tx.script.tail.all Answer.isMove = true := by
          simp only [State.txCalm, List.all_eq_true] at hc ⊢
          exact fun a ha => hc a (List.mem_of_mem_tail ha)
        have hb' : bytes.isEmpty = false := by simpa using hb
        have go : ∀ choice : Option Answer, ∃ sc, sc.all Answer.isMove = true ∧
            txWriteLoop fuel (bytes.drop (movedBy choice bytes.length))
              { s with tx := { s.tx with
                script := s.tx.script.tail, stream := s.tx.stream ++ bytes.take (movedBy choice bytes.length) } } =
            .done .unit { s with tx := { s.tx with stream := s.tx.stream ++ bytes, script := sc } } := by
          intro choice
          have hm := movedBy_bounds choice hpos
          obtain ⟨sc, hsc, h⟩ := ih (bytes.drop (movedBy choice bytes.length))
            { s with tx := { s.tx with
              script := s.tx.script.tail, stream := s.tx.stream ++ bytes.take (movedBy choice bytes.length) } }
            htail (by rw [List.length_drop]; omega)
          refine ⟨sc, hsc, ?_⟩
          rw [h]
          simp [List.append_assoc, List.take_append_drop]
        rcases hs : s.tx.script with _ | ⟨a, sc⟩
        · simpa [txWriteLoop, hb', hs] using go none
        · cases a with
          | interrupt n why => simp [State.txCalm, hs, Answer.isMove] at hc
          | move n => simpa [txWriteLoop, hb', hs] using go (some (.move n))
  exact key bytes.length bytes s hc (Nat.le_refl _)

/-! ## Close and flush (R65) -/

/-- The next answer of a calm transport, if there is one, moves bytes. -/
theorem calm_head {script : List Answer} (h : script.all Answer.isMove = true) :
    script.head? = none ∨ ∃ n, script.head? = some (.move n) := by
  rcases script with _ | ⟨a, sc⟩
  · exact .inl rfl
  · cases a with
    | move n => exact .inr ⟨n, rfl⟩
    | interrupt n why => simp [Answer.isMove] at h

@[simp] theorem RxPort.close_open {p : RxPort} (h : p.closed = false) :
    p.close = { p with closed := true, closes := p.closes + 1 } := by simp [RxPort.close, h]

@[simp] theorem RxPort.close_closed {p : RxPort} (h : p.closed = true) : p.close = p := by simp [RxPort.close, h]

@[simp] theorem TxPort.close_open {p : TxPort} (h : p.closed = false) :
    p.close = { p with closed := true, closes := p.closes + 1 } := by simp [TxPort.close, h]

@[simp] theorem TxPort.close_closed {p : TxPort} (h : p.closed = true) : p.close = p := by simp [TxPort.close, h]

/-- Everything `RxClose` can do: it is cut short, the close done or not, or it closes the port (R65, log 25). -/
theorem rxClose_cases (s : State) :
    (∃ n why sc, why ≠ .cancelled ∧ s.rx.script = .interrupt n why :: sc ∧
      rxClose s = .interrupted why
        { s with rx := if n = 0 then { s.rx with script := sc } else RxPort.close { s.rx with script := sc } }) ∨
    rxClose s = .done .unit { s with rx := RxPort.close { s.rx with script := s.rx.script.tail } } := by
  rcases hs : s.rx.script with _ | ⟨_ | ⟨n, _ | _ | pins⟩, sc⟩
  case cons.interrupt.ioFail => exact .inl ⟨n, .ioFail, sc, by simp, rfl, by simp [rxClose, hs]⟩
  case cons.interrupt.reset => exact .inl ⟨n, .reset pins, sc, by simp, rfl, by simp [rxClose, hs]⟩
  all_goals exact .inr (by simp [rxClose, hs])

/-- Everything a flush or a close of the transmit transport can do (R65, log 25). -/
theorem txControl_cases (act : TxPort → TxPort) (s : State) :
    (∃ n why sc, why ≠ .cancelled ∧ s.tx.script = .interrupt n why :: sc ∧
      txControl act s = .interrupted why
        { s with tx := if n = 0 then { s.tx with script := sc } else act { s.tx with script := sc } }) ∨
    txControl act s = .done .unit { s with tx := act { s.tx with script := s.tx.script.tail } } := by
  rcases hs : s.tx.script with _ | ⟨_ | ⟨n, _ | _ | pins⟩, sc⟩
  case cons.interrupt.ioFail => exact .inl ⟨n, .ioFail, sc, by simp, rfl, by simp [txControl, hs]⟩
  case cons.interrupt.reset => exact .inl ⟨n, .reset pins, sc, by simp, rfl, by simp [txControl, hs]⟩
  all_goals exact .inr (by simp [txControl, hs])

theorem rxClose_calm {s : State} (hc : s.rxCalm = true) :
    rxClose s = .done .unit { s with rx := RxPort.close { s.rx with script := s.rx.script.tail } } := by
  rcases calm_head hc with hh | ⟨n, hh⟩ <;> simp [rxClose, hh]

theorem txControl_calm {s : State} (hc : s.txCalm = true) (act : TxPort → TxPort) :
    txControl act s = .done .unit { s with tx := act { s.tx with script := s.tx.script.tail } } := by
  rcases calm_head hc with hh | ⟨n, hh⟩ <;> simp [txControl, hh]

/-! ## Interruptions and reset -/

@[simp] theorem State.interrupted_cancelled (s : State) (u : BlockUnit) :
    s.interrupted u .cancelled = .next ((s.poison u).raise u .cancelled) := rfl

@[simp] theorem State.interrupted_ioFail (s : State) (u : BlockUnit) :
    s.interrupted u .ioFail = .next ((s.poison u).raise u .ioFail) := rfl

@[simp] theorem State.interrupted_reset (s : State) (u : BlockUnit) (pins : StrapPins) :
    s.interrupted u (.reset pins) = s.assertReset pins := rfl

/-- Everything reset can do: it loads legal straps, or is refused (R240 to R243). -/
theorem State.assertReset_cases (s : State) (pins : StrapPins) :
    (∃ cfg, StrapPins.load pins = some cfg ∧ s.assertReset pins = .next (s.afterReset cfg)) ∨
      (StrapPins.load pins = none ∧ s.assertReset pins = .refused .illegalStraps) := by
  rcases h : StrapPins.load pins with _ | cfg
  · exact .inr ⟨rfl, by simp [State.assertReset, h]⟩
  · exact .inl ⟨cfg, rfl, by simp [State.assertReset, h]⟩

/-- Straps load exactly when they are well-formed (R243). -/
theorem load_isSome_iff (pins : StrapPins) : (StrapPins.load pins).isSome = pins.wellFormed := by
  have hs : ∀ c : BitVec 4, (Style.ofCode c).isSome = decide (c.toNat ≤ 9) := by decide
  have h1 := hs pins.rdStyle
  have h2 := hs pins.wrStyle
  rcases hr : Style.ofCode pins.rdStyle with _ | r <;> rcases hw : Style.ofCode pins.wrStyle with _ | w <;>
    simp only [hr, hw, Option.isSome_none, Option.isSome_some] at h1 h2 <;>
    simp only [StrapPins.load, StrapPins.wellFormed, hr, hw, ← h1, ← h2, Bool.true_and, Bool.false_and,
      Bool.and_false, Option.isSome_none]
  by_cases hc : 1 ≤ pins.cap ∧ pins.cap ≤ PAYLOAD_MAX
  · simp only [hc, and_self, dif_pos, Option.isSome_some, decide_true, Bool.and_self]
  · rw [dif_neg hc, Option.isSome_none, ← Bool.decide_and, decide_eq_false hc]

/-! ## Whatever strikes -/

/-- Everything `TxWrite` can do: TX.stream gains all the bytes, or it is cut short and TX.stream gains some
front part of them (R64, R226 (b)). -/
theorem txWrite_cases (bytes : Bytes) (s : State) :
    ∃ sc, (∃ l, s.tx.script = l ++ sc) ∧
      (txWrite bytes s = .done .unit { s with tx := { s.tx with stream := s.tx.stream ++ bytes, script := sc } } ∨
        ∃ k n why, Answer.interrupt n why ∈ s.tx.script ∧ txWrite bytes s = .interrupted why
          { s with tx := { s.tx with stream := s.tx.stream ++ bytes.take k, script := sc } }) := by
  have key : ∀ (fuel : Nat) (bytes : Bytes) (s : State), bytes.length ≤ fuel →
      ∃ sc, (∃ l, s.tx.script = l ++ sc) ∧
        (txWriteLoop fuel bytes s =
            .done .unit { s with tx := { s.tx with stream := s.tx.stream ++ bytes, script := sc } } ∨
          ∃ k n why, Answer.interrupt n why ∈ s.tx.script ∧ txWriteLoop fuel bytes s = .interrupted why
            { s with tx := { s.tx with stream := s.tx.stream ++ bytes.take k, script := sc } }) := by
    intro fuel
    induction fuel with
    | zero =>
      intro bytes s hl
      have : bytes = [] := by simpa using hl
      subst this
      exact ⟨s.tx.script, ⟨[], rfl⟩, .inl (by simp [txWriteLoop])⟩
    | succ fuel ih =>
      intro bytes s hl
      by_cases hb : bytes = []
      · subst hb; exact ⟨s.tx.script, ⟨[], rfl⟩, .inl (by simp [txWriteLoop])⟩
      · have hpos : 1 ≤ bytes.length := List.length_pos_iff.2 hb
        have hb' : bytes.isEmpty = false := by simpa using hb
        have go : ∀ choice : Option Answer, ∃ sc, (∃ l, s.tx.script.tail = l ++ sc) ∧
            (txWriteLoop fuel (bytes.drop (movedBy choice bytes.length))
                { s with tx := { s.tx with
                  script := s.tx.script.tail, stream := s.tx.stream ++ bytes.take (movedBy choice bytes.length) } } =
              .done .unit { s with tx := { s.tx with stream := s.tx.stream ++ bytes, script := sc } } ∨
            ∃ k n why, Answer.interrupt n why ∈ s.tx.script.tail ∧
              txWriteLoop fuel (bytes.drop (movedBy choice bytes.length))
                { s with tx := { s.tx with
                  script := s.tx.script.tail, stream := s.tx.stream ++ bytes.take (movedBy choice bytes.length) } } =
              .interrupted why
                { s with tx := { s.tx with stream := s.tx.stream ++ bytes.take k, script := sc } }) := by
          intro choice
          have hm := movedBy_bounds choice hpos
          obtain ⟨sc, hl', h⟩ := ih (bytes.drop (movedBy choice bytes.length))
            { s with tx := { s.tx with
              script := s.tx.script.tail, stream := s.tx.stream ++ bytes.take (movedBy choice bytes.length) } }
            (by rw [List.length_drop]; omega)
          refine ⟨sc, hl', ?_⟩
          rcases h with h | ⟨k, n, why, hmem, h⟩
          · left; rw [h]; simp [List.append_assoc, List.take_append_drop]
          · right
            refine ⟨movedBy choice bytes.length + k, n, why, hmem, ?_⟩
            rw [h]; simp [List.append_assoc, List.take_add]
        rcases hs : s.tx.script with _ | ⟨a, sc⟩
        · obtain ⟨sc', ⟨l, hl'⟩, h⟩ := go none
          simp only [hs, List.tail_nil] at h hl'
          refine ⟨sc', ⟨l, hl'⟩, ?_⟩
          simpa [txWriteLoop, hb', hs] using h
        · cases a with
          | interrupt n why =>
            refine ⟨sc, ⟨[.interrupt n why], rfl⟩, .inr ⟨n, n, why, by simp, ?_⟩⟩
            simp [txWriteLoop, hb', hs]
          | move n =>
            obtain ⟨sc', ⟨l, hl'⟩, h⟩ := go (some (.move n))
            simp only [hs, List.tail_cons] at h hl'
            refine ⟨sc', ⟨.move n :: l, by simp [hl']⟩, ?_⟩
            rcases h with h | ⟨k, n', why, hmem, h⟩
            · left; simpa [txWriteLoop, hb', hs] using h
            · right; exact ⟨k, n', why, by simp [hmem], by simpa [txWriteLoop, hb', hs] using h⟩
  exact key bytes.length bytes s (Nat.le_refl _)

end Sys2Proof.Machine
end

