-- ==== Sys2Proof/Laws/Reader.lean ====
section
/-! SUPPORT. Length resolution and frame fetch over a calm receive transport: once everything they can do, on any stream, finite or infinite. -/

namespace Sys2Proof.Machine

/-- `RxNext` over a calm transport (R161). -/
theorem rxNext_calm {s : State} (hc : s.rxCalm = true) :
    ∃ sc, sc.all Answer.isMove = true ∧ rxNext s =
      match s.rx.next with
      | none => .done none (s.rxAt s.rx true sc)
      | some (x, q) => .done (some x) (s.rxAt q s.rx.eof sc) := by
  obtain ⟨sc, hsc, ⟨he, h⟩ | ⟨j, h1, h2, h3, h⟩⟩ := rxRead_calm hc (le_refl 1)
  · refine ⟨sc, hsc, ?_⟩
    rcases hn : s.rx.next with _ | ⟨x, q⟩
    · simp [rxNext, h]
    · simp [RxPort.front, hn] at he
  · refine ⟨sc, hsc, ?_⟩
    obtain rfl : j = 1 := by omega
    rcases hn : s.rx.next with _ | ⟨x, q⟩
    · simp [RxPort.holds, RxPort.front, hn] at h3
    · simp [rxNext, h, RxPort.front, RxPort.drop, hn]

/-- Everything the decode loop does over a calm transport, whatever its turns: it takes what it takes from
the front of the stream; if the prefix is not complete there, it has found the end, or the turns have run
out (R122, R161). -/
theorem decodeRxLoop_calm {st : Style} {ord : ByteOrder} {turns : Nat} {got : Bytes} {s : State}
    (hc : s.rxCalm = true) :
    ∃ sc, sc.all Answer.isMove = true ∧ decodeRxLoop st ord turns got s =
      match decodeLoop st ord got (s.rx.front turns) with
      | some (V, c) => .done (some V) (s.rxAt (s.rx.drop (c - got.length)) s.rx.eof sc)
      | none =>
        if s.rx.holds turns then .stuck (s.rxAt (s.rx.drop turns) s.rx.eof sc)
        else .done none (s.rxAt (s.rx.drop turns) true sc) := by
  induction turns generalizing got s with
  | zero => exact ⟨s.rx.script, hc, by simp [decodeRxLoop, RxPort.front, RxPort.drop, RxPort.holds, decodeLoop]⟩
  | succ turns ih =>
    obtain ⟨sc, hsc, h⟩ := rxNext_calm hc
    rcases hn : s.rx.next with _ | ⟨x, q⟩
    · rw [hn] at h
      exact ⟨sc, hsc, by simp [decodeRxLoop, h, RxPort.front, RxPort.drop, RxPort.holds, hn, decodeLoop]⟩
    · rw [hn] at h
      by_cases hcmp : prefixComplete st (got ++ [x]) = true
      · refine ⟨sc, hsc, ?_⟩
        rw [RxPort.front_succ hn, decodeLoop_complete hcmp]
        simp [decodeRxLoop, h, hcmp, RxPort.drop, hn]
      · obtain ⟨sc', hsc', h'⟩ := ih (got := got ++ [x]) (s := s.rxAt q s.rx.eof sc)
          (by simpa [State.rxCalm] using hsc)
        refine ⟨sc', hsc', ?_⟩
        rw [RxPort.front_succ hn, decodeLoop_more (by simpa using hcmp)]
        simp only [decodeRxLoop, h, Run.bind_done, hcmp, h', State.rxAt_rx, State.rxAt_rxAt, RxPort.front_at,
          RxPort.holds_at, RxPort.drop_at, State.rxAt_flags, Bool.false_eq_true, if_false]
        rcases hd : decodeLoop st ord (got ++ [x]) (q.front turns) with _ | ⟨V, c⟩
        · have hh : s.rx.holds (turns + 1) = q.holds turns := by
            simp only [RxPort.holds, RxPort.front_succ hn, List.length_cons, Nat.add_right_cancel_iff]
          simp only [hh, RxPort.drop_succ hn]
        · have := decodeLoop_count hd
          simp only [List.length_append, List.length_cons, List.length_nil] at this ⊢
          rw [show c - got.length = (c - (got.length + 1)) + 1 by omega, RxPort.drop_succ hn]

/-! ## How far a prefix can reach (R123, R252) -/

/-- Every byte still to come has bit 7 set. -/
def RxPort.AllContinue (p : RxPort) : Prop :=
  (∀ b ∈ p.stream, b.getLsbD 7 = true) ∧ ∀ b ∈ p.tail.unroll.1, b.getLsbD 7 = true

theorem RxPort.AllContinue.next {p q : RxPort} {x : Byte} (h : p.AllContinue) (hn : p.next = some (x, q)) :
    x.getLsbD 7 = true ∧ q.AllContinue := by
  obtain ⟨h1, h2⟩ := h
  rcases p with ⟨_ | ⟨y, r⟩, t, e, c, n, sc⟩
  · rcases t with _ | ⟨b, r⟩ | ⟨n, k⟩ | ⟨n, k⟩
    · simp [RxPort.next, RxTail.unroll] at hn
    · simp only [RxPort.next, RxTail.unroll, Option.some.injEq, Prod.mk.injEq] at hn
      obtain ⟨rfl, rfl⟩ := hn
      simp only [RxTail.unroll, List.mem_cons, forall_eq_or_imp] at h2
      exact ⟨h2.1, h2.2, by simpa [RxTail.unroll] using h2⟩
    · have := h2 (0x7F#8 &&& Config.rxByte n k) (by simp [RxTail.unroll])
      simp at this
    · simp only [RxPort.next, RxTail.unroll, Option.some.injEq, Prod.mk.injEq] at hn
      obtain ⟨rfl, rfl⟩ := hn
      exact ⟨by simp, by simp, by simp [RxTail.unroll]⟩
  · simp only [RxPort.next, Option.some.injEq, Prod.mk.injEq] at hn
    obtain ⟨rfl, rfl⟩ := hn
    exact ⟨h1 _ (by simp), fun b hb => h1 b (by simp [hb]), h2⟩

theorem RxPort.AllContinue.front {p : RxPort} (h : p.AllContinue) (k : Nat) :
    ∀ b ∈ p.front k, b.getLsbD 7 = true := by
  induction k generalizing p with
  | zero => simp [RxPort.front]
  | succ k ih =>
    rw [RxPort.front]
    rcases hn : p.next with _ | ⟨x, q⟩
    · simp
    · obtain ⟨hx, hq⟩ := h.next hn
      simpa [hx] using ih hq

/-- A prefix not complete in a byte sequence is complete in no front of it. -/
theorem decodeLoop_none {st : Style} {ord : ByteOrder} {got src : Bytes} :
    decodeLoop st ord got src = none ↔
      ∀ m, 1 ≤ m → m ≤ src.length → prefixComplete st (got ++ src.take m) = false := by
  induction src generalizing got with
  | nil => simp only [decodeLoop, List.length_nil, true_iff]; intro m h1 h2; omega
  | cons x r ih =>
    by_cases hc : prefixComplete st (got ++ [x]) = true
    · rw [decodeLoop_complete hc]
      simp only [reduceCtorEq, false_iff, not_forall]
      exact ⟨1, le_refl 1, by simp, by simp [hc]⟩
    · rw [decodeLoop_more (by simpa using hc), ih]
      constructor
      · intro h m h1 h2
        obtain ⟨m, rfl⟩ : ∃ m', m = m' + 1 := ⟨m - 1, by omega⟩
        rcases Nat.eq_zero_or_pos m with rfl | hm
        · simpa using hc
        · simpa using h m hm (by simpa using h2)
      · intro h m h1 h2
        simpa using h (m + 1) (by omega) (by simpa using h2)

/-- Under a variable-width style: exactly when every byte has bit 7 set (R98). -/
theorem decodeLoop_none_variable {st : Style} (hw : Style.width st = none) {ord : ByteOrder} {src : Bytes} :
    decodeLoop st ord [] src = none ↔ ∀ b ∈ src, b.getLsbD 7 = true := by
  rw [decodeLoop_none]
  have hlast : ∀ m, 1 ≤ m → m ≤ src.length → ∀ h : m - 1 < src.length,
      prefixComplete st ([] ++ src.take m) = !src[m - 1].getLsbD 7 := by
    intro m h1 h2 h
    obtain ⟨m, rfl⟩ : ∃ m', m = m' + 1 := ⟨m - 1, by omega⟩
    have hg : (src.take (m + 1)).getLast? = some src[m] := by
      rw [List.getLast?_eq_getElem?, List.length_take, Nat.min_eq_left h2]
      simp [show m < src.length by omega]
    simp only [prefixComplete, hw, List.nil_append, hg, Nat.add_sub_cancel]
  constructor
  · intro h b hb
    obtain ⟨i, hi, rfl⟩ := List.getElem_of_mem hb
    have := h (i + 1) (by omega) (by omega)
    rw [hlast (i + 1) (by omega) (by omega) (by simpa using hi)] at this
    simpa using this
  · intro h m h1 h2
    rw [hlast m h1 h2 (by omega), h _ (List.getElem_mem _)]
    rfl

/-- A prefix that is not complete within `reach` never is: no longer front decodes to anything else. -/
theorem decodeLoop_front_reach (st : Style) (ord : ByteOrder) (p : RxPort) {k : Nat} (hk : p.reach ≤ k) :
    decodeLoop st ord [] (p.front k) = decodeLoop st ord [] (p.front p.reach) := by
  obtain ⟨i, rfl⟩ := Nat.exists_eq_add_of_le hk
  rcases hd : decodeLoop st ord [] (p.front p.reach) with _ | ⟨V, c⟩
  · by_cases ht : p.tail = .ends
    · have hs : (p.front p.reach).length < p.reach := by
        rw [RxPort.front_finite ht, RxPort.reach, List.length_take]; omega
      rw [RxPort.front_add, RxPort.front_of_short hs, List.append_nil, hd]
    · rcases hw : Style.width st with _ | w
      · rw [decodeLoop_none_variable hw] at hd ⊢
        apply RxPort.AllContinue.front
        have hall : ∀ b ∈ p.stream ++ p.tail.unroll.1, b.getLsbD 7 = true := by
          rw [← p.front_unroll]
          intro b hb
          have : p.stream.length + p.tail.unroll.1.length ≤ p.reach := by rw [RxPort.reach]; omega
          rw [← p.take_front this] at hb
          exact hd b (List.mem_of_mem_take hb)
        exact ⟨fun b hb => hall b (by simp [hb]), fun b hb => hall b (by simp [hb])⟩
      · exfalso
        have hlen : (p.front p.reach).length = p.reach := RxPort.holds_iff.1 (RxPort.holds_infinite ht _)
        have h8 : 1 ≤ w ∧ w ≤ 8 := by
          revert hw; cases st <;> simp only [Style.width, Option.some.injEq, reduceCtorEq, false_implies] <;> omega
        have hle : w ≤ p.reach := by rw [RxPort.reach]; omega
        have := decodeLoop_none.1 hd w h8.1 (by omega)
        simp [prefixComplete, hw, hlen, hle] at this
  · rw [RxPort.front_add]
    exact decodeLoop_append hd _

/-! ## Length resolution and frame fetch -/

/-- `s` with `RD.next = KNOWN(V)`. -/
def State.knowNext (s : State) (V : Scalar) : State := { s with rd := { s.rd with next := some V } }

@[simp] theorem State.knowNext_rx (s : State) (V : Scalar) : (s.knowNext V).rx = s.rx := rfl

@[simp] theorem State.knowNext_rb (s : State) (V : Scalar) : (s.knowNext V).rb = s.rb := rfl

@[simp] theorem State.knowNext_cfg (s : State) (V : Scalar) : (s.knowNext V).cfg = s.cfg := rfl

@[simp] theorem State.knowNext_txn (s : State) (V : Scalar) : (s.knowNext V).txn = s.txn := rfl

@[simp] theorem State.knowNext_next (s : State) (V : Scalar) : (s.knowNext V).rd.next = some V := rfl

@[simp] theorem State.knowNext_rxAt_forget (s : State) (V : Scalar) (p : RxPort) (e : Bool) (x : List Answer) :
    ((s.knowNext V).rxAt p e x).forgetNext = (s.rxAt p e x).forgetNext := rfl

@[simp] theorem State.knowNext_forget (s : State) (V : Scalar) : (s.knowNext V).forgetNext = s.forgetNext := rfl

/-- Forgetting an unknown length changes nothing. -/
theorem State.forgetNext_of_none {s : State} (h : s.rd.next = none) : s.forgetNext = s := by
  rcases s with ⟨cfg, rb, ⟨next, lock, closed, poisoned⟩⟩
  dsimp only at h
  subst h
  rfl

/-- Knowing what is known changes nothing. -/
theorem State.knowNext_of_some {s : State} {V : Scalar} (h : s.rd.next = some V) : s.knowNext V = s := by
  rcases s with ⟨cfg, rb, ⟨next, lock, closed, poisoned⟩⟩
  dsimp only at h
  subst h
  rfl

/-- `Resolve` over a calm transport (R161, R252 (a)): a length, the end inside the prefix, or a prefix that
never ends. -/
theorem resolve_calm {s : State} (hc : s.rxCalm = true) :
    ∃ sc, sc.all Answer.isMove = true ∧ resolve s =
      match s.upcoming with
      | some (V, q) => .done (Style.ival s.cfg.rd.style V) ((s.rxAt q s.rx.eof sc).knowNext V)
      | none =>
        if s.rx.tail = .ends then .done 0 (s.rxAt { s.rx with stream := [] } true sc)
        else .stuck s.prefixPending := by
  rcases hn : s.rd.next with _ | v
  · obtain ⟨sc, hsc, h⟩ := decodeRxLoop_calm (st := s.cfg.rd.style) (ord := s.cfg.rd.order)
      (turns := decodeTurns s) (got := []) hc
    refine ⟨sc, hsc, ?_⟩
    have hr : s.rx.reach ≤ decodeTurns s := by rw [decodeTurns]; omega
    simp only [resolve, hn, State.upcoming, decodePrefix, h, decodeLoop_front_reach _ _ _ hr]
    rcases hd : decodeLoop s.cfg.rd.style s.cfg.rd.order [] (s.rx.front s.rx.reach) with _ | ⟨V, c⟩
    · by_cases ht : s.rx.tail = .ends
      · have hlt : s.rx.holds (decodeTurns s) = false := by
          rw [RxPort.holds, decide_eq_false_iff_not, RxPort.front_finite ht, List.length_take, decodeTurns, RxPort.reach]; omega
        have hdrop : s.rx.stream.drop (decodeTurns s) = [] := by
          rw [List.drop_eq_nil_iff, decodeTurns, RxPort.reach]; omega
        simp [hlt, ht, hdrop]
      · simp [RxPort.holds_infinite ht, ht]
    · simp [State.knowNext]
  · refine ⟨s.rx.script, hc, ?_⟩
    simp only [resolve, hn, State.upcoming, State.rxAt_self, State.knowNext_of_some hn]

/-- With no length to come none is cached. -/
theorem next_of_upcoming_none {s : State} (h : s.upcoming = none) : s.rd.next = none := by
  simp only [State.upcoming] at h
  split at h
  · cases h
  · assumption

/-- `PullFrame` over a calm transport (R163): the end, a prefix that never ends, a frame that is empty, a
whole one, one cut short. -/
theorem pullFrame_calm {s : State} (hc : s.rxCalm = true) :
    ∃ sc, sc.all Answer.isMove = true ∧ pullFrame s =
      match s.upcoming with
      | none =>
        if s.rx.tail = .ends then .done none (s.rxAt { s.rx with stream := [] } true sc)
        else .stuck s.prefixPending
      | some (V, q) =>
        let L := (Style.ival s.cfg.rd.style V).toNat
        if Style.ival s.cfg.rd.style V < 1 then .done none (s.rxAt q s.rx.eof sc).forgetNext
        else if q.holds L then .done (some (q.front L)) (s.rxAt (q.drop L) s.rx.eof sc).forgetNext
        else .raised .incompleteFrame (s.rxAt (q.drop L) true sc).forgetNext := by
  obtain ⟨sc, hsc, h⟩ := resolve_calm hc
  rcases hu : s.upcoming with _ | ⟨V, q⟩
  · refine ⟨sc, hsc, ?_⟩
    rw [hu] at h
    by_cases ht : s.rx.tail = .ends
    · simp only [pullFrame, h, ht, if_true, Run.bind_done, Int.reduceLT]
      rw [State.forgetNext_of_none]
      simpa using next_of_upcoming_none hu
    · simp only [pullFrame, h, ht, if_false, Run.bind_stuck]
  · rw [hu] at h
    dsimp only at h ⊢
    by_cases hlt : Style.ival s.cfg.rd.style V < 1
    · refine ⟨sc, hsc, ?_⟩
      simp only [pullFrame, h, Run.bind_done, hlt, if_true, State.knowNext_forget]
    · obtain ⟨sc', hsc', h'⟩ := readExact_calm (s := (s.rxAt q s.rx.eof sc).knowNext V)
        (by simpa [State.rxCalm] using hsc) (Style.ival s.cfg.rd.style V).toNat
      refine ⟨sc', hsc', ?_⟩
      simp only [pullFrame, h, Run.bind_done, hlt, if_false, h', State.knowNext_rx, State.rxAt_rx,
        RxPort.holds_at, RxPort.front_at, RxPort.drop_at]
      by_cases hle : q.holds (Style.ival s.cfg.rd.style V).toNat = true
      · simp only [hle, if_true, Run.bind_done, State.knowNext_rxAt_forget, State.rxAt_rxAt, State.rxAt_flags]
      · simp only [hle, if_false, Bool.false_eq_true, Run.bind_done, State.knowNext_rxAt_forget, State.rxAt_rxAt, State.rxAt_flags]

end Sys2Proof.Machine
end

