-- ==== Sys2Proof/Laws/Step.lean ====
section
/-! SUPPORT. Everything one step can do: whose turn it is, what a turn comes to, and what a move does. -/

namespace Sys2Proof.Machine

/-! ## Whose turn it is -/

@[simp] theorem State.select_beginStep (s : State) (rest : List Event) (who : Nat) :
    (s.beginStep rest).select who = s.select who := rfl

@[simp] theorem State.select_beginTurn (s : State) (who : Nat) : s.beginTurn.select who = s.select who := rfl

@[simp] theorem State.lockOf_beginTurn (s : State) (u : BlockUnit) : s.beginTurn.lockOf u = s.lockOf u := by
  cases u <;> rfl

@[simp] theorem State.select_lookAhead (s : State) (who : Nat) : s.lookAhead.select who = s.select who := by
  unfold State.lookAhead; split <;> rfl

@[simp] theorem State.lockOf_beginStep (s : State) (rest : List Event) (u : BlockUnit) :
    (s.beginStep rest).lockOf u = s.lockOf u := by cases u <;> rfl

theorem State.pending_who {s : State} {who : Nat} {t : Transaction} (h : s.pending who = some t) : t.who = who := by
  simpa using List.find?_some h

theorem State.pending_mem {s : State} {who : Nat} {t : Transaction} (h : s.pending who = some t) : t ∈ s.waiting :=
  List.mem_of_find?_eq_some h

/-- What the arbiter's turn to a requester can come to. -/
theorem State.select_cases (s : State) (who : Nat) :
    s.select who = .nothing ∨
    (∃ t e, s.pending who = some t ∧ decode t.req.cmd = .illegal e ∧ s.select who = .illegal t) ∨
    (∃ t i, s.pending who = some t ∧ decode t.req.cmd = .command i ∧ s.lockOf (Instr.unit i) = .free ∧
      s.select who = .run i t) := by
  unfold State.select
  cases hp : s.pending who with
  | none => exact .inl rfl
  | some t =>
    cases hd : decode t.req.cmd with
    | illegal e => exact .inr (.inl ⟨t, e, rfl, hd, by simp [hd]⟩)
    | command i =>
      by_cases hl : s.lockOf (Instr.unit i) = .free
      · exact .inr (.inr ⟨t, i, rfl, hd, hl, by simp [hd, hl]⟩)
      · exact .inl (by simp [hd, hl])

/-- What a requester's turn can do to the machine. -/
theorem State.serve_cases (s : State) (who : Nat) :
    s.serve who = .next s ∨
    (∃ t e, s.pending who = some t ∧ decode t.req.cmd = .illegal e ∧
      s.serve who = .next (s.dismiss t .illegalCommand)) ∨
    (∃ t i, s.pending who = some t ∧ decode t.req.cmd = .command i ∧ s.lockOf (Instr.unit i) = .free ∧
      s.serve who = exec i (s.granted (Instr.unit i) t)) := by
  unfold State.serve
  obtain h | ⟨t, e, hp, hd, h⟩ | ⟨t, i, hp, hd, hl, h⟩ := s.select_cases who
  · exact .inl (by rw [h])
  · exact .inr (.inl ⟨t, e, hp, hd, by rw [h]⟩)
  · exact .inr (.inr ⟨t, i, hp, hd, hl, by rw [h]⟩)

/-- A requester whose command can be served now gets its turn whatever else the schedule holds, once the
schedule grants it. -/
theorem State.due_grant {s : State} {who : Nat} {rest : List Event} (h : s.schedule = .grant who :: rest)
    (hw : s.servable who = true) : s.due = none := by
  simp [State.due, h, hw]

/-- Whom the arbiter chooses by itself: someone whose command can be served, if there is one. -/
theorem State.chosen_servable {s : State} {who : Nat} (h : s.chosen = some who) : s.servable who = true := by
  obtain ⟨t, ht, rfl⟩ := Option.map_eq_some_iff.mp h
  simpa using (List.mem_filter.mp (List.mem_of_getElem? ht)).2

/-- The arbiter chooses someone whenever some command can be served. -/
theorem State.chosen_isSome {s : State} {t : Transaction} (ht : t ∈ s.waiting) (hs : s.servable t.who = true) :
    s.chosen.isSome = true := by
  have hm : t ∈ s.waiting.filter fun t => s.servable t.who := List.mem_filter.mpr ⟨ht, hs⟩
  simp [State.chosen, Nat.mod_lt _ (List.length_pos_of_mem hm)]

/-- With nothing waiting no requester's turn comes by itself. -/
theorem State.due_idle {s : State} (h : s.waiting = []) : s.due = none := by
  unfold State.due
  split <;> simp [h, State.chosen]

/-- The requester whose turn comes by itself has a command that can be served now. -/
theorem State.due_servable {s : State} {who : Nat} (h : s.due = some who) : s.servable who = true := by
  have key : ∀ p : Transaction → Bool, (∀ t, p t = true → s.servable t.who = true) →
      (s.waiting.find? p).map Transaction.who = some who → s.servable who = true := by
    intro p hp hw
    obtain ⟨t, ht, rfl⟩ := Option.map_eq_some_iff.mp hw
    exact hp t (List.find?_some ht)
  have unc : ∀ t, s.uncontested t = true → s.servable t.who = true := by
    intro t ht
    simp only [State.uncontested, Bool.and_eq_true] at ht
    exact ht.1
  unfold State.due at h
  split at h
  · split at h
    · rename_i t ht
      cases h
      exact unc t (List.find?_some ht)
    · exact State.chosen_servable h
  · cases h
  · split at h
    · cases h
    · exact key _ unc h
  · refine key _ (fun t ht => ?_) h
    simp only [Bool.and_eq_true] at ht
    exact unc t ht.1

/-- Every step, its next move written down: a requester's turn that came by itself, the schedule waiting, or
that move. -/
theorem step_cases (s : State) :
    (∃ who, s.lookAhead.due = some who ∧ s.servable who = true ∧ step s = s.lookAhead.beginTurn.serve who) ∨
    (s.lookAhead.due = none ∧
      ((s.coming = none ∧ step s = .next (s.lookAhead.beginStep [])) ∨
      (∃ e rest, s.coming = some e ∧ s.lookAhead.schedule = e :: rest ∧
        step s = match e with
          | .present who req => (s.lookAhead.beginStep rest).present who req
          | .grant who => (s.lookAhead.beginStep rest).serve who
          | .cancel who => (s.lookAhead.beginStep rest).cancel who
          | .rxArrive bytes => .next ((s.lookAhead.beginStep rest).rxArrive bytes)
          | .answers rx tx => (s.lookAhead.beginStep rest).answered rx tx
          | .reset pins => (s.lookAhead.beginStep rest).assertReset pins))) := by
  unfold step
  cases hd : s.lookAhead.due with
  | some who => exact .inl ⟨who, rfl, by simpa [State.servable] using s.lookAhead.due_servable hd, by simp [hd]⟩
  | none =>
    refine .inr ⟨rfl, ?_⟩
    simp only [hd, State.move, State.coming]
    cases hs : s.lookAhead.schedule with
    | nil => exact .inl ⟨rfl, rfl⟩
    | cons e rest => exact .inr ⟨e, rest, rfl, rfl, by cases e <;> rfl⟩

/-! ## What a move does -/

/-- What a presented command can come to. -/
theorem State.present_cases (s : State) (who : Nat) (req : Request) :
    (who < s.NREQ ∧ s.busy who = false ∧ req.wellFormed = true ∧
      s.present who req = .next { s with waiting := s.waiting ++ [⟨who, req, 0⟩] }) ∨
    (∃ r, s.present who req = .refused r) := by
  unfold State.present
  split
  · exact .inr ⟨_, rfl⟩
  split
  · exact .inr ⟨_, rfl⟩
  split
  · exact .inr ⟨_, rfl⟩
  · rename_i h1 h2 h3
    exact .inl ⟨by simpa using h1, by simpa using h2, by simpa using h3, rfl⟩

/-- A cancel of a waiting command ends it, or has no effect. -/
theorem State.cancelWaiting_cases (s : State) (who : Nat) :
    s.cancelWaiting who = s ∨
    (∃ t i, s.pending who = some t ∧ decode t.req.cmd = .command i ∧ Instr.unit i ≠ .codec ∧
      s.cancelWaiting who = s.dismiss t .cancelled) := by
  unfold State.cancelWaiting
  cases hp : s.pending who with
  | none => exact .inl rfl
  | some t =>
    cases hd : decode t.req.cmd with
    | illegal e => exact .inl (by simp [hd])
    | command i =>
      by_cases hu : Instr.unit i = .codec
      · exact .inl (by simp [hd, hu])
      · exact .inr ⟨t, i, rfl, hd, hu, by simp [hd, hu]⟩

/-- What a cancel can come to: the stuck command is cut short, the waiting one ends, or nothing happens. -/
theorem State.cancel_cases (s : State) (who : Nat) :
    (s.stuck = some who ∧ s.cancel who = s.strike who .cancelled) ∨
    (s.stuck ≠ some who ∧ s.cancel who = .next (s.cancelWaiting who)) := by
  unfold State.cancel
  by_cases h : s.stuck = some who
  · exact .inl ⟨h, by simp [h]⟩
  · exact .inr ⟨h, by simp [h]⟩

/-- What answers do to a stuck command: each takes a byte, and the first that is no move cuts it short. -/
theorem State.feed_cases (who : Nat) (answers : List Answer) (s : State) :
    (answers.all Answer.isMove = true ∧
      State.feed who answers s = .next { s with rx := { s.rx.drop answers.length with script := [] } }) ∨
    (∃ moves n why rest, answers = moves ++ .interrupt n why :: rest ∧ moves.all Answer.isMove = true ∧
      State.feed who answers s = State.strike
        { s with rx := { s.rx.drop (moves.length + min n 1) with script := rest } } who why) := by
  induction answers generalizing s with
  | nil => exact .inl ⟨rfl, rfl⟩
  | cons a r ih =>
    cases a with
    | interrupt n why => exact .inr ⟨[], n, why, r, rfl, rfl, by simp [State.feed]⟩
    | move k =>
      obtain ⟨hr, h⟩ | ⟨moves, n, why, rest, rfl, hm, h⟩ := ih { s with rx := s.rx.drop 1 }
      · refine .inl ⟨by simpa [Answer.isMove] using hr, ?_⟩
        rw [State.feed, h, List.length_cons, Nat.add_comm, RxPort.drop_add]
      · refine .inr ⟨.move k :: moves, n, why, rest, rfl, by simpa [Answer.isMove] using hm, ?_⟩
        rw [State.feed, h, List.length_cons, show moves.length + 1 + min n 1 = 1 + (moves.length + min n 1) by omega,
          RxPort.drop_add _ 1]

end Sys2Proof.Machine
end

