-- ==== Sys2Proof/Laws/Writer.lean ====
section
/-! SUPPORT. EmitFrame: once everything it can do (R191). -/

namespace Sys2Proof.Machine

/-- A frame the style can hold, over a calm transport: prefix and payload join TX.stream. -/
theorem emitFrame_fits {s : State} (hc : s.txCalm = true) {p : Bytes}
    (hw : Style.within s.cfg.wr.style p.length = true) (hp : p.length ≤ PAYLOAD_MAX) :
    ∃ sc, sc.all Answer.isMove = true ∧ emitFrame p s =
      .done .unit { s with tx := { s.tx with stream := s.tx.stream ++ frameOf s.cfg.wr p, script := sc } } := by
  obtain ⟨pre, hpre⟩ := encodePrefix_within s.cfg.wr.order hw hp
  obtain ⟨sc, hsc, h⟩ := txWrite_calm hc (pre ++ p)
  exact ⟨sc, hsc, by simp [emitFrame, hw, hpre, h, frameOf]⟩

/-- A frame the style cannot hold: nothing is written. -/
theorem emitFrame_long {s : State} {p : Bytes} (hw : Style.within s.cfg.wr.style p.length = false) :
    emitFrame p s = .raised .lengthExceedsPrefix s := by
  simp [emitFrame, hw]

/-- A chunk is within the style's maximum (R193). -/
theorem chunkOf_within (st : Style) (data : Bytes) (i : Nat) :
    Style.within st (chunkOf st data i).length = true := by
  cases st <;> simp [Style.within, Style.maxLen, chunkOf]

/-- A chunk is no longer than what it is cut from. -/
theorem chunkOf_length_le (st : Style) (data : Bytes) (i : Nat) : (chunkOf st data i).length ≤ data.length := by
  cases st <;> simp [Style.maxLen, chunkOf]

end Sys2Proof.Machine
end

