-- ==== Sys2Proof/Tests/Slice0.lean ====
section
/-! SUPPORT. Tests: ill-formed inputs, every command's word, one step of every command against the values of spec/95_test_vectors.md and the rules' examples, and one witness for each statement that has hypotheses. -/

namespace Sys2Proof.Tests

open Sys2Proof Sys2Proof.Machine

/-! ## Ill-formed inputs -/

/-- R7, R21: DIN one byte longer than PAYLOAD_MAX. -/
theorem test_wf_request_too_long : Request.wellFormed ⟨0x0040, 0, List.replicate 2147483648 0#8⟩ = false := by
  simp only [Request.wellFormed, List.length_replicate]; decide

theorem test_wf_request_longest : Request.wellFormed ⟨0x0040, 0, List.replicate 2147483647 0#8⟩ = true := by
  simp only [Request.wellFormed, List.length_replicate]; decide

/-- R243: style codes above 9, and CAP outside 1 to PAYLOAD_MAX. -/
theorem test_wf_straps_rd_style : StrapPins.wellFormed ⟨4096, 10, false, false, 9, false, false⟩ = false := by decide
theorem test_wf_straps_wr_style : StrapPins.wellFormed ⟨4096, 9, false, false, 15, false, false⟩ = false := by decide
theorem test_wf_straps_cap_zero : StrapPins.wellFormed ⟨0, 9, true, true, 9, true, true⟩ = false := by decide
theorem test_wf_straps_cap_high : StrapPins.wellFormed ⟨2147483648, 0, true, true, 0, true, true⟩ = false := by decide
theorem test_wf_straps_legal : StrapPins.wellFormed ⟨2147483647, 9, true, true, 9, true, true⟩ = true := by decide

/-! ## Words: every command, from the match column of R92 -/

theorem test_decode_enc :
    decode 0x0010#16 = .command (.encI8 .big) ∧ decode 0x0110#16 = .command (.encU8 .big) ∧
    decode 0x1210#16 = .command (.encI16 .little) ∧ decode 0x0310#16 = .command (.encU16 .big) ∧
    decode 0x1410#16 = .command (.encI32 .little) ∧ decode 0x0510#16 = .command (.encU32 .big) ∧
    decode 0x1610#16 = .command (.encI64 .little) ∧ decode 0x0710#16 = .command (.encU64 .big) ∧
    decode 0x0810#16 = .command (.encVarint .big) ∧ decode 0x0910#16 = .command (.encUvarint .big) := by decide

theorem test_decode_dec :
    decode 0x1011#16 = .command (.decI8 .little) ∧ decode 0x0111#16 = .command (.decU8 .big) ∧
    decode 0x0211#16 = .command (.decI16 .big) ∧ decode 0x1311#16 = .command (.decU16 .little) ∧
    decode 0x0411#16 = .command (.decI32 .big) ∧ decode 0x1511#16 = .command (.decU32 .little) ∧
    decode 0x0611#16 = .command (.decI64 .big) ∧ decode 0x1711#16 = .command (.decU64 .little) ∧
    decode 0x0811#16 = .command (.decVarint .big) ∧ decode 0x0911#16 = .command (.decUvarint .big) := by decide

theorem test_decode_maxlen :
    decode 0x0012#16 = .command (.maxlen .big .i8) ∧ decode 0x1912#16 = .command (.maxlen .little .uvarint) ∧
    decode 0x0512#16 = .command (.maxlen .big .u32) := by decide

theorem test_decode_rbuf :
    decode 0x0020#16 = .command .rbFillRaw ∧ decode 0x0021#16 = .command .rbFillMsg ∧
    decode 0x0022#16 = .command .rbDrain ∧ decode 0x0023#16 = .command .rbDrainMsg ∧
    decode 0x0024#16 = .command .rbLen := by decide

theorem test_decode_reader :
    decode 0x0030#16 = .command .rdReadMsg ∧ decode 0x0031#16 = .command .rdReadMsgC ∧
    decode 0x0032#16 = .command .rdRead ∧ decode 0x0033#16 = .command .rdReadByte ∧
    decode 0x0034#16 = .command .rdPeekLen ∧ decode 0x003F#16 = .command .rdClose := by decide

theorem test_decode_writer :
    decode 0x0040#16 = .command .wrWriteMsg ∧ decode 0x0041#16 = .command .wrWrite ∧
    decode 0x0042#16 = .command .wrWriteByte ∧ decode 0x0043#16 = .command .wrFlush ∧
    decode 0x004F#16 = .command .wrClose := by decide

/-- Bit by bit, from R81: ZERO 000, ORDER, STYLE, OP. -/
theorem test_decode_bits :
    decode 0b000_1_0011_00010001#16 = .command (.decU16 .little) ∧
    decode 0b000_0_0110_00010000#16 = .command (.encI64 .big) ∧
    decode 0b000_0_0010_00010010#16 = .command (.maxlen .big .i16) ∧
    decode 0b000_0_0000_00100011#16 = .command .rbDrainMsg ∧
    decode 0b000_0_0000_00110001#16 = .command .rdReadMsgC ∧
    decode 0b000_0_0000_01000010#16 = .command .wrWriteByte := by decide

/-- The illegal words of 95_test_vectors.md 2.6. -/
theorem test_decode_illegal :
    decode 0x0000#16 = .illegal .reservedOp ∧ decode 0xFFFF#16 = .illegal .mustBeZero ∧
    decode 0x2010#16 = .illegal .mustBeZero ∧ decode 0x8030#16 = .illegal .mustBeZero ∧
    decode 0x0A10#16 = .illegal .reservedStyle ∧ decode 0x0F11#16 = .illegal .reservedStyle ∧
    decode 0x0A12#16 = .illegal .reservedStyle ∧ decode 0x1020#16 = .illegal .mustBeZero ∧
    decode 0x0130#16 = .illegal .mustBeZero ∧ decode 0x0013#16 = .illegal .reservedOp ∧
    decode 0x0025#16 = .illegal .reservedOp ∧ decode 0x0035#16 = .illegal .reservedOp ∧
    decode 0x003E#16 = .illegal .reservedOp ∧ decode 0x0044#16 = .illegal .reservedOp ∧
    decode 0x0050#16 = .illegal .reservedOp := by decide

theorem test_decode_table_word :
    decodeTableWord 16 0x0031 = some .rdReadMsgC ∧ decodeTableWord 8 0x31 = some .rdReadMsgC ∧
    decodeTableWord 16 0x0A12 = none := by decide

/-! ## One step of one command -/

/-- Bytes from numbers. -/
def bytesOf (l : List Nat) : Bytes := l.map (BitVec.ofNat 8)

/-- A receive transport at launch with these bytes to come. -/
def port (l : List Nat) : RxPort := { RxPort.atLaunch with stream := bytesOf l }

/-- A machine right after reset: both units with this style and order, CAP 10, these bytes to receive. -/
def machine (st : Style) (ord : ByteOrder) (rx : List Nat) : State :=
  State.launch ⟨9, ⟨st, ord, false⟩, ⟨st, ord, false⟩⟩ (port rx) .atLaunch 0 true [] .ends

/-- `machine .u8` with this in the buffer. -/
def buffered (mem : List Nat) (start : Nat) (queue : List (Nat × Nat)) (rx : List Nat) : State :=
  { machine .u8 .big rx with rb := ⟨memSetN [] 0 (bytesOf mem), start, mem.length, queue⟩ }

/-- Requester 0 has presented this command and it is granted. -/
def presented (s : State) (w : CommandWord) (arg : Scalar) (din : List Nat) : State :=
  { s with waiting := [⟨0, ⟨w, arg, bytesOf din⟩, 0⟩], schedule := [.grant 0] }

/-- `s` after that command. -/
def after (s : State) (w : CommandWord) (arg : Scalar) (din : List Nat) : State :=
  match step (presented s w arg din) with
  | .next t => t
  | _ => s

/-- Its response. -/
def answer (s : State) (w : CommandWord) (arg : Scalar) (din : List Nat) : Option Response :=
  (after s w arg din).rsp.map Delivery.rsp

/-- A response with data. -/
def data (l : List Nat) : Option Response := some { dout := bytesOf l, cnt := BitVec.ofNat 32 l.length }

/-- A response with a decoded value. -/
def value (v : Scalar) (n : Nat) : Option Response := some { res := v, cnt := BitVec.ofNat 32 n }

/-- A fault. -/
def faulted (st : Status) : Option Response := some { status := st }

/-- The machine the codec's tests run on. -/
def idle : State := machine .u8 .big []

-- ENC.* (2.1)
theorem test_encI8 : answer idle 0x0010 0xFFFFFFFFFFFFFF80 [] = data [0x80] := by decide
theorem test_encI8_range : answer idle 0x0010 0x80 [] = faulted .operandRange := by decide
theorem test_encU8 : answer idle 0x0110 200 [] = data [200] := by decide
theorem test_encU8_range : answer idle 0x0110 0xFFFFFFFFFFFFFFFF [] = faulted .operandRange := by decide
theorem test_encI16 : answer idle 0x1210 0xFFFFFFFFFFFFFFFE [] = data [0xFE, 0xFF] := by decide
theorem test_encI16_range : answer idle 0x0210 0x8000 [] = faulted .operandRange := by decide
theorem test_encU16 : answer idle 0x0310 258 [] = data [1, 2] := by decide
theorem test_encU16_range : answer idle 0x0310 0x10000 [] = faulted .operandRange := by decide
theorem test_encI32 : answer idle 0x1410 0xFFFFFFFF80000000 [] = data [0, 0, 0, 0x80] := by decide
theorem test_encI32_range : answer idle 0x0410 0x80000000 [] = faulted .operandRange := by decide
theorem test_encU32 : answer idle 0x0510 0xDEADBEEF [] = data [0xDE, 0xAD, 0xBE, 0xEF] := by decide
theorem test_encU32_range : answer idle 0x0510 0x100000000 [] = faulted .operandRange := by decide
theorem test_encI64 : answer idle 0x0610 0x0102030405060708 [] = data [1, 2, 3, 4, 5, 6, 7, 8] := by decide
theorem test_encU64 : answer idle 0x1710 300 [] = data [0x2C, 1, 0, 0, 0, 0, 0, 0] := by decide
theorem test_encVarint : answer idle 0x0810 0xFFFFFFFFFFFFFF80 [] =
    data [0x80, 0xFF, 0xFF, 0xFF, 0xFF, 0xFF, 0xFF, 0xFF, 0xFF, 0x01] := by decide
theorem test_encVarint_zero : answer idle 0x1810 0 [] = data [0] := by decide
theorem test_encUvarint : answer idle 0x0910 300 [] = data [0xAC, 0x02] := by decide
theorem test_encUvarint_top : answer idle 0x0910 0x8000000000000000 [] =
    data [0x80, 0x80, 0x80, 0x80, 0x80, 0x80, 0x80, 0x80, 0x80, 0x01] := by decide

-- DEC.* (2.2)
theorem test_decI8 : answer idle 0x0011 0 [0xFF, 0x01] = value 0xFFFFFFFFFFFFFFFF 1 := by decide
theorem test_decI8_empty : answer idle 0x0011 0 [] = faulted .truncatedPrefix := by decide
theorem test_decU8 : answer idle 0x0111 0 [0x80] = value 0x80 1 := by decide
theorem test_decI16 : answer idle 0x1211 0 [0xFF, 0xFE] = value 0xFFFFFFFFFFFFFEFF 2 := by decide
theorem test_decI16_short : answer idle 0x0211 0 [0xFF] = faulted .truncatedPrefix := by decide
theorem test_decU16 : answer idle 0x0311 0 [0xFF, 0xFE, 0x55] = value 65534 2 := by decide
theorem test_decI32 : answer idle 0x0411 0 [0x80, 0, 0, 0] = value 0xFFFFFFFF80000000 4 := by decide
theorem test_decU32 : answer idle 0x1511 0 [0x2C, 1, 0, 0] = value 300 4 := by decide
theorem test_decI64 : answer idle 0x0611 0 [0, 0, 0, 0, 0, 0, 1, 0x2C] = value 300 8 := by decide
theorem test_decU64 : answer idle 0x1711 0 [0x80, 0, 0, 0, 0, 0, 0, 0] = value 0x80 8 := by decide
theorem test_decVarint : answer idle 0x0811 0 [0xFF, 0x7F] = value 16383 2 := by decide
theorem test_decVarint_dropped :
    answer idle 0x0811 0 [0x80, 0x80, 0x80, 0x80, 0x80, 0x80, 0x80, 0x80, 0x80, 0x02] = value 0 10 := by decide
theorem test_decUvarint : answer idle 0x0911 0 [0xAC, 0x82, 0x00] = value 300 3 := by decide
theorem test_decUvarint_cut : answer idle 0x0911 0 [0xAC] = faulted .truncatedPrefix := by decide

-- MAXLEN (S9)
theorem test_maxlen : answer idle 0x0212 0 [] = some { res := 32767 } := by decide
theorem test_maxlen_unbounded : answer idle 0x0412 0 [] = some { res := 0xFFFFFFFFFFFFFFFF } := by decide

-- RBUF (R142, R147, R148, R150, RB2, RB3)
theorem test_rbFillRaw :
    (after (buffered [1, 2] 1 [] []) 0x0020 0 [7, 8]).rb = (buffered [1, 2, 7, 8] 1 [] []).rb := by decide
theorem test_rbFillRaw_headroom :
    answer (buffered [1, 2, 3, 4, 5, 6] 5 [] []) 0x0020 0 [1, 2, 3, 4, 5] = faulted .capacityExhausted := by decide
theorem test_rbFillMsg :
    (after (buffered [1, 2, 3] 0 [(0, 3)] []) 0x0021 0 [4, 5]).rb =
      (buffered [1, 2, 3, 4, 5] 0 [(0, 3), (3, 2)] []).rb := by decide
theorem test_rbDrain :
    (after (buffered [1, 2, 3, 4, 5] 0 [(0, 3), (3, 2)] []) 0x0022 1 []).rb =
      (buffered [1, 2, 3, 4, 5] 1 [(3, 2)] []).rb := by decide
theorem test_rbDrain_all : answer (buffered [1, 2, 3] 1 [] []) 0x0022 100 [] = data [2, 3] := by decide
theorem test_rbDrainMsg :
    answer (buffered [1, 2, 3, 4, 5] 1 [(3, 2)] []) 0x0023 0 [] = data [4, 5] := by decide
theorem test_rbDrainMsg_gap :
    (after (buffered [1, 2, 3, 4, 5, 6, 7, 8] 1 [(3, 2), (6, 2)] []) 0x0023 0 []).rb.unread =
      bytesOf [2, 3, 6, 7, 8] := by decide
theorem test_rbLen : answer (buffered [1, 2, 3, 4, 5] 1 [(3, 2)] []) 0x0024 0 [] = some { res := 4 } := by decide

-- READER (R164 to R169, RD2, RD4, P4)
theorem test_rdReadMsg : answer (machine .u8 .big [3, 0x61, 0x62, 0x63, 0]) 0x0030 0 [] = data [0x61, 0x62, 0x63] := by
  decide
theorem test_rdReadMsg_cut : answer (machine .u8 .big [9, 1, 2]) 0x0030 0 [] = faulted .incompleteFrame := by decide
theorem test_rdReadMsgC :
    answer (machine .u16 .little [2, 0, 0x61, 0x62]) 0x0031 2 [] = data [0x61, 0x62] := by decide
theorem test_rdReadMsgC_small :
    (after (machine .u8 .big [3, 0x61, 0x62, 0x63]) 0x0031 2 []).rd.next = some 3 ∧
    (after (machine .u8 .big [3, 0x61, 0x62, 0x63]) 0x0031 2 []).rx.stream = bytesOf [0x61, 0x62, 0x63] := by decide
theorem test_rdRead :
    answer (machine .u8 .big [5, 0x41, 0x42, 0x43, 0x44, 0x45, 5, 0x46]) 0x0032 7 [] =
      data [0x41, 0x42, 0x43, 0x44, 0x45] := by decide
theorem test_rdRead_end : answer (machine .i8 .big [0x80]) 0x0032 7 [] = some { eos := true } := by decide
theorem test_rdReadByte :
    (after (machine .u8 .big [2, 0x61, 0x62]) 0x0033 0 []).rb.unread = bytesOf [0x62] := by decide
theorem test_rdReadByte_first : answer (machine .u8 .big [2, 0x61, 0x62]) 0x0033 9 [] = data [0x61] := by decide
theorem test_rdPeekLen :
    answer (machine .varint .big [0xFF, 0xFF, 0xFF, 0xFF, 0xFF, 0xFF, 0xFF, 0xFF, 0xFF, 1, 2]) 0x0034 0 [] =
      some { res := 0xFFFFFFFFFFFFFFFF } := by decide
theorem test_rdPeekLen_cut : answer (machine .u16 .big [1]) 0x0034 0 [] = some { res := 0 } := by decide
theorem test_rdClose :
    (after (machine .u8 .big []) 0x003F 0 []).rd.closed = true ∧
    (after (machine .u8 .big []) 0x003F 0 []).rx.closes = 1 := by decide
theorem test_rdClose_twice :
    (after (after (machine .u8 .big []) 0x003F 0 []) 0x003F 0 []).rx.closes = 1 := by decide

-- WRITER (R192 to R196, 2.5)
theorem test_wrWriteMsg :
    (after (machine .u16 .big []) 0x0040 0 [0x61, 0x62, 0x63]).tx.stream = bytesOf [0, 3, 0x61, 0x62, 0x63] := by
  decide
theorem test_wrWrite :
    (after (machine .u8 .big []) 0x0041 2 [1, 2, 3]).tx.stream = bytesOf [2, 1, 2] := by decide
theorem test_wrWrite_count : answer (machine .u8 .big []) 0x0041 5 [1, 2, 3] = faulted .operandRange := by decide
theorem test_wrWriteByte :
    (after (machine .u32 .big []) 0x0042 0x141 []).tx.stream = bytesOf [0, 0, 0, 1, 0x41] := by decide
theorem test_wrFlush : (after (machine .u8 .big []) 0x0043 0 []).tx.flushes = 1 := by decide
theorem test_wrClose :
    (after (machine .u8 .big []) 0x004F 0 []).tx.closes = 1 ∧
    (after (machine .u8 .big []) 0x004F 0 []).wr.closed = true := by decide
theorem test_wrClose_then_write :
    answer (after (machine .u8 .big []) 0x004F 0 []) 0x0042 0x41 [] = faulted .unitClosed := by decide

-- Illegal words, before the unit's checks (2.6)
theorem test_illegal_first : answer (after idle 0x003F 0 []) 0x0130 0 [] = faulted .illegalCommand := by decide
theorem test_closed_next : answer (after idle 0x003F 0 []) 0x0030 0 [] = faulted .unitClosed := by decide

-- A cancel inside a transmit call (CX2): two bytes are out, the writer is poisoned
theorem test_cancel_in_write :
    let s := machine .u8 .big []
    let t := after { s with tx := { s.tx with script := [.interrupt 2 .cancelled] } } 0x0040 0 [0x61, 0x62, 0x63]
    t.tx.stream = bytesOf [3, 0x61] ∧ t.wr.poisoned = true ∧ t.rsp = some ⟨0, { status := .cancelled }⟩ := by
  decide

-- An infinite stream (R36, R252 (d)): 11 bytes of it are gone, and the 12th is next
theorem test_infinite_oversize :
    let s := machine .u8 .big [11]
    let t := after { s with rx := { s.rx with tail := .cycle 1#8 [2#8, 3#8] } } 0x0030 0 []
    t.rsp = some ⟨0, { status := .capacityExhausted }⟩ ∧ t.rx.front 2 = bytesOf [3, 1] := by decide

theorem test_infinite_read :
    let s := machine .u16 .little [2]
    answer { s with rx := { s.rx with tail := .cycle 0#8 [7#8] } } 0x0032 9 [] = data [7, 0] := by decide

-- R251: the only command waiting is served whatever the schedule says; of two, the schedule says which
theorem test_sole_command_not_cancelled :
    (match step { presented idle 0x0024 0 [] with schedule := [.cancel 0] } with
      | .next t => some (t.rsp, t.schedule)
      | _ => none) = some (some ⟨0, { res := 0 }⟩, [.cancel 0]) := by decide

/-- Requesters 0 and 1 wait for the reader. -/
def contended : State :=
  { idle with extraRequesters := 2, waiting := [⟨0, ⟨0x0024, 0, []⟩, 0⟩, ⟨1, ⟨0x0034, 0, []⟩, 0⟩] }

theorem test_contended_cancel :
    (match step { contended with schedule := [.cancel 0] } with
      | .next t => t.rsp
      | _ => none) = some ⟨0, { status := .cancelled }⟩ := by decide

/-- Requester 0 waits for the reader while requester 1, at every second step, is granted an RB.LEN and presents
the next. -/
def passedOver : State :=
  { idle with
      extraRequesters := 1, waiting := [⟨0, ⟨0x0034, 0, []⟩, 0⟩, ⟨1, ⟨0x0024, 0, []⟩, 0⟩],
      agenda := .cycle (.grant 1) [.present 1 ⟨0x0024, 0, []⟩] }

/-- An RD.PEEKLEN of requester 0 is stuck on a prefix that never ends. -/
def stuckReader : State :=
  let s := machine .uvarint .big [0x81]
  { s with rx := { s.rx with tail := .cycle 0x80#8 [0xFF#8] }, rd := { s.rd with lock := .held 0 }, extraRequesters := 1 }

-- R252 (a), R35, R71: no response and the lock held; an ENC.U8 and a WR.WRITEBYTE of requester 1 run meanwhile
theorem test_stuck :
    let s := machine .uvarint .big [0x81]
    (match step (presented { s with rx := { s.rx with tail := .cycle 0x80#8 [0xFF#8] }, extraRequesters := 1 }
        0x0034 0 []) with
      | .next t => some { t with schedule := [] }
      | _ => none) = some stuckReader := by decide

theorem test_stuck_others_run :
    (match step { stuckReader with waiting := [⟨1, ⟨0x0110, 0x41, []⟩, 0⟩] } with
      | .next t => some (t.rsp, t.rd.lock)
      | _ => none) = some (some ⟨1, { dout := [0x41#8], cnt := 1 }⟩, .held 0) ∧
    (match step { stuckReader with waiting := [⟨1, ⟨0x0042, 0x41, []⟩, 0⟩] } with
      | .next t => some (t.rsp, t.tx.stream)
      | _ => none) = some (some ⟨1, {}⟩, bytesOf [1, 0x41]) ∧
    (match step { stuckReader with waiting := [⟨1, ⟨0x0024, 0, []⟩, 0⟩] } with
      | .next t => some (t.rsp, t.waiting.length)
      | _ => none) = some (none, 1) := by decide

-- R252 (a), R226 (b): only a cancel ends it; here one after 2 bytes, inside the next call
theorem test_stuck_cancelled :
    (match step { stuckReader with schedule := [.cancel 0] } with
      | .next t => some (t.rsp, t.rd.lock, t.rd.poisoned)
      | _ => none) = some (some ⟨0, { status := .cancelled }⟩, .free, true) ∧
    (match step { stuckReader with schedule := [.answers [.move 1, .move 5, .interrupt 1 .cancelled] []] } with
      | .next t => some (t.rsp, t.rx.front 2)
      | _ => none) = some (some ⟨0, { status := .cancelled }⟩, bytesOf [0x80, 0xFF]) := by decide

-- R251: requester 1 is served, and the second step leads back to where requester 0 waits
theorem test_passed_over :
    (match step passedOver with
      | .next t => some (t.rsp, t.waiting.map Transaction.who)
      | _ => none) = some (some ⟨1, { res := 0 }⟩, [0]) ∧
    (match Host.Core.run Sys2Proof.core 2 passedOver with
      | .next t => some (show State from t)
      | _ => none) = some passedOver := by decide

-- R165, R222 (step 5): the frame of 1 byte fits 2 bytes, the older record of 3 behind the empty one does not
theorem test_final_drain_too_small :
    let t := after (buffered [1, 2, 3] 0 [(0, 0), (0, 3)] [1, 9]) 0x0031 2 []
    t.rsp = some ⟨0, { status := .destTooSmall }⟩ ∧ t.rb.queue = [(0, 3), (3, 1)] ∧ t.rx.stream = [] := by decide

-- R221, log 25: a flush that fails, not done and done
theorem test_failed_flush :
    let s := machine .u8 .big []
    (after { s with tx := { s.tx with script := [.interrupt 0 .ioFail] } } 0x0043 0 []).tx.flushes = 0 ∧
    (after { s with tx := { s.tx with script := [.interrupt 1 .ioFail] } } 0x0043 0 []).tx.flushes = 1 ∧
    (after { s with tx := { s.tx with script := [.interrupt 1 .ioFail] } } 0x0043 0 []).wr.poisoned = true := by
  decide

/-- The host's way in: an ENC.UVARINT word of the table is what the next step runs. -/
theorem test_withFetchWord :
    (match step (State.reset.withFetchWord 16 0x0910) with
      | .next t => t.rsp
      | _ => none) = some ⟨0, { dout := [0x00#8], cnt := 1 }⟩ := by decide

/-! ## Witnesses: for each statement with hypotheses, a state and operands that meet all of them -/

/-- `s` while it executes a command of requester 0 with these operands. -/
def executing (s : State) (arg : Scalar) (din : List Nat) : State :=
  { s with txn := ⟨0, ⟨0, arg, bytesOf din⟩, 0⟩ }

theorem witness_DecodeEncodeAgree : decode 0x1912#16 = .command (.maxlen .little .uvarint) := by decide

theorem witness_StepRunsGrantedCommand :
    let s := presented (machine .u8 .big [3, 1, 2, 3]) 0x0030 0 []
    s.schedule = .grant 0 :: [] ∧
    s.waiting.find? (fun t => t.who == 0) = some ⟨0, ⟨0x0030, 0, []⟩, 0⟩ ∧
    decode 0x0030#16 = .command .rdReadMsg ∧ s.lockOf (Instr.unit .rdReadMsg) = .free := by decide

/-- A reader command while another requester presents a command for the writer. -/
theorem witness_StepRunsGrantedCommand_atOnce :
    let s := { presented idle 0x0030 0 [] with schedule := [.present 1 ⟨0x0042, 0, []⟩], extraRequesters := 1 }
    s.waiting = [⟨0, ⟨0x0030, 0, []⟩, 0⟩] ∧ decode 0x0030#16 = .command .rdReadMsg ∧
    s.lockOf (Instr.unit .rdReadMsg) = .free ∧ (∀ pins, s.coming ≠ some (.reset pins)) ∧
    s.coming ≠ some (.grant 0) ∧
    ∀ r q j, s.coming = some (.present r q) → decode q.cmd = .command j →
      r = 0 ∨ Instr.unit j ≠ Instr.unit .rdReadMsg ∨ Instr.unit .rdReadMsg = .codec := by
  refine ⟨rfl, by decide, rfl, fun pins => by simp [State.coming, State.lookAhead],
    by simp [State.coming, State.lookAhead], ?_⟩
  intro r q j h hd
  simp only [State.coming, State.lookAhead, List.head?_cons, Option.some.injEq, Event.present.injEq] at h
  obtain ⟨rfl, rfl⟩ := h
  have hw : decode 0x0042#16 = .command .wrWriteByte := by decide
  have hd' : Decoded.command .wrWriteByte = .command j := hw.symm.trans hd
  injection hd' with hd
  subst hd
  exact .inr (.inl (by decide))

/-- Two requesters wait for the reader and the environment makes no more moves. -/
theorem witness_StepRunsGrantedCommand_oneOfThem :
    contended.schedule = [] ∧ contended.agenda = .ends ∧ contended.waiting.Pairwise (fun t u => t.who ≠ u.who) ∧
    (⟨1, ⟨0x0034, 0, []⟩, 0⟩ : Transaction) ∈ contended.waiting ∧
    decode 0x0034#16 = .command .rdPeekLen ∧ contended.lockOf (Instr.unit .rdPeekLen) = .free := by decide

theorem witness_IllegalWordChangesNothing :
    let s := presented idle 0xFFFF 0 []
    s.schedule = .grant 0 :: [] ∧
    s.waiting.find? (fun t => t.who == 0) = some ⟨0, ⟨0xFFFF, 0, []⟩, 0⟩ ∧
    decode 0xFFFF#16 = .illegal .mustBeZero := by decide

theorem witness_BlockDoesNothingOnItsOwn : State.reset.schedule = [] ∧ State.reset.agenda = .ends ∧
    State.reset.waiting = [] := by decide

theorem witness_BlockDoesNothingOnItsOwn_sticky :
    let s := { idle with rx := { idle.rx with eof := true }, schedule := [.rxArrive [1#8]] }
    s.schedule = .rxArrive [1#8] :: [] ∧ s.rx.tail = .ends ∧ s.due = none ∧ s.rx.eof = true ∧ s.rxEofSticky = true := by decide

theorem witness_BlockDoesNothingOnItsOwn_joins :
    let s := { idle with rx := { idle.rx with eof := true }, rxEofSticky := false, schedule := [.rxArrive [1#8]] }
    s.schedule = .rxArrive [1#8] :: [] ∧ s.rx.tail = .ends ∧ s.due = none ∧
    (s.rx.eof = false ∨ s.rxEofSticky = false) := by decide

theorem witness_PresentedCommandWaits :
    let s := { idle with schedule := [.present 0 ⟨0x30, 0, []⟩] }
    s.schedule = .present 0 ⟨0x30, 0, []⟩ :: [] ∧ s.due = none ∧ 0 < s.extraRequesters + 1 ∧ (∀ t ∈ s.waiting, t.who ≠ 0) ∧
    ([] : Bytes).length ≤ 2147483647 := by decide

theorem witness_PresentedCommandWaits_stranger :
    let s := { idle with schedule := [.present 1 ⟨0x30, 0, []⟩] }
    s.schedule = .present 1 ⟨0x30, 0, []⟩ :: [] ∧ s.due = none ∧ ¬ 1 < s.extraRequesters + 1 := by decide

theorem witness_PresentedCommandWaits_forEver :
    passedOver.Inv ∧ passedOver.rd.lock = .free ∧ passedOver.schedule = [] ∧
    passedOver.agenda = .cycle (.grant 1) [.present 1 ⟨0x0024#16, 0#64, []⟩] ∧
    decode 0x0034#16 = .command .rdPeekLen ∧ Instr.unit .rdPeekLen = .reader ∧
    passedOver.waiting = [⟨0, ⟨0x0034, 0, []⟩, 0⟩, ⟨1, ⟨0x0024#16, 0#64, []⟩, 0⟩] ∧ passedOver.rsp = none := by
  refine ⟨?_, rfl, rfl, rfl, by decide, rfl, rfl, rfl⟩
  unfold State.Inv
  decide

theorem witness_PresentedCommandWaits_busy :
    let s := { contended with schedule := [.present 0 ⟨0x30, 0, []⟩] }
    s.schedule = .present 0 ⟨0x30, 0, []⟩ :: [] ∧ s.due = none ∧ 0 < s.extraRequesters + 1 ∧ ∃ t ∈ s.waiting, t.who = 0 := by
  decide

theorem witness_PresentedCommandWaits_stuck :
    let s := { stuckReader with schedule := [.present 0 ⟨0x10, 0, []⟩] }
    s.schedule = .present 0 ⟨0x10, 0, []⟩ :: [] ∧ s.due = none ∧ 0 < s.extraRequesters + 1 ∧ s.rd.lock = .held 0 := by
  decide

theorem witness_PresentedCommandWaits_tooLong :
    let q : Request := ⟨0x40, 0, List.replicate 2147483648 0#8⟩
    let s := { idle with schedule := [.present 0 q] }
    s.schedule = .present 0 q :: [] ∧ s.due = none ∧ 0 < s.extraRequesters + 1 ∧ (∀ t ∈ s.waiting, t.who ≠ 0) ∧
    2147483647 < q.din.length := by
  refine ⟨rfl, rfl, by decide, by decide, ?_⟩
  simp only [List.length_replicate]
  decide

/-- The refusals of the environment, at their boundaries. -/
theorem test_refusals :
    (match step { idle with schedule := [.present 1 ⟨0x30, 0, []⟩] } with
      | .refused .noSuchRequester => true
      | _ => false) = true ∧
    (match step { contended with schedule := [.present 0 ⟨0x30, 0, []⟩] } with
      | .refused .requesterBusy => true
      | _ => false) = true ∧
    (match step { idle with schedule := [.reset ⟨0, 0, false, false, 0, false, false⟩] } with
      | .refused .illegalStraps => true
      | _ => false) = true := by decide

theorem witness_CancelWhileWaiting :
    let s := { contended with schedule := [.cancel 1] }
    s.schedule = .cancel 1 :: [] ∧ s.due = none ∧
    s.waiting.find? (fun t => t.who == 1) = some ⟨1, ⟨0x0034, 0, []⟩, 0⟩ ∧ s.rd.lock ≠ .held 1 ∧
    decode 0x0034#16 = .command .rdPeekLen := by decide

/-- A cancel of an RB.LEN that waits behind a stuck command. -/
theorem witness_CancelWhileWaiting_held :
    let s := { stuckReader with waiting := [⟨1, ⟨0x0024, 0, []⟩, 0⟩], schedule := [.cancel 1] }
    s.due = none ∧ s.waiting.find? (fun t => t.who == 1) = some ⟨1, ⟨0x0024, 0, []⟩, 0⟩ ∧
    s.rd.lock ≠ .held 1 ∧ decode 0x0024#16 = .command .rbLen := by decide

theorem witness_CancelWhileWaiting_neverWaits :
    let s := { presented idle 0x0010 0x41 [] with schedule := [.cancel 0] }
    let s' := { presented idle 0x0000 0 [] with schedule := [.cancel 0] }
    s.schedule = .cancel 0 :: [] ∧ s.waiting = [⟨0, ⟨0x0010, 0x41, []⟩, 0⟩] ∧
    decode 0x0010#16 = .command (.encI8 .big) ∧ Instr.unit (.encI8 .big) = .codec ∧
    s'.schedule = .cancel 0 :: [] ∧ s'.waiting = [⟨0, ⟨0x0000, 0, []⟩, 0⟩] ∧
    decode 0x0000#16 = .illegal .reservedOp := by decide

theorem witness_CancelWhileWaiting_noCommand :
    let s := { contended with schedule := [.cancel 2] }
    s.schedule = .cancel 2 :: [] ∧ s.due = none ∧ s.rd.lock ≠ .held 2 ∧ ∀ t ∈ s.waiting, t.who ≠ 2 := by decide

theorem witness_ResetLeavesFreshBlock :
    let pins : StrapPins := ⟨1, 9, true, false, 8, false, true⟩
    let s := { idle with rd := ⟨some 3, .free, true, true⟩, schedule := [.reset pins] }
    s.schedule = .reset pins :: [] ∧ pins.rdStyle.toNat ≤ 9 ∧ pins.wrStyle.toNat ≤ 9 ∧ 1 ≤ pins.cap ∧
    pins.cap ≤ 2147483647 := by decide

theorem witness_ResetLeavesFreshBlock_largest :
    let pins : StrapPins := ⟨2147483647, 0, true, false, 9, false, true⟩
    pins.rdStyle.toNat ≤ 9 ∧ pins.wrStyle.toNat ≤ 9 ∧ 1 ≤ pins.cap ∧ pins.cap ≤ 2147483647 := by decide

/-- A reset inside the receive calls of an RD.READ, of an endless prefix, of a WR.WRITE, a flush and the closes. -/
theorem witness_ResetLeavesFreshBlock_inside :
    let pins : StrapPins := ⟨1, 9, true, false, 8, false, true⟩
    (let s := executing (machine .u8 .big [3, 1, 2, 3]) 2 []
     let s : State := { s with rx := { s.rx with script := [.move 1, .interrupt 2 (.reset pins)] } }
     s.rx.script = [.move 1] ++ .interrupt 2 (.reset pins) :: [] ∧
     ∃ u, exec .rdRead { s with rx := { s.rx with script := [.move 1] ++ [.move 9] } } = .next u ∧
       u.rx.script = []) ∧
    (let s := machine .varint .big []
     let s : State := { s with rx := { s.rx with tail := .cycle 0x80#8 [], script := [.interrupt 1 (.reset pins)] } }
     ∃ u, exec .rdReadMsgC { s with rx := { s.rx with script := [] ++ [.move 9] } } = .next u ∧
       u.rx.script = [] ∧ u.rsp = none) ∧
    (let s := executing (machine .u8 .big []) 2 [1, 2]
     let s : State := { s with tx := { s.tx with script := [.move 2, .interrupt 0 (.reset pins)] } }
     Emits s .wrWrite (bytesOf [1, 2]) ∧ s.tx.script = [.move 2] ++ .interrupt 0 (.reset pins) :: [] ∧
     accepted [.move 2] (frameOf s.cfg.wr (bytesOf [1, 2])).length < (frameOf s.cfg.wr (bytesOf [1, 2])).length) ∧
    (let s := machine .u8 .big []
     s.writerReady = true ∧ s.wr.closed = false ∧ s.cfg.wr.leaveOpen = false ∧ s.rd.closed = false ∧
     s.cfg.rd.leaveOpen = false) := by
  refine ⟨⟨rfl, _, rfl, rfl⟩, ⟨_, rfl, rfl, rfl⟩, ⟨⟨rfl, ?_, by decide, by decide⟩, rfl, by decide⟩, by decide⟩
  exact .inr (.inr ⟨rfl, by decide, .inr ⟨255, by decide, by decide⟩⟩)

theorem witness_InvHoldsAtLaunch :
    RxPort.atLaunch.closes = RxPort.atLaunch.closed.toNat ∧ TxPort.atLaunch.closes = TxPort.atLaunch.closed.toNat := by
  decide

/-- A state with something in every place, about to run an RD.READ, that keeps the invariant. -/
def busy : State :=
  { buffered [1, 2, 3, 4, 5] 1 [(3, 2)] [3, 0x61, 0x62, 0x63, 2, 0x64] with
      waiting := [⟨0, ⟨0x0032, 6, []⟩, 0⟩, ⟨1, ⟨0x0041, 2, [7#8, 8#8]⟩, 0⟩],
      extraRequesters := 2, schedule := [.grant 0] }

theorem busy_inv : busy.Inv := by unfold State.Inv; decide

theorem witness_EveryStepKeepsInv : busy.Inv ∧ ∃ t, step busy = .next t := ⟨busy_inv, _, rfl⟩

theorem witness_FiniteStreamNeverFaults : busy.Inv ∧ busy.rx.tail = .ends ∧ busy.rd.lock = .free ∧
    ∃ t, step busy = .next t := ⟨busy_inv, rfl, rfl, _, rfl⟩

/-- The invariant of a state with a stuck command. -/
theorem stuckReader_inv : stuckReader.Inv := by unfold State.Inv; decide

/-- A writer with one frame on the wire, about to write another. -/
def writing : State :=
  { presented (machine .u8 .big []) 0x0040 0 [5, 6] with
      tx := { TxPort.atLaunch with stream := bytesOf [2, 1, 1], script := [.move 1] } }

theorem witness_WireHoldsWholeFrames :
    writing.Inv ∧ writing.txCalm = true ∧ WholeFrames writing.cfg.wr writing.tx.stream ∧
    ∃ t, step writing = .next t ∧ t.cfg.wr = writing.cfg.wr :=
  ⟨by unfold State.Inv; decide, by decide, ⟨[bytesOf [1, 1]], by decide, by decide⟩, _, rfl, rfl⟩

theorem witness_OnlyResetClearsStickyBits :
    let s := presented { idle with wr := ⟨.free, true, true⟩ } 0x0034 0 []
    s.noReset = true ∧ (∃ t, step s = .next t) ∧ s.wr.closed = true ∧ s.wr.poisoned = true :=
  ⟨by decide, ⟨_, rfl⟩, by decide, by decide⟩

theorem witness_UnitsLeaveEachOtherAlone :
    idle.noReset = true ∧ (∃ t, exec (.encI8 .big) idle = .next t) ∧ Instr.unit (.encI8 .big) = .codec ∧
    (∃ t, exec .rdReadMsg busy = .next t) ∧ busy.noReset = true ∧ Instr.unit .rdReadMsg = .reader ∧
    (∃ t, exec .wrFlush writing = .next t) ∧ writing.noReset = true ∧ Instr.unit .wrFlush = .writer :=
  ⟨by decide, ⟨_, rfl⟩, by decide, ⟨_, rfl⟩, by decide, by decide, ⟨_, rfl⟩, by decide, by decide⟩

theorem witness_ResponseFieldsAreDefaultOrWritten :
    (∃ t d, exec .rdRead (executing idle 1 []) = .next t ∧ t.rsp = some d ∧ d.rsp.eos = true) ∧
    (∃ t d, exec (.encI8 .big) (executing idle 200 []) = .next t ∧ t.rsp = some d ∧ d.rsp.status ≠ .ok) :=
  ⟨⟨_, _, rfl, rfl, by decide⟩, ⟨_, _, rfl, rfl, by decide⟩⟩

theorem witness_PieceSizesDoNotMatter :
    [Answer.move 1, .move 0].all Answer.isMove = true ∧ [Answer.move 7].all Answer.isMove = true ∧
    ([] : List Answer).all Answer.isMove = true := by decide

theorem witness_ClosedOrPoisonedUnitAnswersSo :
    Instr.unit .rbLen = .reader ∧ (Instr.rbLen ≠ .rdClose) ∧ Instr.unit .wrFlush = .writer ∧
    (Instr.wrFlush ≠ .wrClose) ∧
    ({ idle with rd := ⟨none, .free, true, true⟩ } : State).rd.closed = true ∧
    ({ idle with rd := ⟨none, .free, false, true⟩ } : State).rd.poisoned = true ∧
    ({ idle with wr := ⟨.free, true, true⟩ } : State).wr.closed = true ∧
    ({ idle with wr := ⟨.free, false, true⟩ } : State).wr.poisoned = true := by decide

theorem witness_EncodeFixedWidthBytes :
    (Style.i16, true, 2) ∈ fixedStyles ∧
    (-(2 : Int) ^ (8 * 2 - 1) ≤ (executing idle 0xFFFFFFFFFFFF8000 []).arg.toInt ∧
      (executing idle 0xFFFFFFFFFFFF8000 []).arg.toInt ≤ (2 : Int) ^ (8 * 2 - 1) - 1) ∧
    (Style.u32, false, 4) ∈ fixedStyles ∧ (executing idle 0xFFFFFFFF []).arg.toNat ≤ 2 ^ (8 * 4) - 1 := by decide

theorem witness_EncodeOutOfRangeFaults :
    (Style.i16, true, 2) ∈ fixedStyles ∧ (executing idle 0xFFFFFFFFFFFF7FFF []).arg.toInt < -(2 : Int) ^ (8 * 2 - 1) ∧
    (2 : Int) ^ (8 * 2 - 1) - 1 < (executing idle 0x8000 []).arg.toInt ∧
    (Style.u32, false, 4) ∈ fixedStyles ∧ 2 ^ (8 * 4) - 1 < (executing idle 0x100000000 []).arg.toNat := by decide

theorem witness_EncodeVarintGroups : Style.varint ∈ variableStyles ∧ Style.uvarint ∈ variableStyles := by decide

theorem witness_DecodeFixedWidthValue :
    (Style.i16, true, 2) ∈ fixedStyles ∧ 2 ≤ (executing idle 0 [0x80, 0]).din.length ∧
    0x8000 = bigNat (if ByteOrder.big = .little then ((executing idle 0 [0x80, 0]).din.take 2).reverse
      else (executing idle 0 [0x80, 0]).din.take 2) := by decide

theorem witness_DecodeVarintValue :
    Style.varint ∈ variableStyles ∧ (executing idle 0 [0xAC, 0x02, 0x55]).din = [0xAC#8] ++ 0x02#8 :: [0x55#8] ∧
    (∀ b ∈ [0xAC#8], b.getLsbD 7 = true) ∧ (0x02#8).getLsbD 7 = false := by decide

theorem witness_DecodeTruncatedFaults :
    (Style.u16, false, 2) ∈ fixedStyles ∧ (executing idle 0 [0xFF]).din.length < 2 ∧
    Style.uvarint ∈ variableStyles ∧ (∀ b ∈ (executing idle 0 [0xAC]).din, b.getLsbD 7 = true) := by decide

theorem witness_CodecRoundTrip :
    encodePrefix .varint .big 300 = some [0xAC#8, 0x02#8] ∧
    encodePrefix .i16 .little 0xFFFFFFFFFFFFFFFE = some [0xFE#8, 0xFF#8] := by decide

theorem witness_MaxLenTable :
    (Style.u16, 65535#64) ∈ maxLenRows ∧ (Style.uvarint, BitVec.allOnes 64) ∈ maxLenRows := by decide

/-- Fills that just fit and just do not: 6 of 10 bytes are used. -/
theorem witness_FillAppendsBytesOrFaults :
    let s := buffered [1, 2, 3, 4, 5, 6] 5 [] []
    s.readerReady = true ∧ s.rb.inv s.cfg.CAP = true ∧
    (executing s 0 [1, 2, 3, 4]).din.length ≤ s.cfg.CAP - s.rb.stop ∧
    s.cfg.CAP - s.rb.stop < (executing s 0 [1, 2, 3, 4, 5]).din.length := by decide

/-- Drains of nothing, of a part and of all of it, with a zero-length record at the end. -/
theorem witness_DrainReturnsOldestBytes :
    let s := buffered [1, 2, 3, 4] 1 [(2, 2), (4, 0)] []
    s.readerReady = true ∧ s.rb.inv s.cfg.CAP = true ∧
    0 = min (executing s 0 []).arg.toNat (s.rb.stop - s.rb.start) ∧
    (2 = min (executing s 2 []).arg.toNat (s.rb.stop - s.rb.start) ∧ 2 < s.rb.stop - s.rb.start) ∧
    (3 = min (executing s 9 []).arg.toNat (s.rb.stop - s.rb.start) ∧ 0 < 3 ∧ 3 = s.rb.stop - s.rb.start) := by decide

theorem witness_DrainMsgReturnsHeadRecord :
    (idle.readerReady = true ∧ idle.rb.queue = []) ∧
    (let s := buffered [1, 2, 3] 1 [(1, 2), (3, 0)] [];
      s.readerReady = true ∧ s.rb.inv s.cfg.CAP = true ∧ s.rb.queue = (s.rb.start, 2) :: [(3, 0)] ∧
      0 < 2 ∧ s.rb.start + 2 = s.rb.stop) ∧
    (let s := buffered [1, 2, 3] 1 [(1, 0), (1, 2)] [];
      s.readerReady = true ∧ s.rb.inv s.cfg.CAP = true ∧ s.rb.queue = (s.rb.start, 0) :: [(1, 2)]) ∧
    (let s := buffered [1, 2, 3, 4, 5] 1 [(3, 1), (4, 1)] [];
      s.readerReady = true ∧ s.rb.inv s.cfg.CAP = true ∧ s.rb.queue = (3, 1) :: [(4, 1)] ∧ 3 ≠ s.rb.start) := by
  decide

theorem witness_LenCountsUnreadBytes : busy.readerReady = true := by decide

theorem witness_FillThenDrainMsgRestores :
    let b : RBuf := ⟨memSetN [] 0 (bytesOf [1, 2]), 1, 2, []⟩
    b.inv 4 = true ∧ b.queue = [] ∧
    b.fill 4 (bytesOf [7, 8]) true = .ok ⟨memSetN [] 0 (bytesOf [1, 2, 7, 8]), 1, 4, [(2, 2)]⟩ := by decide

theorem witness_RecordedMessageComesFirst :
    let s := executing (buffered [1, 2, 3] 1 [(2, 1)] [1, 9]) 1 []
    s.rb.inv s.cfg.CAP = true ∧ s.rb.queue = (2, 1) :: [] ∧ 1 ≤ 1 ∧ 1 ≤ s.arg.toNat := by decide

theorem witness_EmptyHeadRecordIsSkipped :
    (let s := buffered [1, 2] 1 [(2, 0)] [1, 9];
      s.rb.inv s.cfg.CAP = true ∧ s.readerReady = true ∧ s.rb.queue = [(2, 0)]) ∧
    (let s := executing (buffered [1, 2] 1 [(1, 0), (1, 1)] [2, 8, 9]) 2 [];
      s.readerReady = true ∧ s.rxCalm = true ∧ s.rx.tail = .ends ∧ s.rb.inv s.cfg.CAP = true ∧
      s.rb.queue = (1, 0) :: (1, 1) :: [] ∧ s.upcoming = some (2, port [8, 9]) ∧
      Style.ival s.cfg.rd.style 2 = ((2 : Nat) : Int) ∧ 1 ≤ 2 ∧ (port [8, 9]).holds 2 = true ∧
      2 ≤ s.cfg.CAP - s.rb.stop ∧ 2 ≤ s.arg.toNat ∧ 1 ≤ s.arg.toNat) := by decide

/-- A frame of 8 bytes behind 2 of 10: it just fits, and dstCap is just enough. -/
theorem witness_ReadMsgReturnsNextFrame :
    let s := executing (buffered [1, 2] 1 [] [8, 1, 2, 3, 4, 5, 6, 7, 8]) 8 []
    s.readerReady = true ∧ s.rxCalm = true ∧ s.rx.tail = .ends ∧ s.rb.inv s.cfg.CAP = true ∧ s.rb.queue = [] ∧
    s.upcoming = some (8, port [1, 2, 3, 4, 5, 6, 7, 8]) ∧ Style.ival s.cfg.rd.style 8 = ((8 : Nat) : Int) ∧
    1 ≤ 8 ∧ (port [1, 2, 3, 4, 5, 6, 7, 8]).holds 8 = true ∧ 8 ≤ s.cfg.CAP - s.rb.stop ∧ 8 ≤ s.arg.toNat := by
  decide

theorem witness_ReadMsgOfEmptyFrameOrEnd :
    (let s := machine .i8 .big [0x80, 1];
      s.readerReady = true ∧ s.rxCalm = true ∧ s.rx.tail = .ends ∧ s.rb.queue = [] ∧
      s.upcoming = some (0xFFFFFFFFFFFFFF80, port [1]) ∧ Style.ival s.cfg.rd.style 0xFFFFFFFFFFFFFF80 < 1) ∧
    (machine .u16 .big [3]).upcoming = none ∧ (machine .u16 .big [3]).rx.tail = .ends := by decide

theorem witness_ReadMsgCTooSmallConsumesNothing :
    (let s := executing (buffered [1, 2] 0 [(0, 2)] []) 1 [];
      s.readerReady = true ∧ s.rb.queue = (0, 2) :: [] ∧ s.arg.toNat < 2) ∧
    (let s := executing (machine .u8 .big [3, 1, 2, 3]) 2 [];
      s.readerReady = true ∧ s.rxCalm = true ∧ s.rx.tail = .ends ∧ s.rb.queue = [] ∧
      s.upcoming = some (3, port [1, 2, 3]) ∧ 1 ≤ Style.ival s.cfg.rd.style 3 ∧
      (s.arg.toNat : Int) < Style.ival s.cfg.rd.style 3) ∧
    (let s := executing (buffered [1, 2, 3] 0 [(0, 0), (0, 3)] [3, 9]) 2 [];
      s.readerReady = true ∧ s.rxCalm = true ∧ s.rb.inv s.cfg.CAP = true ∧
      s.rb.queue = (0, 0) :: (0, 3) :: [] ∧ 1 ≤ 3 ∧ s.upcoming = some (3, port [9]) ∧
      1 ≤ Style.ival s.cfg.rd.style 3 ∧ (s.arg.toNat : Int) < Style.ival s.cfg.rd.style 3) ∧
    (let s := executing (buffered [1, 2, 3] 0 [(0, 0), (0, 3)] [2, 8, 9]) 2 [];
      s.readerReady = true ∧ s.rxCalm = true ∧ s.rb.inv s.cfg.CAP = true ∧
      s.rb.queue = (0, 0) :: (0, 3) :: [] ∧ s.upcoming = some (2, port [8, 9]) ∧
      Style.ival s.cfg.rd.style 2 = ((2 : Nat) : Int) ∧ 1 ≤ 2 ∧ 2 ≤ s.arg.toNat ∧ s.arg.toNat < 3 ∧
      (port [8, 9]).holds 2 = true ∧ 2 ≤ s.cfg.CAP - s.rb.stop) := by decide

theorem witness_ReadMsgCWithLargestDstCap :
    let s := executing busy (BitVec.allOnes 64) []
    s.arg = BitVec.allOnes 64 ∧ s.rxCalm = true ∧ s.rb.inv s.cfg.CAP = true := by decide

theorem witness_ReadFromBufferIsDrain :
    let s := executing busy 4 []
    s.rb.inv s.cfg.CAP = true ∧ s.arg.toNat ≤ s.rb.stop - s.rb.start ∧ s.readerReady = true ∧
    s.rb.start < s.rb.stop := by decide

/-- A frame of exactly CAP bytes, one more byte asked for than is unread. -/
theorem witness_ReadPullsOneFrame :
    let s := executing (buffered [1, 2] 1 [] [10, 1, 2, 3, 4, 5, 6, 7, 8, 9, 10]) 2 []
    s.readerReady = true ∧ s.rxCalm = true ∧ s.rx.tail = .ends ∧ s.rb.inv s.cfg.CAP = true ∧
    s.rb.stop - s.rb.start < s.arg.toNat ∧ s.upcoming = some (10, port [1, 2, 3, 4, 5, 6, 7, 8, 9, 10]) ∧
    Style.ival s.cfg.rd.style 10 = ((10 : Nat) : Int) ∧ 1 ≤ 10 ∧
    (port [1, 2, 3, 4, 5, 6, 7, 8, 9, 10]).holds 10 = true ∧ 10 ≤ s.cfg.CAP := by decide

theorem witness_ReadOfEmptyFrameOrEnd :
    (let s := executing (buffered [1, 2] 1 [] [0, 5]) 2 [];
      s.readerReady = true ∧ s.rxCalm = true ∧ s.rx.tail = .ends ∧ s.rb.inv s.cfg.CAP = true ∧
      s.rb.stop - s.rb.start < s.arg.toNat ∧ s.upcoming = some (0, port [5]) ∧ Style.ival s.cfg.rd.style 0 < 1) ∧
    (idle.rb.stop - idle.rb.start < 1 ∧ idle.upcoming = none ∧ idle.rx.tail = .ends) := by decide

theorem witness_IncompleteFrameLosesPayload :
    let s := executing (buffered [1, 2] 1 [] [3, 1, 2]) 3 []
    s.readerReady = true ∧ s.rxCalm = true ∧ s.rx.tail = .ends ∧ s.rb.queue = [] ∧ s.rb.inv s.cfg.CAP = true ∧
    s.upcoming = some (3, port [1, 2]) ∧ Style.ival s.cfg.rd.style 3 ≤ (s.arg.toNat : Int) ∧
    1 ≤ Style.ival s.cfg.rd.style 3 ∧ ((port [1, 2]).stream.length : Int) < Style.ival s.cfg.rd.style 3 ∧
    s.rb.stop - s.rb.start < s.arg.toNat ∧ idle.rb.start = idle.rb.stop := by decide

/-- 9 bytes behind 2 of 10, and 11 bytes into an empty buffer of 10. -/
theorem witness_OversizeFrameIsConsumedAndLost :
    (let s := executing (buffered [1, 2] 1 [] [9, 1, 2, 3, 4, 5, 6, 7, 8, 9]) 9 [];
      s.readerReady = true ∧ s.rxCalm = true ∧ s.rx.tail = .ends ∧ s.rb.queue = [] ∧
      s.upcoming = some (9, port [1, 2, 3, 4, 5, 6, 7, 8, 9]) ∧ Style.ival s.cfg.rd.style 9 = ((9 : Nat) : Int) ∧
      (port [1, 2, 3, 4, 5, 6, 7, 8, 9]).holds 9 = true ∧ s.cfg.CAP - s.rb.stop < 9 ∧ 9 ≤ s.arg.toNat) ∧
    (let s := executing (buffered [1, 2] 1 [] [11, 1, 2, 3, 4, 5, 6, 7, 8, 9, 10, 11]) 2 [];
      s.rb.inv s.cfg.CAP = true ∧ s.rb.stop - s.rb.start < s.arg.toNat ∧
      s.upcoming = some (11, port [1, 2, 3, 4, 5, 6, 7, 8, 9, 10, 11]) ∧
      Style.ival s.cfg.rd.style 11 = ((11 : Nat) : Int) ∧
      (port [1, 2, 3, 4, 5, 6, 7, 8, 9, 10, 11]).holds 11 = true ∧ s.cfg.CAP < 11) := by decide

/-- A length of 2^31 on an infinite stream (R252 (d)). -/
theorem witness_OversizeFrameIsConsumedAndLost_infinite :
    let s := machine .u32 .big [0x80, 0, 0, 0]
    let s : State := { s with rx := { s.rx with tail := .cycle 5#8 [] } }
    let rest : RxPort := { RxPort.atLaunch with tail := .cycle 5#8 [] }
    s.readerReady = true ∧ s.rxCalm = true ∧ s.rb.queue = [] ∧ s.upcoming = some (0x80000000, rest) ∧
    Style.ival s.cfg.rd.style 0x80000000 = ((2147483648 : Nat) : Int) ∧ rest.tail ≠ .ends ∧
    s.cfg.CAP - s.rb.stop < 2147483648 := by decide

theorem witness_PeekLenResolvesOnce :
    let s := machine .u8 .big [3, 1]
    s.readerReady = true ∧ s.rxCalm = true ∧ s.rx.tail = .ends ∧
    ({ s with rd := { s.rd with next := some 7 } } : State).rd.next = some 7 ∧
    s.rd.next = none ∧ s.upcoming = some (3, port [1]) ∧ (machine .u8 .big []).upcoming = none := by decide

theorem witness_CloseClosesOnce :
    let s := machine .u8 .big []
    let o : State := { s with cfg := ⟨9, ⟨.u8, .big, true⟩, ⟨.u8, .big, true⟩⟩ }
    s.rxCalm = true ∧ s.txCalm = true ∧ s.rd.closed = false ∧ s.wr.closed = false ∧
    s.cfg.rd.leaveOpen = false ∧ s.cfg.wr.leaveOpen = false ∧
    o.rd.closed = false ∧ o.wr.closed = false ∧ o.cfg.rd.leaveOpen = true ∧ o.cfg.wr.leaveOpen = true ∧
    (after s 0x003F 0 []).rd.closed = true ∧ (after s 0x004F 0 []).wr.closed = true ∧
    ({ s.rx with script := [.interrupt 1 .ioFail] } : RxPort).script = .interrupt 1 .ioFail :: [] ∧
    ({ s.tx with script := [.interrupt 0 .ioFail] } : TxPort).script = .interrupt 0 .ioFail :: [] := by decide

/-- A cancel in the third call, in the payload, of an RD.READ; one in the first call, of an RD.PEEKLEN; and
one in a prefix that never ends. -/
theorem witness_InterruptedReadPoisons :
    (let s := executing (machine .u8 .big [3, 1, 2, 3]) 2 []
     let s : State := { s with rx := { s.rx with script := [.move 1, .move 1, .interrupt 1 .cancelled] } }
     s.rb.inv s.cfg.CAP = true ∧ [Answer.move 1, .move 1].all Answer.isMove = true ∧
     s.rx.script = [.move 1, .move 1] ++ .interrupt 1 .cancelled :: [] ∧
     ∃ u, exec .rdRead { s with rx := { s.rx with script := [.move 1, .move 1] ++ [.move 9] } } = .next u ∧
       u.rx.script = []) ∧
    (let s := machine .u8 .big [3, 1, 2, 3]
     let s : State := { s with rx := { s.rx with script := [.interrupt 1 .ioFail] } }
     s.rx.script = [] ++ .interrupt 1 .ioFail :: [] ∧
     ∃ u, exec .rdPeekLen { s with rx := { s.rx with script := [] ++ [.move 9] } } = .next u ∧ u.rx.script = []) ∧
    (let s := machine .varint .big []
     let s : State := { s with rx := { s.rx with tail := .cycle 0x80#8 [], script := [.interrupt 1 .cancelled] } }
     ∃ u, exec .rdReadMsgC { s with rx := { s.rx with script := [] ++ [.move 9] } } = .next u ∧
       u.rx.script = [] ∧ u.rsp = none) :=
  ⟨⟨by decide, by decide, rfl, _, rfl, rfl⟩, ⟨rfl, _, rfl, rfl⟩, ⟨_, rfl, rfl, rfl⟩⟩

theorem witness_EndlessPrefixHasNoSuccessor :
    let s := executing (machine .uvarint .big [0x81]) 1 []
    let s : State := { s with rx := { s.rx with tail := .cycle 0x80#8 [0xFF#8] } }
    s.rb.queue = [] ∧ s.rb.stop - s.rb.start < s.arg.toNat ∧ s.rb.start = s.rb.stop ∧
    s.readerReady = true ∧ s.rxCalm = true ∧ s.rb.inv s.cfg.CAP = true ∧ s.rd.next = none ∧
    s.cfg.rd.style ∈ variableStyles ∧ s.rx.tail ≠ .ends ∧ (∀ k, ∀ b ∈ s.rx.front k, b.getLsbD 7 = true) :=
  ⟨rfl, by decide, rfl, by decide, by decide, by decide, rfl, by decide, by decide,
    RxPort.AllContinue.front (by unfold RxPort.AllContinue; decide)⟩

/-- A granted RB.LEN, a sole WR.WRITEBYTE and ENC.U8, a cancel and a failure while a command is stuck. -/
theorem witness_EndlessPrefixHasNoSuccessor_stuck :
    stuckReader.rd.lock = .held 0 ∧ stuckReader.wr.lock = .free ∧ stuckReader.rx.script = [] ∧
    stuckReader.schedule = [] ∧ stuckReader.agenda = .ends ∧
    (let s := { stuckReader with waiting := [⟨1, ⟨0x0024, 0, []⟩, 0⟩], schedule := [.grant 1] }
     s.schedule = .grant 1 :: [] ∧ s.due = none ∧
     s.waiting.find? (fun t => t.who == 1) = some ⟨1, ⟨0x0024, 0, []⟩, 0⟩ ∧
     decode 0x0024#16 = .command .rbLen ∧ Instr.unit .rbLen = .reader) ∧
    (decode 0x0042#16 = .command .wrWriteByte ∧ Instr.unit .wrWriteByte = .writer) ∧
    (decode 0x0110#16 = .command (.encU8 .big) ∧ Instr.unit (.encU8 .big) = .codec) ∧
    { stuckReader with schedule := [.cancel 0] }.due = none ∧
    { stuckReader with schedule := [.answers ([Answer.move 1] ++ Answer.interrupt 0 .ioFail :: []) []] }.due = none ∧
    [Answer.move 1].all Answer.isMove = true := by decide

theorem witness_EndlessPrefixHasNoSuccessor_onlySo :
    let s := executing (machine .uvarint .big []) 1 []
    let s : State := { s with rx := { s.rx with tail := .cycle 0x80#8 [0xFF#8] } }
    Instr.unit .rdPeekLen = .reader ∧ s.rxCalm = true ∧ ∃ t, exec .rdPeekLen s = .next t ∧ t.rsp = none :=
  ⟨rfl, by decide, _, rfl, rfl⟩

theorem witness_ReaderCommandsLeaveNoRecord :
    let s := machine .u8 .big [3, 1, 2, 3]
    Instr.rdReadMsg ∈ [Instr.rdReadMsg, .rdReadMsgC, .rdRead, .rdReadByte, .rdPeekLen, .rdClose] ∧
    s.rxCalm = true ∧ s.rb.queue = [] ∧ ∃ t, exec .rdReadMsg s = .next t :=
  ⟨by decide, by decide, by decide, _, rfl⟩

/-- Three frames, one of them empty and one as long as there is room for, in pieces of one byte. -/
theorem witness_ReadMsgsReturnPayloadsInOrder :
    let ps := [bytesOf [1, 2], [], bytesOf [1, 2, 3, 4, 5, 6, 7, 8]]
    let s := buffered [1, 2] 1 [] [2, 1, 2, 0, 8, 1, 2, 3, 4, 5, 6, 7, 8]
    let s : State := { s with rx := { s.rx with script := [.move 1, .move 1, .move 1] } }
    s.readerReady = true ∧ s.rxCalm = true ∧ s.rx.tail = .ends ∧ s.rb.inv s.cfg.CAP = true ∧ s.rb.queue = [] ∧
    s.rd.next = none ∧
    (∀ p ∈ ps, p.length ≤ s.cfg.CAP - s.rb.stop ∧ Style.within s.cfg.rd.style p.length = true) ∧
    s.rx.stream = (ps.map (frameOf s.cfg.rd)).flatten := by decide

theorem witness_RawReadsReconstructStream :
    let ps := [bytesOf [1, 2], bytesOf [3, 4, 5]]
    let s := machine .u8 .big [2, 1, 2, 3, 3, 4, 5]
    s.readerReady = true ∧ s.rxCalm = true ∧ s.rx.tail = .ends ∧ s.rb.inv s.cfg.CAP = true ∧
    s.rb.start = s.rb.stop ∧ s.rb.queue = [] ∧ s.rd.next = none ∧
    (∀ p ∈ ps, 1 ≤ p.length ∧ p.length ≤ s.cfg.CAP ∧ Style.within s.cfg.rd.style p.length = true) ∧
    s.rx.stream = (ps.map (frameOf s.cfg.rd)).flatten ∧ (∀ c ∈ [1, 7, 4, 1], 1 ≤ c ∧ c < 2 ^ 64) ∧
    rawReads [1, 7, 4, 1] s = some (bytesOf [1, 2, 3, 4, 5], true) := by decide

theorem witness_WriteMsgAppendsFrame :
    let s := executing writing 0 [1, 2]
    s.writerReady = true ∧ s.txCalm = true ∧ s.din.length ≤ 2147483647 ∧
    Style.within s.cfg.wr.style s.din.length = true := by decide

theorem witness_WriteFaultsWriteNothing :
    (let s := { machine .i8 .big [] with txn := ⟨0, ⟨0x40, 0, List.replicate 128 0#8⟩, 0⟩ };
      s.writerReady = true ∧ (s.cfg.wr.style, 127) ∈ boundedStyles ∧ 127 < s.din.length) ∧
    (executing idle 1 []).writerReady = true ∧ (executing idle 1 []).din.length < (executing idle 1 []).arg.toNat := by
  decide +kernel

theorem witness_WriteUnboundedIsOneFrame :
    let s := executing (machine .varint .big []) 2 [1, 2]
    s.writerReady = true ∧ s.txCalm = true ∧ s.cfg.wr.style ∈ unboundedStyles ∧ s.din.length ≤ 2147483647 ∧
    s.arg.toNat ≤ s.din.length := by decide

/-- The first and the last chunk of 128 bytes under I8. -/
theorem witness_WriteEmitsOneChunk :
    let s := { machine .i8 .big [] with txn := ⟨0, ⟨0x41, 128, List.replicate 128 0#8⟩, 0⟩ }
    s.writerReady = true ∧ s.txCalm = true ∧ (s.cfg.wr.style, 127) ∈ boundedStyles ∧
    s.arg.toNat ≤ s.din.length ∧ ¬ s.arg.toNat ≤ (0 + 1) * 127 ∧ s.arg.toNat ≤ (1 + 1) * 127 := by decide +kernel

theorem witness_WriteRunsToGreedyFrames :
    let t : Transaction := ⟨0, ⟨0x41, 128, List.replicate 128 0#8⟩, 0⟩
    let s := { machine .i8 .big [] with waiting := [t], schedule := [.grant 0, .grant 0, .cancel 0] }
    s.writerReady = true ∧ s.txCalm = true ∧ s.wr.lock = .free ∧ (s.cfg.wr.style, 127) ∈ boundedStyles ∧
    t.req.cmd = 0x0041#16 ∧ t.chunk = 0 ∧ t.req.arg.toNat ≤ t.req.din.length ∧ s.waiting = [t] ∧
    2 = max 1 ((t.req.arg.toNat + (127 - 1)) / 127) ∧
    s.schedule = List.replicate 2 (.grant t.who) ++ [.cancel 0] := by decide +kernel

theorem witness_WriteByteIsWriteMsgOfOne : writing.writerReady = true ∧ writing.txCalm = true := by decide

theorem witness_FlushCountsOneFlush :
    writing.writerReady = true ∧ writing.txCalm = true ∧
    (∃ n sc, ({ writing.tx with script := [.interrupt 3 .cancelled] } : TxPort).script = .interrupt n .cancelled :: sc) ∧
    ({ writing.tx with script := [.interrupt 0 .ioFail] } : TxPort).script = .interrupt 0 .ioFail :: [] :=
  ⟨by decide, by decide, ⟨3, [], rfl⟩, rfl⟩

theorem witness_InterruptedWriteLeavesFrontPart :
    (let s := executing (machine .u8 .big []) 2 [1, 2]
     let s : State := { s with tx := { s.tx with script := [.move 1, .interrupt 1 .ioFail] } }
     Emits s .wrWrite (bytesOf [1, 2]) ∧ s.tx.script.all Answer.notReset = true ∧
     s.tx.script = [.move 1] ++ .interrupt 1 .ioFail :: [] ∧
     accepted [.move 1] (frameOf s.cfg.wr (bytesOf [1, 2])).length < (frameOf s.cfg.wr (bytesOf [1, 2])).length) ∧
    (let s := executing (machine .u8 .big []) 2 [1, 2]
     Emits s .wrWriteMsg (bytesOf [1, 2]) ∧ Emits s .wrWriteByte (bytesOf [2]) ∧
     accepted [] (frameOf s.cfg.wr (bytesOf [2])).length < (frameOf s.cfg.wr (bytesOf [2])).length) := by
  refine ⟨⟨⟨rfl, ?_, by decide, by decide⟩, by decide, rfl, by decide⟩,
    ⟨rfl, .inl ⟨rfl, by decide⟩, by decide, by decide⟩, ⟨rfl, .inr (.inl ⟨rfl, by decide⟩), by decide, by decide⟩,
    by decide⟩
  exact .inr (.inr ⟨rfl, by decide, .inr ⟨255, by decide, by decide⟩⟩)

theorem witness_WriteThenReadReturnsMessage :
    let s := executing { buffered [1, 2] 1 [] [] with tx := { TxPort.atLaunch with stream := [9#8] } } 0
      [1, 2, 3, 4, 5, 6, 7, 8]
    s.writerReady = true ∧ s.readerReady = true ∧ s.txCalm = true ∧ s.rxCalm = true ∧
    s.cfg.rd.style = s.cfg.wr.style ∧ s.cfg.rd.order = s.cfg.wr.order ∧ s.rx.tail = .ends ∧ s.rx.stream = [] ∧
    s.rb.inv s.cfg.CAP = true ∧ s.rb.queue = [] ∧ s.rd.next = none ∧
    Style.within s.cfg.wr.style s.din.length = true ∧ s.din.length ≤ s.cfg.CAP - s.rb.stop := by decide

end Sys2Proof.Tests
end

section
/-! PROOFS. The family of spec/00_scope.md: no fault and no stuck command over a finite stream, the fields of a
response, closing, presenting a command, raising a fault. -/

namespace Sys2Proof.Machine

/-! ## The codec's commands and their bodies -/

/-- The codec's commands, by their three bodies (R110). -/
theorem Instr.unit_eq_codec {i : Instr} (h : Instr.unit i = .codec) :
    (∃ st ord, i = encOf ord st) ∨ (∃ st ord, i = decOf ord st) ∨ ∃ st ord, i = .maxlen ord st := by
  cases i with
  | encI8 ord => exact .inl ⟨.i8, ord, rfl⟩
  | encU8 ord => exact .inl ⟨.u8, ord, rfl⟩
  | encI16 ord => exact .inl ⟨.i16, ord, rfl⟩
  | encU16 ord => exact .inl ⟨.u16, ord, rfl⟩
  | encI32 ord => exact .inl ⟨.i32, ord, rfl⟩
  | encU32 ord => exact .inl ⟨.u32, ord, rfl⟩
  | encI64 ord => exact .inl ⟨.i64, ord, rfl⟩
  | encU64 ord => exact .inl ⟨.u64, ord, rfl⟩
  | encVarint ord => exact .inl ⟨.varint, ord, rfl⟩
  | encUvarint ord => exact .inl ⟨.uvarint, ord, rfl⟩
  | decI8 ord => exact .inr (.inl ⟨.i8, ord, rfl⟩)
  | decU8 ord => exact .inr (.inl ⟨.u8, ord, rfl⟩)
  | decI16 ord => exact .inr (.inl ⟨.i16, ord, rfl⟩)
  | decU16 ord => exact .inr (.inl ⟨.u16, ord, rfl⟩)
  | decI32 ord => exact .inr (.inl ⟨.i32, ord, rfl⟩)
  | decU32 ord => exact .inr (.inl ⟨.u32, ord, rfl⟩)
  | decI64 ord => exact .inr (.inl ⟨.i64, ord, rfl⟩)
  | decU64 ord => exact .inr (.inl ⟨.u64, ord, rfl⟩)
  | decVarint ord => exact .inr (.inl ⟨.varint, ord, rfl⟩)
  | decUvarint ord => exact .inr (.inl ⟨.uvarint, ord, rfl⟩)
  | maxlen ord st => exact .inr (.inr ⟨st, ord, rfl⟩)
  | _ => cases h

theorem exec_encOf (st : Style) (ord : ByteOrder) (s : State) :
    exec (encOf ord st) s = (encBody st ord s).finish .codec := by cases st <;> rfl

theorem exec_decOf (st : Style) (ord : ByteOrder) (s : State) :
    exec (decOf ord st) s = (decBody st ord s).finish .codec := by cases st <;> rfl

theorem exec_maxlen (st : Style) (ord : ByteOrder) (s : State) :
    exec (.maxlen ord st) s = (maxlenBody st s).finish .codec := rfl

theorem encBody_cases (st : Style) (ord : ByteOrder) (s : State) :
    encBody st ord s = .raised .operandRange s ∨ ∃ pre, encBody st ord s = .done (.data pre) s := by
  unfold encBody
  split
  · exact .inr ⟨_, rfl⟩
  · exact .inl rfl

theorem decBody_cases (st : Style) (ord : ByteOrder) (s : State) :
    decBody st ord s = .raised .truncatedPrefix s ∨
      ∃ V c, decBody st ord s = .done { res := V, cnt := cntOf c } s := by
  unfold decBody
  split
  · exact .inr ⟨_, _, rfl⟩
  · exact .inl rfl

theorem maxlenBody_eq (st : Style) (s : State) : ∃ v, maxlenBody st s = .done (.scalar v) s := by
  unfold maxlenBody
  split <;> exact ⟨_, rfl⟩

/-- A codec command always ends, and nothing but the response is written (R110). -/
theorem exec_codec {i : Instr} (h : Instr.unit i = .codec) (s : State) :
    ∃ r, exec i s = .next (s.endCommand .codec r) := by
  rcases Instr.unit_eq_codec h with ⟨st, ord, rfl⟩ | ⟨st, ord, rfl⟩ | ⟨st, ord, rfl⟩
  · rw [exec_encOf]
    rcases encBody_cases st ord s with hb | ⟨pre, hb⟩ <;> rw [hb] <;> exact ⟨_, rfl⟩
  · rw [exec_decOf]
    rcases decBody_cases st ord s with hb | ⟨V, c, hb⟩ <;> rw [hb] <;> exact ⟨_, rfl⟩
  · rw [exec_maxlen]
    obtain ⟨v, hb⟩ := maxlenBody_eq st s
    rw [hb]
    exact ⟨_, rfl⟩

/-! ## The unit checks -/

/-- The reader's checks pass or raise, and write nothing (R160). -/
theorem readerChecks_cases (s : State) :
    readerChecks s = .done .unit s ∨ ∃ st, readerChecks s = .raised st s := by
  unfold readerChecks
  split
  · exact .inr ⟨_, rfl⟩
  · split
    · exact .inr ⟨_, rfl⟩
    · exact .inl rfl

/-- The writer's checks pass or raise, and write nothing (R190). -/
theorem writerChecks_cases (s : State) :
    writerChecks s = .done .unit s ∨ ∃ st, writerChecks s = .raised st s := by
  unfold writerChecks
  split
  · exact .inr ⟨_, rfl⟩
  · split
    · exact .inr ⟨_, rfl⟩
    · exact .inl rfl

/-! ## No access outside the store, no stuck command over a finite stream (R13, R252 (c))

Both claims go through the same predicates, in which the proposition `fin` claims a finite receive stream:
`False` claims nothing of it. -/

section Safety

variable {α β : Type} {fin : Prop} {P : State → Prop}

/-- A part of a command does not stop, is not stuck if `fin`, and leaves `P` otherwise. -/
def Run.Safe (fin : Prop) (P : State → Prop) : Run α → Prop
  | .done _ s => P s
  | .raised _ s => P s
  | .interrupted _ s => P s
  | .stuck _ => ¬ fin
  | .stop _ => False

theorem Run.Safe.bind {r : Run α} {k : α → State → Run β} (h : r.Safe fin P)
    (hk : ∀ a s, P s → (k a s).Safe fin P) : (r.bind k).Safe fin P := by
  cases r with
  | done a s => exact hk a s h
  | raised st s => exact h
  | interrupted why s => exact h
  | stuck s => exact h
  | stop f => exact h

theorem Run.Safe.stuckAt {r : Run α} (h : r.Safe fin P) (home : State) : (r.stuckAt home).Safe fin P := by
  cases r <;> exact h

/-- What the reader's commands need to be safe, and keep: the invariants of R28 and, if `fin`, a finite stream. -/
structure State.Fit (fin : Prop) (s : State) : Prop where
  inv : s.rb.inv s.cfg.CAP = true
  finite : fin → s.rx.tail = .ends

theorem State.Fit.withRb {s : State} (h : s.Fit fin) {b : RBuf} (hb : b.inv s.cfg.CAP = true) :
    State.Fit fin { s with rb := b } := ⟨hb, h.finite⟩

theorem State.Fit.withRx {s : State} (h : s.Fit fin) {p : RxPort} (hp : fin → p.tail = .ends) :
    State.Fit fin { s with rx := p } := ⟨h.inv, hp⟩

theorem State.Fit.forgetNext {s : State} (h : s.Fit fin) : s.forgetNext.Fit fin := ⟨h.inv, h.finite⟩

/-- A finite stream stays finite as its bytes are taken. -/
theorem RxPort.drop_tail_ends {p : RxPort} (h : p.tail = .ends) (j : Nat) : (p.drop j).tail = .ends := by
  rw [RxPort.drop_finite h]
  exact h

theorem State.Fit.dropped {s : State} (h : s.Fit fin) (sc : List Answer) (j : Nat) :
    State.Fit fin { s with rx := RxPort.drop { s.rx with script := sc } j } :=
  h.withRx fun hf => RxPort.drop_tail_ends (p := { s.rx with script := sc }) (h.finite hf) j

/-! ### The receive transport -/

theorem rxRead_safe {s : State} (h : s.Fit fin) (k : Nat) : (rxRead k s).Safe fin (State.Fit fin) := by
  rcases rxRead_cases k s with ⟨n, why, sc, -, hr⟩ | ⟨-, hr⟩ | ⟨j, -, -, hr⟩ <;> rw [hr]
  · exact h.dropped _ _
  · exact h.withRx h.finite
  · exact h.dropped _ _

theorem readExact_safe {s : State} (h : s.Fit fin) (n : Nat) : (readExact n s).Safe fin (State.Fit fin) := by
  have key : ∀ (fuel : Nat) (got : Bytes) (s : State), s.Fit fin →
      (readExactLoop n fuel got s).Safe fin (State.Fit fin) := by
    intro fuel
    induction fuel with
    | zero => exact fun _ _ h => h
    | succ fuel ih =>
      intro got s h
      unfold readExactLoop
      split
      · refine (rxRead_safe h _).bind fun c s h => ?_
        split
        · exact h
        · exact ih _ s h
      · exact h
  exact key n [] s h

/-- Everything `RxNext` can do: it is cut short, finds the end, or takes one byte (R161). -/
theorem rxNext_cases (s : State) :
    (∃ why sc j, rxNext s = .interrupted why { s with rx := RxPort.drop { s.rx with script := sc } j }) ∨
    rxNext s = .done none (s.rxAt s.rx true s.rx.script.tail) ∨
    ∃ x q, s.rx.next = some (x, q) ∧ rxNext s = .done (some x) (s.rxAt q s.rx.eof s.rx.script.tail) := by
  rcases rxRead_cases 1 s with ⟨n, why, sc, -, hr⟩ | ⟨-, hr⟩ | ⟨j, h1, h2, hr⟩
  · exact .inl ⟨why, sc, _, by rw [rxNext, hr]; rfl⟩
  · exact .inr (.inl (by rw [rxNext, hr]; rfl))
  · rcases hn : s.rx.next with _ | ⟨x, q⟩
    · simp only [RxPort.front, hn, List.length_nil] at h2
      omega
    · have hf : s.rx.front 1 = [x] := by simp [RxPort.front, hn]
      obtain rfl : j = 1 := by
        rw [hf, List.length_singleton] at h2
        omega
      have hd : RxPort.drop { s.rx with script := s.rx.script.tail } 1 =
          { q with eof := s.rx.eof, script := s.rx.script.tail } := by
        have := s.rx.drop_at s.rx.eof s.rx.script.tail 1
        rwa [RxPort.drop_succ hn, RxPort.drop] at this
      exact .inr (.inr ⟨x, q, rfl, by rw [rxNext, hr, hf, hd]; rfl⟩)

/-- The next byte of a finite stream is one of those written down. -/
theorem RxPort.next_finite {p q : RxPort} {x : Byte} (h : p.tail = .ends) (hn : p.next = some (x, q)) :
    q.tail = .ends ∧ p.stream.length = q.stream.length + 1 := by
  rcases hs : p.stream with _ | ⟨y, r⟩
  · simp [RxPort.next, hs, h, RxTail.unroll] at hn
  · simp only [RxPort.next, hs, Option.some.injEq, Prod.mk.injEq] at hn
    obtain ⟨-, rfl⟩ := hn
    exact ⟨h, rfl⟩

/-- The turns do not run out on a finite stream that is shorter: each takes a byte, or is the last. -/
theorem decodeRxLoop_safe {st : Style} {ord : ByteOrder} {turns : Nat} {got : Bytes} {s : State} (h : s.Fit fin)
    (ht : fin → s.rx.stream.length < turns) : (decodeRxLoop st ord turns got s).Safe fin (State.Fit fin) := by
  induction turns generalizing got s with
  | zero => exact fun hf => absurd (ht hf) (Nat.not_lt_zero _)
  | succ turns ih =>
    rcases rxNext_cases s with ⟨why, sc, j, hr⟩ | hr | ⟨x, q, hn, hr⟩ <;> rw [decodeRxLoop, hr]
    · exact h.dropped _ _
    · exact h.withRx h.finite
    · have hq : fin → q.tail = .ends ∧ q.stream.length < turns := fun hf => by
        obtain ⟨h1, h2⟩ := RxPort.next_finite (h.finite hf) hn
        have := ht hf
        exact ⟨h1, by omega⟩
      have hfit : (s.rxAt q s.rx.eof s.rx.script.tail).Fit fin := h.withRx fun hf => (hq hf).1
      simp only [Run.bind_done]
      split
      · exact hfit
      · exact ih hfit fun hf => (hq hf).2

theorem resolve_safe {s : State} (h : s.Fit fin) : (resolve s).Safe fin (State.Fit fin) := by
  unfold resolve
  split
  · exact h
  · have hturns : s.rx.stream.length < decodeTurns s := by
      rw [decodeTurns, RxPort.reach]
      omega
    refine ((decodeRxLoop_safe h fun _ => hturns).stuckAt _).bind fun r s h => ?_
    split
    · exact h
    · exact ⟨h.inv, h.finite⟩

theorem pullFrame_safe {s : State} (h : s.Fit fin) : (pullFrame s).Safe fin (State.Fit fin) := by
  refine (resolve_safe h).bind fun L s h => ?_
  split
  · exact h.forgetNext
  · refine (readExact_safe h _).bind fun g s h => ?_
    split <;> exact h.forgetNext

/-! ### The buffer -/

theorem readerChecks_safe {s : State} (h : s.Fit fin) : (readerChecks s).Safe fin (State.Fit fin) := by
  rcases readerChecks_cases s with hc | ⟨st, hc⟩ <;> rw [hc] <;> exact h

theorem rbFill_safe {s : State} (h : s.Fit fin) (bytes : Bytes) (asMsg : Bool) :
    (rbFill bytes asMsg s).Safe fin (State.Fit fin) := by
  unfold rbFill
  split
  · exact h.withRb (RBuf.fill_inv h.inv ‹_›)
  · exact h
  · exact absurd ‹_› (RBuf.fill_inside h.inv bytes asMsg)

theorem rbDrain_safe {s : State} (h : s.Fit fin) (m : Nat) : (rbDrain m s).Safe fin (State.Fit fin) := by
  obtain ⟨b, hd, hb, -, -⟩ := rbDrain_inv h.inv m
  rw [hd]
  exact h.withRb hb

theorem rbDrainMsg_safe {s : State} (h : s.Fit fin) : (rbDrainMsg s).Safe fin (State.Fit fin) := by
  obtain ⟨out, b, hd, -, hb⟩ := rbDrainMsg_inv h.inv
  rw [hd]
  exact h.withRb hb

theorem takeMsg_safe {s : State} (h : s.Fit fin) (dstCap : Nat) : (takeMsg dstCap s).Safe fin (State.Fit fin) := by
  unfold takeMsg
  split
  · exact rbDrainMsg_safe h
  · split
    · exact h
    · exact rbDrainMsg_safe h

/-! ### The bodies of the commands -/

theorem readMsgBody_safe {s : State} (h : s.Fit fin) : (readMsgBody s).Safe fin (State.Fit fin) := by
  refine (readerChecks_safe h).bind fun _ s h => (rbDrainMsg_safe h).bind fun m s h => ?_
  split
  · exact h
  · refine (pullFrame_safe h).bind fun p s h => ?_
    split
    · exact h
    · exact (rbFill_safe h _ _).bind fun _ s h => (rbDrainMsg_safe h).bind fun _ _ h => h

theorem readMsgCBody_safe {s : State} (h : s.Fit fin) (dstCap : Nat) :
    (readMsgCBody dstCap s).Safe fin (State.Fit fin) := by
  refine (readerChecks_safe h).bind fun _ s h => (takeMsg_safe h dstCap).bind fun m s h => ?_
  split
  · exact h
  · refine (resolve_safe h).bind fun L s h => ?_
    split
    · exact h
    · refine (pullFrame_safe h).bind fun p s h => ?_
      split
      · exact h
      · exact (rbFill_safe h _ _).bind fun _ s h => (takeMsg_safe h dstCap).bind fun _ _ h => h

theorem readBody_safe {s : State} (h : s.Fit fin) (count : Nat) : (readBody count s).Safe fin (State.Fit fin) := by
  refine (readerChecks_safe h).bind fun _ s h => (rbDrain_safe h count).bind fun d s h => ?_
  split
  · exact h
  · refine (pullFrame_safe h).bind fun p s h => ?_
    split
    · exact h
    · exact (rbFill_safe h _ _).bind fun _ s h => (rbDrain_safe h _).bind fun _ _ h => h

theorem peekLenBody_safe {s : State} (h : s.Fit fin) : (peekLenBody s).Safe fin (State.Fit fin) := by
  refine (readerChecks_safe h).bind fun _ s h => (resolve_safe h).bind fun _ s h => ?_
  split <;> exact h

theorem rxClose_safe {s : State} (h : s.Fit fin) : (rxClose s).Safe fin (State.Fit fin) := by
  have hclose : ∀ p : RxPort, p.close.tail = p.tail := fun p => by unfold RxPort.close; split <;> rfl
  rcases rxClose_cases s with ⟨n, why, sc, -, -, hr⟩ | hr <;> rw [hr]
  · refine h.withRx fun hf => ?_
    split
    · exact h.finite hf
    · rw [hclose]; exact h.finite hf
  · exact h.withRx fun hf => by rw [hclose]; exact h.finite hf

theorem rdCloseBody_safe {s : State} (h : s.Fit fin) : (rdCloseBody s).Safe fin (State.Fit fin) := by
  have hclosed : State.Fit fin { s with rd := { s.rd with closed := true } } := ⟨h.inv, h.finite⟩
  unfold rdCloseBody
  split
  · exact h
  · dsimp only
    split
    · exact hclosed
    · exact (rxClose_safe hclosed).bind fun _ _ h => h

/-! ### The writer's commands -/

/-- The writer's parts leave the reader alone. -/
theorem writerChecks_safe {s : State} {rd : Reader} (h : s.rd = rd) :
    (writerChecks s).Safe fin (fun t => t.rd = rd) := by
  rcases writerChecks_cases s with hc | ⟨st, hc⟩ <;> rw [hc] <;> exact h

theorem emitFrame_safe {s : State} {rd : Reader} (h : s.rd = rd) (p : Bytes) :
    (emitFrame p s).Safe fin (fun t => t.rd = rd) := by
  unfold emitFrame
  split
  · split
    · rename_i pre _
      obtain ⟨sc, -, hr | ⟨k, n, why, -, hr⟩⟩ := txWrite_cases (pre ++ p) s <;> rw [hr] <;> exact h
    · exact h
  · exact h

theorem txControl_safe {s : State} {rd : Reader} (h : s.rd = rd) (act : TxPort → TxPort) :
    (txControl act s).Safe fin (fun t => t.rd = rd) := by
  rcases txControl_cases act s with ⟨n, why, sc, -, -, hr⟩ | hr <;> rw [hr] <;> exact h

theorem writeBody_safe {s : State} {rd : Reader} (h : s.rd = rd) : (writeBody s).Safe fin (fun t => t.rd = rd) := by
  refine (writerChecks_safe h).bind fun _ s h => ?_
  split
  · exact h
  · exact (emitFrame_safe h _).bind fun _ _ h => h

theorem wrCloseBody_safe {s : State} {rd : Reader} (h : s.rd = rd) :
    (wrCloseBody s).Safe fin (fun t => t.rd = rd) := by
  unfold wrCloseBody
  split
  · exact h
  · dsimp only
    split
    · exact h
    · exact (txControl_safe (s := { s with wr := { s.wr with closed := true } }) h _).bind fun _ _ h => h

/-! ### The end of a command -/

/-- The machine goes on without a fault and, if `fin`, with `RD.lock` free. -/
def GoesOn (fin : Prop) : Host.Outcome State Fault Refusal → Prop
  | .next t => fin → t.rd.lock = .free
  | .fault _ => False
  | .refused _ => True

theorem State.endCommand_goesOn {s : State} {u : BlockUnit} (h : u ≠ .reader → fin → s.rd.lock = .free)
    (r : Response) : GoesOn fin (.next (s.endCommand u r)) := by
  intro hf
  rw [State.endCommand_rd]
  split
  · rfl
  · exact h ‹_› hf

theorem State.requeue_goesOn {s : State} {u : BlockUnit} (h : u ≠ .reader → fin → s.rd.lock = .free) :
    GoesOn fin (.next (s.requeue u)) := by
  intro hf
  rw [State.requeue_rd]
  split
  · rfl
  · exact h ‹_› hf

theorem State.assertReset_goesOn (s : State) (pins : StrapPins) : GoesOn fin (s.assertReset pins) := by
  rcases s.assertReset_cases pins with ⟨cfg, -, hr⟩ | ⟨-, hr⟩ <;> rw [hr]
  · exact fun _ => rfl
  · trivial

/-- A command that is cut short frees its lock, or reset frees them all (R15, R39). -/
theorem State.interrupted_goesOn {s : State} {u : BlockUnit} (h : u ≠ .reader → fin → s.rd.lock = .free)
    (why : Interruption) : GoesOn fin (s.interrupted u why) := by
  have hpoison : u ≠ .reader → fin → (s.poison u).rd.lock = .free := by
    cases u
    case reader => exact fun hu => absurd rfl hu
    all_goals exact h
  cases why with
  | cancelled => exact State.endCommand_goesOn hpoison _
  | ioFail => exact State.endCommand_goesOn hpoison _
  | reset pins => exact s.assertReset_goesOn pins

theorem Run.Safe.finish {u : BlockUnit} {r : Run Response} (h : r.Safe fin P)
    (hP : ∀ t, P t → u ≠ .reader → fin → t.rd.lock = .free) : GoesOn fin (r.finish u) := by
  cases r with
  | done rsp s => exact State.endCommand_goesOn (hP s h) rsp
  | raised st s => exact State.endCommand_goesOn (hP s h) _
  | interrupted why s => exact State.interrupted_goesOn (hP s h) why
  | stuck s => exact fun hf => absurd hf h
  | stop f => exact h

theorem Run.Safe.finishChunk {u : BlockUnit} {r : Run Bool} (h : r.Safe fin P)
    (hP : ∀ t, P t → u ≠ .reader → fin → t.rd.lock = .free) : GoesOn fin (r.finishChunk u) := by
  cases r with
  | done last s =>
    cases last
    · exact State.requeue_goesOn (hP s h)
    · exact State.endCommand_goesOn (hP s h) _
  | raised st s => exact State.endCommand_goesOn (hP s h) _
  | interrupted why s => exact State.interrupted_goesOn (hP s h) why
  | stuck s => exact fun hf => absurd hf h
  | stop f => exact h

/-- The end of a reader command frees `RD.lock`, whatever its body left. -/
theorem Run.Safe.finishReader {r : Run Response} (h : r.Safe fin P) : GoesOn fin (r.finish .reader) :=
  h.finish fun _ _ hu => absurd rfl hu

/-! ### One command, one step -/

theorem exec_reader_goesOn {i : Instr} (hu : Instr.unit i = .reader) {s : State} (h : s.Fit fin) :
    GoesOn fin (exec i s) := by
  have hc := readerChecks_safe h
  cases i with
  | rbFillRaw => exact Run.Safe.finishReader (hc.bind fun _ _ h => (rbFill_safe h _ _).bind fun _ _ h => h)
  | rbFillMsg => exact Run.Safe.finishReader (hc.bind fun _ _ h => (rbFill_safe h _ _).bind fun _ _ h => h)
  | rbDrain => exact Run.Safe.finishReader (hc.bind fun _ _ h => (rbDrain_safe h _).bind fun _ _ h => h)
  | rbDrainMsg => exact Run.Safe.finishReader (hc.bind fun _ _ h => (rbDrainMsg_safe h).bind fun _ _ h => h)
  | rbLen => exact Run.Safe.finishReader (hc.bind fun _ _ h => h)
  | rdReadMsg => exact (readMsgBody_safe h).finishReader
  | rdReadMsgC => exact (readMsgCBody_safe h _).finishReader
  | rdRead => exact (readBody_safe h _).finishReader
  | rdReadByte => exact (readBody_safe h _).finishReader
  | rdPeekLen => exact (peekLenBody_safe h).finishReader
  | rdClose => exact (rdCloseBody_safe h).finishReader
  | _ => cases hu

theorem exec_writer_goesOn {i : Instr} (hu : Instr.unit i = .writer) {s : State} (hl : fin → s.rd.lock = .free) :
    GoesOn fin (exec i s) := by
  have hc := writerChecks_safe (fin := fin) (s := s) rfl
  have hP : ∀ t : State, t.rd = s.rd → BlockUnit.writer ≠ .reader → fin → t.rd.lock = .free :=
    fun t ht _ hf => by rw [ht]; exact hl hf
  cases i with
  | wrWriteMsg => exact Run.Safe.finish (hc.bind fun _ _ h => (emitFrame_safe h _).bind fun _ _ h => h) hP
  | wrWrite => exact (writeBody_safe rfl).finishChunk hP
  | wrWriteByte => exact Run.Safe.finish (hc.bind fun _ _ h => (emitFrame_safe h _).bind fun _ _ h => h) hP
  | wrFlush => exact Run.Safe.finish (hc.bind fun _ _ h => (txControl_safe h _).bind fun _ _ h => h) hP
  | wrClose => exact (wrCloseBody_safe rfl).finish hP
  | _ => cases hu

/-- No command stops the machine, and over a finite stream none keeps a lock. -/
theorem exec_goesOn (i : Instr) {s : State} (h : s.Fit fin)
    (hl : Instr.unit i ≠ .reader → fin → s.rd.lock = .free) : GoesOn fin (exec i s) := by
  cases hu : Instr.unit i with
  | codec =>
    obtain ⟨r, hr⟩ := exec_codec hu s
    rw [hr]
    exact State.endCommand_goesOn (fun _ => hl (by simp [hu])) r
  | reader => exact exec_reader_goesOn hu h
  | writer => exact exec_writer_goesOn hu (hl (by simp [hu]))

theorem State.serve_goesOn {s : State} (h : s.Fit fin) (hl : fin → s.rd.lock = .free) (who : Nat) :
    GoesOn fin (s.serve who) := by
  rcases s.serve_cases who with hr | ⟨t, e, -, -, hr⟩ | ⟨t, i, -, -, -, hr⟩ <;> rw [hr]
  · exact hl
  · exact hl
  · refine exec_goesOn i ⟨by simpa using h.inv, by simpa using h.finite⟩ fun hu => ?_
    simpa [hu] using hl

/-- A stuck command that is cut short frees `RD.lock` (R226 (b), R252 (a)). -/
theorem State.strike_goesOn (s : State) (who : Nat) (why : Interruption) : GoesOn fin (s.strike who why) :=
  State.interrupted_goesOn (fun hu => absurd rfl hu) why

theorem State.answered_goesOn {s : State} (hl : fin → s.rd.lock = .free) (rx tx : List Answer) :
    GoesOn fin (s.answered rx tx) := by
  unfold State.answered
  split
  · exact hl
  · rcases State.feed_cases _ (s.rx.script ++ rx) (s.settle rx tx) with ⟨-, hr⟩ | ⟨_, n, why, rest, -, -, hr⟩ <;>
      rw [hr]
    · exact hl
    · exact State.strike_goesOn _ _ _

theorem step_goesOn {s : State} (h : s.Fit fin) (hl : fin → s.rd.lock = .free) : GoesOn fin (step s) := by
  have hfit : s.lookAhead.Fit fin := ⟨by simpa using h.inv, by simpa using h.finite⟩
  have hlock : fin → s.lookAhead.rd.lock = .free := by simpa using hl
  rcases step_cases s with ⟨who, -, -, hr⟩ | ⟨-, ⟨-, hr⟩ | ⟨e, rest, -, -, hr⟩⟩ <;> rw [hr]
  · exact State.serve_goesOn (s := s.lookAhead.beginTurn) ⟨hfit.inv, hfit.finite⟩ hlock who
  · exact hlock
  · cases e with
    | present who req =>
      rcases (s.lookAhead.beginStep rest).present_cases who req with ⟨-, -, -, hp⟩ | ⟨r, hp⟩ <;> simp only [hp]
      · exact hlock
      · trivial
    | grant who => exact State.serve_goesOn (s := s.lookAhead.beginStep rest) ⟨hfit.inv, hfit.finite⟩ hlock who
    | cancel who =>
      rcases (s.lookAhead.beginStep rest).cancel_cases who with ⟨-, hc⟩ | ⟨-, hc⟩ <;> simp only [hc]
      · exact State.strike_goesOn _ _ _
      · rcases (s.lookAhead.beginStep rest).cancelWaiting_cases who with hw | ⟨t, i, -, -, -, hw⟩ <;> rw [hw] <;>
          exact hlock
    | rxArrive bytes =>
      simp only [State.rxArrive]
      split <;> exact hlock
    | answers rx tx => exact State.answered_goesOn (s := s.lookAhead.beginStep rest) hlock rx tx
    | reset pins => exact State.assertReset_goesOn _ pins

end Safety

/-- Settles O12: every step goes on without a fault, whatever the stream; over a finite one it also leaves
`RD.lock` free. -/
theorem finiteStreamNeverFaults : Obligations.FiniteStreamNeverFaults := by
  unfold Obligations.FiniteStreamNeverFaults
  refine ⟨fun s f hinv hf => ?_, fun s t hinv htail hlock ht => ?_⟩
  · have := step_goesOn (fin := False) ⟨hinv.1, False.elim⟩ False.elim
    rwa [hf] at this
  · have := step_goesOn (fin := True) ⟨hinv.1, fun _ => htail⟩ fun _ => hlock
    rw [ht] at this
    exact this trivial

/-! ## The fields of a response (R12, R15, R21, R24) -/

section Responses

variable {α β : Type} {P : α → Prop}

/-- What the fields of a response to `i` have to do with one another. -/
structure Response.Proper (i : Instr) (r : Response) : Prop where
  fault : r.status ≠ .ok → r = { status := r.status }
  eos : r.eos = true → (i = .rdRead ∨ i = .rdReadByte) ∧ r.dout = [] ∧ r.cnt = 0#32
  count : (∀ st ord, i ≠ decOf ord st) → r.cnt = BitVec.ofNat 32 r.dout.length

theorem Response.data_proper (i : Instr) (d : Bytes) : (Response.data d).Proper i :=
  ⟨fun h => absurd rfl h, nofun, fun _ => rfl⟩

theorem Response.scalar_proper (i : Instr) (v : Scalar) : (Response.scalar v).Proper i :=
  ⟨fun h => absurd rfl h, nofun, fun _ => rfl⟩

theorem Response.done_proper (i : Instr) : Response.done.Proper i :=
  ⟨fun h => absurd rfl h, nofun, fun _ => rfl⟩

theorem Response.fault_proper (i : Instr) (st : Status) : (Response.fault st).Proper i :=
  ⟨fun _ => rfl, nofun, fun _ => rfl⟩

/-- A short read sets EOS only when there is no data (R24, R166). -/
theorem Response.shortRead_proper {i : Instr} (hi : i = .rdRead ∨ i = .rdReadByte) (d : Bytes) :
    (Response.shortRead d).Proper i := by
  refine ⟨fun h => absurd rfl h, fun h => ?_, fun _ => rfl⟩
  obtain rfl : d = [] := List.isEmpty_iff.1 h
  exact ⟨hi, rfl, rfl⟩

/-- DEC answers a scalar and the number of source bytes taken. -/
theorem Response.dec_proper (ord : ByteOrder) (st : Style) (V : Scalar) (c : Count) :
    Response.Proper (decOf ord st) { res := V, cnt := c } :=
  ⟨fun h => absurd rfl h, nofun, fun h => absurd rfl (h st ord)⟩

/-- What a part of a command answers, if it is done, satisfies `P`. -/
def Run.Answers (P : α → Prop) : Run α → Prop
  | .done a _ => P a
  | _ => True

theorem Run.Answers.bind {r : Run β} {k : β → State → Run α} (hk : ∀ b s, (k b s).Answers P) :
    (r.bind k).Answers P := by
  cases r with
  | done b s => exact hk b s
  | _ => trivial

/-- The response that an outcome delivers, if there is one, satisfies `P`. -/
def Delivers (P : Response → Prop) : Host.Outcome State Fault Refusal → Prop
  | .next t => ∀ d, t.rsp = some d → P d.rsp
  | _ => True

theorem State.endCommand_delivers {P : Response → Prop} {r : Response} (h : P r) (s : State) (u : BlockUnit) :
    Delivers P (.next (s.endCommand u r)) := by
  intro d hd
  rw [State.endCommand_rsp, Option.some.injEq] at hd
  rw [← hd]
  exact h

theorem State.interrupted_delivers {P : Response → Prop} (h : ∀ st, P (.fault st)) (s : State) (u : BlockUnit)
    (why : Interruption) : Delivers P (s.interrupted u why) := by
  cases why with
  | cancelled => exact State.endCommand_delivers (h _) _ u
  | ioFail => exact State.endCommand_delivers (h _) _ u
  | reset pins =>
    rcases s.assertReset_cases pins with ⟨cfg, -, hr⟩ | ⟨-, hr⟩ <;> rw [State.interrupted_reset, hr]
    · exact fun d hd => by cases hd
    · trivial

theorem State.hang_delivers {P : Response → Prop} (s : State) (u : BlockUnit) : Delivers P (.next (s.hang u)) := by
  intro d hd
  cases u <;> cases hd

theorem Run.Answers.finish {i : Instr} {u : BlockUnit} {r : Run Response} (h : r.Answers (Response.Proper i)) :
    Delivers (Response.Proper i) (r.finish u) := by
  cases r with
  | done rsp s => exact State.endCommand_delivers h s u
  | raised st s => exact State.endCommand_delivers (Response.fault_proper i st) s u
  | interrupted why s => exact State.interrupted_delivers (Response.fault_proper i) s u why
  | stuck s => exact State.hang_delivers s u
  | stop f => trivial

/-- A chunk of a `WR.WRITE` answers nothing, `done` or a fault (R193). -/
theorem Run.finishChunk_delivers (i : Instr) (r : Run Bool) (u : BlockUnit) :
    Delivers (Response.Proper i) (r.finishChunk u) := by
  cases r with
  | done last s =>
    cases last with
    | true => exact State.endCommand_delivers (Response.done_proper i) s u
    | false =>
      intro d hd
      cases u <;> cases hd
  | raised st s => exact State.endCommand_delivers (Response.fault_proper i st) s u
  | interrupted why s => exact State.interrupted_delivers (Response.fault_proper i) s u why
  | stuck s => exact State.hang_delivers s u
  | stop f => trivial

/-! ### The bodies of the commands -/

variable (i : Instr)

theorem readMsgBody_answers (s : State) : (readMsgBody s).Answers (Response.Proper i) := by
  refine Run.Answers.bind fun _ s => Run.Answers.bind fun m s => ?_
  split
  · exact Response.data_proper i m
  · refine Run.Answers.bind fun p s => ?_
    split
    · exact Response.done_proper i
    · exact Run.Answers.bind fun _ s => Run.Answers.bind fun m s => Response.data_proper i m

theorem readMsgCBody_answers (dstCap : Nat) (s : State) : (readMsgCBody dstCap s).Answers (Response.Proper i) := by
  refine Run.Answers.bind fun _ s => Run.Answers.bind fun m s => ?_
  split
  · exact Response.data_proper i m
  · refine Run.Answers.bind fun L s => ?_
    split
    · trivial
    · refine Run.Answers.bind fun p s => ?_
      split
      · exact Response.done_proper i
      · exact Run.Answers.bind fun _ s => Run.Answers.bind fun m s => Response.data_proper i m

theorem readBody_answers {i : Instr} (hi : i = .rdRead ∨ i = .rdReadByte) (count : Nat) (s : State) :
    (readBody count s).Answers (Response.Proper i) := by
  refine Run.Answers.bind fun _ s => Run.Answers.bind fun d s => ?_
  split
  · exact Response.data_proper i d
  · refine Run.Answers.bind fun p s => ?_
    split
    · exact Response.shortRead_proper hi d
    · exact Run.Answers.bind fun _ s => Run.Answers.bind fun _ s => Response.data_proper i _

theorem peekLenBody_answers (s : State) : (peekLenBody s).Answers (Response.Proper i) := by
  refine Run.Answers.bind fun _ s => Run.Answers.bind fun _ s => ?_
  split <;> exact Response.scalar_proper i _

theorem rdCloseBody_answers (s : State) : (rdCloseBody s).Answers (Response.Proper i) := by
  unfold rdCloseBody
  split
  · exact Response.done_proper i
  · dsimp only
    split
    · exact Response.done_proper i
    · exact Run.Answers.bind fun _ _ => Response.done_proper i

theorem wrCloseBody_answers (s : State) : (wrCloseBody s).Answers (Response.Proper i) := by
  unfold wrCloseBody
  split
  · exact Response.done_proper i
  · dsimp only
    split
    · exact Response.done_proper i
    · exact Run.Answers.bind fun _ _ => Response.done_proper i

/-! ### The commands -/

variable {i}

theorem exec_codec_delivers (hu : Instr.unit i = .codec) (s : State) :
    Delivers (Response.Proper i) (exec i s) := by
  rcases Instr.unit_eq_codec hu with ⟨st, ord, rfl⟩ | ⟨st, ord, rfl⟩ | ⟨st, ord, rfl⟩
  · rw [exec_encOf]
    refine Run.Answers.finish ?_
    rcases encBody_cases st ord s with hb | ⟨pre, hb⟩ <;> rw [hb]
    · trivial
    · exact Response.data_proper _ pre
  · rw [exec_decOf]
    refine Run.Answers.finish ?_
    rcases decBody_cases st ord s with hb | ⟨V, c, hb⟩ <;> rw [hb]
    · trivial
    · exact Response.dec_proper ord st V _
  · rw [exec_maxlen]
    obtain ⟨v, hb⟩ := maxlenBody_eq st s
    exact Run.Answers.finish (by rw [hb]; exact Response.scalar_proper _ v)

theorem exec_reader_delivers (hu : Instr.unit i = .reader) (s : State) :
    Delivers (Response.Proper i) (exec i s) := by
  cases i with
  | rbFillRaw =>
    exact Run.Answers.finish (.bind fun _ _ => .bind fun _ _ => Response.done_proper _)
  | rbFillMsg =>
    exact Run.Answers.finish (.bind fun _ _ => .bind fun _ _ => Response.done_proper _)
  | rbDrain =>
    exact Run.Answers.finish (.bind fun _ _ => .bind fun d _ => Response.data_proper _ d)
  | rbDrainMsg =>
    exact Run.Answers.finish (.bind fun _ _ => .bind fun d _ => Response.data_proper _ d)
  | rbLen => exact Run.Answers.finish (.bind fun _ _ => Response.scalar_proper _ _)
  | rdReadMsg => exact (readMsgBody_answers _ s).finish
  | rdReadMsgC => exact (readMsgCBody_answers _ _ s).finish
  | rdRead => exact (readBody_answers (.inl rfl) _ s).finish
  | rdReadByte => exact (readBody_answers (.inr rfl) _ s).finish
  | rdPeekLen => exact (peekLenBody_answers _ s).finish
  | rdClose => exact (rdCloseBody_answers _ s).finish
  | _ => cases hu

theorem exec_writer_delivers (hu : Instr.unit i = .writer) (s : State) :
    Delivers (Response.Proper i) (exec i s) := by
  cases i with
  | wrWriteMsg =>
    exact Run.Answers.finish (.bind fun _ _ => .bind fun _ _ => Response.done_proper _)
  | wrWrite => exact (writeBody s).finishChunk_delivers _ _
  | wrWriteByte =>
    exact Run.Answers.finish (.bind fun _ _ => .bind fun _ _ => Response.done_proper _)
  | wrFlush =>
    exact Run.Answers.finish (.bind fun _ _ => .bind fun _ _ => Response.done_proper _)
  | wrClose => exact (wrCloseBody_answers _ s).finish
  | _ => cases hu

end Responses

/-- Settles O16: every response a command delivers is proper, unit by unit. -/
theorem responseFieldsAreDefaultOrWritten : Obligations.ResponseFieldsAreDefaultOrWritten := by
  unfold Obligations.ResponseFieldsAreDefaultOrWritten
  intro i s t d ht hd
  have h : Delivers (Response.Proper i) (exec i s) := by
    cases hu : Instr.unit i with
    | codec => exact exec_codec_delivers hu s
    | reader => exact exec_reader_delivers hu s
    | writer => exact exec_writer_delivers hu s
  rw [ht] at h
  obtain ⟨hfault, heos, hcount⟩ := h d hd
  exact ⟨hfault, heos, hcount⟩

/-! ## Closing (R65, R169, R196, R221) -/

/-- What `RxClose` does to an open or a closed port. -/
theorem RxPort.close_eq (p : RxPort) :
    p.close = { p with closed := true, closes := if p.closed then p.closes else p.closes + 1 } := by
  rcases p with ⟨stream, tail, eof, _ | _, closes, script⟩ <;> rfl

/-- What `TxClose` does to an open or a closed port. -/
theorem TxPort.close_eq (p : TxPort) :
    p.close = { p with closed := true, closes := if p.closed then p.closes else p.closes + 1 } := by
  rcases p with ⟨stream, flushes, _ | _, closes, script⟩ <;> rfl

/-- A close that the receive transport does not fail, a cancel or no cancel (R226 (c)). -/
theorem rxClose_done {s : State}
    (h : s.rxCalm = true ∨ ∃ n sc, s.rx.script = .interrupt n .cancelled :: sc) :
    rxClose s = .done .unit { s with rx := RxPort.close { s.rx with script := s.rx.script.tail } } := by
  rcases h with hc | ⟨n, sc, hs⟩
  · exact rxClose_calm hc
  · simp [rxClose, hs]

/-- A close that the transmit transport does not fail, a cancel or no cancel (R226 (c)). -/
theorem txClose_done {s : State}
    (h : s.txCalm = true ∨ ∃ n sc, s.tx.script = .interrupt n .cancelled :: sc) :
    txClose s = .done .unit { s with tx := TxPort.close { s.tx with script := s.tx.script.tail } } := by
  rcases h with hc | ⟨n, sc, hs⟩
  · exact txControl_calm hc _
  · simp [txClose, txControl, hs]

/-- `RD.CLOSE` of a closed reader does nothing. -/
theorem exec_rdClose_closed {s : State} (h : s.rd.closed = true) :
    exec .rdClose s = .next (s.endCommand .reader {}) := by
  change (rdCloseBody s).finish .reader = _
  rw [rdCloseBody, if_pos h]
  rfl

/-- `RD.CLOSE` under LEAVE_OPEN sets the closed bit only. -/
theorem exec_rdClose_leaveOpen {s : State} (h : s.rd.closed = false) (hl : s.cfg.rd.leaveOpen = true) :
    exec .rdClose s = .next (State.endCommand { s with rd := { s.rd with closed := true } } .reader {}) := by
  change (rdCloseBody s).finish .reader = _
  simp only [rdCloseBody, h, hl, Bool.false_eq_true, if_false, if_true]
  rfl

/-- The first `RD.CLOSE` without LEAVE_OPEN closes the transport behind the closed bit. -/
theorem exec_rdClose_closes {s : State} (h : s.rd.closed = false) (hl : s.cfg.rd.leaveOpen = false) :
    exec .rdClose s = ((rxClose { s with rd := { s.rd with closed := true } }).bind
      fun _ s => .done .done s).finish .reader := by
  change (rdCloseBody s).finish .reader = _
  simp only [rdCloseBody, h, hl, Bool.false_eq_true, if_false]

/-- `WR.CLOSE` of a closed writer does nothing. -/
theorem exec_wrClose_closed {s : State} (h : s.wr.closed = true) :
    exec .wrClose s = .next (s.endCommand .writer {}) := by
  change (wrCloseBody s).finish .writer = _
  rw [wrCloseBody, if_pos h]
  rfl

/-- `WR.CLOSE` under LEAVE_OPEN sets the closed bit only. -/
theorem exec_wrClose_leaveOpen {s : State} (h : s.wr.closed = false) (hl : s.cfg.wr.leaveOpen = true) :
    exec .wrClose s = .next (State.endCommand { s with wr := { s.wr with closed := true } } .writer {}) := by
  change (wrCloseBody s).finish .writer = _
  simp only [wrCloseBody, h, hl, Bool.false_eq_true, if_false, if_true]
  rfl

/-- The first `WR.CLOSE` without LEAVE_OPEN closes the transport behind the closed bit. -/
theorem exec_wrClose_closes {s : State} (h : s.wr.closed = false) (hl : s.cfg.wr.leaveOpen = false) :
    exec .wrClose s = ((txClose { s with wr := { s.wr with closed := true } }).bind
      fun _ s => .done .done s).finish .writer := by
  change (wrCloseBody s).finish .writer = _
  simp only [wrCloseBody, h, hl, Bool.false_eq_true, if_false]

/-- Settles O46, unit by unit: the closes that succeed, then those that the transport fails. -/
theorem closeClosesOnce : Obligations.CloseClosesOnce := by
  unfold Obligations.CloseClosesOnce
  refine ⟨fun s hrx => ⟨exec_rdClose_closed, exec_rdClose_leaveOpen, fun h hl => ?_⟩,
    fun s htx => ⟨exec_wrClose_closed, exec_wrClose_leaveOpen, fun h hl => ?_⟩,
    fun s n sc h hl hs => ?_, fun s n sc h hl hs => ?_⟩
  · rw [exec_rdClose_closes h hl, rxClose_done (s := { s with rd := { s.rd with closed := true } }) hrx,
      RxPort.close_eq]
    rfl
  · rw [exec_wrClose_closes h hl, txClose_done (s := { s with wr := { s.wr with closed := true } }) htx,
      TxPort.close_eq]
    rfl
  · have hfail : rxClose { s with rd := { s.rd with closed := true } } = .interrupted .ioFail
        { s with
            rd := { s.rd with closed := true },
            rx := if n = 0 then { s.rx with script := sc } else RxPort.close { s.rx with script := sc } } := by
      simp [rxClose, hs]
    rw [exec_rdClose_closes h hl, hfail, RxPort.close_eq]
    exact ⟨_, rfl, rfl, rfl, rfl, cancelledBuffer_inv _ _, rfl⟩
  · have hfail : txClose { s with wr := { s.wr with closed := true } } = .interrupted .ioFail
        { s with
            wr := { s.wr with closed := true },
            tx := if n = 0 then { s.tx with script := sc } else TxPort.close { s.tx with script := sc } } := by
      simp [txClose, txControl, hs]
    rw [exec_wrClose_closes h hl, hfail, TxPort.close_eq]
    rfl

/-! ## Presenting a command (R7, R23, R70, R251) -/

theorem State.stuck_eq_some {s : State} {who : Nat} : s.stuck = some who ↔ s.rd.lock = .held who := by
  unfold State.stuck
  split <;> simp [*]

/-- A requester is busy while its last command waits or is stuck (R23). -/
theorem State.busy_iff {s : State} {who : Nat} :
    s.busy who = true ↔ (∃ t ∈ s.waiting, t.who = who) ∨ s.rd.lock = .held who := by
  simp only [State.busy, State.pending, Bool.or_eq_true, decide_eq_true_eq, State.stuck_eq_some,
    List.find?_isSome, beq_iff_eq]

theorem State.not_busy {s : State} {who : Nat} (hw : ∀ t ∈ s.waiting, t.who ≠ who) (hl : s.rd.lock ≠ .held who) :
    s.busy who = false := by
  rw [← Bool.not_eq_true, State.busy_iff]
  rintro (⟨t, ht, he⟩ | he)
  · exact hw t ht he
  · exact hl he

theorem State.present_stranger (s : State) {who : Nat} (h : ¬ who < s.NREQ) (q : Request) :
    s.present who q = .refused .noSuchRequester := by
  rw [State.present, if_pos h]

theorem State.present_busy (s : State) {who : Nat} (h : who < s.NREQ) (hb : s.busy who = true) (q : Request) :
    s.present who q = .refused .requesterBusy := by
  rw [State.present, if_neg (not_not.2 h), if_pos hb]

theorem State.present_tooLong (s : State) {who : Nat} {q : Request} (h : who < s.NREQ) (hb : s.busy who = false)
    (hq : PAYLOAD_MAX < q.din.length) : s.present who q = .refused .payloadTooLong := by
  have hq' : (!q.wellFormed) = true := by simpa [Request.wellFormed] using hq
  rw [State.present, if_neg (not_not.2 h), if_neg (by simp [hb]), if_pos hq']

theorem State.present_joins (s : State) {who : Nat} {q : Request} (h : who < s.NREQ) (hb : s.busy who = false)
    (hq : q.din.length ≤ PAYLOAD_MAX) :
    s.present who q = .next { s with waiting := s.waiting ++ [⟨who, q, 0⟩] } := by
  have hq' : ¬ (!q.wellFormed) = true := by simpa [Request.wellFormed] using hq
  rw [State.present, if_neg (not_not.2 h), if_neg (by simp [hb]), if_neg hq']

/-- An agenda that goes round brings up its moves again (log 27). -/
theorem State.lookAhead_cycle {s : State} {e : Event} {r : List Event} (h : s.schedule = [])
    (ha : s.agenda = .cycle e r) : s.lookAhead = { s with schedule := e :: r } := by
  simp only [State.lookAhead_nil h, ha, Agenda.unroll]

theorem step_of_due_none {s : State} (h : s.lookAhead.due = none) : step s = s.lookAhead.move := by
  simp only [step, h]

/-- With no command to be served, a presentation that is next is what the step does. -/
theorem step_present {s : State} {who : Nat} {q : Request} {rest : List Event}
    (h : s.schedule = .present who q :: rest) (hd : s.due = none) :
    step s = (s.beginStep rest).present who q := by
  have hl := State.lookAhead_cons h
  rw [step_of_due_none (by rw [hl, hd]), hl, State.move, h]

/-- The clause of R23: the command joins the waiting ones. -/
theorem step_present_joins {s : State} {who : Nat} {q : Request} {rest : List Event}
    (h : s.schedule = .present who q :: rest) (hd : s.due = none) (hr : who < s.NREQ)
    (hw : ∀ t ∈ s.waiting, t.who ≠ who) (hl : s.rd.lock ≠ .held who) (hq : q.din.length ≤ PAYLOAD_MAX) :
    step s = .next { s with schedule := rest, rsp := none, waiting := s.waiting ++ [⟨who, q, 0⟩] } := by
  rw [step_present h hd, (s.beginStep rest).present_joins hr (State.not_busy hw hl) hq]
  rfl

/-! ### A command that waits for ever (R251) -/

theorem decode_rbLen : decode 0x0024#16 = .command .rbLen := by decide

/-- RB.LEN always ends, and nothing but the response is written. -/
theorem exec_rbLen (s : State) : ∃ r, exec .rbLen s = .next (s.endCommand .reader r) := by
  change ∃ r, ((readerChecks s).bind _).finish .reader = _
  rcases readerChecks_cases s with hc | ⟨st, hc⟩ <;> rw [hc] <;> exact ⟨_, rfl⟩

/-- Two steps that lead back, taken again and again. -/
theorem run_roundTrip {s u : State} (h : step s = .next u) (h' : step u = .next s) (n : Nat) :
    Host.Core.run core (2 * n) s = .next s := by
  have hs : core.step s = .next u := h
  have hu : core.step u = .next s := h'
  induction n with
  | zero => rfl
  | succ n ih => simpa only [Nat.mul_succ, Host.Core.run, hs, hu] using ih

/-- Half way round. -/
theorem run_roundTrip_half {s u : State} (h : step s = .next u) (h' : step u = .next s) (n : Nat) :
    Host.Core.run core (2 * n + 1) s = .next u := by
  have hs : core.step s = .next u := h
  simpa only [Host.Core.run, hs] using run_roundTrip h' h n

/-- A state in which requester 0's reader command `t` waits beside requester 1's RB.LEN `q`, which is about to
be granted and presented again, for ever. -/
structure State.PassedOver (s : State) (t : Transaction) (q : Request) : Prop where
  inv : s.Inv
  lock : s.rd.lock = .free
  schedule : s.schedule = []
  agenda : s.agenda = .cycle (.grant 1) [.present 1 q]
  request : q = ⟨0x0024#16, 0#64, []⟩
  who : t.who = 0
  unit : wordUnit t.req.cmd = some .reader
  waiting : s.waiting = [t, ⟨1, q, 0⟩]
  rsp : s.rsp = none

/-- `s` after requester 1's RB.LEN was served with response `r`. -/
def State.servedOther (s : State) (t : Transaction) (q : Request) (r : Response) : State :=
  { s with schedule := [.present 1 q], waiting := [t], rsp := some ⟨1, r⟩ }

/-- The grant serves requester 1. -/
theorem State.PassedOver.step_serves {s : State} {t : Transaction} {q : Request} (h : s.PassedOver t q) :
    ∃ r, step s = .next (s.servedOther t q r) := by
  have hahead := State.lookAhead_cycle h.schedule h.agenda
  have hpending : s.pending 1 = some ⟨1, q, 0⟩ := by simp [State.pending, h.waiting, h.who]
  have hsel : s.select 1 = .run .rbLen ⟨1, q, 0⟩ := by
    simp [State.select, hpending, h.request, decode_rbLen, State.lockOf, Instr.unit, h.lock]
  have hdue : s.lookAhead.due = none := by
    refine State.due_grant (who := 1) (rest := [.present 1 q]) (by rw [hahead]) ?_
    simp [State.servable, hsel]
  obtain ⟨r, hr⟩ := exec_rbLen ((s.lookAhead.beginStep [.present 1 q]).granted .reader ⟨1, q, 0⟩)
  have hserve : (s.lookAhead.beginStep [.present 1 q]).serve 1 =
      .next (((s.lookAhead.beginStep [.present 1 q]).granted .reader ⟨1, q, 0⟩).endCommand .reader r) := by
    simp only [State.serve, State.select_beginStep, State.select_lookAhead, hsel]
    exact hr
  have hrd : { s.rd with lock := .free } = s.rd := by rw [← h.lock]
  have hwithout : s.without 1 = [t] := by simp [State.without, h.waiting, h.who]
  obtain ⟨-, -, htxn, -⟩ := h.inv
  refine ⟨r, ?_⟩
  calc step s = s.lookAhead.move := step_of_due_none hdue
    _ = (s.lookAhead.beginStep [.present 1 q]).serve 1 := by simp only [State.move, hahead]
    _ = .next { s with
          schedule := [.present 1 q], waiting := s.without 1, rsp := some ⟨1, r⟩,
          rd := { s.rd with lock := .free }, txn := .idle } := by rw [hserve, hahead]; rfl
    _ = .next (s.servedOther t q r) := by rw [hrd, hwithout, ← htxn]; rfl

/-- Requester 1 presents again before `t` can be served, and everything is as it was. -/
theorem State.PassedOver.step_returns {s : State} {t : Transaction} {q : Request} (h : s.PassedOver t q)
    (r : Response) : step (s.servedOther t q r) = .next s := by
  have hunit : wordUnit q.cmd = some .reader := by simp [h.request, wordUnit, decode_rbLen, Instr.unit]
  have hcontests : Event.contests (.present 1 q) t = true := by simp [Event.contests, h.unit, h.who, hunit]
  have hdue : (s.servedOther t q r).due = none := by
    simp [State.due, State.servedOther, hcontests]
  have hwho : 1 < s.NREQ := by
    obtain ⟨-, -, -, -, -, hdomain, -⟩ := h.inv
    exact (hdomain ⟨1, q, 0⟩ (by simp [h.waiting])).1
  rw [step_present_joins (rest := []) rfl hdue hwho (by simp [State.servedOther, h.who])
    (by simp [State.servedOther, h.lock]) (by simp [h.request])]
  simp only [State.servedOther, List.singleton_append]
  rw [← h.schedule, ← h.rsp, ← h.waiting]

/-- Settles O7: the four cases of a presentation, and the run in which requester 0 is passed over for ever. -/
theorem presentedCommandWaits : Obligations.PresentedCommandWaits := by
  unfold Obligations.PresentedCommandWaits
  refine ⟨fun s r q rest hs hd => ⟨?_, ?_, ?_, ?_⟩, ?_⟩
  · rintro ⟨hr, hw, hl, hq⟩
    exact step_present_joins hs hd hr hw hl hq
  · intro hr
    rw [step_present hs hd, (s.beginStep rest).present_stranger hr]
  · rintro ⟨hr, hb⟩
    rw [step_present hs hd, (s.beginStep rest).present_busy hr (State.busy_iff.2 hb)]
  · rintro ⟨hr, hw, hl, hq⟩
    rw [step_present hs hd, (s.beginStep rest).present_tooLong hr (State.not_busy hw hl) hq]
  · intro s t i q n hinv hlock hsched hagenda hq hwho hdec hunit hwait hrsp
    have h : s.PassedOver t q :=
      ⟨hinv, hlock, hsched, hagenda, hq, hwho, by simp [wordUnit, hdec, hunit], hwait, hrsp⟩
    obtain ⟨r, hstep⟩ := h.step_serves
    have hback := h.step_returns r
    exact ⟨run_roundTrip hstep hback n, _, run_roundTrip_half hstep hback n, List.mem_singleton.2 rfl, r, rfl⟩

/-! ## Raising a fault (R15, R223) -/

/-- Settles O19: `raise` is the record update the rule describes, for each unit. -/
theorem raiseDeliversStatusAndFreesLock : Obligations.RaiseDeliversStatusAndFreesLock := by
  unfold Obligations.RaiseDeliversStatusAndFreesLock
  exact fun s st => ⟨rfl, rfl, rfl⟩

end Sys2Proof.Machine
end

section
/-! PROOFS. The family of spec/10_state.md: the invariant, reset, what the units leave alone, the sticky bits,
and the reads of whole frames. -/

namespace Sys2Proof.Machine

/-! ## How a command can end

A body of a command comes out as a `Run`; `Run.Leaves` says what its state satisfies and what can have cut it
short, and `Ended` what the machine's next state can then be. -/

section Ends

variable {α β : Type} {u : BlockUnit} {I : Interruption → Prop} {P Q : State → Prop}

/-- Some answer written down cuts its call short in this way. -/
def Struck (script : List Answer) (why : Interruption) : Prop := ∃ n, Answer.interrupt n why ∈ script

theorem Struck.mono {l l' : List Answer} {why : Interruption} (h : Struck l why) (hl : l <:+ l') : Struck l' why := by
  obtain ⟨n, hn⟩ := h
  exact ⟨n, hl.subset hn⟩

theorem not_struck_reset {l : List Answer} (h : l.all Answer.notReset = true) (pins : StrapPins) :
    ¬ Struck l (.reset pins) := by
  rintro ⟨n, hn⟩
  simpa [Answer.notReset] using List.all_eq_true.1 h _ hn

/-- A part of a command of unit `u` leaves `P`, is cut short only as `I` says, and is stuck only if `u` is the
reader (R252 (a)). -/
def Run.Leaves (u : BlockUnit) (I : Interruption → Prop) (P : State → Prop) : Run α → Prop
  | .done _ s => P s
  | .raised _ s => P s
  | .interrupted why s => I why ∧ P s
  | .stuck s => u = .reader ∧ P s
  | .stop _ => True

theorem Run.Leaves.bind {r : Run α} {k : α → State → Run β} (h : r.Leaves u I P)
    (hk : ∀ a s, P s → (k a s).Leaves u I P) : (r.bind k).Leaves u I P := by
  cases r with
  | done a s => exact hk a s h
  | raised st s => exact h
  | interrupted why s => exact h
  | stuck s => exact h
  | stop f => trivial

theorem Run.Leaves.imp {J : Interruption → Prop} {r : Run α} (h : r.Leaves u I P) (hIJ : ∀ why, I why → J why)
    (hPQ : ∀ s, P s → Q s) : r.Leaves u J Q := by
  cases r with
  | done a s => exact hPQ s h
  | raised st s => exact hPQ s h
  | interrupted why s => exact ⟨hIJ why h.1, hPQ s h.2⟩
  | stuck s => exact ⟨h.1, hPQ s h.2⟩
  | stop f => trivial

/-- The next state of the machine after a command of unit `u` whose body left a state with `P`. -/
inductive Ended (u : BlockUnit) (I : Interruption → Prop) (P : State → Prop) : State → Prop
  /-- With a response, a fault or none (R15). -/
  | answered {s : State} (h : P s) (r : Response) : Ended u I P (s.endCommand u r)
  /-- Cut short by a cancel or a failure (R221, R226 (b)). -/
  | poisoned {s : State} (h : P s) (st : Status) : Ended u I P ((s.poison u).raise u st)
  /-- A `WR.WRITE` with chunks to come (R193). -/
  | requeued {s : State} (h : P s) (hu : u = .writer) : Ended u I P (s.requeue u)
  /-- Never: the length it decodes has no end (R252 (a)). -/
  | stuck {s : State} (h : P s) (hu : u = .reader) : Ended u I P (s.hang u)
  /-- Reset struck inside a transport call (R242). -/
  | reset {s : State} (h : P s) {pins : StrapPins} (hI : I (.reset pins)) (cfg : Straps) :
    Ended u I P (s.afterReset cfg)

theorem State.interrupted_ended {s t : State} {why : Interruption} (h : s.interrupted u why = .next t) (hI : I why)
    (hP : P s) : Ended u I P t := by
  cases why with
  | cancelled => cases h; exact .poisoned hP _
  | ioFail => cases h; exact .poisoned hP _
  | reset pins =>
    rcases s.assertReset_cases pins with ⟨cfg, -, hr⟩ | ⟨-, hr⟩ <;> rw [State.interrupted_reset, hr] at h <;> cases h
    exact .reset hP hI cfg

theorem Run.Leaves.finish {r : Run Response} {t : State} (h : r.Leaves u I P) (ht : r.finish u = .next t) :
    Ended u I P t := by
  cases r with
  | done rsp s => cases ht; exact .answered h rsp
  | raised st s => cases ht; exact .answered h _
  | interrupted why s => exact State.interrupted_ended ht h.1 h.2
  | stuck s => cases ht; exact .stuck h.2 h.1
  | stop f => cases ht

theorem Run.Leaves.finishChunk {r : Run Bool} {t : State} (h : r.Leaves .writer I P)
    (ht : r.finishChunk .writer = .next t) : Ended .writer I P t := by
  cases r with
  | done last s =>
    cases last <;> cases ht
    · exact .requeued h rfl
    · exact .answered h _
  | raised st s => cases ht; exact .answered h _
  | interrupted why s => exact State.interrupted_ended ht h.1 h.2
  | stuck s => cases h.1
  | stop f => cases ht

end Ends

/-! ## What the body of a command keeps -/

/-- No configuration register and no closed or poisoned bit is lost (R30, R32, R33). -/
def KeepsSticky (s t : State) : Prop :=
  t.cfg = s.cfg ∧
    (s.rd.closed = true → t.rd.closed = true) ∧ (s.rd.poisoned = true → t.rd.poisoned = true) ∧
    (s.wr.closed = true → t.wr.closed = true) ∧ (s.wr.poisoned = true → t.wr.poisoned = true)

theorem KeepsSticky.refl (s : State) : KeepsSticky s s := ⟨rfl, id, id, id, id⟩

theorem KeepsSticky.trans {s t v : State} (h : KeepsSticky s t) (h' : KeepsSticky t v) : KeepsSticky s v := by
  obtain ⟨hcfg, h1, h2, h3, h4⟩ := h
  obtain ⟨hcfg', h1', h2', h3', h4'⟩ := h'
  exact ⟨hcfg'.trans hcfg, h1' ∘ h1, h2' ∘ h2, h3' ∘ h3, h4' ∘ h4⟩

/-- Each transport has been closed as often as its flag says, at most once (R65). -/
def State.ClosedOnce (s : State) : Prop := s.rx.closes = s.rx.closed.toNat ∧ s.tx.closes = s.tx.closed.toNat

theorem RxPort.close_closes {p : RxPort} (h : p.closes = p.closed.toNat) : p.close.closes = p.close.closed.toNat := by
  rcases p with ⟨stream, tail, eof, _ | _, closes, script⟩ <;> simp_all [RxPort.close]

theorem TxPort.close_closes {p : TxPort} (h : p.closes = p.closed.toNat) : p.close.closes = p.close.closed.toNat := by
  rcases p with ⟨stream, flushes, _ | _, closes, script⟩ <;> simp_all [TxPort.close]

/-- `t` is `s` but for what a body of unit `u` writes (R35, R71, R110). -/
def FramedBy (u : BlockUnit) (s t : State) : Prop :=
  match u with
  | .codec => t = s
  | .reader => t = { s with rb := t.rb, rd := t.rd, rx := t.rx }
  | .writer => t = { s with wr := t.wr, tx := t.tx }

/-- What the body of a command of unit `u` that began in `s` has left in `t`. -/
structure Part (u : BlockUnit) (s t : State) : Prop where
  frame : FramedBy u s t
  sticky : KeepsSticky s t
  locks : t.rd.lock = s.rd.lock ∧ t.wr.lock = s.wr.lock
  buffer : s.rb.inv s.cfg.CAP = true → t.rb.inv t.cfg.CAP = true
  closes : s.ClosedOnce → t.ClosedOnce

theorem Part.refl (u : BlockUnit) (s : State) : Part u s s :=
  ⟨by cases u <;> rfl, .refl s, ⟨rfl, rfl⟩, id, id⟩

/-- What no body of any unit writes. -/
theorem FramedBy.rest {u : BlockUnit} {s t : State} (h : FramedBy u s t) :
    t.extraRequesters = s.extraRequesters ∧ t.waiting = s.waiting ∧ t.txn = s.txn := by
  cases u <;> (rw [FramedBy] at h; rw [h]; exact ⟨rfl, rfl, rfl⟩)

/-! ## The reads

A part of a read takes bytes off the receive stream and writes the buffer and `RD.next`. -/

section Reads

variable {α β : Type}

/-- `s` with this buffer and length, `k` bytes of the receive stream gone. -/
def State.readTo (s : State) (b : RBuf) (next : Option Scalar) (k : Nat) (eof : Bool) (sc : List Answer) : State :=
  { s with rb := b, rd := { s.rd with next := next }, rx := { s.rx.drop k with eof := eof, script := sc } }

/-- What a part of a read that began in `s` has left. -/
inductive ReadPart (s : State) : State → Prop
  | mk (b : RBuf) (next : Option Scalar) (k : Nat) (eof : Bool) (sc : List Answer) (script : sc <:+ s.rx.script)
    (buffer : s.rb.inv s.cfg.CAP = true → b.inv s.cfg.CAP = true) : ReadPart s (s.readTo b next k eof sc)

theorem ReadPart.refl (s : State) : ReadPart s s := .mk s.rb s.rd.next 0 s.rx.eof s.rx.script (List.suffix_refl _) id

theorem ReadPart.withRb {s : State} {b : RBuf} (h : s.rb.inv s.cfg.CAP = true → b.inv s.cfg.CAP = true) :
    ReadPart s { s with rb := b } := .mk b s.rd.next 0 s.rx.eof s.rx.script (List.suffix_refl _) h

theorem ReadPart.withNext (s : State) (next : Option Scalar) : ReadPart s { s with rd := { s.rd with next := next } } :=
  .mk s.rb next 0 s.rx.eof s.rx.script (List.suffix_refl _) id

theorem ReadPart.rxAt {s : State} {sc : List Answer} (k : Nat) (eof : Bool) (h : sc <:+ s.rx.script) :
    ReadPart s (s.rxAt (s.rx.drop k) eof sc) := .mk s.rb s.rd.next k eof sc h id

theorem State.readTo_readTo (s : State) (b b' : RBuf) (n n' : Option Scalar) (k k' : Nat) (e e' : Bool)
    (sc sc' : List Answer) : (s.readTo b n k e sc).readTo b' n' k' e' sc' = s.readTo b' n' (k + k') e' sc' := by
  simp only [State.readTo, RxPort.drop_at, RxPort.drop_add]

theorem ReadPart.trans {s t v : State} (h : ReadPart s t) (h' : ReadPart t v) : ReadPart s v := by
  obtain ⟨b, n, k, e, sc, hs, hb⟩ := h
  obtain ⟨b', n', k', e', sc', hs', hb'⟩ := h'
  rw [State.readTo_readTo]
  exact .mk b' n' (k + k') e' sc' (hs'.trans hs) (hb' ∘ hb)

theorem ReadPart.script {s t : State} (h : ReadPart s t) : t.rx.script <:+ s.rx.script := by
  obtain ⟨b, n, k, e, sc, hs, hb⟩ := h
  exact hs

theorem ReadPart.part {s t : State} (h : ReadPart s t) : Part .reader s t := by
  obtain ⟨b, n, k, e, sc, hs, hb⟩ := h
  obtain ⟨-, hclosed, hcloses, -⟩ := s.rx.drop_fields k
  refine ⟨rfl, .refl s, ⟨rfl, rfl⟩, hb, fun hc => ⟨?_, hc.2⟩⟩
  change (s.rx.drop k).closes = (s.rx.drop k).closed.toNat
  rw [hcloses, hclosed, hc.1]

/-- What a run of a part of a read that began in `s` comes to. -/
def Run.ReadsFrom (s : State) (r : Run α) : Prop := r.Leaves .reader (Struck s.rx.script) (ReadPart s)

theorem Run.ReadsFrom.after {s t : State} {r : Run α} (h : r.ReadsFrom t) (hst : ReadPart s t) : r.ReadsFrom s :=
  h.imp (fun _ hw => hw.mono hst.script) fun _ => hst.trans

theorem Run.ReadsFrom.bind {s : State} {r : Run α} {k : α → State → Run β} (h : r.ReadsFrom s)
    (hk : ∀ a t, (k a t).ReadsFrom t) : (r.bind k).ReadsFrom s :=
  Run.Leaves.bind h fun a t ht => (hk a t).after ht

/-! ### A strike inside a receive call

Two runs from the same state are compared: in one the answers after `moves` are a strike and then `rest`, in
the other a single move. They go the same way until the call that is struck. -/

/-- A strike in a receive call after `n` bytes, the answers behind it, and how many bytes the call moves when
it is not struck. -/
structure Strike where
  n : Nat
  why : Interruption
  rest : List Answer
  m : Nat

/-- The answers with the strike. -/
def Strike.cut (x : Strike) : List Answer := .interrupt x.n x.why :: x.rest

/-- The answers without it. -/
def Strike.calm (x : Strike) : List Answer := [.move x.m]

/-- A run that nothing strikes and that is past the last answer written down has taken bytes from `p` on. -/
def Run.Beyond (p : RxPort) : Run α → Prop
  | .done _ s => ∃ j eof, s.rx = { p.drop j with eof := eof, script := [] }
  | .raised _ s => ∃ j eof, s.rx = { p.drop j with eof := eof, script := [] }
  | .interrupted _ _ => False
  | .stuck _ => True
  | .stop _ => True

/-- A part of a read that begins past the last answer stays past it. -/
theorem Run.ReadsFrom.beyond {p : RxPort} {s : State} {r : Run α} (h : r.ReadsFrom s)
    (hs : ∃ j eof, s.rx = { p.drop j with eof := eof, script := [] }) : r.Beyond p := by
  obtain ⟨j, eof, hs⟩ := hs
  have key : ∀ t, ReadPart s t → ∃ j eof, t.rx = { p.drop j with eof := eof, script := [] } := by
    rintro _ ⟨b, n, k, e, sc, hsc, -⟩
    obtain rfl : sc = [] := List.suffix_nil.1 (by simpa [hs] using hsc)
    exact ⟨j + k, e, by simp only [State.readTo, hs, RxPort.drop_at, RxPort.drop_add]⟩
  cases r with
  | done a t => exact key t h
  | raised st t => exact key t h
  | interrupted why t =>
    obtain ⟨⟨n, hn⟩, -⟩ := h
    simp [hs] at hn
  | stuck t => trivial
  | stop f => trivial

theorem Run.Beyond.bind {p : RxPort} {r : Run α} {k : α → State → Run β} (h : r.Beyond p)
    (hk : ∀ a t, (k a t).ReadsFrom t) : (r.bind k).Beyond p := by
  cases r with
  | done a s => exact (hk a s).beyond h
  | raised st s => exact h
  | interrupted why s => exact h
  | stuck s => trivial
  | stop f => trivial

/-- The two runs side by side, from the port `p`: not yet struck they are the same but for the answers left,
`moves` among them; struck, the one ends where the other goes on. -/
inductive Run.Twin (x : Strike) (p : RxPort) : Run α → Run α → Prop
  | done (a : α) (s : State) (k : Nat) (eof : Bool) {moves : List Answer} (h : moves.all Answer.isMove = true) :
    Twin x p (.done a (s.rxAt (p.drop k) eof (moves ++ x.cut))) (.done a (s.rxAt (p.drop k) eof (moves ++ x.calm)))
  | raised (st : Status) (s : State) (k : Nat) (eof : Bool) {moves : List Answer} :
    Twin x p (.raised st (s.rxAt (p.drop k) eof (moves ++ x.cut)))
      (.raised st (s.rxAt (p.drop k) eof (moves ++ x.calm)))
  | stop (f : Fault) : Twin x p (.stop f) (.stop f)
  | struck (s : State) (k : Nat) (eof : Bool) {r : Run α} (h : r.Beyond (p.drop k)) :
    Twin x p (.interrupted x.why (s.rxAt (p.drop k) eof x.rest)) r

theorem Run.Twin.drop {x : Strike} {p : RxPort} {k : Nat} {r r' : Run α} (h : r.Twin x (p.drop k) r') :
    r.Twin x p r' := by
  cases h with
  | done a s k' eof hm => rw [← RxPort.drop_add]; exact .done a s _ eof hm
  | raised st s k' eof => rw [← RxPort.drop_add]; exact .raised st s _ eof
  | stop f => exact .stop f
  | struck s k' eof hb => rw [← RxPort.drop_add] at hb ⊢; exact .struck s _ eof hb

theorem Run.Beyond.stuckAt {p : RxPort} {r : Run α} (h : r.Beyond p) (home : State) : (r.stuckAt home).Beyond p := by
  cases r <;> exact h

theorem Run.Twin.stuckAt {x : Strike} {p : RxPort} {r r' : Run α} (h : r.Twin x p r') (home home' : State) :
    (r.stuckAt home).Twin x p (r'.stuckAt home') := by
  cases h with
  | done a s k eof hm => exact .done a s k eof hm
  | raised st s k eof => exact .raised st s k eof
  | stop f => exact .stop f
  | struck s k eof hb => exact .struck s k eof (hb.stuckAt home')

/-- A part of a read: what it leaves, and that two of its runs go side by side up to a strike. -/
structure Reads (f : State → Run α) : Prop where
  leaves : ∀ s, (f s).ReadsFrom s
  twin : ∀ (x : Strike) (s : State) (p : RxPort) (eof : Bool) {moves : List Answer},
    moves.all Answer.isMove = true →
      (f (s.rxAt p eof (moves ++ x.cut))).Twin x p (f (s.rxAt p eof (moves ++ x.calm)))

theorem Run.Twin.bind {x : Strike} {p : RxPort} {r r' : Run α} {k : α → State → Run β} (h : r.Twin x p r')
    (hk : ∀ a, Reads (k a)) : (r.bind k).Twin x p (r'.bind k) := by
  cases h with
  | done a s j eof hm => exact ((hk a).twin x s (p.drop j) eof hm).drop
  | raised st s j eof => exact .raised st s j eof
  | stop f => exact .stop f
  | struck s j eof hb => exact .struck s j eof (hb.bind fun a => (hk a).leaves)

theorem Reads.bind {f : State → Run α} {k : α → State → Run β} (hf : Reads f) (hk : ∀ a, Reads (k a)) :
    Reads fun s => (f s).bind k :=
  ⟨fun s => (hf.leaves s).bind fun a => (hk a).leaves, fun x s p eof _ hm => (hf.twin x s p eof hm).bind hk⟩

/-- What a part of a read does may depend on anything but the receive port. -/
theorem Reads.on {δ : Type} (d : State → δ) {g : δ → State → Run α} (hd : ∀ s p eof sc, d (s.rxAt p eof sc) = d s)
    (hg : ∀ v, Reads (g v)) : Reads fun s => g (d s) s := by
  refine ⟨fun s => (hg (d s)).leaves s, fun x s p eof moves hm => ?_⟩
  rw [hd, hd]
  exact (hg (d s)).twin x s p eof hm

theorem Reads.ite {c : Prop} [Decidable c] {f g : State → Run α} (hf : Reads f) (hg : Reads g) :
    Reads fun s => if c then f s else g s := by
  split
  · exact hf
  · exact hg

/-- `f` neither looks at the receive port nor calls it. -/
def Blind (f : State → Run α) : Prop :=
  ∀ s : State, (∃ a t, ∀ p eof sc, f (s.rxAt p eof sc) = .done a (State.rxAt t p eof sc)) ∨
    (∃ st t, ∀ p eof sc, f (s.rxAt p eof sc) = .raised st (State.rxAt t p eof sc)) ∨
    ∃ e, ∀ p eof sc, f (s.rxAt p eof sc) = .stop e

theorem Blind.reads {f : State → Run α} (h : Blind f) (hl : ∀ s, (f s).ReadsFrom s) : Reads f := by
  refine ⟨hl, fun x s p eof moves hm => ?_⟩
  rcases h s with ⟨a, t, ht⟩ | ⟨st, t, ht⟩ | ⟨e, he⟩
  · rw [ht, ht]; exact .done a t 0 eof hm
  · rw [ht, ht]; exact .raised st t 0 eof
  · rw [he, he]; exact .stop e

theorem Reads.pure (a : α) : Reads fun s => .done a s :=
  Blind.reads (fun s => .inl ⟨a, s, fun _ _ _ => rfl⟩) ReadPart.refl

theorem Reads.raise (st : Status) : Reads fun s => (.raised st s : Run α) :=
  Blind.reads (fun s => .inr (.inl ⟨st, s, fun _ _ _ => rfl⟩)) ReadPart.refl

/-- The last thing a part does is to write `RD.next`. -/
theorem Reads.withNext (a : α) (next : Option Scalar) :
    Reads fun s => .done a { s with rd := { s.rd with next := next } } :=
  Blind.reads (fun s => .inl ⟨a, { s with rd := { s.rd with next := next } }, fun _ _ _ => rfl⟩)
    fun s => ReadPart.withNext s next

/-! ### The checks and the buffer -/

theorem readerChecks_reads : Reads readerChecks := by
  refine Reads.on (fun s => (s.rd.closed, s.rd.poisoned)) (g := fun v s =>
    if v.1 = true then .raised .unitClosed s else if v.2 = true then .raised .unitPoisoned s else .done PUnit.unit s)
    (fun _ _ _ _ => rfl) fun v => ?_
  exact Reads.ite (Reads.raise _) (Reads.ite (Reads.raise _) (Reads.pure _))

theorem rbFill_reads (bytes : Bytes) (asMsg : Bool) : Reads (rbFill bytes asMsg) := by
  refine Blind.reads (fun s => ?_) fun s => ?_
  · have hf : ∀ p eof sc, (s.rxAt p eof sc).rb.fill (s.rxAt p eof sc).cfg.CAP bytes asMsg =
      s.rb.fill s.cfg.CAP bytes asMsg := fun _ _ _ => rfl
    rcases h : s.rb.fill s.cfg.CAP bytes asMsg with b | _ | _
    · exact .inl ⟨.unit, { s with rb := b }, fun _ _ _ => by rw [rbFill, hf, h]; rfl⟩
    · exact .inr (.inl ⟨.capacityExhausted, s, fun _ _ _ => by rw [rbFill, hf, h]⟩)
    · exact .inr (.inr ⟨.storeAddress, fun _ _ _ => by rw [rbFill, hf, h]⟩)
  · unfold rbFill
    split
    · exact ReadPart.withRb fun hi => RBuf.fill_inv hi ‹_›
    · exact ReadPart.refl s
    · trivial

/-- The two drains: what comes out of the buffer and the buffer behind it, or an access outside the store. -/
theorem drain_reads {d : Nat → RBuf → Option (α × RBuf)} {f : State → Run α}
    (hd : ∀ {cap b out b'}, b.inv cap = true → d cap b = some (out, b') → b'.inv cap = true)
    (hsome : ∀ s out b, d s.cfg.CAP s.rb = some (out, b) → f s = .done out { s with rb := b })
    (hnone : ∀ s, d s.cfg.CAP s.rb = none → f s = .stop .storeAddress) : Reads f := by
  refine Blind.reads (fun s => ?_) fun s => ?_ <;> rcases h : d s.cfg.CAP s.rb with _ | ⟨out, b⟩
  · exact .inr (.inr ⟨.storeAddress, fun p eof sc => hnone (s.rxAt p eof sc) h⟩)
  · exact .inl ⟨out, { s with rb := b }, fun p eof sc => hsome (s.rxAt p eof sc) out b h⟩
  · rw [hnone s h]
    trivial
  · rw [hsome s out b h]
    exact ReadPart.withRb fun hi => hd hi h

theorem rbDrain_reads (m : Nat) : Reads (rbDrain m) :=
  drain_reads (d := fun cap b => b.drain cap m) (fun hi h => (RBuf.drain_inv hi h).1)
    (fun s out b h => by simp [rbDrain, h]) fun s h => by simp [rbDrain, h]

theorem rbDrainMsg_reads : Reads rbDrainMsg :=
  drain_reads (d := fun cap b => b.drainMsg cap) (fun hi h => RBuf.drainMsg_inv hi h)
    (fun s out b h => by simp [rbDrainMsg, h]) fun s h => by simp [rbDrainMsg, h]

theorem takeMsg_reads (dstCap : Nat) : Reads (takeMsg dstCap) := by
  refine Reads.on (fun s => s.rb.queue) (g := fun q s => match q with
    | [] => rbDrainMsg s
    | (_, l) :: _ => if l > dstCap then .raised .destTooSmall s else rbDrainMsg s) (fun _ _ _ _ => rfl) fun q => ?_
  rcases q with _ | ⟨⟨o, l⟩, q⟩
  · exact rbDrainMsg_reads
  · exact Reads.ite (Reads.raise _) rbDrainMsg_reads

/-! ### The receive calls -/

theorem rxRead_readsFrom (k : Nat) (s : State) : (rxRead k s).ReadsFrom s := by
  rcases rxRead_cases k s with ⟨n, why, sc, hs, h⟩ | ⟨-, h⟩ | ⟨j, -, -, h⟩ <;> rw [h]
  · refine ⟨⟨n, by simp [hs]⟩, ?_⟩
    rw [s.rx.drop_at s.rx.eof sc]
    exact ReadPart.rxAt _ _ (by rw [hs]; exact List.suffix_cons _ _)
  · exact ReadPart.rxAt 0 true (List.tail_suffix _)
  · change ReadPart s _
    rw [s.rx.drop_at s.rx.eof s.rx.script.tail]
    exact ReadPart.rxAt _ _ (List.tail_suffix _)

/-- A receive call that is struck. -/
theorem rxRead_interrupt (k : Nat) (s : State) (p : RxPort) (eof : Bool) (n : Nat) (why : Interruption)
    (l : List Answer) : rxRead k (s.rxAt p eof (.interrupt n why :: l)) =
      .interrupted why (s.rxAt (p.drop (min n (p.front k).length)) eof l) := by
  simp [rxRead, State.rxAt]

/-- A receive call that is answered by a move: what it takes does not depend on the answers behind that one. -/
theorem rxRead_move (k : Nat) (s : State) (p : RxPort) (eof : Bool) (m : Nat) :
    ∃ j e, min 1 (p.front k).length ≤ j ∧ j ≤ (p.front k).length ∧ ∀ l,
      rxRead k (s.rxAt p eof (.move m :: l)) = .done ((p.front k).take j) (s.rxAt (p.drop j) e l) := by
  by_cases hf : p.front k = []
  · exact ⟨0, true, by simp [hf], Nat.zero_le _, fun l => by simp [rxRead, State.rxAt, hf, RxPort.drop]⟩
  · have hb := movedBy_bounds (some (.move m)) (List.length_pos_iff.2 hf)
    exact ⟨_, eof, by omega, hb.2, fun l => by simp [rxRead, State.rxAt, hf]⟩

/-! ### `RxNext` and the decode loop -/

theorem rxNext_readsFrom (s : State) : (rxNext s).ReadsFrom s :=
  (rxRead_readsFrom 1 s).bind fun c => (Reads.pure c.head?).leaves

theorem rxNext_interrupt (s : State) (p : RxPort) (eof : Bool) (n : Nat) (why : Interruption) (l : List Answer) :
    rxNext (s.rxAt p eof (.interrupt n why :: l)) =
      .interrupted why (s.rxAt (p.drop (min n (p.front 1).length)) eof l) := by
  rw [rxNext, rxRead_interrupt, Run.bind_interrupted]

theorem rxNext_move (s : State) (p : RxPort) (eof : Bool) (m : Nat) :
    ∃ a j e, (p.front 1).length ≤ j ∧ ∀ l,
      rxNext (s.rxAt p eof (.move m :: l)) = .done a (s.rxAt (p.drop j) e l) := by
  obtain ⟨j, e, h1, -, h⟩ := rxRead_move 1 s p eof m
  have := p.front_length_le 1
  exact ⟨_, j, e, by omega, fun l => by rw [rxNext, h l, Run.bind_done]⟩

theorem decodeRxLoop_readsFrom (st : Style) (ord : ByteOrder) (turns : Nat) (got : Bytes) (s : State) :
    (decodeRxLoop st ord turns got s).ReadsFrom s := by
  induction turns generalizing got s with
  | zero => exact ⟨rfl, ReadPart.refl s⟩
  | succ turns ih =>
    refine (rxNext_readsFrom s).bind fun x t => ?_
    rcases x with _ | x
    · exact ReadPart.refl t
    · dsimp only
      split
      · exact ReadPart.refl t
      · exact ih _ t

/-- The decode loops of the two runs have different turns, but more than there are moves before the strike. -/
theorem decodeRxLoop_twin (x : Strike) (st : Style) (ord : ByteOrder) {moves : List Answer} {turns turns' : Nat}
    (got : Bytes) (s : State) (p : RxPort) (eof : Bool) (hm : moves.all Answer.isMove = true)
    (ht : moves.length < turns) (ht' : moves.length < turns') :
    (decodeRxLoop st ord turns got (s.rxAt p eof (moves ++ x.cut))).Twin x p
      (decodeRxLoop st ord turns' got (s.rxAt p eof (moves ++ x.calm))) := by
  induction moves generalizing turns turns' got p eof with
  | nil =>
    obtain ⟨turns, rfl⟩ := Nat.exists_eq_add_of_lt ht
    obtain ⟨turns', rfl⟩ := Nat.exists_eq_add_of_lt ht'
    obtain ⟨a, j, e, hj, hnext⟩ := rxNext_move s p eof x.m
    rw [decodeRxLoop, decodeRxLoop, List.nil_append, List.nil_append, Strike.cut, Strike.calm, rxNext_interrupt,
      Run.bind_interrupted, hnext, Run.bind_done]
    refine .struck s _ eof ?_
    refine Run.ReadsFrom.beyond (s := s.rxAt (p.drop j) e []) ?_ ?_
    · rcases a with _ | a
      · exact ReadPart.refl _
      · dsimp only
        split
        · exact ReadPart.refl _
        · exact decodeRxLoop_readsFrom _ _ _ _ _
    · obtain ⟨i, rfl⟩ := Nat.exists_eq_add_of_le (Nat.le_trans (Nat.min_le_right x.n _) hj)
      exact ⟨i, e, by rw [State.rxAt_rx, RxPort.drop_add]⟩
  | cons a moves ih =>
    rcases a with q | ⟨n, why⟩
    · obtain ⟨turns, rfl⟩ := Nat.exists_eq_add_of_lt ht
      obtain ⟨turns', rfl⟩ := Nat.exists_eq_add_of_lt ht'
      obtain ⟨a, j, e, -, hnext⟩ := rxNext_move s p eof q
      have hm' : moves.all Answer.isMove = true := by simpa [Answer.isMove] using hm
      rw [decodeRxLoop, decodeRxLoop, List.cons_append, List.cons_append, hnext, hnext, Run.bind_done, Run.bind_done]
      rcases a with _ | a
      · exact .done _ s j e hm'
      · dsimp only
        split
        · exact .done _ s j e hm'
        · refine (ih _ _ _ hm' ?_ ?_).drop <;> simp only [List.length_cons] <;> omega
    · simp [Answer.isMove] at hm

/-! ### `Resolve`, `ReadExact` and `PullFrame` -/

/-- The decode loop inside `Resolve`, which may be stuck (R161, R252 (a)). -/
theorem decodePrefix_reads (c : UnitCfg) :
    Reads fun s => (decodeRxLoop c.style c.order (decodeTurns s) [] s).stuckAt s.prefixPending := by
  refine ⟨fun s => ?_, fun x s p eof moves hm => ?_⟩
  · have h := decodeRxLoop_readsFrom c.style c.order (decodeTurns s) [] s
    cases hr : decodeRxLoop c.style c.order (decodeTurns s) [] s <;> rw [hr] at h
    case stuck => exact ⟨rfl, ReadPart.rxAt 0 s.rx.eof List.nil_suffix⟩
    all_goals exact h
  · refine (decodeRxLoop_twin x c.style c.order [] s p eof hm ?_ ?_).stuckAt _ _ <;>
      simp only [decodeTurns, State.rxAt_rx, List.length_append] <;> omega

theorem resolve_reads : Reads resolve := by
  refine Reads.on (fun s => s.rd.next) (g := fun next s => match next with
    | some V => .done (Style.ival s.cfg.rd.style V) s
    | none => ((decodeRxLoop s.cfg.rd.style s.cfg.rd.order (decodeTurns s) [] s).stuckAt s.prefixPending).bind
      fun r s => match r with
      | none => .done 0 s
      | some V => .done (Style.ival s.cfg.rd.style V) { s with rd := { s.rd with next := some V } })
    (fun _ _ _ _ => rfl) fun next => ?_
  rcases next with _ | V
  · refine Reads.bind (Reads.on (fun s => s.cfg.rd) (fun _ _ _ _ => rfl) decodePrefix_reads) fun r => ?_
    rcases r with _ | V
    · exact Reads.pure 0
    · exact Reads.on (fun s => s.cfg.rd.style)
        (g := fun st s => .done (Style.ival st V) { s with rd := { s.rd with next := some V } })
        (fun _ _ _ _ => rfl) fun st => Reads.withNext (Style.ival st V) (some V)
  · exact Reads.on (fun s => s.cfg.rd.style) (g := fun st s => .done (Style.ival st V) s) (fun _ _ _ _ => rfl)
      fun st => Reads.pure (Style.ival st V)

theorem readExactLoop_readsFrom (n fuel : Nat) (got : Bytes) (s : State) :
    (readExactLoop n fuel got s).ReadsFrom s := by
  induction fuel generalizing got s with
  | zero => exact ReadPart.refl s
  | succ fuel ih =>
    unfold readExactLoop
    split
    · refine (rxRead_readsFrom _ s).bind fun c t => ?_
      split
      · exact ReadPart.refl t
      · exact ih _ t
    · exact ReadPart.refl s

/-- A stream with no next byte stays as it is when bytes are dropped. -/
theorem RxPort.drop_of_front_nil {p : RxPort} {k : Nat} (h : p.front k = []) : p.drop k = p := by
  cases k with
  | zero => rfl
  | succ k =>
    rcases hn : p.next with _ | ⟨x, q⟩
    · rw [RxPort.drop, hn]
    · simp [RxPort.front, hn] at h

/-- How many bytes `ReadExact` takes of its own when nothing strikes, and that it makes a call (R63). -/
theorem readExactLoop_takes {n fuel : Nat} {got : Bytes} {s : State} (hc : s.rxCalm = true) (hlt : got.length < n)
    (hf : n ≤ got.length + fuel) : ∃ g eof sc, sc <:+ s.rx.script.tail ∧
      readExactLoop n fuel got s = .done g (s.rxAt (s.rx.drop (n - got.length)) eof sc) := by
  induction fuel generalizing got s with
  | zero => omega
  | succ fuel ih =>
    have hcalm : s.rx.script.tail.all Answer.isMove = true :=
      List.all_eq_true.2 fun a ha => List.all_eq_true.1 hc a (List.mem_of_mem_tail ha)
    rcases rxRead_cases (n - got.length) s with ⟨m, why, sc, hs, -⟩ | ⟨he, hr⟩ | ⟨j, h1, h2, hr⟩
    · simp [State.rxCalm, hs, Answer.isMove] at hc
    · refine ⟨.short got, true, _, List.suffix_refl _, ?_⟩
      rw [readExactLoop, if_pos hlt, hr, RxPort.drop_of_front_nil he]
      rfl
    · have hj := s.rx.front_length_le (n - got.length)
      have hlen : ((s.rx.front (n - got.length)).take j).length = j := by rw [List.length_take]; omega
      have hne : ((s.rx.front (n - got.length)).take j).isEmpty = false := by
        rw [List.isEmpty_eq_false_iff, ← List.length_pos_iff]; omega
      rw [readExactLoop, if_pos hlt, hr, s.rx.drop_at s.rx.eof s.rx.script.tail]
      simp only [Run.bind_done, hne, Bool.false_eq_true, if_false]
      generalize (s.rx.front (n - got.length)).take j = c at hlen
      obtain ⟨i, hi⟩ := Nat.exists_eq_add_of_le (Nat.le_trans h2 hj)
      by_cases hmore : (got ++ c).length < n
      · obtain ⟨g, eof, sc, hsc, hl⟩ := ih (got := got ++ c) (s := s.rxAt (s.rx.drop j) s.rx.eof s.rx.script.tail)
          hcalm hmore (by rw [List.length_append]; omega)
        refine ⟨g, eof, sc, hsc.trans (List.tail_suffix _), ?_⟩
        rw [List.length_append, hlen] at hl
        rw [hi, RxPort.drop_add, show i = n - (got.length + j) by omega]
        simp only [State.rxAt_rx, RxPort.drop_at, State.rxAt_rxAt, State.rxAt_flags] at hl
        exact hl
      · rw [List.length_append, hlen] at hmore
        refine ⟨.full (got ++ c), s.rx.eof, _, List.suffix_refl _, ?_⟩
        obtain rfl : i = 0 := by omega
        rw [hi, Nat.add_zero]
        cases fuel with
        | zero => rfl
        | succ fuel => rw [readExactLoop, if_neg (by rw [List.length_append, hlen]; exact hmore)]; rfl

theorem readExactLoop_twin (x : Strike) {n fuel : Nat} (got : Bytes) (s : State) (p : RxPort) (eof : Bool)
    {moves : List Answer} (hm : moves.all Answer.isMove = true) (hf : n ≤ got.length + fuel) :
    (readExactLoop n fuel got (s.rxAt p eof (moves ++ x.cut))).Twin x p
      (readExactLoop n fuel got (s.rxAt p eof (moves ++ x.calm))) := by
  induction fuel generalizing got p eof moves with
  | zero => exact .done _ s 0 eof hm
  | succ fuel ih =>
    by_cases hlt : got.length < n
    · rcases moves with _ | ⟨q | ⟨m, why⟩, moves⟩
      · obtain ⟨g, e, sc, hsc, hl⟩ := readExactLoop_takes (s := s.rxAt p eof x.calm) rfl hlt hf
        obtain rfl : sc = [] := List.suffix_nil.1 hsc
        rw [List.nil_append, List.nil_append, hl, readExactLoop, if_pos hlt, Strike.cut, rxRead_interrupt,
          Run.bind_interrupted]
        refine .struck s _ eof ?_
        obtain ⟨i, hi⟩ := Nat.exists_eq_add_of_le
          (Nat.le_trans (Nat.min_le_right x.n _) (p.front_length_le (n - got.length)))
        exact ⟨i, e, by rw [State.rxAt_rx, State.rxAt_rx, RxPort.drop_at, ← RxPort.drop_add, ← hi]⟩
      · obtain ⟨j, e, h1, h2, hr⟩ := rxRead_move (n - got.length) s p eof q
        have hm' : moves.all Answer.isMove = true := by simpa [Answer.isMove] using hm
        rw [readExactLoop, readExactLoop, if_pos hlt, if_pos hlt, List.cons_append, List.cons_append, hr, hr,
          Run.bind_done, Run.bind_done]
        split
        · exact .done _ s j e hm'
        · rename_i hne
          have hpos := List.length_pos_iff.2 (mt List.isEmpty_iff.2 hne)
          refine (ih _ _ _ hm' ?_).drop
          rw [List.length_append]
          omega
      · simp [Answer.isMove] at hm
    · rw [readExactLoop, readExactLoop, if_neg hlt, if_neg hlt]
      exact .done _ s 0 eof hm

theorem readExact_reads (n : Nat) : Reads (readExact n) :=
  ⟨readExactLoop_readsFrom n n [], fun x s p eof _ hm =>
    readExactLoop_twin x [] s p eof hm (by rw [List.length_nil, Nat.zero_add])⟩

theorem pullFrame_reads : Reads pullFrame := by
  refine resolve_reads.bind fun L => Reads.ite (Reads.withNext none none) ((readExact_reads _).bind fun g => ?_)
  rcases g with b | b
  · exact Reads.withNext (some b) none
  · exact Blind.reads (fun s => .inr (.inl ⟨_, s.forgetNext, fun _ _ _ => rfl⟩)) fun s => ReadPart.withNext s none

/-! ### The bodies of the reads -/

theorem readMsgBody_reads : Reads readMsgBody := by
  refine readerChecks_reads.bind fun _ => rbDrainMsg_reads.bind fun m => Reads.ite (Reads.pure _) <|
    pullFrame_reads.bind fun p => ?_
  rcases p with _ | p
  · exact Reads.pure _
  · exact (rbFill_reads p true).bind fun _ => rbDrainMsg_reads.bind fun _ => Reads.pure _

theorem readMsgCBody_reads (dstCap : Nat) : Reads (readMsgCBody dstCap) := by
  refine readerChecks_reads.bind fun _ => (takeMsg_reads dstCap).bind fun m => Reads.ite (Reads.pure _) <|
    resolve_reads.bind fun L => Reads.ite (Reads.raise _) <| pullFrame_reads.bind fun p => ?_
  rcases p with _ | p
  · exact Reads.pure _
  · exact (rbFill_reads p true).bind fun _ => (takeMsg_reads dstCap).bind fun _ => Reads.pure _

theorem readBody_reads (count : Nat) : Reads (readBody count) := by
  refine readerChecks_reads.bind fun _ => (rbDrain_reads count).bind fun d => Reads.ite (Reads.pure _) <|
    pullFrame_reads.bind fun p => ?_
  rcases p with _ | p
  · exact Reads.pure _
  · exact (rbFill_reads p false).bind fun _ => (rbDrain_reads _).bind fun _ => Reads.pure _

theorem peekLenBody_reads : Reads peekLenBody := by
  refine readerChecks_reads.bind fun _ => resolve_reads.bind fun _ => ?_
  refine Reads.on (fun s => s.rd.next) (g := fun v s => match v with
    | some v => .done (Response.scalar v) s
    | none => .done (Response.scalar 0#64) s) (fun _ _ _ _ => rfl) fun v => ?_
  rcases v with _ | v <;> exact Reads.pure _

end Reads
/-! ## The other bodies -/

theorem Reads.part {α : Type} {f : State → Run α} (h : Reads f) (s : State) :
    (f s).Leaves .reader (Struck s.rx.script) (Part .reader s) :=
  Run.Leaves.imp (h.leaves s) (fun _ => id) fun _ => ReadPart.part

/-- `RD.CLOSE` writes the closed bit and its transport. -/
theorem Part.closeReader (s : State) {p : RxPort}
    (hp : s.rx.closes = s.rx.closed.toNat → p.closes = p.closed.toNat) :
    Part .reader s { s with rd := { s.rd with closed := true }, rx := p } :=
  ⟨rfl, ⟨rfl, fun _ => rfl, id, id, id⟩, ⟨rfl, rfl⟩, id, fun h => ⟨hp h.1, h.2⟩⟩

theorem rdCloseBody_part (s : State) :
    (rdCloseBody s).Leaves .reader (Struck s.rx.script) (Part .reader s) := by
  unfold rdCloseBody
  split
  · exact Part.refl _ s
  · dsimp only
    split
    · exact Part.closeReader s id
    · refine Run.Leaves.bind ?_ fun _ _ h => h
      rcases rxClose_cases { s with rd := { s.rd with closed := true } } with ⟨n, why, sc, -, hs, hr⟩ | hr <;> rw [hr]
      · refine ⟨⟨n, by rw [show s.rx.script = _ from hs]; exact List.mem_cons_self⟩, Part.closeReader s fun h => ?_⟩
        split
        · exact h
        · exact RxPort.close_closes h
      · exact Part.closeReader s fun h => RxPort.close_closes h

/-- A writer command writes the closed bit and its transport. -/
theorem Part.writes (s : State) {closed : Bool} {p : TxPort} (hc : s.wr.closed = true → closed = true)
    (hp : s.tx.closes = s.tx.closed.toNat → p.closes = p.closed.toNat) :
    Part .writer s { s with wr := { s.wr with closed := closed }, tx := p } :=
  ⟨rfl, ⟨rfl, id, id, hc, id⟩, ⟨rfl, rfl⟩, id, fun h => ⟨h.1, hp h.2⟩⟩

theorem emitFrame_part (p : Bytes) (s : State) :
    (emitFrame p s).Leaves .writer (Struck s.tx.script) (Part .writer s) := by
  unfold emitFrame
  split
  · split
    · rename_i pre _
      obtain ⟨sc, -, hr | ⟨k, n, why, hmem, hr⟩⟩ := txWrite_cases (pre ++ p) s <;> rw [hr]
      · exact Part.writes s id id
      · exact ⟨⟨n, hmem⟩, Part.writes s id id⟩
    · exact Part.refl _ s
  · exact Part.refl _ s

/-- A flush or a close, of a writer whose closed bit may just have been written. -/
theorem txControl_part {act : TxPort → TxPort} (s : State) {closed : Bool} (hc : s.wr.closed = true → closed = true)
    (hact : ∀ p : TxPort, p.closes = p.closed.toNat → (act p).closes = (act p).closed.toNat) :
    (txControl act { s with wr := { s.wr with closed := closed } }).Leaves .writer (Struck s.tx.script)
      (Part .writer s) := by
  rcases txControl_cases act { s with wr := { s.wr with closed := closed } } with ⟨n, why, sc, -, hs, hr⟩ | hr <;>
    rw [hr]
  · refine ⟨⟨n, by rw [show s.tx.script = _ from hs]; exact List.mem_cons_self⟩, Part.writes s hc fun h => ?_⟩
    split
    · exact h
    · exact hact _ h
  · exact Part.writes s hc fun h => hact _ h

theorem writerChecks_part {α : Type} {k : PUnit → State → Run α} {s : State}
    (hk : (k .unit s).Leaves .writer (Struck s.tx.script) (Part .writer s)) :
    ((writerChecks s).bind k).Leaves .writer (Struck s.tx.script) (Part .writer s) := by
  rcases writerChecks_cases s with hc | ⟨st, hc⟩ <;> rw [hc]
  · exact hk
  · exact Part.refl _ s

theorem writeBody_part (s : State) : (writeBody s).Leaves .writer (Struck s.tx.script) (Part .writer s) := by
  refine writerChecks_part ?_
  split
  · exact Part.refl _ s
  · exact (emitFrame_part _ s).bind fun _ _ h => h

theorem wrCloseBody_part (s : State) : (wrCloseBody s).Leaves .writer (Struck s.tx.script) (Part .writer s) := by
  unfold wrCloseBody
  split
  · exact Part.refl _ s
  · dsimp only
    split
    · exact Part.writes s (fun _ => rfl) id
    · exact (txControl_part s (fun _ => rfl) fun _ => TxPort.close_closes).bind fun _ _ h => h

/-! ## What a command can end in -/

/-- The answers written down for the transport that a unit's commands call. -/
def State.scriptOf (s : State) : BlockUnit → List Answer
  | .codec => []
  | .reader => s.rx.script
  | .writer => s.tx.script

/-- The next state after a command of unit `u` that began in `s`. -/
abbrev State.EndsIn (s : State) (u : BlockUnit) : State → Prop := Ended u (Struck (s.scriptOf u)) (Part u s)

theorem readerChecks_part {α : Type} {k : PUnit → State → Run α} (hk : ∀ t, (k .unit t).ReadsFrom t) (s : State) :
    ((readerChecks s).bind k).Leaves .reader (Struck s.rx.script) (Part .reader s) :=
  Run.Leaves.imp ((readerChecks_reads.leaves s).bind fun _ => hk) (fun _ => id) fun _ => ReadPart.part

theorem exec_reader_ended {i : Instr} (hu : Instr.unit i = .reader) {s t : State} (ht : exec i s = .next t) :
    s.EndsIn .reader t := by
  cases i with
  | rbFillRaw =>
    exact (readerChecks_part (fun s => ((rbFill_reads s.din false).bind fun _ => Reads.pure _).leaves s) s).finish ht
  | rbFillMsg =>
    exact (readerChecks_part (fun s => ((rbFill_reads s.din true).bind fun _ => Reads.pure _).leaves s) s).finish ht
  | rbDrain =>
    exact (readerChecks_part (fun s => ((rbDrain_reads s.argNat).bind fun _ => Reads.pure _).leaves s) s).finish ht
  | rbDrainMsg => exact (readerChecks_part (rbDrainMsg_reads.bind fun _ => Reads.pure _).leaves s).finish ht
  | rbLen =>
    refine Run.Leaves.finish (readerChecks_part (fun s => ?_) s) ht
    exact ReadPart.refl s
  | rdReadMsg => exact (readMsgBody_reads.part s).finish ht
  | rdReadMsgC => exact ((readMsgCBody_reads s.argNat).part s).finish ht
  | rdRead => exact ((readBody_reads s.argNat).part s).finish ht
  | rdReadByte => exact ((readBody_reads 1).part s).finish ht
  | rdPeekLen => exact (peekLenBody_reads.part s).finish ht
  | rdClose => exact (rdCloseBody_part s).finish ht
  | _ => cases hu

theorem exec_writer_ended {i : Instr} (hu : Instr.unit i = .writer) {s t : State} (ht : exec i s = .next t) :
    s.EndsIn .writer t := by
  cases i with
  | wrWriteMsg =>
    refine Run.Leaves.finish ?_ ht
    exact writerChecks_part ((emitFrame_part s.din s).bind fun _ _ h => h)
  | wrWrite => exact (writeBody_part s).finishChunk ht
  | wrWriteByte =>
    refine Run.Leaves.finish ?_ ht
    exact writerChecks_part ((emitFrame_part [s.argByte] s).bind fun _ _ h => h)
  | wrFlush =>
    refine Run.Leaves.finish ?_ ht
    exact writerChecks_part ((txControl_part (act := TxPort.flush) s id fun _ => id).bind fun _ _ h => h)
  | wrClose => exact (wrCloseBody_part s).finish ht
  | _ => cases hu

/-- Everything a command can end in, unit by unit. -/
theorem exec_ended {i : Instr} {s t : State} (ht : exec i s = .next t) : s.EndsIn (Instr.unit i) t := by
  cases hu : Instr.unit i with
  | codec =>
    obtain ⟨r, hr⟩ := exec_codec hu s
    rw [hr] at ht
    cases ht
    exact .answered (Part.refl _ s) r
  | reader => exact exec_reader_ended hu ht
  | writer => exact exec_writer_ended hu ht

/-! ## What the units leave alone (R35, R71, R110) -/

theorem State.noReset_scripts {s : State} (h : s.noReset = true) (u : BlockUnit) :
    (s.scriptOf u).all Answer.notReset = true := by
  simp only [State.noReset, Bool.and_eq_true] at h
  obtain ⟨⟨hrx, htx⟩, -⟩ := h
  cases u
  · rfl
  · exact hrx
  · exact htx

theorem reader_frame {s t : State} (h : s.EndsIn .reader t) (hs : s.noReset = true) :
    t = { s with rb := t.rb, rd := t.rd, rx := t.rx, rsp := t.rsp, txn := .idle, freeIdx := t.freeIdx } := by
  cases h with
  | answered h r => rw [show _ = _ from h.frame]; rfl
  | poisoned h st => rw [show _ = _ from h.frame]; rfl
  | requeued h hu => cases hu
  | stuck h hu => rw [show _ = _ from h.frame]; rfl
  | reset h hI cfg => exact absurd hI (not_struck_reset (State.noReset_scripts hs _) _)

theorem writer_frame {s t : State} (h : s.EndsIn .writer t) (hs : s.noReset = true) :
    t = { s with wr := t.wr, tx := t.tx, rsp := t.rsp, txn := .idle, waiting := t.waiting } := by
  cases h with
  | answered h r => rw [show _ = _ from h.frame]; rfl
  | poisoned h st => rw [show _ = _ from h.frame]; rfl
  | requeued h hu => rw [show _ = _ from h.frame]; rfl
  | stuck h hu => cases hu
  | reset h hI cfg => exact absurd hI (not_struck_reset (State.noReset_scripts hs _) _)

/-- Settles O15: each unit's frame, from what its commands can end in. -/
theorem unitsLeaveEachOtherAlone : Obligations.UnitsLeaveEachOtherAlone := by
  unfold Obligations.UnitsLeaveEachOtherAlone
  refine fun i s t hs ht => ⟨fun hu => ?_, fun hu => ?_, fun hu => ?_⟩
  · obtain ⟨r, hr⟩ := exec_codec hu s
    rw [hr] at ht
    cases ht
    exact ⟨r, rfl⟩
  · exact reader_frame (hu ▸ exec_ended ht) hs
  · exact writer_frame (hu ▸ exec_ended ht) hs

/-! ## Everything one step can do, but for a fault or a refusal -/

/-- `t` is `s` with a step begun: another place in the environment's moves, and no response. -/
def Begun (s t : State) : Prop :=
  t = { s with schedule := t.schedule, agenda := t.agenda, turns := t.turns, rsp := none }

theorem State.lookAhead_eq (s : State) :
    s.lookAhead = { s with schedule := s.lookAhead.schedule, agenda := s.lookAhead.agenda } := by
  unfold State.lookAhead
  split <;> rfl

theorem begun_turn (s : State) : Begun s s.lookAhead.beginTurn := by
  unfold Begun
  rw [s.lookAhead_eq]
  rfl

theorem begun_step (s : State) (rest : List Event) : Begun s (s.lookAhead.beginStep rest) := by
  unfold Begun
  rw [s.lookAhead_eq]
  rfl

/-- `s` after answers have been settled and the stuck command has taken `k` bytes (log 28). -/
def State.fed (s : State) (rx tx : List Answer) (k : Nat) (sc : List Answer) : State :=
  { s.settle rx tx with rx := { (s.settle rx tx).rx.drop k with script := sc } }

/-- What the step comes to from the state `s` in which it has begun, the environment's next move being `e`. -/
inductive Moved (e : Option Event) (s : State) : State → Prop
  | nothing : Moved e s s
  | joined {who : Nat} {req : Request} (hwho : who < s.NREQ) (hbusy : s.busy who = false)
      (hreq : req.wellFormed = true) : Moved e s { s with waiting := s.waiting ++ [⟨who, req, 0⟩] }
  | dismissed (v : Transaction) (st : Status) : Moved e s (s.dismiss v st)
  | arrived (bytes : Bytes) : Moved e s (s.rxArrive bytes)
  | settled (rx tx : List Answer) : Moved e s (s.settle rx tx)
  | fed (rx tx : List Answer) (k : Nat) : Moved e s (s.fed rx tx k [])
  | cancelled {who : Nat} {t : State} (hstuck : s.stuck = some who) (ht : s.strike who .cancelled = .next t) :
    Moved e s t
  | struck {who k : Nat} {why : Interruption} {rx tx sc : List Answer} {t : State} (hstuck : s.stuck = some who)
      (he : e = some (.answers rx tx)) (hwhy : Struck (s.rx.script ++ rx) why)
      (ht : (s.fed rx tx k sc).strike who why = .next t) : Moved e s t
  | served {who : Nat} {v : Transaction} {i : Instr} {t : State} (hv : s.pending who = some v)
      (hlock : s.lockOf (Instr.unit i) = .free) (ht : exec i (s.granted (Instr.unit i) v) = .next t) : Moved e s t
  | reset {pins : StrapPins} (he : e = some (.reset pins)) (cfg : Straps) : Moved e s (s.afterReset cfg)

theorem State.serve_moved {e : Option Event} {s t : State} {who : Nat} (ht : s.serve who = .next t) : Moved e s t := by
  rcases s.serve_cases who with hr | ⟨v, _, -, -, hr⟩ | ⟨v, i, hv, -, hlock, hr⟩ <;> rw [hr] at ht
  · cases ht; exact .nothing
  · cases ht; exact .dismissed v _
  · exact .served hv hlock ht

theorem State.cancel_moved {e : Option Event} {s t : State} {who : Nat} (ht : s.cancel who = .next t) :
    Moved e s t := by
  rcases s.cancel_cases who with ⟨hstuck, hc⟩ | ⟨-, hc⟩ <;> rw [hc] at ht
  · exact .cancelled hstuck ht
  · cases ht
    rcases s.cancelWaiting_cases who with hw | ⟨v, i, -, -, -, hw⟩ <;> rw [hw]
    · exact .nothing
    · exact .dismissed v _

theorem State.answered_moved {s t : State} {rx tx : List Answer} (ht : s.answered rx tx = .next t) :
    Moved (some (.answers rx tx)) s t := by
  unfold State.answered at ht
  split at ht
  · cases ht; exact .settled rx tx
  · rename_i who hstuck
    rcases State.feed_cases who (s.rx.script ++ rx) (s.settle rx tx) with ⟨-, hr⟩ | ⟨l, n, why, sc, hl, -, hr⟩ <;>
      rw [hr] at ht
    · cases ht; exact .fed rx tx _
    · exact .struck hstuck rfl ⟨n, by rw [hl]; simp⟩ ht

theorem State.assertReset_moved {s t : State} {pins : StrapPins} (ht : s.assertReset pins = .next t) :
    Moved (some (.reset pins)) s t := by
  rcases s.assertReset_cases pins with ⟨cfg, -, hr⟩ | ⟨-, hr⟩ <;> rw [hr] at ht <;> cases ht
  exact .reset rfl cfg

theorem step_moved {s t : State} (ht : step s = .next t) : ∃ v, Begun s v ∧ Moved s.coming v t := by
  rcases step_cases s with ⟨who, -, -, hr⟩ | ⟨-, ⟨-, hr⟩ | ⟨e, rest, hcoming, -, hr⟩⟩ <;> rw [hr] at ht
  · exact ⟨_, begun_turn s, State.serve_moved ht⟩
  · cases ht
    exact ⟨_, begun_step s [], .nothing⟩
  · refine ⟨_, begun_step s rest, ?_⟩
    rw [hcoming]
    cases e with
    | present who req =>
      dsimp only at ht
      rcases (s.lookAhead.beginStep rest).present_cases who req with ⟨hwho, hbusy, hreq, hp⟩ | ⟨r, hp⟩ <;>
        rw [hp] at ht <;> cases ht
      exact .joined hwho hbusy hreq
    | grant who => exact State.serve_moved ht
    | cancel who => exact State.cancel_moved ht
    | rxArrive bytes => cases ht; exact .arrived bytes
    | answers rx tx => exact State.answered_moved ht
    | reset pins => exact State.assertReset_moved ht

/-! ## The configuration and the sticky bits (R30, R32, R33) -/

/-- However a command ends but by reset, the sticky bits of `s` are kept if its body kept them. -/
theorem Ended.sticky {u : BlockUnit} {I : Interruption → Prop} {P : State → Prop} {s t : State} (h : Ended u I P t)
    (hI : ∀ pins, ¬ I (.reset pins)) (hP : ∀ v, P v → KeepsSticky s v) : KeepsSticky s t := by
  cases h with
  | answered h r =>
    refine (hP _ h).trans ⟨State.endCommand_cfg .., ?_⟩
    cases u <;> exact ⟨id, id, id, id⟩
  | poisoned h st =>
    refine (hP _ h).trans ⟨by rw [State.raise_cfg, State.poison_cfg], ?_⟩
    cases u
    · exact ⟨id, id, id, id⟩
    · exact ⟨id, fun _ => rfl, id, id⟩
    · exact ⟨id, id, id, fun _ => rfl⟩
  | requeued h hu => subst hu; exact (hP _ h).trans ⟨rfl, id, id, id, id⟩
  | stuck h hu => subst hu; exact (hP _ h).trans ⟨rfl, id, id, id, id⟩
  | reset h hI' cfg => exact absurd hI' (hI _)

theorem Begun.sticky {s v : State} (h : Begun s v) : KeepsSticky s v := by
  rw [show v = _ from h]
  exact .refl s

/-- A stuck command that is cut short, but not by reset. -/
theorem State.strike_sticky {s t : State} {who : Nat} {why : Interruption} (hw : ∀ pins, why ≠ .reset pins)
    (ht : s.strike who why = .next t) : KeepsSticky s t :=
  (State.interrupted_ended (I := (· = why)) (P := fun v => KeepsSticky s v) ht rfl (KeepsSticky.refl s)).sticky
    (fun pins h => hw pins h.symm) fun _ => id

/-- A step that is no reset and lets none strike a command keeps the sticky bits. -/
theorem Moved.sticky {e : Option Event} {s t : State} (h : Moved e s t)
    (hscript : ∀ u, (s.scriptOf u).all Answer.notReset = true) (hreset : ∀ pins, e ≠ some (.reset pins))
    (hrx : ∀ rx tx, e = some (.answers rx tx) → s.stuck ≠ none → rx.all Answer.notReset = true) :
    KeepsSticky s t := by
  cases h with
  | nothing => exact .refl s
  | joined => exact .refl s
  | dismissed v st => exact .refl s
  | arrived bytes =>
    unfold State.rxArrive
    split <;> exact .refl s
  | settled rx tx => exact .refl s
  | fed rx tx k => exact .refl s
  | cancelled hstuck ht => exact State.strike_sticky (why := .cancelled) (fun _ => nofun) ht
  | @struck who k why rx tx sc _ hstuck he hwhy ht =>
    have hfed : KeepsSticky s (s.fed rx tx k sc) := ⟨rfl, id, id, id, id⟩
    refine hfed.trans (State.strike_sticky (fun pins hp => not_struck_reset ?_ pins (hp ▸ hwhy)) ht)
    rw [List.all_append, Bool.and_eq_true]
    exact ⟨hscript .reader, hrx _ _ he (by simp [hstuck])⟩
  | @served who v i t hv hlock ht =>
    have hgranted : KeepsSticky s (s.granted (Instr.unit i) v) := by
      cases Instr.unit i <;> exact .refl s
    refine hgranted.trans ((exec_ended ht).sticky (not_struck_reset ?_) fun _ h => h.sticky)
    have := hscript (Instr.unit i)
    cases hu : Instr.unit i <;> rw [hu] at this <;> exact this
  | reset he cfg => exact absurd he (hreset _)

/-- Settles O14, by what a step can do. -/
theorem onlyResetClearsStickyBits : Obligations.OnlyResetClearsStickyBits := by
  unfold Obligations.OnlyResetClearsStickyBits
  intro s t hs ht
  obtain ⟨v, hv, hm⟩ := step_moved ht
  have hstuck : v.stuck = s.stuck := by rw [show v = _ from hv]; rfl
  have hscript : ∀ u, v.scriptOf u = s.scriptOf u := by rw [show v = _ from hv]; intro u; cases u <;> rfl
  have hall := State.noReset_scripts hs
  simp only [State.noReset, Bool.and_eq_true] at hs
  obtain ⟨-, hs⟩ := hs
  refine hv.sticky.trans (hm.sticky (fun u => by rw [hscript]; exact hall u) (fun pins he => ?_) fun rx tx he hne => ?_)
  · simp [he] at hs
  · rw [he] at hs
    rw [hstuck] at hne
    simpa [hne] using hs

/-! ## The invariant (R28, R31, R22, R23, R65, R252) -/

/-- The commands `ts` and a stuck one are of different requesters of the `n` there are, and in the domain
(R7, R23, R252). -/
structure Queued (n : Nat) (stuck : Option Nat) (ts : List Transaction) : Prop where
  stuck : ∀ who, stuck = some who → who < n ∧ ∀ t ∈ ts, t.who ≠ who
  distinct : ts.Pairwise fun t v => t.who ≠ v.who
  domain : ∀ t ∈ ts, t.who < n ∧ t.req.wellFormed = true

theorem Queued.nil (n : Nat) : Queued n none [] := ⟨nofun, .nil, nofun⟩

theorem Queued.noneStuck {n : Nat} {stuck : Option Nat} {ts : List Transaction} (h : Queued n stuck ts) :
    Queued n none ts := ⟨nofun, h.distinct, h.domain⟩

/-- The order of the commands has no meaning (R70). -/
theorem Queued.perm {n : Nat} {stuck : Option Nat} {ts vs : List Transaction} (h : Queued n stuck ts)
    (hp : ts.Perm vs) : Queued n stuck vs := by
  refine ⟨fun who hs => ?_, (hp.pairwise_iff fun {_ _} => Ne.symm).1 h.distinct,
    fun t ht => h.domain t (hp.mem_iff.2 ht)⟩
  exact ⟨(h.stuck who hs).1, fun t ht => (h.stuck who hs).2 t (hp.mem_iff.2 ht)⟩

theorem Queued.sublist {n : Nat} {stuck : Option Nat} {ts vs : List Transaction} (h : Queued n stuck ts)
    (hs : vs.Sublist ts) : Queued n stuck vs :=
  ⟨fun who hw => ⟨(h.stuck who hw).1, fun t ht => (h.stuck who hw).2 t (hs.subset ht)⟩, h.distinct.sublist hs,
    fun t ht => h.domain t (hs.subset ht)⟩

theorem Queued.tail {n : Nat} {stuck : Option Nat} {v : Transaction} {ts : List Transaction}
    (h : Queued n stuck (v :: ts)) : Queued n stuck ts := h.sublist (List.sublist_cons_self v ts)

/-- One more command, of a requester that has none. -/
theorem Queued.cons {n : Nat} {stuck : Option Nat} {v : Transaction} {ts : List Transaction}
    (h : Queued n stuck ts) (hs : stuck ≠ some v.who) (hw : ∀ t ∈ ts, t.who ≠ v.who)
    (hd : v.who < n ∧ v.req.wellFormed = true) : Queued n stuck (v :: ts) := by
  refine ⟨fun who hwho => ⟨(h.stuck who hwho).1, ?_⟩, ?_, ?_⟩
  · rw [List.forall_mem_cons]
    exact ⟨fun he => hs (he ▸ hwho), (h.stuck who hwho).2⟩
  · exact List.pairwise_cons.2 ⟨fun t ht he => hw t ht he.symm, h.distinct⟩
  · exact List.forall_mem_cons.2 ⟨hd, h.domain⟩

/-- Its first command gets stuck. -/
theorem Queued.hang {n : Nat} {v : Transaction} {ts : List Transaction} (h : Queued n none (v :: ts)) :
    Queued n (some v.who) ts := by
  refine ⟨fun who hwho => ?_, h.tail.distinct, h.tail.domain⟩
  obtain rfl : v.who = who := Option.some.inj hwho
  exact ⟨(h.domain v List.mem_cons_self).1, fun t ht he => (List.pairwise_cons.1 h.distinct).1 t ht he.symm⟩

/-- The stuck command is counted among the others again. -/
theorem Queued.unhang {n : Nat} {v : Transaction} {ts : List Transaction} (h : Queued n (some v.who) ts)
    (hreq : v.req.wellFormed = true) : Queued n none (v :: ts) := by
  obtain ⟨hwho, hother⟩ := h.stuck v.who rfl
  exact h.noneStuck.cons nofun hother ⟨hwho, hreq⟩

/-- The command with the next chunk number goes to the end of the waiting ones (R193). -/
theorem Queued.requeue {n : Nat} {stuck : Option Nat} {v : Transaction} {ts : List Transaction}
    (h : Queued n stuck (v :: ts)) (c : Nat) : Queued n stuck (ts ++ [{ v with chunk := c }]) := by
  refine Queued.perm (ts := { v with chunk := c } :: ts) ?_ (List.perm_append_comm (l₁ := [_]))
  refine h.tail.cons (fun hs => ?_) (fun t ht he => ?_) (h.domain v List.mem_cons_self)
  · exact (h.stuck _ hs).2 v List.mem_cons_self rfl
  · exact (List.pairwise_cons.1 h.distinct).1 t ht he.symm

theorem State.inv_iff (s : State) : s.Inv ↔
    s.rb.inv s.cfg.CAP = true ∧ s.wr.lock = .free ∧ s.txn = .idle ∧ Queued s.NREQ s.stuck s.waiting ∧ s.ClosedOnce := by
  constructor
  · rintro ⟨h1, h2, h3, h4, h5, h6, h7, h8⟩
    exact ⟨h1, h2, h3, ⟨h4, h5, h6⟩, h7, h8⟩
  · rintro ⟨h1, h2, h3, ⟨h4, h5, h6⟩, h7, h8⟩
    exact ⟨h1, h2, h3, h4, h5, h6, h7, h8⟩

/-- The invariant while a command of unit `u` executes: it is in `txn` and no longer waits, and the lock of
`u` is its own. -/
structure State.Executing (u : BlockUnit) (s : State) : Prop where
  buffer : s.rb.inv s.cfg.CAP = true
  closes : s.ClosedOnce
  writerLock : u ≠ .writer → s.wr.lock = .free
  queued : Queued s.NREQ (if u = .reader then none else s.stuck) (s.txn :: s.waiting)

theorem State.stuck_congr {s t : State} (h : t.rd.lock = s.rd.lock) : t.stuck = s.stuck := by
  unfold State.stuck
  rw [h]

/-- What the body of a command leaves is again the state of an executing command. -/
theorem Part.executing {u : BlockUnit} {s t : State} (h : Part u s t) (hs : s.Executing u) : t.Executing u := by
  obtain ⟨hextra, hwaiting, htxn⟩ := h.frame.rest
  obtain ⟨hrd, hwr⟩ := h.locks
  refine ⟨h.buffer hs.buffer, h.closes hs.closes, by rw [hwr]; exact hs.writerLock, ?_⟩
  rw [State.NREQ, hextra, State.stuck_congr hrd, htxn, hwaiting]
  exact hs.queued

theorem State.Executing.poison {u : BlockUnit} {s : State} (h : s.Executing u) : (s.poison u).Executing u := by
  obtain ⟨h1, h2, h3, h4⟩ := h
  cases u
  · exact ⟨h1, h2, h3, h4⟩
  · exact ⟨cancelledBuffer_inv _ _, h2, h3, h4⟩
  · exact ⟨h1, h2, fun hu => absurd rfl hu, h4⟩

/-- The executing command ends (R15, R22, R70). -/
theorem State.Executing.endCommand_inv {u : BlockUnit} {s : State} (h : s.Executing u) (r : Response) :
    (s.endCommand u r).Inv := by
  obtain ⟨h1, h2, h3, h4⟩ := h
  rw [State.inv_iff]
  cases u
  · exact ⟨h1, h3 nofun, rfl, h4.tail, h2⟩
  · exact ⟨h1, h3 nofun, rfl, h4.tail, h2⟩
  · exact ⟨h1, rfl, rfl, h4.tail, h2⟩

theorem State.Executing.requeue_inv {s : State} (h : s.Executing .writer) : (s.requeue .writer).Inv := by
  obtain ⟨h1, h2, -, h4⟩ := h
  rw [State.inv_iff]
  exact ⟨h1, rfl, rfl, h4.requeue _, h2⟩

theorem State.Executing.hang_inv {s : State} (h : s.Executing .reader) : (s.hang .reader).Inv := by
  obtain ⟨h1, h2, h3, h4⟩ := h
  rw [State.inv_iff]
  exact ⟨h1, h3 nofun, rfl, h4.hang, h2⟩

theorem State.afterReset_inv {s : State} (h : s.ClosedOnce) (cfg : Straps) : (s.afterReset cfg).Inv := by
  rw [State.inv_iff]
  exact ⟨RBuf.empty_inv _, rfl, rfl, .nil _, h⟩

/-- However a command ends, the invariant holds again. -/
theorem Ended.inv {u : BlockUnit} {I : Interruption → Prop} {P : State → Prop} {t : State} (h : Ended u I P t)
    (hP : ∀ s, P s → s.Executing u) : t.Inv := by
  cases h with
  | answered h r => exact (hP _ h).endCommand_inv r
  | poisoned h st => exact (hP _ h).poison.endCommand_inv _
  | requeued h hu => subst hu; exact (hP _ h).requeue_inv
  | stuck h hu => subst hu; exact (hP _ h).hang_inv
  | reset h hI cfg => exact State.afterReset_inv (hP _ h).closes cfg

/-! ### A command begins, or a stuck one is cut short -/

/-- The waiting commands are requester `who`'s and the rest. -/
theorem State.waiting_perm {s : State} {who : Nat} {v : Transaction} (h : s.pending who = some v) :
    s.waiting.Perm (v :: s.without v.who) := by
  have hwho : v.who = who := State.pending_who h
  obtain ⟨-, as, bs, hl, has⟩ := List.find?_eq_some_iff_append.1 h
  have hw : s.without v.who = as ++ bs := by
    rw [State.without, hl, hwho, List.eraseP_append_right _ fun a ha => by simpa using has a ha]
    simp [hwho]
  rw [hl, hw]
  exact List.perm_middle

theorem State.granted_executing {s : State} (h : s.Inv) {who : Nat} {v : Transaction} {u : BlockUnit}
    (hv : s.pending who = some v) : (s.granted u v).Executing u := by
  obtain ⟨h1, h2, -, h4, h5⟩ := s.inv_iff.1 h
  have hq := h4.perm (State.waiting_perm hv)
  cases u
  · exact ⟨h1, h5, fun _ => h2, hq⟩
  · exact ⟨h1, h5, fun _ => h2, hq.noneStuck⟩
  · exact ⟨h1, h5, fun hu => absurd rfl hu, hq⟩

/-- A stuck command that is cut short (R226 (b), R252 (a)). -/
theorem State.strike_inv {s t : State} (h : s.Inv) {who : Nat} {why : Interruption} (hs : s.stuck = some who)
    (ht : s.strike who why = .next t) : t.Inv := by
  obtain ⟨h1, h2, -, h4, h5⟩ := s.inv_iff.1 h
  rw [hs] at h4
  have hexec : State.Executing .reader { s with txn := { Transaction.idle with who := who } } :=
    ⟨h1, h5, fun _ => h2, Queued.unhang (v := { Transaction.idle with who := who }) h4 rfl⟩
  exact (State.interrupted_ended (I := fun _ => True) (P := State.Executing .reader) ht trivial hexec).inv fun _ => id

/-! ### Every step -/

theorem Begun.inv {s v : State} (h : Begun s v) (hs : s.Inv) : v.Inv := by
  rw [show v = _ from h]
  exact hs

theorem State.fed_inv {s : State} (h : s.Inv) (rx tx : List Answer) (k : Nat) (sc : List Answer) :
    (s.fed rx tx k sc).Inv := by
  rw [State.inv_iff] at h ⊢
  obtain ⟨h1, h2, h3, h4, h5, h6⟩ := h
  obtain ⟨-, hclosed, hcloses, -⟩ := (s.settle rx tx).rx.drop_fields k
  refine ⟨h1, h2, h3, h4, ?_, h6⟩
  change ((s.settle rx tx).rx.drop k).closes = ((s.settle rx tx).rx.drop k).closed.toNat
  rw [hcloses, hclosed]
  exact h5

theorem Moved.inv {e : Option Event} {s t : State} (h : Moved e s t) (hs : s.Inv) : t.Inv := by
  cases h with
  | nothing => exact hs
  | @joined who req hwho hbusy hreq =>
    obtain ⟨h1, h2, h3, h4, h5⟩ := s.inv_iff.1 hs
    have hnew : ¬ ((∃ v ∈ s.waiting, v.who = who) ∨ s.rd.lock = .held who) := by
      rw [← State.busy_iff, hbusy]
      nofun
    rw [not_or] at hnew
    rw [State.inv_iff]
    refine ⟨h1, h2, h3, Queued.perm (ts := ⟨who, req, 0⟩ :: s.waiting) (h4.cons ?_ ?_ ⟨hwho, hreq⟩)
      (List.perm_append_comm (l₁ := [_])), h5⟩
    · rw [Ne, State.stuck_eq_some]
      exact hnew.2
    · exact fun v hv he => hnew.1 ⟨v, hv, he⟩
  | dismissed v st =>
    obtain ⟨h1, h2, h3, h4, h5⟩ := s.inv_iff.1 hs
    rw [State.inv_iff]
    exact ⟨h1, h2, h3, h4.sublist List.eraseP_sublist, h5⟩
  | arrived bytes =>
    unfold State.rxArrive
    split <;> exact hs
  | settled rx tx => exact hs
  | fed rx tx k => exact State.fed_inv hs rx tx k []
  | cancelled hstuck ht => exact State.strike_inv hs hstuck ht
  | @struck who k why rx tx sc _ hstuck he hwhy ht => exact State.strike_inv (State.fed_inv hs rx tx k sc) hstuck ht
  | served hv hlock ht => exact (exec_ended ht).inv fun v hp => hp.executing (State.granted_executing hs hv)
  | reset he cfg =>
    obtain ⟨-, -, -, -, hc⟩ := s.inv_iff.1 hs
    exact State.afterReset_inv hc cfg

/-- Settles O11: a step begins, and whatever it then comes to keeps the invariant. -/
theorem everyStepKeepsInv : Obligations.EveryStepKeepsInv := by
  unfold Obligations.EveryStepKeepsInv
  intro s t hs ht
  obtain ⟨v, hv, hm⟩ := step_moved ht
  exact hm.inv (hv.inv hs)

/-- Settles O10: nothing waits or is stuck at launch, and the buffer is empty. -/
theorem invHoldsAtLaunch : Obligations.InvHoldsAtLaunch := by
  unfold Obligations.InvHoldsAtLaunch
  have hlaunch : ∀ (cfg : Straps) (rx : RxPort) (tx : TxPort) (n : Nat) (sticky : Bool) (sched : List Event)
      (agenda : Agenda), rx.closes = rx.closed.toNat → tx.closes = tx.closed.toNat →
      (State.launch cfg rx tx n sticky sched agenda).Inv := fun cfg rx tx n sticky sched agenda hrx htx =>
    (State.inv_iff _).2 ⟨RBuf.empty_inv _, rfl, rfl, .nil _, hrx, htx⟩
  exact ⟨hlaunch _ _ _ _ _ _ _ rfl rfl, hlaunch⟩

/-! ## Reset (R39, R240 to R243) -/

/-- Straps in the range of R243. -/
structure LegalStraps (pins : StrapPins) : Prop where
  rdStyle : pins.rdStyle.toNat ≤ 9
  wrStyle : pins.wrStyle.toNat ≤ 9
  capPos : 1 ≤ pins.cap
  capMax : pins.cap ≤ 2147483647

theorem Style.ofCode_legal {c : BitVec 4} (h : c.toNat ≤ 9) : ∃ st, Style.ofCode c = some st ∧ st.code = c := by
  have key : ∀ c : BitVec 4, c.toNat ≤ 9 → (Style.ofCode c).map Style.code = some c := by decide
  simpa using key c h

@[simp] theorem ByteOrder.bit_ofBit (b : Bool) : (ByteOrder.ofBit b).bit = b := by cases b <;> rfl

/-- Legal straps are loaded as they stand at the pins (R30, R241). -/
theorem LegalStraps.load {pins : StrapPins} (h : LegalStraps pins) :
    ∃ cfg, StrapPins.load pins = some cfg ∧ cfg.CAP = pins.cap ∧
      (cfg.rd.style.code = pins.rdStyle ∧ cfg.rd.order.bit = pins.rdOrder ∧ cfg.rd.leaveOpen = pins.rdLeaveOpen) ∧
      cfg.wr.style.code = pins.wrStyle ∧ cfg.wr.order.bit = pins.wrOrder ∧ cfg.wr.leaveOpen = pins.wrLeaveOpen := by
  obtain ⟨r, hr, hrc⟩ := Style.ofCode_legal h.rdStyle
  obtain ⟨w, hw, hwc⟩ := Style.ofCode_legal h.wrStyle
  have hcap : 1 ≤ pins.cap ∧ pins.cap ≤ PAYLOAD_MAX := ⟨h.capPos, h.capMax⟩
  refine ⟨_, by simp only [StrapPins.load, hr, hw, dif_pos hcap]; rfl, ?_⟩
  exact ⟨Nat.sub_add_cancel h.capPos, ⟨hrc, ByteOrder.bit_ofBit _, rfl⟩, hwc, ByteOrder.bit_ofBit _, rfl⟩

/-- With legal straps reset leaves what R39 says. -/
theorem LegalStraps.reset {pins : StrapPins} (h : LegalStraps pins) :
    ∃ cfg, ∀ s : State, s.assertReset pins = .next (s.afterReset cfg) ∧ ResetLeft pins s (s.afterReset cfg) := by
  obtain ⟨cfg, hload, hcap, ⟨hrs, hro, hrl⟩, hws, hwo, hwl⟩ := h.load
  exact ⟨cfg, fun s => ⟨by simp only [State.assertReset, hload], rfl, rfl, rfl, rfl, rfl, rfl, rfl, rfl, rfl,
    hcap, hrs, hro, hrl, hws, hwo, hwl, rfl⟩⟩

/-- Reset between commands. -/
theorem step_reset {s : State} {pins : StrapPins} {rest : List Event} (h : s.schedule = .reset pins :: rest) :
    step s = (s.beginStep rest).assertReset pins := by
  have hl := State.lookAhead_cons h
  have hdue : s.due = none := by simp only [State.due, h]
  rw [step_of_due_none (by rw [hl, hdue]), hl, State.move, h]

/-! ### Inside a receive call -/

/-- The five reads, by their bodies. -/
theorem exec_read {i : Instr} (hi : i ∈ [Instr.rdReadMsg, .rdReadMsgC, .rdRead, .rdReadByte, .rdPeekLen])
    (s : State) : ∃ f : State → Run Response, Reads f ∧
      ∀ sc, exec i (s.rxAt s.rx s.rx.eof sc) = (f (s.rxAt s.rx s.rx.eof sc)).finish .reader := by
  simp only [List.mem_cons, List.not_mem_nil, or_false] at hi
  rcases hi with rfl | rfl | rfl | rfl | rfl
  · exact ⟨_, readMsgBody_reads, fun _ => rfl⟩
  · exact ⟨_, readMsgCBody_reads s.argNat, fun _ => rfl⟩
  · exact ⟨_, readBody_reads s.argNat, fun _ => rfl⟩
  · exact ⟨_, readBody_reads 1, fun _ => rfl⟩
  · exact ⟨_, peekLenBody_reads, fun _ => rfl⟩

/-- What a read past its last answer has taken from the port `p`, when it ends with a response. -/
theorem Run.Beyond.finish {p : RxPort} {r : Run Response} (h : r.Beyond p) {u : State}
    (hu : r.finish .reader = .next u) (hrsp : u.rsp ≠ none) :
    ∃ j, u.rx = { p.drop j with eof := u.rx.eof, script := [] } := by
  cases r with
  | done a s =>
    obtain ⟨j, eof, hs⟩ := h
    cases hu
    exact ⟨j, by rw [State.endCommand_rx, hs]⟩
  | raised st s =>
    obtain ⟨j, eof, hs⟩ := h
    cases hu
    exact ⟨j, by rw [State.raise_rx, hs]⟩
  | interrupted why s => exact h.elim
  | stuck s => cases hu; exact absurd rfl hrsp
  | stop f => cases hu

/-- Which bytes of the stream are gone says what `readTo` the state is. -/
theorem ReadPart.eq_readTo {s t : State} {k : Nat} {eof : Bool} {sc : List Answer}
    (h : ReadPart s (t.rxAt (s.rx.drop k) eof sc)) :
    ∃ b next, t.rxAt (s.rx.drop k) eof sc = s.readTo b next k eof sc := by
  generalize hv : t.rxAt (s.rx.drop k) eof sc = v at h ⊢
  obtain ⟨b, next, k', eof', sc', -, -⟩ := h
  have hrx : { s.rx.drop k with eof := eof, script := sc } = (s.readTo b next k' eof' sc').rx := congrArg State.rx hv
  exact ⟨b, next, (congrArg (fun p => { s with rb := b, rd := { s.rd with next := next }, rx := p }) hrx).symm⟩

/-- A read is struck in a call that it makes: the run that nothing strikes uses up one answer more than
`moves`. How it then ends, what it has taken, and what it takes when nothing strikes. -/
theorem exec_read_struck {i : Instr} (hi : i ∈ [Instr.rdReadMsg, .rdReadMsgC, .rdRead, .rdReadByte, .rdPeekLen])
    {s : State} {moves sc : List Answer} {n m : Nat} {why : Interruption} (hm : moves.all Answer.isMove = true)
    (hs : s.rx.script = moves ++ .interrupt n why :: sc) {v : State}
    (hv : exec i (s.rxAt s.rx s.rx.eof (moves ++ [.move m])) = .next v) (hmade : v.rx.script = []) :
    ∃ b next k eof, exec i s = (s.readTo b next k eof sc).interrupted .reader why ∧
      (v.rsp ≠ none → ∃ j, v.rx = { s.rx.drop (k + j) with eof := v.rx.eof, script := [] }) := by
  obtain ⟨f, hf, hexec⟩ := exec_read hi s
  have htwin := hf.twin ⟨n, why, sc, m⟩ s s.rx s.rx.eof hm
  simp only [Strike.cut, Strike.calm] at htwin
  rw [← hs, State.rxAt_self] at htwin
  have hstruck := hexec s.rx.script
  rw [State.rxAt_self] at hstruck
  rw [hexec] at hv
  have hleaves := hf.leaves s
  generalize f s = r at *
  generalize f (s.rxAt s.rx s.rx.eof (moves ++ [.move m])) = r' at *
  cases htwin with
  | done a t k eof h => cases hv; simp [Strike.calm] at hmade
  | raised st t k eof => cases hv; simp [Strike.calm] at hmade
  | stop e => cases hv
  | struck t k eof hb =>
    obtain ⟨-, hpart⟩ := hleaves
    obtain ⟨b, next, hread⟩ := hpart.eq_readTo
    refine ⟨b, next, k, eof, by rw [← hread]; exact hstruck, fun hrsp => ?_⟩
    obtain ⟨j, hj⟩ := hb.finish hv hrsp
    exact ⟨j, by rw [RxPort.drop_add]; exact hj⟩

/-! ### Inside a transmit call -/

theorem txWriteLoop_struck {moves sc : List Answer} {n fuel : Nat} {why : Interruption} {bytes : Bytes} {s : State}
    (hm : moves.all Answer.isMove = true) (hs : s.tx.script = moves ++ .interrupt n why :: sc)
    (ha : accepted moves bytes.length < bytes.length) (hf : bytes.length ≤ fuel) :
    txWriteLoop fuel bytes s = .interrupted why { s with tx := { s.tx with
      stream := s.tx.stream ++ bytes.take (accepted moves bytes.length + n), script := sc } } := by
  have hb : bytes.isEmpty = false := by rw [List.isEmpty_eq_false_iff, ← List.length_pos_iff]; omega
  obtain ⟨fuel, rfl⟩ : ∃ f, fuel = f + 1 := ⟨fuel - 1, by omega⟩
  induction moves generalizing fuel bytes s with
  | nil => simp [txWriteLoop, hb, hs, accepted]
  | cons a moves ih =>
    rcases a with q | ⟨m, w⟩
    · have hm' : moves.all Answer.isMove = true := by simpa [Answer.isMove] using hm
      have hmoved := movedBy_bounds (some (.move q)) (avail := bytes.length) (by omega)
      simp only [accepted] at ha ⊢
      have hloop : txWriteLoop (fuel + 1) bytes s = txWriteLoop fuel
          (bytes.drop (movedBy (some (.move q)) bytes.length))
          { s with tx := { s.tx with
            stream := s.tx.stream ++ bytes.take (movedBy (some (.move q)) bytes.length),
            script := moves ++ .interrupt n why :: sc } } := by
        simp [txWriteLoop, hb, hs]
      generalize movedBy (some (.move q)) bytes.length = j at *
      have hlen : (bytes.drop j).length = bytes.length - j := List.length_drop
      obtain ⟨fuel, rfl⟩ : ∃ f, fuel = f + 1 := ⟨fuel - 1, by omega⟩
      rw [hloop, ih hm' rfl (by rw [hlen]; omega) (by rw [List.isEmpty_eq_false_iff, ← List.length_pos_iff]; omega)
        fuel (by omega)]
      simp only [List.append_assoc, hlen, Nat.add_assoc, List.take_add]
    · simp [Answer.isMove] at hm

/-- A frame that the style can hold is written as one (R191). -/
theorem emitFrame_eq_txWrite {s : State} {p : Bytes} (hw : Style.within s.cfg.wr.style p.length = true)
    (hp : p.length ≤ PAYLOAD_MAX) : emitFrame p s = txWrite (frameOf s.cfg.wr p) s := by
  obtain ⟨pre, hpre⟩ := encodePrefix_within s.cfg.wr.order hw hp
  simp [emitFrame, hw, hpre, frameOf]

theorem chunkOf_unbounded {st : Style} (h : st ∈ unboundedStyles) (data : Bytes) (i : Nat) :
    chunkOf st data i = data := by
  simp only [unboundedStyles, List.mem_cons, List.not_mem_nil, or_false] at h
  rcases h with rfl | rfl | rfl | rfl | rfl | rfl <;> rfl

theorem chunkOf_bounded {st : Style} {M : Nat} (h : (st, M) ∈ boundedStyles) (data : Bytes) (i : Nat) :
    chunkOf st data i = (data.drop (i * M)).take M := by
  simp only [boundedStyles, List.mem_cons, Prod.mk.injEq, List.not_mem_nil, or_false] at h
  rcases h with ⟨rfl, rfl⟩ | ⟨rfl, rfl⟩ | ⟨rfl, rfl⟩ | ⟨rfl, rfl⟩ <;> rfl

/-- A write whose frame is cut short is cut short so (R226 (b), R242). -/
theorem exec_emits_interrupted {s t : State} {i : Instr} {p : Bytes} {why : Interruption} (h : Emits s i p)
    (hr : emitFrame p s = .interrupted why t) : exec i s = t.interrupted .writer why := by
  obtain ⟨hready, hform, -, -⟩ := h
  have hc := writerChecks_ready hready
  rcases hform with ⟨rfl, rfl⟩ | ⟨rfl, rfl⟩ | ⟨rfl, harg, hchunk⟩
  · change ((writerChecks s).bind _).finish .writer = _
    rw [hc, Run.bind_done, hr]
    rfl
  · change ((writerChecks s).bind _).finish .writer = _
    rw [hc, Run.bind_done, show s.argByte = s.arg.extractLsb' 0 8 from rfl, hr]
    rfl
  · have hp : chunkOf s.cfg.wr.style (s.din.take s.argNat) s.txn.chunk = p := by
      rcases hchunk with ⟨hst, rfl⟩ | ⟨M, hst, rfl⟩
      · exact chunkOf_unbounded hst _ _
      · exact chunkOf_bounded hst _ _
    change (writeBody s).finishChunk .writer = _
    rw [writeBody, hc, Run.bind_done, if_neg (by simpa using harg), hp, hr]
    rfl

theorem exec_emits_struck {s : State} {i : Instr} {p : Bytes} {moves sc : List Answer} {n : Nat} {why : Interruption}
    (h : Emits s i p) (hm : moves.all Answer.isMove = true) (hs : s.tx.script = moves ++ .interrupt n why :: sc)
    (ha : accepted moves (frameOf s.cfg.wr p).length < (frameOf s.cfg.wr p).length) :
    exec i s = State.interrupted { s with tx := { s.tx with
      stream := s.tx.stream ++ (frameOf s.cfg.wr p).take (accepted moves (frameOf s.cfg.wr p).length + n),
      script := sc } } .writer why := by
  refine exec_emits_interrupted h ?_
  obtain ⟨-, -, hlen, hwithin⟩ := h
  rw [emitFrame_eq_txWrite hwithin hlen, txWrite, txWriteLoop_struck hm hs ha (Nat.le_refl _)]

/-! ### Inside a flush or a close (log 25) -/

theorem txControl_reset (act : TxPort → TxPort) {s : State} {n : Nat} {pins : StrapPins} {sc : List Answer}
    (hs : s.tx.script = .interrupt n (.reset pins) :: sc) : txControl act s = .interrupted (.reset pins)
      { s with tx := if n = 0 then { s.tx with script := sc } else act { s.tx with script := sc } } := by
  simp [txControl, hs]

theorem rxClose_reset {s : State} {n : Nat} {pins : StrapPins} {sc : List Answer}
    (hs : s.rx.script = .interrupt n (.reset pins) :: sc) : rxClose s = .interrupted (.reset pins)
      { s with rx := if n = 0 then { s.rx with script := sc } else RxPort.close { s.rx with script := sc } } := by
  simp [rxClose, hs]

theorem exec_wrFlush_reset {s : State} {n : Nat} {pins : StrapPins} {sc : List Answer} (h : s.writerReady = true)
    (hs : s.tx.script = .interrupt n (.reset pins) :: sc) : exec .wrFlush s = State.assertReset
      { s with tx := { s.tx with
        flushes := if n = 0 then s.tx.flushes else s.tx.flushes + 1, script := sc } } pins := by
  change ((writerChecks s).bind fun _ s => (txFlush s).bind _).finish .writer = _
  rw [writerChecks_ready h, Run.bind_done, txFlush, txControl_reset _ hs]
  by_cases hn : n = 0 <;> simp only [hn, if_true, if_false] <;> rfl

theorem exec_wrClose_reset {s : State} {n : Nat} {pins : StrapPins} {sc : List Answer} (h : s.wr.closed = false)
    (hl : s.cfg.wr.leaveOpen = false) (hs : s.tx.script = .interrupt n (.reset pins) :: sc) :
    exec .wrClose s = State.assertReset
      { s with
          wr := { s.wr with closed := true },
          tx := if n = 0 then { s.tx with script := sc } else
            { s.tx with
                closed := true, closes := if s.tx.closed then s.tx.closes else s.tx.closes + 1,
                script := sc } } pins := by
  rw [exec_wrClose_closes h hl, txClose, txControl_reset (s := { s with wr := { s.wr with closed := true } }) _ hs,
    TxPort.close_eq]
  rfl

theorem exec_rdClose_reset {s : State} {n : Nat} {pins : StrapPins} {sc : List Answer} (h : s.rd.closed = false)
    (hl : s.cfg.rd.leaveOpen = false) (hs : s.rx.script = .interrupt n (.reset pins) :: sc) :
    exec .rdClose s = State.assertReset
      { s with
          rd := { s.rd with closed := true },
          rx := if n = 0 then { s.rx with script := sc } else
            { s.rx with
                closed := true, closes := if s.rx.closed then s.rx.closes else s.rx.closes + 1,
                script := sc } } pins := by
  rw [exec_rdClose_closes h hl, rxClose_reset (s := { s with rd := { s.rd with closed := true } }) hs, RxPort.close_eq]
  rfl

/-- Settles O9: wherever reset strikes, the command comes to `assertReset` of a state that differs from the
one named only in what reset overwrites. -/
theorem resetLeavesFreshBlock : Obligations.ResetLeavesFreshBlock := by
  unfold Obligations.ResetLeavesFreshBlock
  intro s pins hrd hwr hpos hmax
  obtain ⟨cfg, hreset⟩ := LegalStraps.reset ⟨hrd, hwr, hpos, hmax⟩
  have hleft : ∀ {o : Host.Outcome State Fault Refusal} {v v' : State}, o = v.assertReset pins →
      v.afterReset cfg = v'.afterReset cfg → ∃ t, o = .next t ∧ ResetLeft pins v' t := by
    intro o v v' ho hv
    exact ⟨v'.afterReset cfg, by rw [ho, (hreset v).1, hv], (hreset v').2⟩
  refine ⟨fun rest h => hleft (step_reset h) rfl, ?_, ?_, fun n sc => ⟨?_, ?_, ?_⟩⟩
  · rintro i moves sc m n calm hi hm hs rfl ⟨v, hv, hmade⟩
    obtain ⟨b, next, k, eof, hexec, hcalm⟩ := exec_read_struck hi hm hs hv hmade
    obtain ⟨t, ht, hres⟩ := hleft (v' := { s with rx := { s.rx.drop k with eof := eof, script := sc } }) hexec rfl
    refine ⟨t, k, eof, ht, hres, fun u hu hrsp => ?_⟩
    obtain rfl : v = u := by
      have := hv.symm.trans hu
      cases this
      rfl
    exact hcalm hrsp
  · intro i p moves sc n h hm hs ha
    exact hleft (exec_emits_struck h hm hs ha) rfl
  · exact fun h hs => hleft (exec_wrFlush_reset h hs) rfl
  · exact fun h hl hs => hleft (exec_wrClose_reset h hl hs) rfl
  · exact fun h hl hs => hleft (exec_rdClose_reset h hl hs) rfl

/-! ## Whole frames (R163 to R167) -/

/-- A whole frame of `L` bytes is next, its payload at the front of `rest`; no receive call is cut short. -/
structure State.FrameNext (s : State) (rest : RxPort) (L : Nat) : Prop where
  calm : s.rxCalm = true
  upcoming : ∃ V, s.upcoming = some (V, rest) ∧ Style.ival s.cfg.rd.style V = (L : Int)
  pos : 1 ≤ L
  holds : rest.holds L = true

/-- `s` with that frame gone from the transport and the length forgotten. -/
def State.frameTaken (s : State) (rest : RxPort) (L : Nat) (sc : List Answer) : State :=
  { s with rd := { s.rd with next := none }, rx := { rest.drop L with script := sc } }

theorem State.upcoming_eof {s : State} {V : Scalar} {rest : RxPort} (h : s.upcoming = some (V, rest)) :
    rest.eof = s.rx.eof := by
  unfold State.upcoming at h
  split at h
  · cases h; rfl
  · split at h
    · rename_i c _
      cases h
      exact (s.rx.drop_fields c).1
    · cases h

theorem State.FrameNext.length_front {s : State} {rest : RxPort} {L : Nat} (h : s.FrameNext rest L) :
    (rest.front L).length = L := RxPort.holds_iff.1 h.holds

theorem State.FrameNext.withRb {s : State} {rest : RxPort} {L : Nat} (h : s.FrameNext rest L) (b : RBuf) :
    State.FrameNext { s with rb := b } rest L := ⟨h.calm, h.upcoming, h.pos, h.holds⟩

theorem State.FrameNext.pulls {s : State} {rest : RxPort} {L : Nat} (h : s.FrameNext rest L) :
    ∃ sc, pullFrame s = .done (some (rest.front L)) (s.frameTaken rest L sc) := by
  obtain ⟨hcalm, ⟨V, hup, hL⟩, hpos, hholds⟩ := h
  obtain ⟨sc, -, hr⟩ := pullFrame_calm hcalm
  have heof : (rest.drop L).eof = s.rx.eof := (rest.drop_fields L).1.trans (State.upcoming_eof hup)
  have hnlt : ¬ (L : Int) < 1 := by omega
  simp only [hup, hL, Int.toNat_natCast, hnlt, if_false, hholds, if_true] at hr
  exact ⟨sc, by rw [hr, ← heof]; rfl⟩

/-- A length that has been resolved is that of the same frame (R161, R165). -/
theorem State.FrameNext.resolves {s : State} {rest : RxPort} {L : Nat} (h : s.FrameNext rest L) :
    ∃ t : State, resolve s = .done (L : Int) t ∧
      ∃ sc, pullFrame t = .done (some (rest.front L)) (s.frameTaken rest L sc) := by
  obtain ⟨hcalm, ⟨V, hup, hL⟩, hpos, hholds⟩ := h
  obtain ⟨sc, hsc, hr⟩ := resolve_calm hcalm
  simp only [hup, hL] at hr
  have heof := State.upcoming_eof hup
  have hnext : State.FrameNext ((s.rxAt rest s.rx.eof sc).knowNext V) { rest with eof := s.rx.eof, script := sc } L :=
    ⟨hsc, ⟨V, rfl, hL⟩, hpos, by rwa [RxPort.holds_at]⟩
  obtain ⟨sc', hpull⟩ := hnext.pulls
  refine ⟨_, hr, sc', ?_⟩
  rw [hpull, RxPort.front_at, State.frameTaken, State.frameTaken, RxPort.drop_at,
    ← (rest.drop_fields L).1.trans heof]
  rfl

/-! ### The buffer's operations inside a command -/

theorem rbFill_eq {s : State} {bs : Bytes} {asMsg : Bool} {b : RBuf} (h : s.rb.fill s.cfg.CAP bs asMsg = .ok b) :
    rbFill bs asMsg s = .done .unit { s with rb := b } := by
  simp [rbFill, h]

theorem rbDrain_eq {s : State} {m : Nat} {out : Bytes} {b : RBuf} (h : s.rb.drain s.cfg.CAP m = some (out, b)) :
    rbDrain m s = .done out { s with rb := b } := by
  simp [rbDrain, h]

theorem rbDrainMsg_eq {s : State} {out : Bytes} {b : RBuf} (h : s.rb.drainMsg s.cfg.CAP = some (out, b)) :
    rbDrainMsg s = .done out { s with rb := b } := by
  simp [rbDrainMsg, h]

/-! ### `RD.READMSG` and `RD.READMSGC` -/

theorem RBuf.fill_queue {cap : Nat} {b b' : RBuf} {bs : Bytes} {asMsg : Bool} (h : b.fill cap bs asMsg = .ok b') :
    b'.queue = if asMsg then b.queue ++ [(b.stop, bs.length)] else b.queue := by
  unfold RBuf.fill at h
  split at h
  · cases h
  · split at h <;> cases h
    rfl

/-- After a fill into a buffer without records, `TakeMsg` of a large enough destination drains what was filled
(R165). -/
theorem rbFill_takeMsg {α : Type} {s : State} {p : Bytes} {dstCap : Nat} (hq : s.rb.queue = [])
    (hp : p.length ≤ dstCap) (k : Bytes → State → Run α) :
    ((rbFill p true s).bind fun _ s => (takeMsg dstCap s).bind k) =
      (rbFill p true s).bind fun _ s => (rbDrainMsg s).bind k := by
  rcases hf : s.rb.fill s.cfg.CAP p true with b | _ | _
  · have hb := RBuf.fill_queue hf
    simp only [hq, if_true, List.nil_append] at hb
    simp [rbFill, hf, takeMsg, hb, Nat.not_lt.2 hp]
  · simp [rbFill, hf]
  · simp [rbFill, hf]

/-- With no record and a whole frame next, both commands fill the frame in as a record and drain it. -/
theorem exec_readMsg_frame {s : State} {i : Instr} {rest : RxPort} {L : Nat}
    (hi : i = .rdReadMsg ∨ (i = .rdReadMsgC ∧ L ≤ s.arg.toNat)) (hready : s.readerReady = true)
    (hq : s.rb.queue = []) (h : s.FrameNext rest L) :
    ∃ sc, exec i s = ((rbFill (rest.front L) true (s.frameTaken rest L sc)).bind fun _ s =>
      (rbDrainMsg s).bind fun m s => .done (.data m) s).finish .reader := by
  rcases hi with rfl | ⟨rfl, hcap⟩
  · obtain ⟨sc, hpull⟩ := h.pulls
    refine ⟨sc, ?_⟩
    change (readMsgBody s).finish .reader = _
    simp only [readMsgBody, readerChecks_ready hready, Run.bind_done, rbDrainMsg_nil hq, List.length_nil, lt_irrefl,
      if_false, hpull]
  · obtain ⟨t, hresolve, sc, hpull⟩ := h.resolves
    refine ⟨sc, ?_⟩
    have htake : takeMsg s.argNat s = .done [] s := by simp [takeMsg, hq]
    have hfits : ¬ (1 ≤ (L : Int) ∧ ((s.argNat : Nat) : Int) < L) := by rw [State.argNat_eq]; omega
    change (readMsgCBody s.argNat s).finish .reader = _
    simp only [readMsgCBody, readerChecks_ready hready, Run.bind_done, htake, List.length_nil, lt_irrefl,
      if_false, hresolve, hfits, hpull]
    refine congrArg (Run.finish .reader) (rbFill_takeMsg (s := s.frameTaken rest L sc) hq ?_ _)
    rw [h.length_front]
    exact hcap

/-- A buffer without records after `bs` has been filled in as a message and drained again: only the store behind
its end differs (R154). -/
def RBuf.passed (b : RBuf) (bs : Bytes) : RBuf := ⟨memSetN b.mem b.stop bs, b.start, b.stop, []⟩

theorem RBuf.passed_unread {cap : Nat} {b : RBuf} (h : b.inv cap = true) (bs : Bytes) :
    (b.passed bs).unread = b.unread := by
  obtain ⟨hle, -, -, -, -, hrising, -⟩ := (RBuf.inv_iff cap b).1 h
  exact memGetN_memSetN_other hrising (Nat.zero_le _) _ (.inl (by dsimp only [RBuf.passed]; omega))

theorem RBuf.fill_message {cap : Nat} {b : RBuf} (h : b.inv cap = true) (hq : b.queue = []) {bs : Bytes}
    (hs : bs.length ≤ cap - b.stop) : b.fill cap bs true =
      .ok ⟨memSetN b.mem b.stop bs, b.start, b.stop + bs.length, [(b.stop, bs.length)]⟩ := by
  rw [RBuf.fill_fits h hs, if_pos rfl, hq, List.nil_append]

/-- That message is what the drain answers (R150): its record is at the front, or behind raw bytes. -/
theorem RBuf.drainMsg_message {cap : Nat} {b : RBuf} (h : b.inv cap = true) (hq : b.queue = []) {bs : Bytes}
    (hpos : 1 ≤ bs.length) (hs : bs.length ≤ cap - b.stop) :
    RBuf.drainMsg cap ⟨memSetN b.mem b.stop bs, b.start, b.stop + bs.length, [(b.stop, bs.length)]⟩ =
      some (bs, b.passed bs) := by
  have hinv := RBuf.fill_inv h (RBuf.fill_message h hq hs)
  obtain ⟨hle, -, hempty, -, -, hrising, -⟩ := (RBuf.inv_iff cap b).1 h
  have hsame := memGetN_memSetN_same hrising (Nat.zero_le b.stop) bs
  by_cases he : b.start = b.stop
  · have h0 := hempty he
    rw [RBuf.drainMsg_front hinv (l := bs.length) (q := []) (by rw [he])]
    simp only [he, hsame]
    rw [RBuf.normalize, if_pos ⟨rfl, by dsimp only; omega⟩]
    simp only [RBuf.passed, List.map_nil, he, h0]
  · rw [RBuf.drainMsg_behind hinv (o := b.stop) (l := bs.length) (q := []) rfl (Ne.symm he)]
    simp only [RBuf.passed, hsame, Nat.sub_self, memGetN, memSetN, Nat.add_sub_cancel, List.map_nil]

/-- A write leaves every other byte of the store as it was. -/
theorem sameOutside_memSetN {m : List Host.Cell} (h : memRising 0 m = true) (a : Nat) (bs : Bytes) :
    SameOutside m (memSetN m a bs) a bs.length := by
  intro a' ha
  rw [memGet_memSetN h (Nat.zero_le a), if_neg (by omega)]

/-- Settles O36: the frame passes through the store behind the buffer's end. -/
theorem readMsgReturnsNextFrame : Obligations.ReadMsgReturnsNextFrame := by
  unfold Obligations.ReadMsgReturnsNextFrame
  intro s i V rest L hi hready hcalm hinv hq hup hL hpos hholds hfits
  have hframe : s.FrameNext rest L := ⟨hcalm, ⟨V, hup, hL⟩, hpos, hholds⟩
  obtain ⟨sc, hexec⟩ := exec_readMsg_frame hi hready hq hframe
  have hlen := hframe.length_front
  have hfits' : (rest.front L).length ≤ s.cfg.CAP - s.rb.stop := by rwa [hlen]
  have hdrain := RBuf.drainMsg_message hinv hq (by rwa [hlen]) hfits'
  have houtside := sameOutside_memSetN ((RBuf.inv_iff _ s.rb).1 hinv).rising s.rb.stop (rest.front L)
  rw [hlen] at houtside
  refine ⟨State.endCommand { s.frameTaken rest L sc with rb := s.rb.passed (rest.front L) } .reader
    (.data (rest.front L)), ?_, rfl, ?_, rfl, rfl, rfl, rfl, rfl, RBuf.passed_unread hinv _, houtside⟩
  · rw [hexec, rbFill_eq (s := s.frameTaken rest L sc) (RBuf.fill_message hinv hq hfits'), Run.bind_done,
      rbDrainMsg_eq hdrain]
    rfl
  · simp only [State.endCommand_rsp, Response.data, cntOf, hlen]
    rfl

/-! ### `RD.READ` and `RD.READBYTE` -/

/-- A raw drain of more than is unread (R146). -/
theorem RBuf.drain_short {cap : Nat} {b : RBuf} (h : b.inv cap = true) {m : Nat} (hm : b.stop - b.start < m) :
    b.drain cap m = some (b.unread, b.drained) := by
  obtain ⟨hle, -, hempty, hinside, -, -, -⟩ := (RBuf.inv_iff cap b).1 h
  rcases Nat.lt_or_eq_of_le hle with hlt | he
  · exact RBuf.drain_all h (by omega) hlt
  · have h0 := hempty he
    have hq : b.queue.filter (fun r => b.start ≤ r.1) = b.drained.queue := by
      simp only [RBuf.drained, he]
      refine (List.map_id _).symm.trans (List.map_congr_left fun r hr => ?_)
      have := (hinside r (List.mem_of_mem_filter hr)).2
      exact Prod.ext (by dsimp only [id]; omega) rfl
    rw [RBuf.drain_part h (.inr he), List.take_of_length_le (by simp [he])]
    simp only [he, Nat.sub_self, Nat.min_zero, Nat.add_zero]
    rw [← he, hq]
    simp only [RBuf.drained, he, h0]

theorem RBuf.drained_inv {cap : Nat} {b : RBuf} (h : b.inv cap = true) : b.drained.inv cap = true :=
  (RBuf.drain_inv h (RBuf.drain_short h (Nat.lt_succ_self _))).1

/-- The buffer after everything unread has been drained and `bs` filled in as raw bytes (R166). -/
def RBuf.refilled (b : RBuf) (bs : Bytes) : RBuf := ⟨memSetN b.mem 0 bs, 0, bs.length, b.drained.queue⟩

theorem RBuf.fill_drained {cap : Nat} {b : RBuf} (h : b.inv cap = true) {bs : Bytes} (hs : bs.length ≤ cap) :
    b.drained.fill cap bs false = .ok (b.refilled bs) := by
  rw [RBuf.fill_fits (RBuf.drained_inv h) (by simpa [RBuf.drained] using hs)]
  simp [RBuf.refilled, RBuf.drained]

theorem RBuf.refilled_unread {cap : Nat} {b : RBuf} (h : b.inv cap = true) (bs : Bytes) :
    (b.refilled bs).unread = bs :=
  memGetN_memSetN_same ((RBuf.inv_iff cap b).1 h).rising (Nat.le_refl 0) bs

/-- A drain of `m` of those raw bytes leaves the rest of them, and no record. -/
theorem RBuf.drain_refilled {cap : Nat} {b : RBuf} (h : b.inv cap = true) {bs : Bytes} (hs : bs.length ≤ cap)
    (hpos : 1 ≤ bs.length) {m : Nat} (hm : 1 ≤ m) :
    ∃ b' : RBuf, (b.refilled bs).drain cap m = some (bs.take m, b') ∧ b'.mem = memSetN b.mem 0 bs ∧
      b'.unread = bs.drop m ∧ b'.queue = [] ∧ (m < bs.length → b'.start = m ∧ b'.stop = bs.length) ∧
      (bs.length ≤ m → b'.start = 0 ∧ b'.stop = 0) := by
  have hinv := RBuf.fill_inv (RBuf.drained_inv h) (RBuf.fill_drained h hs)
  obtain ⟨out, b', hd⟩ := RBuf.drain_isSome hinv m
  obtain ⟨-, hmem, rfl, hunread⟩ := RBuf.drain_inv hinv hd
  rw [RBuf.refilled_unread h] at hd hunread
  have hfilter : ∀ k, 1 ≤ k → (b.refilled bs).queue.filter (fun r => k ≤ r.1) = [] := fun k hk => by
    rw [List.filter_eq_nil_iff]
    intro r hr
    obtain ⟨r', -, rfl⟩ := List.mem_map.1 (show r ∈ b.drained.queue from hr)
    simpa using Nat.ne_of_gt hk
  refine ⟨b', hd, hmem, hunread, ?_⟩
  have hstop : (b.refilled bs).stop - (b.refilled bs).start = bs.length := rfl
  by_cases hlt : m < bs.length
  · rw [RBuf.drain_part hinv (.inl hlt), Option.some.injEq, Prod.mk.injEq] at hd
    obtain ⟨-, rfl⟩ := hd
    rw [hstop, Nat.min_eq_left (Nat.le_of_lt hlt)]
    exact ⟨hfilter _ (Nat.le_trans hm (Nat.le_add_left m _)), fun _ => ⟨Nat.zero_add m, rfl⟩, fun hge => by omega⟩
  · rw [RBuf.drain_all hinv (Nat.le_of_not_lt hlt) hpos, Option.some.injEq, Prod.mk.injEq] at hd
    obtain ⟨-, rfl⟩ := hd
    exact ⟨by rw [hfilter (b.refilled bs).stop hpos]; rfl, fun h => absurd h hlt, fun _ => ⟨rfl, rfl⟩⟩

/-- With less unread than asked for and a whole frame next, the frame is filled in as raw bytes behind the
drain of everything unread (R166). -/
theorem readBody_frame {s : State} {count : Nat} {rest : RxPort} {L : Nat} (hready : s.readerReady = true)
    (hinv : s.rb.inv s.cfg.CAP = true) (hcount : s.rb.stop - s.rb.start < count) (h : s.FrameNext rest L) :
    ∃ sc, readBody count s =
      (rbFill (rest.front L) false (State.frameTaken { s with rb := s.rb.drained } rest L sc)).bind fun _ t =>
        (rbDrain (count - (s.rb.stop - s.rb.start)) t).bind fun d t => .done (.data (s.rb.unread ++ d)) t := by
  obtain ⟨sc, hpull⟩ := (h.withRb s.rb.drained).pulls
  have hne : ¬ s.rb.unread.length = count := by rw [RBuf.unread_length]; omega
  refine ⟨sc, ?_⟩
  rw [readBody, readerChecks_ready hready, Run.bind_done, rbDrain_eq (RBuf.drain_short hinv hcount), Run.bind_done,
    if_neg hne, hpull]
  simp only [Run.bind_done, RBuf.unread_length]

/-- `RD.READ` and `RD.READBYTE` by their one body (R166, R167). -/
theorem exec_readCount {s : State} {i : Instr} {count : Nat}
    (hi : (i = .rdRead ∧ count = s.arg.toNat) ∨ (i = .rdReadByte ∧ count = 1)) :
    exec i s = (readBody count s).finish .reader := by
  rcases hi with ⟨rfl, rfl⟩ | ⟨rfl, rfl⟩ <;> rfl

/-- Settles O41: the drained buffer takes the frame from index 0 on, and gives up its front. -/
theorem readPullsOneFrame : Obligations.ReadPullsOneFrame := by
  unfold Obligations.ReadPullsOneFrame
  intro s i count V rest L hi hready hcalm hinv hcount hup hL hpos hholds hfits
  have hframe : s.FrameNext rest L := ⟨hcalm, ⟨V, hup, hL⟩, hpos, hholds⟩
  obtain ⟨sc, hbody⟩ := readBody_frame hready hinv hcount hframe
  have hlen := hframe.length_front
  have hfits' : (rest.front L).length ≤ s.cfg.CAP := by rwa [hlen]
  obtain ⟨b, hdrain, hmem, hunread, hqueue, hpart, hall⟩ := RBuf.drain_refilled hinv hfits' (by rwa [hlen])
    (m := count - (s.rb.stop - s.rb.start)) (by omega)
  have houtside := sameOutside_memSetN ((RBuf.inv_iff _ s.rb).1 hinv).rising 0 (rest.front L)
  generalize count - (s.rb.stop - s.rb.start) = m at *
  have htake : (rest.front L).take m = rest.front (min m L) := by
    rw [List.take_eq_take_min, hlen, RxPort.take_front _ (Nat.min_le_right m L)]
  have hdrop : (rest.front L).drop m = (rest.front L).drop (min m L) := by
    rw [List.drop_eq_drop_min, hlen]
  rw [hlen] at hpart hall houtside
  rw [htake] at hdrain
  refine ⟨State.endCommand { State.frameTaken { s with rb := s.rb.drained } rest L sc with rb := b } .reader
    (.data (s.rb.unread ++ rest.front (min m L))), min m L, rfl, ?_, rfl, ?_, rfl, rfl, hunread.trans hdrop, hqueue,
    fun hk => ?_, fun hk => hall (by omega), ?_⟩
  · rw [exec_readCount hi, hbody, rbFill_eq (RBuf.fill_drained hinv hfits'), Run.bind_done, rbDrain_eq hdrain]
    rfl
  · have hfront : (rest.front (min m L)).length = min m L := by rw [← htake, List.length_take, hlen]
    simp only [State.endCommand_rsp, Response.data, cntOf, List.length_append, RBuf.unread_length, hfront]
    rfl
  · obtain ⟨hstart, hstop⟩ := hpart (by omega)
    exact ⟨hstart.trans (by omega), hstop⟩
  · rw [← hmem] at houtside
    exact houtside

/-! ### A frame that the buffer cannot take (R164, R166, R215) -/

/-- Settles O44: `RbFill` finds no room, and the frame has been taken off the transport before. -/
theorem oversizeFrameIsConsumedAndLost : Obligations.OversizeFrameIsConsumedAndLost := by
  unfold Obligations.OversizeFrameIsConsumedAndLost
  refine ⟨fun s i V rest L hi hready hcalm hq hup hL hholds hbig => ?_,
    fun s i V rest L hi hready hcalm hinv hup hL hholds hbig => ?_,
    fun p k => ⟨fun ht => RxPort.holds_infinite ht k, fun ht => ⟨RxPort.front_finite ht k, RxPort.drop_finite ht k⟩⟩⟩
  · have hframe : s.FrameNext rest L := ⟨hcalm, ⟨V, hup, hL⟩, by omega, hholds⟩
    obtain ⟨sc, hexec⟩ := exec_readMsg_frame hi hready hq hframe
    refine ⟨sc, ?_⟩
    rw [hexec, rbFill_exhausted (s := s.frameTaken rest L sc) (by rw [hframe.length_front]; exact hbig)]
    rfl
  · have hframe : s.FrameNext rest L := ⟨hcalm, ⟨V, hup, hL⟩, by omega, hholds⟩
    obtain ⟨count, hcount, hi'⟩ : ∃ count, s.rb.stop - s.rb.start < count ∧
        ((i = .rdRead ∧ count = s.arg.toNat) ∨ (i = .rdReadByte ∧ count = 1)) := by
      rcases hi with ⟨rfl, harg⟩ | ⟨rfl, he⟩
      · exact ⟨_, harg, .inl ⟨rfl, rfl⟩⟩
      · exact ⟨1, by omega, .inr ⟨rfl, rfl⟩⟩
    obtain ⟨sc, hbody⟩ := readBody_frame hready hinv hcount hframe
    refine ⟨sc, ?_⟩
    rw [exec_readCount hi', hbody, rbFill_exhausted (by rw [hframe.length_front]; exact hbig)]
    rfl

end Sys2Proof.Machine
end

section
/-! PROOFS. The family of spec/20_memory.md: what the transports' pieces and counts do not change, and which
command a step runs. -/

namespace Sys2Proof.Machine

/-! ## The sizes of the pieces do not matter (R61, R64)

`PieceBlind f` says that the part `f` of a command comes out the same whatever moves the two scripts hold. The
parts that call a transport have it by the laws of a calm transport, the others because they look at no script;
the bodies are put together from them. -/

section Pieces

variable {α β δ : Type}

/-- Both transports answer with moves only. -/
structure Calm (rx tx : List Answer) : Prop where
  rx : rx.all Answer.isMove = true
  tx : tx.all Answer.isMove = true

/-- The second run is the first but for the answers left, which are moves. Neither is cut short. -/
inductive Run.Rescripts : Run α → Run α → Prop
  | done (x : α) (s : State) {a b : List Answer} (h : Calm a b) : Rescripts (.done x s) (.done x (s.withScripts a b))
  | raised (st : Status) (s : State) (a b : List Answer) : Rescripts (.raised st s) (.raised st (s.withScripts a b))
  | stuck (s : State) (a b : List Answer) : Rescripts (.stuck s) (.stuck (s.withScripts a b))
  | stop (f : Fault) : Rescripts (.stop f) (.stop f)

/-- How the calls are answered shows in nothing but the answers left. -/
def PieceBlind (f : State → Run α) : Prop :=
  ∀ s : State, ∃ r, ∀ a b, Calm a b → Run.Rescripts r (f (s.withScripts a b))

theorem PieceBlind.bind {f : State → Run α} {k : α → State → Run β} (hf : PieceBlind f)
    (hk : ∀ x, PieceBlind (k x)) : PieceBlind fun s => (f s).bind k := by
  intro s
  obtain ⟨r, hr⟩ := hf s
  suffices h : ∃ q, ∀ r', Run.Rescripts r r' → Run.Rescripts q (r'.bind k) by
    obtain ⟨q, hq⟩ := h
    exact ⟨q, fun a b hc => hq _ (hr a b hc)⟩
  cases r with
  | done x t =>
    obtain ⟨q, hq⟩ := hk x t
    exact ⟨q, fun _ h => by cases h with | done _ _ hc => exact hq _ _ hc⟩
  | raised st t => exact ⟨.raised st t, fun _ h => by cases h with | raised _ _ a b => exact .raised st t a b⟩
  | interrupted why t => exact ⟨.interrupted why t, fun _ h => by cases h⟩
  | stuck t => exact ⟨.stuck t, fun _ h => by cases h with | stuck _ a b => exact .stuck t a b⟩
  | stop f => exact ⟨.stop f, fun _ h => by cases h with | stop => exact .stop f⟩

/-- What a part does may depend on anything but the scripts. -/
theorem PieceBlind.on (d : State → δ) {g : δ → State → Run α} (hd : ∀ s a b, d (s.withScripts a b) = d s)
    (hg : ∀ v, PieceBlind (g v)) : PieceBlind fun s => g (d s) s := by
  intro s
  obtain ⟨r, hr⟩ := hg (d s) s
  exact ⟨r, fun a b h => by simpa only [hd] using hr a b h⟩

theorem PieceBlind.ite {c : State → Prop} [DecidablePred c] {f g : State → Run α}
    (hc : ∀ s a b, c (s.withScripts a b) ↔ c s) (hf : PieceBlind f) (hg : PieceBlind g) :
    PieceBlind fun s => if c s then f s else g s := by
  intro s
  by_cases h : c s
  · simpa only [hc, h, if_true] using hf s
  · simpa only [hc, h, if_false] using hg s

/-- A part that writes something else than a script, and is done. -/
theorem PieceBlind.write (x : α) {w : State → State}
    (hw : ∀ s a b, w (s.withScripts a b) = (w s).withScripts a b) :
    PieceBlind fun s => .done x (w s) :=
  fun s => ⟨.done x (w s), fun a b h => by simp only [hw]; exact .done x (w s) h⟩

theorem PieceBlind.pure (x : α) : PieceBlind fun s => .done x s := .write x fun _ _ _ => rfl

theorem PieceBlind.raise (st : Status) {w : State → State}
    (hw : ∀ s a b, w (s.withScripts a b) = (w s).withScripts a b) :
    PieceBlind fun s => (.raised st (w s) : Run α) :=
  fun s => ⟨.raised st (w s), fun a b _ => by simp only [hw]; exact .raised st (w s) a b⟩

/-! ### The checks and the buffer -/

theorem readerChecks_pieceBlind : PieceBlind readerChecks :=
  .ite (c := fun s => s.rd.closed = true) (fun _ _ _ => Iff.rfl) (.raise _ fun _ _ _ => rfl) <|
    .ite (c := fun s => s.rd.poisoned = true) (fun _ _ _ => Iff.rfl) (.raise _ fun _ _ _ => rfl) (.pure _)

theorem writerChecks_pieceBlind : PieceBlind writerChecks :=
  .ite (c := fun s => s.wr.closed = true) (fun _ _ _ => Iff.rfl) (.raise _ fun _ _ _ => rfl) <|
    .ite (c := fun s => s.wr.poisoned = true) (fun _ _ _ => Iff.rfl) (.raise _ fun _ _ _ => rfl) (.pure _)

theorem rbFill_pieceBlind (bytes : Bytes) (asMsg : Bool) : PieceBlind (rbFill bytes asMsg) := by
  intro s
  rcases h : s.rb.fill s.cfg.CAP bytes asMsg with b | _ | _
  · exact ⟨.done .unit { s with rb := b }, fun x y hc => by
      rw [rbFill_eq (s := s.withScripts x y) h]; exact .done _ { s with rb := b } hc⟩
  · exact ⟨.raised .capacityExhausted s, fun _ _ _ => by
      simp only [rbFill, State.withScripts_rb, State.withScripts_cfg, h]; exact .raised _ s _ _⟩
  · exact ⟨.stop .storeAddress, fun _ _ _ => by
      simp only [rbFill, State.withScripts_rb, State.withScripts_cfg, h]; exact .stop _⟩

/-- The two drains: what comes out of the buffer and the buffer behind it, or an access outside the store. -/
theorem drain_pieceBlind {d : Nat → RBuf → Option (α × RBuf)} {f : State → Run α}
    (hsome : ∀ s out b, d s.cfg.CAP s.rb = some (out, b) → f s = .done out { s with rb := b })
    (hnone : ∀ s, d s.cfg.CAP s.rb = none → f s = .stop .storeAddress) : PieceBlind f := by
  intro s
  rcases h : d s.cfg.CAP s.rb with _ | ⟨out, b⟩
  · exact ⟨.stop .storeAddress, fun a b _ => by rw [hnone (s.withScripts a b) h]; exact .stop _⟩
  · exact ⟨.done out { s with rb := b }, fun x y hc => by
      rw [hsome (s.withScripts x y) out b h]; exact .done out { s with rb := b } hc⟩

theorem rbDrain_pieceBlind (m : Nat) : PieceBlind (rbDrain m) :=
  drain_pieceBlind (d := fun cap b => b.drain cap m) (fun _ _ _ => rbDrain_eq) fun s h => by simp [rbDrain, h]

theorem rbDrainMsg_pieceBlind : PieceBlind rbDrainMsg :=
  drain_pieceBlind (d := fun cap b => b.drainMsg cap) (fun _ _ _ => rbDrainMsg_eq) fun s h => by simp [rbDrainMsg, h]

theorem takeMsg_pieceBlind (dstCap : Nat) : PieceBlind (takeMsg dstCap) := by
  refine .on (fun s => s.rb.queue) (g := fun q s => match q with
    | [] => rbDrainMsg s
    | (_, l) :: _ => if l > dstCap then .raised .destTooSmall s else rbDrainMsg s) (fun _ _ _ => rfl) fun q => ?_
  rcases q with _ | ⟨⟨o, l⟩, q⟩
  · exact rbDrainMsg_pieceBlind
  · exact .ite (c := fun _ => l > dstCap) (fun _ _ _ => Iff.rfl) (.raise _ fun _ _ _ => rfl) rbDrainMsg_pieceBlind

/-! ### The calls of the transports -/

theorem Calm.rxCalm {a b : List Answer} (h : Calm a b) (s : State) : (s.withScripts a b).rxCalm = true := h.rx

theorem Calm.txCalm {a b : List Answer} (h : Calm a b) (s : State) : (s.withScripts a b).txCalm = true := h.tx

theorem Calm.tail {a b : List Answer} (h : Calm a b) : Calm a.tail b.tail :=
  ⟨List.all_eq_true.2 fun x hx => List.all_eq_true.1 h.rx x (List.mem_of_mem_tail hx),
    List.all_eq_true.2 fun x hx => List.all_eq_true.1 h.tx x (List.mem_of_mem_tail hx)⟩

theorem State.withScripts_front (s : State) (a b : List Answer) (k : Nat) :
    (s.withScripts a b).rx.front k = s.rx.front k := s.rx.front_at s.rx.eof a k

theorem State.withScripts_holds (s : State) (a b : List Answer) (n : Nat) :
    (s.withScripts a b).rx.holds n = s.rx.holds n := s.rx.holds_at s.rx.eof a n

theorem State.withScripts_drop (s : State) (a b : List Answer) (j : Nat) :
    (s.withScripts a b).rx.drop j = { s.rx.drop j with script := a } :=
  (s.rx.drop_at s.rx.eof a j).trans (by rw [← (s.rx.drop_fields j).1])

/-- The length to come is the same, and so is the port behind it but for the answers (R161). -/
theorem State.withScripts_upcoming (s : State) (a b : List Answer) :
    (s.withScripts a b).upcoming = s.upcoming.map fun y => (y.1, { y.2 with script := a }) := by
  have hreach : (s.withScripts a b).rx.reach = s.rx.reach := rfl
  rcases hn : s.rd.next with _ | v
  · simp only [State.upcoming, State.withScripts_rd, State.withScripts_cfg, hn, hreach, s.withScripts_front,
      s.withScripts_drop]
    cases decodePrefix s.cfg.rd.style s.cfg.rd.order (s.rx.front s.rx.reach) <;> rfl
  · simp only [State.upcoming, State.withScripts_rd, hn, Option.map_some, State.withScripts_rx]

theorem resolve_pieceBlind : PieceBlind resolve := by
  intro s
  rcases hu : s.upcoming with _ | ⟨V, q⟩
  · by_cases ht : s.rx.tail = .ends
    · refine ⟨.done 0 (s.rxAt { s.rx with stream := [] } true []), fun a b h => ?_⟩
      obtain ⟨sc, hsc, hr⟩ := resolve_calm (h.rxCalm s)
      rw [s.withScripts_upcoming, hu, Option.map_none] at hr
      rw [hr, if_pos (show (s.withScripts a b).rx.tail = _ from ht)]
      exact .done _ (s.rxAt { s.rx with stream := [] } true []) ⟨hsc, h.tx⟩
    · refine ⟨.stuck s.prefixPending, fun a b h => ?_⟩
      obtain ⟨sc, hsc, hr⟩ := resolve_calm (h.rxCalm s)
      rw [s.withScripts_upcoming, hu, Option.map_none] at hr
      rw [hr, if_neg (show ¬ (s.withScripts a b).rx.tail = _ from ht)]
      exact .stuck s.prefixPending [] b
  · refine ⟨.done (Style.ival s.cfg.rd.style V) ((s.rxAt q s.rx.eof []).knowNext V), fun a b h => ?_⟩
    obtain ⟨sc, hsc, hr⟩ := resolve_calm (h.rxCalm s)
    rw [s.withScripts_upcoming, hu, Option.map_some] at hr
    rw [hr]
    exact .done _ ((s.rxAt q s.rx.eof []).knowNext V) ⟨hsc, h.tx⟩

theorem readExact_pieceBlind (n : Nat) : PieceBlind (readExact n) := by
  intro s
  by_cases hn : s.rx.holds n = true
  · refine ⟨.done (.full (s.rx.front n)) (s.rxAt (s.rx.drop n) s.rx.eof []), fun a b h => ?_⟩
    obtain ⟨sc, hsc, hr⟩ := readExact_calm (h.rxCalm s) n
    rw [s.withScripts_holds, if_pos hn, s.withScripts_front, s.withScripts_drop] at hr
    rw [hr]
    exact .done _ (s.rxAt (s.rx.drop n) s.rx.eof []) ⟨hsc, h.tx⟩
  · refine ⟨.done (.short (s.rx.front n)) (s.rxAt (s.rx.drop n) true []), fun a b h => ?_⟩
    obtain ⟨sc, hsc, hr⟩ := readExact_calm (h.rxCalm s) n
    rw [s.withScripts_holds, if_neg hn, s.withScripts_front, s.withScripts_drop] at hr
    rw [hr]
    exact .done _ (s.rxAt (s.rx.drop n) true []) ⟨hsc, h.tx⟩

theorem pullFrame_pieceBlind : PieceBlind pullFrame := by
  refine resolve_pieceBlind.bind fun L => .ite (c := fun _ => L < 1) (fun _ _ _ => Iff.rfl)
    (.write none fun _ _ _ => rfl) ((readExact_pieceBlind L.toNat).bind fun g => ?_)
  cases g with
  | full p => exact .write (some p) fun _ _ _ => rfl
  | short p => exact .raise _ fun _ _ _ => rfl

theorem rxClose_pieceBlind : PieceBlind rxClose := by
  intro s
  refine ⟨.done .unit { s with rx := s.rx.close }, fun a b h => ?_⟩
  have hport : RxPort.close { (s.withScripts a b).rx with script := (s.withScripts a b).rx.script.tail } =
      { s.rx.close with script := a.tail } := by rw [RxPort.close_eq, RxPort.close_eq]; rfl
  rw [rxClose_calm (h.rxCalm s), hport]
  exact .done _ { s with rx := s.rx.close } ⟨h.tail.rx, h.tx⟩

theorem txWrite_pieceBlind (bytes : Bytes) : PieceBlind (txWrite bytes) := by
  intro s
  refine ⟨.done .unit { s with tx := { s.tx with stream := s.tx.stream ++ bytes } }, fun a b h => ?_⟩
  obtain ⟨sc, hsc, hr⟩ := txWrite_calm (h.txCalm s) bytes
  rw [hr]
  exact .done _ { s with tx := { s.tx with stream := s.tx.stream ++ bytes } } ⟨h.rx, hsc⟩

/-- A flush or a close, which does the same to the port whatever answers are left. -/
theorem txControl_pieceBlind {act : TxPort → TxPort}
    (hact : ∀ p sc, act { p with script := sc } = { act p with script := sc }) : PieceBlind (txControl act) := by
  intro s
  refine ⟨.done .unit { s with tx := act s.tx }, fun a b h => ?_⟩
  have hport : act { (s.withScripts a b).tx with script := (s.withScripts a b).tx.script.tail } =
      { act s.tx with script := b.tail } := hact s.tx b.tail
  rw [txControl_calm (h.txCalm s), hport]
  exact .done _ { s with tx := act s.tx } ⟨h.rx, h.tail.tx⟩

theorem txFlush_pieceBlind : PieceBlind txFlush := txControl_pieceBlind fun _ _ => rfl

theorem txClose_pieceBlind : PieceBlind txClose :=
  txControl_pieceBlind fun p sc => by rw [TxPort.close_eq, TxPort.close_eq]

/-! ### The bodies of the reader's commands -/

theorem readMsgBody_pieceBlind : PieceBlind readMsgBody := by
  refine readerChecks_pieceBlind.bind fun _ => rbDrainMsg_pieceBlind.bind fun m =>
    .ite (c := fun _ => m.length > 0) (fun _ _ _ => Iff.rfl) (.pure _) (pullFrame_pieceBlind.bind fun p => ?_)
  cases p with
  | none => exact .pure _
  | some p => exact (rbFill_pieceBlind p true).bind fun _ => rbDrainMsg_pieceBlind.bind fun _ => .pure _

theorem readMsgCBody_pieceBlind (dstCap : Nat) : PieceBlind (readMsgCBody dstCap) := by
  refine readerChecks_pieceBlind.bind fun _ => (takeMsg_pieceBlind dstCap).bind fun m =>
    .ite (c := fun _ => m.length > 0) (fun _ _ _ => Iff.rfl) (.pure _) (resolve_pieceBlind.bind fun L =>
      .ite (c := fun _ => 1 ≤ L ∧ (dstCap : Int) < L) (fun _ _ _ => Iff.rfl) (.raise _ fun _ _ _ => rfl)
        (pullFrame_pieceBlind.bind fun p => ?_))
  cases p with
  | none => exact .pure _
  | some p => exact (rbFill_pieceBlind p true).bind fun _ => (takeMsg_pieceBlind dstCap).bind fun _ => .pure _

theorem readBody_pieceBlind (count : Nat) : PieceBlind (readBody count) := by
  refine readerChecks_pieceBlind.bind fun _ => (rbDrain_pieceBlind count).bind fun d =>
    .ite (c := fun _ => d.length = count) (fun _ _ _ => Iff.rfl) (.pure _) (pullFrame_pieceBlind.bind fun p => ?_)
  cases p with
  | none => exact .pure _
  | some p => exact (rbFill_pieceBlind p false).bind fun _ => (rbDrain_pieceBlind _).bind fun _ => .pure _

theorem peekLenBody_pieceBlind : PieceBlind peekLenBody := by
  refine readerChecks_pieceBlind.bind fun _ => resolve_pieceBlind.bind fun _ => ?_
  refine .on (fun s => s.rd.next) (g := fun v s => match v with
    | some v => .done (Response.scalar v) s
    | none => .done (Response.scalar 0#64) s) (fun _ _ _ => rfl) fun v => ?_
  cases v <;> exact .pure _

theorem rdCloseBody_pieceBlind : PieceBlind rdCloseBody := by
  have hset : PieceBlind fun s => .done PUnit.unit { s with rd := { s.rd with closed := true } } :=
    .write _ fun _ _ _ => rfl
  refine .ite (c := fun s => s.rd.closed = true) (fun _ _ _ => Iff.rfl) (.pure _) <|
    .ite (c := fun s => s.cfg.rd.leaveOpen = true) (fun _ _ _ => Iff.rfl) (.write _ fun _ _ _ => rfl) ?_
  exact hset.bind fun _ => rxClose_pieceBlind.bind fun _ => .pure _

/-! ### The bodies of the writer's commands -/

theorem emitFrame_pieceBlind (p : Bytes) : PieceBlind (emitFrame p) := by
  refine .on (fun s => s.cfg.wr) (g := fun c s =>
    if Style.within c.style p.length then
      match encodePrefix c.style c.order (resOf p.length) with
      | some pre => txWrite (pre ++ p) s
      | none => .raised .operandRange s
    else .raised .lengthExceedsPrefix s) (fun _ _ _ => rfl) fun c => ?_
  refine .ite (c := fun _ => Style.within c.style p.length = true) (fun _ _ _ => Iff.rfl) ?_ (.raise _ fun _ _ _ => rfl)
  cases encodePrefix c.style c.order (resOf p.length) with
  | none => exact .raise _ fun _ _ _ => rfl
  | some pre => exact txWrite_pieceBlind (pre ++ p)

theorem writeBody_pieceBlind : PieceBlind writeBody := by
  refine writerChecks_pieceBlind.bind fun _ => .ite (c := fun s => s.argNat > s.din.length) (fun _ _ _ => Iff.rfl)
    (.raise _ fun _ _ _ => rfl) (.bind ?_ fun _ => ?_)
  · exact .on (fun s => chunkOf s.cfg.wr.style (s.din.take s.argNat) s.txn.chunk) (fun _ _ _ => rfl)
      emitFrame_pieceBlind
  · exact .on (fun s => lastChunk s.cfg.wr.style s.argNat s.txn.chunk) (fun _ _ _ => rfl) .pure

theorem wrCloseBody_pieceBlind : PieceBlind wrCloseBody := by
  have hset : PieceBlind fun s => .done PUnit.unit { s with wr := { s.wr with closed := true } } :=
    .write _ fun _ _ _ => rfl
  refine .ite (c := fun s => s.wr.closed = true) (fun _ _ _ => Iff.rfl) (.pure _) <|
    .ite (c := fun s => s.cfg.wr.leaveOpen = true) (fun _ _ _ => Iff.rfl) (.write _ fun _ _ _ => rfl) ?_
  exact hset.bind fun _ => txClose_pieceBlind.bind fun _ => .pure _

/-! ### The bodies of the codec's commands -/

theorem encBody_pieceBlind (st : Style) (ord : ByteOrder) : PieceBlind (encBody st ord) := by
  refine .on (fun s => encodePrefix st ord s.arg) (g := fun v s => match v with
    | some pre => .done (Response.data pre) s
    | none => .raised .operandRange s) (fun _ _ _ => rfl) fun v => ?_
  cases v with
  | none => exact .raise _ fun _ _ _ => rfl
  | some pre => exact .pure _

theorem decBody_pieceBlind (st : Style) (ord : ByteOrder) : PieceBlind (decBody st ord) := by
  refine .on (fun s => decodePrefix st ord s.din) (g := fun v s => match v with
    | some (V, c) => .done ({ res := V, cnt := cntOf c } : Response) s
    | none => .raised .truncatedPrefix s) (fun _ _ _ => rfl) fun v => ?_
  rcases v with _ | ⟨V, c⟩
  · exact .raise _ fun _ _ _ => rfl
  · exact .pure _

theorem maxlenBody_pieceBlind (st : Style) : PieceBlind (maxlenBody st) := by
  unfold maxlenBody
  split <;> exact .pure _

/-! ### The end of a command -/

/-- What `PieceBlind` is for: the outcomes of a command differ in nothing but the answers left. -/
theorem PieceBlind.forget {f : State → Run α} (hf : PieceBlind f)
    {fin : Run α → Host.Outcome State Fault Refusal}
    (hfin : ∀ {r r' : Run α}, Run.Rescripts r r' → forgetScripts (fin r') = forgetScripts (fin r)) (s : State)
    {a b a' b' : List Answer} (h : Calm a b) (h' : Calm a' b') :
    forgetScripts (fin (f (s.withScripts a b))) = forgetScripts (fin (f (s.withScripts a' b'))) := by
  obtain ⟨r, hr⟩ := hf s
  rw [hfin (hr a b h), hfin (hr a' b' h')]

theorem Run.Rescripts.finish {r r' : Run Response} (h : Run.Rescripts r r') (u : BlockUnit) :
    forgetScripts (r'.finish u) = forgetScripts (r.finish u) := by
  cases h <;> cases u <;> rfl

theorem Run.Rescripts.finishChunk {r r' : Run Bool} (h : Run.Rescripts r r') :
    forgetScripts (r'.finishChunk .writer) = forgetScripts (r.finishChunk .writer) := by
  cases h with
  | done last s h => cases last <;> rfl
  | _ => rfl

theorem PieceBlind.finish {f : State → Run Response} (hf : PieceBlind f) (u : BlockUnit) (s : State)
    {a b a' b' : List Answer} (h : Calm a b) (h' : Calm a' b') :
    forgetScripts ((f (s.withScripts a b)).finish u) = forgetScripts ((f (s.withScripts a' b')).finish u) :=
  hf.forget (fin := fun r => r.finish u) (fun hr => hr.finish u) s h h'

/-! ### The commands, unit by unit -/

variable {i : Instr} {s : State} {a b a' b' : List Answer}

theorem exec_codec_pieces (hu : Instr.unit i = .codec) (h : Calm a b) (h' : Calm a' b') :
    forgetScripts (exec i (s.withScripts a b)) = forgetScripts (exec i (s.withScripts a' b')) := by
  rcases Instr.unit_eq_codec hu with ⟨st, ord, rfl⟩ | ⟨st, ord, rfl⟩ | ⟨st, ord, rfl⟩
  · simpa only [exec_encOf] using (encBody_pieceBlind st ord).finish .codec s h h'
  · simpa only [exec_decOf] using (decBody_pieceBlind st ord).finish .codec s h h'
  · exact (maxlenBody_pieceBlind st).finish .codec s h h'

/-- `RB.FILLRAW` and `RB.FILLMSG` take the command's DIN. -/
theorem fillDin_pieceBlind (asMsg : Bool) : PieceBlind fun s =>
    (readerChecks s).bind fun _ s => (rbFill s.din asMsg s).bind fun _ s => .done Response.done s :=
  readerChecks_pieceBlind.bind fun _ =>
    (PieceBlind.on State.din (fun _ _ _ => rfl) fun din => rbFill_pieceBlind din asMsg).bind fun _ => .pure _

theorem exec_reader_pieces (hu : Instr.unit i = .reader) (h : Calm a b) (h' : Calm a' b') :
    forgetScripts (exec i (s.withScripts a b)) = forgetScripts (exec i (s.withScripts a' b')) := by
  have hchecks := readerChecks_pieceBlind
  cases i with
  | rbFillRaw => exact (fillDin_pieceBlind false).finish .reader s h h'
  | rbFillMsg => exact (fillDin_pieceBlind true).finish .reader s h h'
  | rbDrain =>
    refine (hchecks.bind fun _ => PieceBlind.bind ?_ fun d => .pure (.data d)).finish .reader s h h'
    exact .on State.argNat (fun _ _ _ => rfl) rbDrain_pieceBlind
  | rbDrainMsg =>
    exact (hchecks.bind fun _ => rbDrainMsg_pieceBlind.bind fun d => .pure (.data d)).finish .reader s h h'
  | rbLen =>
    refine (hchecks.bind fun _ => ?_).finish .reader s h h'
    exact .on (fun s => Response.scalar (resOf (s.rb.stop - s.rb.start))) (fun _ _ _ => rfl) .pure
  | rdReadMsg => exact readMsgBody_pieceBlind.finish .reader s h h'
  | rdReadMsgC => exact (readMsgCBody_pieceBlind s.argNat).finish .reader s h h'
  | rdRead => exact (readBody_pieceBlind s.argNat).finish .reader s h h'
  | rdReadByte => exact (readBody_pieceBlind 1).finish .reader s h h'
  | rdPeekLen => exact peekLenBody_pieceBlind.finish .reader s h h'
  | rdClose => exact rdCloseBody_pieceBlind.finish .reader s h h'
  | _ => cases hu

/-- `WR.WRITEMSG` and `WR.WRITEBYTE` emit a payload that the command's request gives. -/
theorem emitPayload_pieceBlind {p : State → Bytes} (hp : ∀ s a b, p (s.withScripts a b) = p s) : PieceBlind fun s =>
    (writerChecks s).bind fun _ s => (emitFrame (p s) s).bind fun _ s => .done Response.done s :=
  writerChecks_pieceBlind.bind fun _ => (PieceBlind.on p hp emitFrame_pieceBlind).bind fun _ => .pure _

theorem exec_writer_pieces (hu : Instr.unit i = .writer) (h : Calm a b) (h' : Calm a' b') :
    forgetScripts (exec i (s.withScripts a b)) = forgetScripts (exec i (s.withScripts a' b')) := by
  cases i with
  | wrWriteMsg => exact (emitPayload_pieceBlind (p := State.din) fun _ _ _ => rfl).finish .writer s h h'
  | wrWrite => exact writeBody_pieceBlind.forget Run.Rescripts.finishChunk s h h'
  | wrWriteByte => exact (emitPayload_pieceBlind (p := fun s => [s.argByte]) fun _ _ _ => rfl).finish .writer s h h'
  | wrFlush =>
    exact (writerChecks_pieceBlind.bind fun _ => txFlush_pieceBlind.bind fun _ => .pure .done).finish .writer s h h'
  | wrClose => exact wrCloseBody_pieceBlind.finish .writer s h h'
  | _ => cases hu

end Pieces

/-- Settles O17: no part of any command lets the sizes or the counts show. -/
theorem pieceSizesDoNotMatter : Obligations.PieceSizesDoNotMatter := by
  unfold Obligations.PieceSizesDoNotMatter
  intro i s a b a' b' ha hb ha' hb'
  have h : Calm a b := ⟨ha, hb⟩
  have h' : Calm a' b' := ⟨ha', hb'⟩
  cases hu : Instr.unit i with
  | codec => exact exec_codec_pieces hu h h'
  | reader => exact exec_reader_pieces hu h h'
  | writer => exact exec_writer_pieces hu h h'

/-! ## The command a step runs (R70, R81, R251) -/

/-- At most one command waits per requester, so a waiting one is the one its requester waits for. -/
theorem State.pending_of_mem {s : State} {t : Transaction} (hd : s.waiting.Pairwise fun t u => t.who ≠ u.who)
    (ht : t ∈ s.waiting) : s.pending t.who = some t := by
  have hsome : (s.pending t.who).isSome = true := by
    simpa only [State.pending, List.find?_isSome, beq_iff_eq] using ⟨t, ht, rfl⟩
  obtain ⟨u, hu⟩ := Option.isSome_iff_exists.1 hsome
  have hnodup : (s.waiting.map Transaction.who).Nodup := List.pairwise_map.2 hd
  rw [hu, List.inj_on_of_nodup_map hnodup (State.pending_mem hu) ht (State.pending_who hu)]

theorem State.pending_sole {s : State} {t : Transaction} (h : s.waiting = [t]) : s.pending t.who = some t := by
  simp [State.pending, h]

theorem State.without_sole {s : State} {t : Transaction} (h : s.waiting = [t]) : s.without t.who = [] := by
  simp [State.without, h]

/-- A decodable command whose unit is free is what its requester's turn comes to (R70). -/
theorem State.select_run {s : State} {who : Nat} {t : Transaction} {i : Instr} (hp : s.pending who = some t)
    (hd : decode t.req.cmd = .command i) (hl : s.lockOf (Instr.unit i) = .free) : s.select who = .run i t := by
  simp only [State.select, hp, hd, hl, if_true]

theorem State.servable_run {s : State} {who : Nat} {i : Instr} {t : Transaction} (h : s.select who = .run i t) :
    s.servable who = true := by simp [State.servable, h]

theorem State.serve_run {s : State} {who : Nat} {i : Instr} {t : Transaction} (h : s.select who = .run i t) :
    s.serve who = exec i (s.granted (Instr.unit i) t) := by simp only [State.serve, h]

/-- The command begins in a turn that came by itself. -/
theorem State.beginTurn_granted (s : State) (u : BlockUnit) (t : Transaction) :
    s.beginTurn.granted u t = { s.setLock u (.held t.who) with
      rsp := none, txn := t, waiting := s.without t.who, turns := s.turns + 1 } := by cases u <;> rfl

theorem step_of_due_some {s : State} {who : Nat} (h : s.lookAhead.due = some who) :
    step s = s.lookAhead.beginTurn.serve who := by
  simp only [step, h]

/-! ### A grant -/

/-- A granted command whose unit is free is what the step executes. -/
theorem step_grant {s : State} {who : Nat} {rest : List Event} {t : Transaction} {i : Instr}
    (hs : s.schedule = .grant who :: rest) (hsel : s.select who = .run i t) :
    step s = exec i ((s.beginStep rest).granted (Instr.unit i) t) := by
  have hahead := State.lookAhead_cons hs
  have hdue := State.due_grant hs (State.servable_run hsel)
  rw [step_of_due_none (by rw [hahead, hdue]), hahead, State.move, hs]
  exact State.serve_run hsel

/-! ### A command that is the only one waiting -/

/-- A command that waits alone shares its unit with no other waiting one. -/
theorem State.uncontested_sole {s : State} {t : Transaction} (h : s.waiting = [t])
    (hs : s.servable t.who = true) : s.uncontested t = true := by
  unfold State.uncontested
  rw [hs, Bool.true_and, h]
  split <;> simp

/-- A grant to another requester cannot be served. -/
theorem State.not_servable_of_sole {s : State} {t : Transaction} (h : s.waiting = [t]) {who : Nat}
    (hw : who ≠ t.who) : s.servable who = false := by
  have hp : s.pending who = none := by simpa [State.pending, h] using hw.symm
  simp [State.servable, State.select, hp]

/-- Only a presentation contests `t`: another requester's, of a command for the unit of `t` (log 26). -/
theorem Event.contests_cases {e : Event} {t : Transaction} (h : e.contests t = true) :
    ∃ r q u, e = .present r q ∧ r ≠ t.who ∧ wordUnit t.req.cmd = some u ∧ wordUnit q.cmd = some u ∧
      u ≠ .codec := by
  unfold Event.contests at h
  split at h
  case h_3 => cases h
  all_goals
    rename_i hu
    simp only [Bool.and_eq_true, bne_iff_ne, decide_eq_true_eq] at h
    exact ⟨_, _, _, rfl, h.1, hu, h.2, nofun⟩

theorem wordUnit_eq_some {w : CommandWord} {u : BlockUnit} :
    wordUnit w = some u ↔ ∃ i, decode w = .command i ∧ Instr.unit i = u := by
  unfold wordUnit
  cases decode w <;> simp

/-- With one command waiting, its requester is the one served unless reset, a grant to it or a contender comes
first (R251). -/
theorem State.due_sole {s : State} {t : Transaction} (h : s.waiting = [t]) (hs : s.servable t.who = true)
    (hreset : ∀ pins, s.schedule.head? ≠ some (.reset pins)) (hgrant : s.schedule.head? ≠ some (.grant t.who))
    (hcontest : ∀ e, s.schedule.head? = some e → e.contests t = false) : s.due = some t.who := by
  have hfind : s.waiting.find? s.uncontested = some t := by
    rw [h, List.find?_cons_of_pos (State.uncontested_sole h hs)]
  unfold State.due
  split
  · rw [hfind]
  · rename_i pins _ he
    exact absurd (by rw [he]; rfl) (hreset pins)
  · rename_i who _ he
    have hwho : who ≠ t.who := fun hw => hgrant (by rw [he, hw]; rfl)
    rw [State.not_servable_of_sole h hwho, hfind]
    rfl
  · rename_i e _ _ _ he
    have hfree : e.contests t = false := hcontest e (by rw [he]; rfl)
    rw [h, List.find?_cons_of_pos (by rw [State.uncontested_sole h hs, hfree]; rfl)]
    rfl

/-! ### The arbiter's own choice -/

/-- With no move to come, someone's turn comes if some command can be served (R70). -/
theorem State.due_isSome {s : State} {t : Transaction} (hs : s.schedule = []) (ht : t ∈ s.waiting)
    (h : s.servable t.who = true) : ∃ who, s.due = some who := by
  unfold State.due
  rw [hs]
  dsimp only
  split
  · exact ⟨_, rfl⟩
  · exact Option.isSome_iff_exists.1 (State.chosen_isSome ht h)

/-- Settles O4: a grant, the only command waiting, and the arbiter's choice among several. -/
theorem stepRunsGrantedCommand : Obligations.StepRunsGrantedCommand := by
  unfold Obligations.StepRunsGrantedCommand
  refine ⟨fun s r rest t i hs hp hd hl => ?_, fun s t i hw hd hl hreset hgrant hpresent => ?_,
    fun s t i hs ha hw ht hd hl => ?_⟩
  · rw [step_grant hs (State.select_run hp hd hl)]
    cases Instr.unit i <;> rfl
  · have hsel := State.select_run (State.pending_sole hw) hd hl
    have hahead : s.lookAhead.waiting = [t] := by rw [State.lookAhead_waiting, hw]
    have hserve : s.lookAhead.servable t.who = true := State.servable_run (by rw [State.select_lookAhead, hsel])
    have hdue : s.lookAhead.due = some t.who := by
      refine State.due_sole hahead hserve hreset hgrant fun e he => ?_
      by_contra hc
      obtain ⟨r, q, u, rfl, hr, ht, hq, hcodec⟩ := Event.contests_cases (by simpa using hc)
      obtain ⟨j, hj, huj⟩ := wordUnit_eq_some.1 hq
      have hui : Instr.unit i = u := by simpa [wordUnit, hd] using ht
      rcases hpresent r q j he hj with h | h | h
      · exact hr h
      · exact h (huj.trans hui.symm)
      · exact hcodec (hui.symm.trans h)
    rw [step_of_due_some hdue, State.serve_run (by rw [State.select_beginTurn, State.select_lookAhead, hsel]),
      State.beginTurn_granted, State.without_sole hahead, State.lookAhead_turns]
  · have hahead := State.lookAhead_ends hs ha
    have hserve := State.servable_run (State.select_run (State.pending_of_mem hw ht) hd hl)
    obtain ⟨who, hdue⟩ := State.due_isSome hs ht hserve
    have hstep : step s = s.beginTurn.serve who := by rw [step_of_due_some (by rw [hahead, hdue]), hahead]
    rcases s.select_cases who with hsel | ⟨u, e, hu, hdu, hsel⟩ | ⟨u, j, hu, hdu, hlu, hsel⟩
    · exact absurd hsel (by simpa [State.servable] using State.due_servable hdue)
    · refine ⟨u, State.pending_mem hu, .inl ⟨e, hdu, ?_⟩⟩
      rw [hstep, State.serve, State.select_beginTurn, hsel]
      rfl
    · refine ⟨u, State.pending_mem hu, .inr ⟨j, hdu, hlu, ?_⟩⟩
      rw [hstep, State.serve_run (by rw [State.select_beginTurn, hsel]), State.beginTurn_granted]
      rfl

end Sys2Proof.Machine
end

section
/-! PROOFS. The family of spec/30_encoding.md: the command word and its rows in the opcode map, the wire bytes of
a fixed-width and of a variable-width integer, and the frame of a message. -/

namespace Sys2Proof.Machine

/-! ## The fields of a command word (R81) -/

/-- The command word with these fields, ZERO first (R81). -/
def wordOf (zero : BitVec 3) (ord : Bool) (style : BitVec 4) (op : BitVec 8) : CommandWord :=
  zero ++ BitVec.ofBool ord ++ style ++ op

section Fields

variable (zero : BitVec 3) (ord : Bool) (style : BitVec 4) (op : BitVec 8)

/-- Where each bit of a word comes from (R81). -/
theorem getLsbD_wordOf (k : Nat) : (wordOf zero ord style op).getLsbD k =
    if k < 8 then op.getLsbD k else if k < 12 then style.getLsbD (k - 8)
    else if k < 13 then ord else zero.getLsbD (k - 13) := by
  change BitVec.getLsbD (w := 3 + 1 + 4 + 8) (zero ++ BitVec.ofBool ord ++ style ++ op) k = _
  simp only [BitVec.getLsbD_append, BitVec.getLsbD_ofBool, Nat.sub_sub]
  grind

@[simp] theorem zeroField_wordOf : zeroField (wordOf zero ord style op) = zero := by
  refine BitVec.eq_of_getLsbD_eq fun k hk => ?_
  rw [zeroField, BitVec.getLsbD_extractLsb', getLsbD_wordOf]
  grind

@[simp] theorem orderField_wordOf : orderField (wordOf zero ord style op) = ord := by
  rw [orderField, getLsbD_wordOf]
  rfl

@[simp] theorem styleField_wordOf : styleField (wordOf zero ord style op) = style := by
  refine BitVec.eq_of_getLsbD_eq fun k hk => ?_
  rw [styleField, BitVec.getLsbD_extractLsb', getLsbD_wordOf]
  grind

@[simp] theorem opField_wordOf : opField (wordOf zero ord style op) = op := by
  refine BitVec.eq_of_getLsbD_eq fun k hk => ?_
  rw [opField, BitVec.getLsbD_extractLsb', getLsbD_wordOf]
  grind

end Fields

/-- A word is the four fields it is cut into. -/
theorem wordOf_fields (w : CommandWord) : wordOf (zeroField w) (orderField w) (styleField w) (opField w) = w := by
  refine BitVec.eq_of_getLsbD_eq fun k hk => ?_
  simp only [getLsbD_wordOf, zeroField, orderField, styleField, opField, BitVec.getLsbD_extractLsb']
  grind

theorem eq_wordOf_iff {w : CommandWord} {zero : BitVec 3} {ord : Bool} {style : BitVec 4} {op : BitVec 8} :
    w = wordOf zero ord style op ↔
      zeroField w = zero ∧ orderField w = ord ∧ styleField w = style ∧ opField w = op := by
  constructor
  · rintro rfl
    simp
  · rintro ⟨rfl, rfl, rfl, rfl⟩
    exact (wordOf_fields w).symm

theorem formatC_eq_wordOf (op : BitVec 8) (st : Style) (ord : ByteOrder) :
    formatC op st ord = wordOf 0#3 ord.bit st.code op := rfl

/-! ## Style codes and the ORDER bit (R83, R84) -/

theorem Style.ofCode_eq_some_iff {c : BitVec 4} {st : Style} : Style.ofCode c = some st ↔ st.code = c := by
  constructor
  · have hall : ∀ c : BitVec 4, (Style.ofCode c).all (fun st => st.code == c) = true := by decide
    intro h
    simpa [h] using hall c
  · rintro rfl
    cases st <;> rfl

theorem Style.code_le (st : Style) : st.code.toNat ≤ 9 := by cases st <;> decide

@[simp] theorem ByteOrder.ofBit_bit (ord : ByteOrder) : ByteOrder.ofBit ord.bit = ord := by cases ord <;> rfl

/-! ## Decoding and encoding (R80 to R84, R92) -/

theorem encode_encOf (ord : ByteOrder) (st : Style) : encode (encOf ord st) = formatC 0x10 st ord := by
  cases st <;> rfl

theorem encode_decOf (ord : ByteOrder) (st : Style) : encode (decOf ord st) = formatC 0x11 st ord := by
  cases st <;> rfl

theorem isFormatC_of_formatCOf {op : Nat} {ord : ByteOrder} {st : Style} {i : Instr}
    (h : formatCOf op ord st = some i) : isFormatC op = true := by
  unfold formatCOf at h
  split at h
  case h_4 => cases h
  all_goals rfl

/-- The command a format C row gives has the word of that row. -/
theorem encode_of_formatCOf {op : Nat} {ord : ByteOrder} {st : Style} {i : Instr}
    (h : formatCOf op ord st = some i) : encode i = formatC (BitVec.ofNat 8 op) st ord := by
  unfold formatCOf at h
  split at h <;> cases h
  · exact encode_encOf ord st
  · exact encode_decOf ord st
  · rfl

/-- The command a format U row gives has the word of that row. -/
theorem encode_of_formatUOf {op : Nat} {i : Instr} (h : formatUOf op = some i) :
    encode i = wordOf 0#3 false 0#4 (BitVec.ofNat 8 op) := by
  unfold formatUOf at h
  split at h <;> cases h <;> rfl

/-- The fields of a word that is a command: they select a format C row or a format U row (R82, R93 to R95). -/
theorem fields_of_decode {w : CommandWord} {i : Instr} (h : decode w = .command i) :
    zeroField w = 0#3 ∧
      ((∃ st, Style.ofCode (styleField w) = some st ∧
          formatCOf (opField w).toNat (ByteOrder.ofBit (orderField w)) st = some i) ∨
        formatUOf (opField w).toNat = some i ∧ orderField w = false ∧ styleField w = 0#4) := by
  unfold decode at h
  split at h
  case isTrue => cases h
  case isFalse hzero =>
    refine ⟨not_not.1 hzero, ?_⟩
    split at h
    case isTrue =>
      split at h
      · cases h
      · rename_i st hst
        split at h <;> cases h
        exact .inl ⟨st, hst, ‹_›⟩
    case isFalse =>
      split at h
      · cases h
      · rename_i j hj
        split at h <;> cases h
        rename_i hrest
        exact .inr ⟨hj, by simpa using hrest⟩

/-- A format C word of a row decodes to the command of that row. -/
theorem decode_formatC {op : BitVec 8} {st : Style} {ord : ByteOrder} {i : Instr}
    (h : formatCOf op.toNat ord st = some i) : decode (formatC op st ord) = .command i := by
  simp [decode, formatC_eq_wordOf, isFormatC_of_formatCOf h, Style.ofCode_eq_some_iff.2 rfl, h]

/-- The format U commands in the order of their rows (R82, R92). -/
def formatUInstrs : List Instr :=
  [.rbFillRaw, .rbFillMsg, .rbDrain, .rbDrainMsg, .rbLen,
   .rdReadMsg, .rdReadMsgC, .rdRead, .rdReadByte, .rdPeekLen, .rdClose,
   .wrWriteMsg, .wrWrite, .wrWriteByte, .wrFlush, .wrClose]

/-- A command that the CODEC does not execute is of format U. -/
theorem Instr.codec_or_mem_formatUInstrs (i : Instr) : Instr.unit i = .codec ∨ i ∈ formatUInstrs := by
  cases i <;> simp [Instr.unit, formatUInstrs]

theorem decode_encode_formatU : ∀ i ∈ formatUInstrs, decode (encode i) = .command i := by decide

theorem decode_encode (i : Instr) : decode (encode i) = .command i := by
  obtain hu | hu := Instr.codec_or_mem_formatUInstrs i
  · obtain ⟨st, ord, rfl⟩ | ⟨st, ord, rfl⟩ | ⟨st, ord, rfl⟩ := Instr.unit_eq_codec hu
    · rw [encode_encOf, decode_formatC rfl]
    · rw [encode_decOf, decode_formatC rfl]
    · exact decode_formatC rfl
  · exact decode_encode_formatU i hu

theorem encode_of_decode {w : CommandWord} {i : Instr} (h : decode w = .command i) : encode i = w := by
  obtain ⟨hzero, ⟨st, hst, hi⟩ | ⟨hi, hord, hst⟩⟩ := fields_of_decode h
  · rw [encode_of_formatCOf hi, formatC_eq_wordOf, ← hzero, ByteOrder.bit_ofBit, Style.ofCode_eq_some_iff.1 hst,
      BitVec.ofNat_toNat, BitVec.setWidth_eq, wordOf_fields]
  · rw [encode_of_formatUOf hi, ← hzero, ← hord, ← hst, BitVec.ofNat_toNat, BitVec.setWidth_eq, wordOf_fields]

theorem decode_eq_command_iff {w : CommandWord} {i : Instr} : decode w = .command i ↔ encode i = w :=
  ⟨encode_of_decode, fun h => h ▸ decode_encode i⟩

/-- Settles O1: the fields of a word and the row they select give each other. -/
theorem decodeEncodeAgree : Obligations.DecodeEncodeAgree := by
  unfold Obligations.DecodeEncodeAgree
  exact ⟨decode_encode, fun _ _ => encode_of_decode⟩

/-- Settles O3: each word is the one its command encodes to. -/
theorem sampleWordsDecode : Obligations.SampleWordsDecode := by
  unfold Obligations.SampleWordsDecode
  exact ⟨decode_encode (.encUvarint .big), decode_encode (.decU16 .little), decode_encode (.maxlen .little .uvarint),
    decode_encode .rbDrainMsg, decode_encode .rdReadMsgC, decode_encode .wrWrite⟩

/-! ## The rows of the opcode map (R92 to R97) -/

/-- The styles in the order of their codes (R84). -/
def allStyles : List Style := [.i8, .u8, .i16, .u16, .i32, .u32, .i64, .u64, .varint, .uvarint]

theorem mem_allStyles (st : Style) : st ∈ allStyles := by cases st <;> decide

/-- The opcode map by formats: a row for each style of `ENC` and of `DEC`, whose ORDER bit is free, the row of
`MAXLEN`, whose STYLE is free too, and the words of format U (R82, R92). -/
theorem tableRows_eq : tableRows =
    allStyles.map (fun st => (formatC 0x10 st .big, 0xEFFF#16)) ++
    allStyles.map (fun st => (formatC 0x11 st .big, 0xEFFF#16)) ++
    (0x0012#16, 0xE0FF#16) :: formatUInstrs.map (fun i => (encode i, 0xFFFF#16)) := by decide

theorem mem_tableRows_iff {r : CommandWord × CommandWord} : r ∈ tableRows ↔
    (∃ st, r = (formatC 0x10 st .big, 0xEFFF#16)) ∨ (∃ st, r = (formatC 0x11 st .big, 0xEFFF#16)) ∨
      r = (0x0012#16, 0xE0FF#16) ∨ ∃ i ∈ formatUInstrs, r = (encode i, 0xFFFF#16) := by
  simp [tableRows_eq, mem_allStyles, eq_comm]

/-- Masking cuts each field by the mask's. -/
theorem and_eq_wordOf_iff {w m : CommandWord} {zero : BitVec 3} {ord : Bool} {style : BitVec 4} {op : BitVec 8} :
    w &&& m = wordOf zero ord style op ↔ zeroField w &&& zeroField m = zero ∧
      (orderField w && orderField m) = ord ∧ styleField w &&& styleField m = style ∧
        opField w &&& opField m = op := by
  rw [eq_wordOf_iff]
  simp only [zeroField, orderField, styleField, opField, BitVec.extractLsb'_and, BitVec.getLsbD_and]

/-- A word matches a row of `ENC` or `DEC` exactly when it is that row's word in one of the orders (R96). -/
theorem and_styleMask_iff {w : CommandWord} {op : BitVec 8} {st : Style} :
    w &&& 0xEFFF#16 = formatC op st .big ↔ ∃ ord, w = formatC op st ord := by
  have hz : zeroField 0xEFFF#16 = BitVec.allOnes 3 := by decide
  have ho : orderField 0xEFFF#16 = false := by decide
  have hs : styleField 0xEFFF#16 = BitVec.allOnes 4 := by decide
  have hp : opField 0xEFFF#16 = BitVec.allOnes 8 := by decide
  rw [formatC_eq_wordOf, and_eq_wordOf_iff, hz, ho, hs, hp]
  simp only [formatC_eq_wordOf, eq_wordOf_iff, BitVec.and_allOnes]
  constructor
  · rintro ⟨hzero, -, hstyle, hop⟩
    exact ⟨ByteOrder.ofBit (orderField w), hzero, (ByteOrder.bit_ofBit _).symm, hstyle, hop⟩
  · rintro ⟨ord, hzero, -, hstyle, hop⟩
    exact ⟨hzero, Bool.and_false _, hstyle, hop⟩

/-- A word matches the row of `MAXLEN` exactly when ZERO and OP are that row's. -/
theorem and_maxlenMask_iff {w : CommandWord} :
    w &&& 0xE0FF#16 = 0x0012#16 ↔ zeroField w = 0#3 ∧ opField w = 0x12#8 := by
  have hz : zeroField 0xE0FF#16 = BitVec.allOnes 3 := by decide
  have ho : orderField 0xE0FF#16 = false := by decide
  have hs : styleField 0xE0FF#16 = 0#4 := by decide
  have hp : opField 0xE0FF#16 = BitVec.allOnes 8 := by decide
  rw [show 0x0012#16 = wordOf 0#3 false 0#4 0x12#8 by decide, and_eq_wordOf_iff, hz, ho, hs, hp]
  simp only [BitVec.and_allOnes, BitVec.and_zero, Bool.and_false, true_and]

/-- The word of every command matches a row. -/
theorem exists_row (i : Instr) : ∃ r ∈ tableRows, encode i &&& r.2 = r.1 := by
  obtain hu | hu := Instr.codec_or_mem_formatUInstrs i
  · obtain ⟨st, ord, rfl⟩ | ⟨st, ord, rfl⟩ | ⟨st, ord, rfl⟩ := Instr.unit_eq_codec hu
    · exact ⟨_, mem_tableRows_iff.2 (.inl ⟨st, rfl⟩), and_styleMask_iff.2 ⟨ord, encode_encOf ord st⟩⟩
    · exact ⟨_, mem_tableRows_iff.2 (.inr (.inl ⟨st, rfl⟩)), and_styleMask_iff.2 ⟨ord, encode_decOf ord st⟩⟩
    · refine ⟨_, mem_tableRows_iff.2 (.inr (.inr (.inl rfl))), and_maxlenMask_iff.2 ?_⟩
      simp [encode, formatC_eq_wordOf]
  · exact ⟨_, mem_tableRows_iff.2 (.inr (.inr (.inr ⟨i, hu, rfl⟩))), BitVec.and_allOnes⟩

/-- A word that matches a row is some command's, if its STYLE code is not reserved where the row leaves it free. -/
theorem exists_encode_of_row {w : CommandWord} {r : CommandWord × CommandWord} (hr : r ∈ tableRows)
    (hw : w &&& r.2 = r.1) (hstyle : r.1 = 0x0012#16 → (styleField w).toNat ≤ 9) : ∃ i, encode i = w := by
  obtain ⟨st, rfl⟩ | ⟨st, rfl⟩ | rfl | ⟨i, -, rfl⟩ := mem_tableRows_iff.1 hr
  · obtain ⟨ord, rfl⟩ := and_styleMask_iff.1 hw
    exact ⟨_, encode_encOf ord st⟩
  · obtain ⟨ord, rfl⟩ := and_styleMask_iff.1 hw
    exact ⟨_, encode_decOf ord st⟩
  · obtain ⟨hzero, hop⟩ := and_maxlenMask_iff.1 hw
    obtain ⟨st, -, hst⟩ := Style.ofCode_legal (hstyle rfl)
    refine ⟨.maxlen (ByteOrder.ofBit (orderField w)) st, Eq.symm ?_⟩
    exact eq_wordOf_iff.2 ⟨hzero, (ByteOrder.bit_ofBit _).symm, hst.symm, hop⟩
  · exact ⟨i, hw.symm.trans BitVec.and_allOnes⟩

theorem styleField_le_of_decode {w : CommandWord} {i : Instr} (h : decode w = .command i) :
    (styleField w).toNat ≤ 9 := by
  obtain ⟨-, ⟨st, hst, -⟩ | ⟨-, -, hst⟩⟩ := fields_of_decode h
  · exact Style.ofCode_eq_some_iff.1 hst ▸ Style.code_le st
  · simp [hst]

/-- Two rows that a word matches agree on the bits that both masks hold. -/
theorem rows_agree {w m m' v v' : CommandWord} (h : w &&& m = v) (h' : w &&& m' = v') : v &&& m' = v' &&& m := by
  rw [← h, ← h', BitVec.and_assoc, BitVec.and_assoc, BitVec.and_comm m]

/-- Settles O2: the words that match a row are those the commands encode to; two rows differ in a bit that both
masks hold. -/
theorem wordSelectsOneRowOrIsIllegal : Obligations.WordSelectsOneRowOrIsIllegal := by
  unfold Obligations.WordSelectsOneRowOrIsIllegal
  refine ⟨fun w => ⟨?_, ?_⟩, ?_⟩
  · rintro ⟨i, hi⟩
    obtain ⟨r, hr, hmatch⟩ := exists_row i
    rw [encode_of_decode hi] at hmatch
    exact ⟨r, hr, hmatch, fun _ => styleField_le_of_decode hi⟩
  · rintro ⟨r, hr, hmatch, hstyle⟩
    obtain ⟨i, hi⟩ := exists_encode_of_row hr hmatch hstyle
    exact ⟨i, decode_eq_command_iff.2 hi⟩
  · have hdiffer : tableRows.Pairwise (fun r r' => r.1 &&& r'.2 ≠ r'.1 &&& r.2) := by decide
    exact hdiffer.imp fun hne w ⟨h, h'⟩ => hne (rows_agree h h')

/-! ## `ENC` (R87 to R91, R111 to R121) -/

/-- An integer that the style can hold is answered by its wire bytes, and nothing else changes (R110). -/
theorem exec_encOf_prefix {st : Style} {ord : ByteOrder} {s : State} {pre : Bytes}
    (h : encodePrefix st ord s.arg = some pre) :
    exec (encOf ord st) s = .next (s.endCommand .codec (.data pre)) := by
  rw [exec_encOf, encBody, h]
  rfl

/-! ### Fixed width -/

/-- What the table of R84 says of a fixed-width style. -/
theorem width_signed_of_mem_fixedStyles {st : Style} {sg : Bool} {w : Nat} (h : (st, sg, w) ∈ fixedStyles) :
    Style.width st = some w ∧ Style.signed st = sg := by
  have hall : ∀ r ∈ fixedStyles, Style.width r.1 = some r.2.2 ∧ Style.signed r.1 = r.2.1 := by decide
  exact hall _ h

/-- LITTLE order leaves each byte at its place, BIG puts it at the place counted from the end (R87 to R89). -/
theorem wireOrder_getElem? (ord : ByteOrder) {bs : Bytes} {k : Nat} (h : k < bs.length) :
    (wireOrder ord bs)[k]? = bs[if ord = .little then k else bs.length - 1 - k]? := by
  cases ord with
  | little => rfl
  | big =>
    simp only [wireOrder, reduceCtorEq, if_false]
    split
    · rw [show bs.length - 1 - k = k by omega]
    · exact List.getElem?_reverse h

theorem fitsWidth_iff {st : Style} {w : Nat} {V : Scalar} : fitsWidth st w V = true ↔
    (Style.signed st = true → -(2 : Int) ^ (8 * w - 1) ≤ V.toInt ∧ V.toInt ≤ (2 : Int) ^ (8 * w - 1) - 1) ∧
      (Style.signed st = false → V.toNat ≤ 2 ^ (8 * w) - 1) := by
  unfold fitsWidth
  cases Style.signed st <;> simp

/-- Settles O21: the bytes of the integer, each at the place its order gives it. -/
theorem encodeFixedWidthBytes : Obligations.EncodeFixedWidthBytes := by
  unfold Obligations.EncodeFixedWidthBytes
  intro st sg w ord s hst hsigned hunsigned
  obtain ⟨hw, rfl⟩ := width_signed_of_mem_fixedStyles hst
  have hfits : fitsWidth st w s.arg = true := fitsWidth_iff.2 ⟨hsigned, hunsigned⟩
  have hpre : encodePrefix st ord s.arg = some (wireOrder ord (leBytes s.arg w)) := by
    simp only [encodePrefix, hw, hfits, if_true]
  have hlen : (wireOrder ord (leBytes s.arg w)).length = w := by simp
  refine ⟨_, hlen, fun k hk => ?_, ?_⟩
  · rw [wireOrder_getElem? ord (by simpa using hk), leBytes_length, leBytes_getElem?]
    split <;> omega
  · rw [exec_encOf_prefix hpre, Response.data, hlen, cntOf]

/-! ### Variable width -/

/-- The 7-bit group `k` of a 64-bit string, least significant first (R90). -/
abbrev groupAt (V : Scalar) (k : Nat) : BitVec 7 := V.extractLsb' (7 * k) 7

theorem groupAt_succ (V : Scalar) (k : Nat) : groupAt V (k + 1) = groupAt (V >>> 7) k := by
  refine BitVec.eq_of_getLsbD_eq fun j hj => ?_
  simp only [BitVec.getLsbD_extractLsb', BitVec.getLsbD_ushiftRight]
  rw [show 7 * (k + 1) + j = 7 + (7 * k + j) by omega]

theorem toNat_ushiftRight_seven (V : Scalar) : (V >>> 7).toNat = V.toNat / 128 := by
  rw [BitVec.toNat_ushiftRight, Nat.shiftRight_eq_div_pow]

theorem toNat_groupAt_zero (V : Scalar) : (groupAt V 0).toNat = V.toNat % 128 := by
  rw [BitVec.extractLsb'_toNat, Nat.shiftRight_zero]

/-- A string whose lowest group and whose other bits are 0 is 0. -/
theorem eq_zero_of_groupAt_zero {V : Scalar} (hlow : groupAt V 0 = 0#7) (hhigh : V >>> 7 = 0#64) : V = 0#64 := by
  have hmod : V.toNat % 128 = 0 := by rw [← toNat_groupAt_zero, hlow]; rfl
  have hdiv : V.toNat / 128 = 0 := by rw [← toNat_ushiftRight_seven, hhigh]; rfl
  exact BitVec.eq_of_toNat_eq (show V.toNat = 0 by omega)

/-- `pre` holds the groups of `V` up to its last one that is not 0, group `m`, or the one group of 0, with bit 7
set on all but that one (R90). -/
structure GroupsUpTo (V : Scalar) (m : Nat) (pre : Bytes) : Prop where
  above : ∀ k, m < k → groupAt V k = 0#7
  last : V = 0#64 ∧ m = 0 ∨ groupAt V m ≠ 0#7
  length : pre.length = m + 1
  continued : ∀ k, k < m → pre[k]? = some (0x80#8 ||| (groupAt V k).zeroExtend 8)
  final : pre[m]? = some ((groupAt V m).zeroExtend 8)

theorem GroupsUpTo.single {V : Scalar} (h : V >>> 7 = 0#64) : GroupsUpTo V 0 [(groupAt V 0).zeroExtend 8] where
  above
    | k + 1, _ => by rw [groupAt_succ, h]; simp
  last := or_iff_not_imp_right.2 fun hg => ⟨eq_zero_of_groupAt_zero (not_not.1 hg) h, rfl⟩
  length := rfl
  continued _ hk := absurd hk (Nat.not_lt_zero _)
  final := rfl

theorem GroupsUpTo.cons {V : Scalar} {m : Nat} {pre : Bytes} (h : V >>> 7 ≠ 0#64) (hg : GroupsUpTo (V >>> 7) m pre) :
    GroupsUpTo V (m + 1) ((0x80#8 ||| (groupAt V 0).zeroExtend 8) :: pre) where
  above
    | k + 1, hk => by rw [groupAt_succ, hg.above k (by omega)]
  last := .inr (by
    rw [groupAt_succ]
    exact hg.last.resolve_left fun hzero => h hzero.1)
  length := by rw [List.length_cons, hg.length]
  continued
    | 0, _ => rfl
    | k + 1, hk => by rw [List.getElem?_cons_succ, groupAt_succ, hg.continued k (by omega)]
  final := by rw [List.getElem?_cons_succ, groupAt_succ, hg.final]

/-- The loop ends with the group above which no bit is set. -/
theorem varintLoop_last (n : Nat) {V : Scalar} (h : V >>> 7 = 0#64) :
    varintLoop (n + 1) V = [(groupAt V 0).zeroExtend 8] := by
  simp only [varintLoop, h, ne_eq, not_true_eq_false, if_false]

/-- The loop goes on with the bits above the lowest group. -/
theorem varintLoop_more {n : Nat} {V : Scalar} (h : V >>> 7 ≠ 0#64) :
    varintLoop (n + 1) V = (0x80#8 ||| (groupAt V 0).zeroExtend 8) :: varintLoop n (V >>> 7) := by
  simp only [varintLoop, h, ne_eq, not_false_eq_true, if_true]

/-- With turns for all the bits there are, the loop emits the groups (R90, R111). -/
theorem varintLoop_groups (n : Nat) {V : Scalar} (h : V.toNat < 2 ^ (7 * (n + 1))) :
    ∃ m, GroupsUpTo V m (varintLoop (n + 1) V) := by
  induction n generalizing V with
  | zero =>
    have hzero : V >>> 7 = 0#64 :=
      BitVec.eq_of_toNat_eq ((toNat_ushiftRight_seven V).trans (Nat.div_eq_of_lt h))
    exact ⟨0, varintLoop_last _ hzero ▸ .single hzero⟩
  | succ n ih =>
    by_cases hzero : V >>> 7 = 0#64
    · exact ⟨0, varintLoop_last _ hzero ▸ .single hzero⟩
    · have hlt : (V >>> 7).toNat < 2 ^ (7 * (n + 1)) := by
        rw [toNat_ushiftRight_seven]
        exact Nat.div_lt_of_lt_mul (by rwa [show 7 * (n + 1 + 1) = 7 + 7 * (n + 1) by omega, Nat.pow_add] at h)
      obtain ⟨m, hm⟩ := ih hlt
      exact ⟨m + 1, by rw [varintLoop_more hzero]; exact hm.cons hzero⟩

/-- Settles O23: ten turns of the loop are enough for 64 bits. -/
theorem encodeVarintGroups : Obligations.EncodeVarintGroups := by
  unfold Obligations.EncodeVarintGroups
  intro st ord s hst
  have hwidth : ∀ st ∈ variableStyles, Style.width st = none := by decide
  have hpre : encodePrefix st ord s.arg = some (varintLoop 10 s.arg) := by
    simp only [encodePrefix, hwidth st hst]
  obtain ⟨m, hm⟩ : ∃ m, GroupsUpTo s.arg m (varintLoop 10 s.arg) := varintLoop_groups 9 (by omega)
  refine ⟨m, varintLoop 10 s.arg, ?_, fun k hk _ => hm.above k hk, hm.last.imp_left And.right, hm.length,
    hm.continued, hm.final, ?_⟩
  · have hten : m + 1 ≤ 10 := hm.length ▸ varintLoop_length_le 10 s.arg
    omega
  · rw [exec_encOf_prefix hpre, Response.data, hm.length, cntOf]

/-! ## `WR.WRITEMSG` (R86, R191, R192) -/

theorem exec_wrWriteMsg_ready {s : State} (h : s.writerReady = true) :
    exec .wrWriteMsg s = ((emitFrame s.din s).bind fun _ s => .done .done s).finish .writer := by
  change ((writerChecks s).bind _).finish .writer = _
  rw [writerChecks_ready h, Run.bind_done]

/-- Settles O52: the frame of the payload joins TX.stream, and its encoded length exists. -/
theorem writeMsgAppendsFrame : Obligations.WriteMsgAppendsFrame := by
  unfold Obligations.WriteMsgAppendsFrame
  intro s hready hcalm hlen hwithin
  obtain ⟨pre, hpre⟩ := encodePrefix_within s.cfg.wr.order hwithin hlen
  obtain ⟨sc, -, hemit⟩ := emitFrame_fits hcalm hwithin hlen
  have hframe : frameOf s.cfg.wr s.din = pre ++ s.din := by rw [frameOf, hpre, Option.getD_some]
  refine ⟨pre, sc, hpre, ?_⟩
  rw [exec_wrWriteMsg_ready hready, hemit, Run.bind_done, Run.finish_done, hframe, List.append_assoc]
  rfl

end Sys2Proof.Machine
end

section
/-! PROOFS. The family of spec/40_codec.md: what a prefix decodes to, decoding and encoding against each other, the
CODEC's answers, and a message written at one end and read at the other. -/

namespace Sys2Proof.Machine

/-! ## Where a decode ends (R98, R122, R123) -/

/-- A decode that goes through `cont` without an end is over with the byte that completes the prefix. -/
theorem decodeLoop_first {st : Style} {ord : ByteOrder} {got cont : Bytes} {x : Byte}
    (hnone : decodeLoop st ord got cont = none) (hx : prefixComplete st (got ++ cont ++ [x]) = true) (rest : Bytes) :
    decodeLoop st ord got (cont ++ x :: rest) =
      some (prefixValue st ord (got ++ cont ++ [x]), got.length + cont.length + 1) := by
  induction cont generalizing got with
  | nil =>
    rw [List.append_nil] at hx ⊢
    exact decodeLoop_complete hx
  | cons y cont ih =>
    have hy : prefixComplete st (got ++ [y]) = false := by
      simpa using decodeLoop_none.1 hnone 1 (Nat.le_refl 1) (by simp)
    rw [decodeLoop_more hy] at hnone
    rw [List.cons_append, decodeLoop_more hy, ih hnone (by simpa using hx)]
    simp only [List.append_assoc, List.singleton_append, List.length_append, List.length_cons, List.length_nil]
    congr 2
    omega

/-- `width(st)` bytes are a whole fixed-width prefix, whatever follows them. -/
theorem decodePrefix_fixed {st : Style} {w : Nat} (hw : Style.width st = some w) (ord : ByteOrder) {pre : Bytes}
    (hlen : pre.length = w) (rest : Bytes) :
    decodePrefix st ord (pre ++ rest) = some (prefixValue st ord pre, w) := by
  obtain rfl | ⟨cont, x, rfl⟩ := pre.eq_nil_or_concat'
  · subst hlen
    cases st <;> cases hw
  · have hlast : cont.length + 1 = w := by simpa using hlen
    have hnone : decodeLoop st ord [] cont = none := by
      refine decodeLoop_none.2 fun m _ hm => ?_
      simp only [prefixComplete, hw, List.nil_append, List.length_take, beq_eq_false_iff_ne]
      omega
    have hcomplete : prefixComplete st ([] ++ cont ++ [x]) = true := by simp [prefixComplete, hw, hlast]
    simpa [decodePrefix, hlast] using decodeLoop_first hnone hcomplete rest

/-- The first byte with bit 7 clear ends a variable-width prefix, whatever follows it. -/
theorem decodePrefix_variable {st : Style} (hw : Style.width st = none) (ord : ByteOrder) {cont : Bytes} {x : Byte}
    (hcont : ∀ b ∈ cont, b.getLsbD 7 = true) (hx : x.getLsbD 7 = false) (rest : Bytes) :
    decodePrefix st ord (cont ++ x :: rest) = some (prefixValue st ord (cont ++ [x]), cont.length + 1) := by
  have hnone : decodeLoop st ord [] cont = none := (decodeLoop_none_variable hw).2 hcont
  have hcomplete : prefixComplete st ([] ++ cont ++ [x]) = true := by
    simp only [prefixComplete, hw, List.nil_append, List.getLast?_concat, hx, Bool.not_false]
  simpa [decodePrefix] using decodeLoop_first hnone hcomplete rest

/-! ## The value of a fixed-width prefix (R87 to R89, R123) -/

/-- BIG order is the reverse, also of a single byte (R87, R89). -/
theorem wireOrder_big (bs : Bytes) : wireOrder .big bs = bs.reverse := by
  simp only [wireOrder]
  split
  · obtain ⟨b, rfl⟩ := List.length_eq_one_iff.1 ‹_›
    rfl
  · rfl

/-- The same number read from the other end. -/
theorem bigNat_reverse (bs : Bytes) : bigNat bs.reverse = leNat bs := by
  induction bs with
  | nil => rfl
  | cons b r ih =>
    rw [bigNat, List.foldl_reverse] at ih ⊢
    rw [List.foldr_cons, ih, leNat, Nat.add_comm]

/-- The number a fixed-width prefix holds, most significant byte first (R87, R88). -/
theorem leNat_wireOrder (ord : ByteOrder) (bs : Bytes) :
    leNat (wireOrder ord bs) = bigNat (if ord = .little then bs.reverse else bs) := by
  cases ord with
  | big => rw [wireOrder_big, ← bigNat_reverse, List.reverse_reverse]; rfl
  | little => exact (bigNat_reverse bs).symm

theorem leBytes_succ (V : Scalar) (w : Nat) : leBytes V (w + 1) = leBytes V w ++ [V.extractLsb' (8 * w) 8] := by
  simp [leBytes, List.range_succ]

theorem leNat_append (bs cs : Bytes) : leNat (bs ++ cs) = leNat bs + 256 ^ bs.length * leNat cs := by
  induction bs with
  | nil => simp [leNat]
  | cons b r ih => rw [List.cons_append, leNat, leNat, ih, List.length_cons, Nat.pow_succ]; ring

/-- The number of the `w` low bytes of `V`. -/
theorem leNat_leBytes (V : Scalar) (w : Nat) : leNat (leBytes V w) = V.toNat % 2 ^ (8 * w) := by
  rw [Nat.pow_mul]
  induction w with
  | zero => rw [Nat.pow_zero, Nat.mod_one]; rfl
  | succ w ih =>
    have hbyte : leNat [V.extractLsb' (8 * w) 8] = V.toNat / (2 ^ 8) ^ w % 2 ^ 8 := by
      rw [leNat, leNat, BitVec.extractLsb'_toNat, Nat.shiftRight_eq_div_pow, Nat.pow_mul, Nat.mul_zero, Nat.add_zero]
    rw [leBytes_succ, leNat_append, ih, hbyte, leBytes_length]
    exact Nat.mod_pow_succ.symm

/-- Sign extension of a number of `n` bits, its top bit standing for minus what it stands for unsigned (R123). -/
theorem signExtend_ofNat {n X : Nat} (hn : 1 ≤ n) (hX : X < 2 ^ n) : (BitVec.ofNat n X).signExtend 64 =
    if 2 ^ (n - 1) ≤ X then BitVec.ofInt 64 ((X : Int) - 2 ^ n) else BitVec.ofNat 64 X := by
  have hdouble : 2 ^ n = 2 * 2 ^ (n - 1) := by rw [← Nat.pow_succ', Nat.succ_eq_add_one, Nat.sub_add_cancel hn]
  rw [BitVec.signExtend, BitVec.toInt_eq_toNat_cond, BitVec.toNat_ofNat, Nat.mod_eq_of_lt hX]
  by_cases htop : 2 ^ (n - 1) ≤ X
  · rw [if_neg (by omega), if_pos htop, Nat.cast_pow, Nat.cast_ofNat]
  · rw [if_pos (by omega), if_neg htop, BitVec.ofInt_natCast]

/-- Zero extension of a number of `n` bits (R123). -/
theorem zeroExtend_ofNat {n X : Nat} (hX : X < 2 ^ n) : (BitVec.ofNat n X).zeroExtend 64 = BitVec.ofNat 64 X := by
  rw [BitVec.zeroExtend, ← BitVec.ofNat_toNat, BitVec.toNat_ofNat, Nat.mod_eq_of_lt hX]

/-- A string whose signed integer fits in `n` bits is the sign extension of its `n` low bits. -/
theorem signExtend_setWidth {V : Scalar} {n : Nat} (hn : 1 ≤ n) (hn64 : n ≤ 64)
    (hlo : -(2 : Int) ^ (n - 1) ≤ V.toInt) (hhi : V.toInt ≤ (2 : Int) ^ (n - 1) - 1) :
    (V.setWidth n).signExtend 64 = V := by
  have hdouble : ((2 ^ n : Nat) : Int) = 2 * 2 ^ (n - 1) := by
    rw [← pow_succ', Nat.sub_add_cancel hn]; push_cast; rfl
  have hlow : (V.setWidth n).toInt = V.toInt := calc
    (V.setWidth n).toInt = (V.toNat : Int).bmod (2 ^ n) := BitVec.toInt_setWidth V
    _ = V.toInt.bmod (2 ^ n) := by
      rw [BitVec.toInt_eq_toNat_bmod, Int.bmod_bmod_of_dvd (Nat.pow_dvd_pow 2 hn64)]
    _ = V.toInt := Int.bmod_eq_of_le (by omega) (by omega)
  rw [BitVec.signExtend, hlow, BitVec.ofInt_toInt]

/-- A string whose unsigned integer fits in `n` bits is the zero extension of its `n` low bits. -/
theorem zeroExtend_setWidth {V : Scalar} {n : Nat} (h : V.toNat < 2 ^ n) : (V.setWidth n).zeroExtend 64 = V := by
  rw [← BitVec.ofNat_toNat, zeroExtend_ofNat h, BitVec.ofNat_toNat, BitVec.setWidth_eq]

/-- A fixed-width prefix stands for the extension of its number (R123). -/
theorem prefixValue_fixed {st : Style} {w : Nat} (hw : Style.width st = some w) (ord : ByteOrder) (got : Bytes) :
    prefixValue st ord got = if Style.signed st then (BitVec.ofNat (8 * w) (leNat (wireOrder ord got))).signExtend 64
      else (BitVec.ofNat (8 * w) (leNat (wireOrder ord got))).zeroExtend 64 := by
  simp only [prefixValue, hw]

theorem width_bounds {st : Style} {w : Nat} (hw : Style.width st = some w) : 1 ≤ w ∧ w ≤ 8 := by
  cases st <;> cases hw <;> decide

/-- The encoder's bytes stand for the string, if the style can hold it (R111, R123). -/
theorem prefixValue_leBytes {st : Style} {w : Nat} (hw : Style.width st = some w) (ord : ByteOrder) {V : Scalar}
    (hfits : fitsWidth st w V = true) : prefixValue st ord (wireOrder ord (leBytes V w)) = V := by
  obtain ⟨hpos, hle⟩ := width_bounds hw
  obtain ⟨hsigned, hunsigned⟩ := fitsWidth_iff.1 hfits
  have hlow : BitVec.ofNat (8 * w) (leNat (leBytes V w)) = V.setWidth (8 * w) := by
    refine BitVec.eq_of_toNat_eq ?_
    rw [leNat_leBytes, BitVec.toNat_ofNat, Nat.mod_mod, BitVec.toNat_setWidth]
  rw [prefixValue_fixed hw, wireOrder_wireOrder, hlow]
  split
  case isTrue hs =>
    obtain ⟨hlo, hhi⟩ := hsigned hs
    exact signExtend_setWidth (by omega) (by omega) hlo hhi
  case isFalse hs =>
    have hmax := hunsigned (by simpa using hs)
    exact zeroExtend_setWidth (by have := Nat.two_pow_pos (8 * w); omega)

/-! ## The value of a variable-width prefix (R90, R123, R139) -/

/-- The lowest group and the groups above it do not meet. -/
theorem ofNat_group_add (b : Byte) (n : Nat) :
    BitVec.ofNat 64 (b.toNat % 128 + 128 * n) = (b.extractLsb' 0 7).zeroExtend 64 ||| BitVec.ofNat 64 n <<< 7 := by
  have hlow : b.toNat % 2 ^ 7 < 2 ^ 7 := Nat.mod_lt _ (by decide)
  refine BitVec.eq_of_getLsbD_eq fun k hk => ?_
  rw [BitVec.getLsbD_ofNat, Nat.add_comm, show 128 = 2 ^ 7 by rfl, Nat.testBit_two_pow_mul_add _ hlow,
    Nat.testBit_mod_two_pow, BitVec.getLsbD_or, BitVec.zeroExtend, BitVec.getLsbD_setWidth, BitVec.getLsbD_extractLsb',
    BitVec.getLsbD_shiftLeft, BitVec.getLsbD_ofNat, Nat.zero_add]
  by_cases hk7 : k < 7
  · simp only [hk, hk7, decide_true, if_true, Bool.true_and, Bool.not_true, Bool.false_and, Bool.and_false,
      Bool.or_false]
    rfl
  · have hk' : k - 7 < 64 := by omega
    simp [hk, hk7, hk']

/-- The OR of the shifted groups is their sum, cut to 64 bits (R139 (c)). -/
theorem varintValue_eq (shift : Nat) (bs : Bytes) :
    varintValue shift bs = BitVec.ofNat 64 (groupSum bs) <<< shift := by
  induction bs generalizing shift with
  | nil => simp [varintValue, groupSum]
  | cons b r ih =>
    have hgroup : (if shift < 64 then (b.extractLsb' 0 7).zeroExtend 64 <<< shift else 0#64) =
        (b.extractLsb' 0 7).zeroExtend 64 <<< shift := by
      split
      · rfl
      · exact (BitVec.shiftLeft_eq_zero (by omega)).symm
    rw [varintValue, hgroup, ih, groupSum, ofNat_group_add, BitVec.shiftLeft_or_distrib, ← BitVec.shiftLeft_add,
      Nat.add_comm 7]

/-- A variable-width prefix stands for the sum of its groups mod 2^64 (R123, R139 (c)). -/
theorem prefixValue_variable {st : Style} (hw : Style.width st = none) (ord : ByteOrder) (got : Bytes) :
    prefixValue st ord got = BitVec.ofNat 64 (groupSum got) := by
  simp only [prefixValue, hw, varintValue_eq, BitVec.shiftLeft_zero]

theorem toNat_continued (g : BitVec 7) : (0x80#8 ||| g.zeroExtend 8).toNat % 128 = g.toNat := by
  revert g
  decide

theorem toNat_final (g : BitVec 7) : (g.zeroExtend 8).toNat % 128 = g.toNat := by
  revert g
  decide

/-- The groups the loop emits add up to the number it was given, if its turns are enough (R90). -/
theorem groupSum_varintLoop (n : Nat) {V : Scalar} (h : V.toNat < 2 ^ (7 * n)) :
    groupSum (varintLoop n V) = V.toNat := by
  induction n generalizing V with
  | zero => exact (Nat.lt_one_iff.1 h).symm
  | succ n ih =>
    have hdiv := toNat_ushiftRight_seven V
    by_cases hzero : V >>> 7 = 0#64
    · rw [hzero] at hdiv
      rw [varintLoop_last n hzero, groupSum, groupSum, toNat_final, toNat_groupAt_zero]
      have : V.toNat / 128 = 0 := hdiv.symm
      omega
    · have hlt : (V >>> 7).toNat < 2 ^ (7 * n) := by
        rw [hdiv]
        exact Nat.div_lt_of_lt_mul (by rwa [Nat.mul_succ, Nat.add_comm, Nat.pow_add] at h)
      rw [varintLoop_more hzero, groupSum, toNat_continued, toNat_groupAt_zero, ih hlt, hdiv]
      exact Nat.mod_add_div _ _

/-- The groups of a string end with the first byte whose bit 7 is clear. -/
theorem GroupsUpTo.split {V : Scalar} {m : Nat} {pre : Bytes} (h : GroupsUpTo V m pre) :
    ∃ cont x, pre = cont ++ [x] ∧ (∀ b ∈ cont, b.getLsbD 7 = true) ∧ x.getLsbD 7 = false := by
  obtain ⟨-, -, hlen, hcont, hfinal⟩ := h
  obtain rfl | ⟨cont, x, rfl⟩ := pre.eq_nil_or_concat'
  · cases hlen
  · obtain rfl : cont.length = m := by simpa using hlen
    refine ⟨cont, x, rfl, fun b hb => ?_, ?_⟩
    · obtain ⟨k, hk, rfl⟩ := List.getElem_of_mem hb
      have hbyte := hcont k hk
      rw [List.getElem?_append_left hk, List.getElem?_eq_getElem hk, Option.some.injEq] at hbyte
      rw [hbyte]
      simp
    · rw [List.getElem?_concat_length, Option.some.injEq] at hfinal
      rw [hfinal]
      simp

/-! ## Decoding and encoding (R134 to R136) -/

/-- What the encoder answers: the wire bytes of a string the style can hold, or its groups (R111). -/
theorem encodePrefix_eq_some {st : Style} {ord : ByteOrder} {V : Scalar} {pre : Bytes}
    (h : encodePrefix st ord V = some pre) :
    (∃ w, Style.width st = some w ∧ fitsWidth st w V = true ∧ pre = wireOrder ord (leBytes V w)) ∨
      Style.width st = none ∧ pre = varintLoop 10 V := by
  unfold encodePrefix at h
  split at h
  · split at h <;> cases h
    exact .inl ⟨_, ‹_›, ‹_›, rfl⟩
  · cases h
    exact .inr ⟨‹_›, rfl⟩

/-- Decoding an encoder's output gives the string back and takes the bytes produced (R134, R136). -/
theorem decodePrefix_encodePrefix {st : Style} {ord : ByteOrder} {V : Scalar} {pre : Bytes}
    (h : encodePrefix st ord V = some pre) (rest : Bytes) :
    decodePrefix st ord (pre ++ rest) = some (V, pre.length) := by
  obtain ⟨w, hw, hfits, rfl⟩ | ⟨hw, rfl⟩ := encodePrefix_eq_some h
  · have hlen : (wireOrder ord (leBytes V w)).length = w := by simp
    rw [decodePrefix_fixed hw ord hlen, prefixValue_leBytes hw ord hfits, hlen]
  · have hturns : V.toNat < 2 ^ (7 * 10) := by omega
    obtain ⟨m, hgroups⟩ := varintLoop_groups 9 hturns
    have hsum := groupSum_varintLoop 10 hturns
    obtain ⟨cont, x, hsplit, hcont, hx⟩ := hgroups.split
    rw [hsplit] at hsum ⊢
    rw [List.append_assoc, List.singleton_append, decodePrefix_variable hw ord hcont hx, prefixValue_variable hw, hsum,
      BitVec.ofNat_toNat, BitVec.setWidth_eq, List.length_append, List.length_singleton]

theorem width_of_mem_variableStyles {st : Style} (h : st ∈ variableStyles) : Style.width st = none := by
  have hall : ∀ st ∈ variableStyles, Style.width st = none := by decide
  exact hall st h

/-- Settles O27: the decoder ends where the encoder did, with the value it had; 0 is encoded by one byte and
decoded from two. -/
theorem codecRoundTrip : Obligations.CodecRoundTrip := by
  unfold Obligations.CodecRoundTrip
  refine ⟨fun st ord V pre rest h => decodePrefix_encodePrefix h rest, fun st ord hst => ?_⟩
  have hw := width_of_mem_variableStyles hst
  refine ⟨0#64, [0x00#8], [0x80#8, 0x00#8], by decide, ?_, ?_⟩
  · simp only [encodePrefix, hw]
    rfl
  · have hdecode := decodePrefix_variable hw ord (cont := [0x80#8]) (x := 0x00#8) (by decide) rfl []
    rwa [prefixValue_variable hw] at hdecode

/-! ## The CODEC's answers (R110) -/

/-- Settles O22: the encoder has no bytes for an integer outside the style's range. -/
theorem encodeOutOfRangeFaults : Obligations.EncodeOutOfRangeFaults := by
  unfold Obligations.EncodeOutOfRangeFaults
  intro st sg w ord s hst hrange
  obtain ⟨hw, rfl⟩ := width_signed_of_mem_fixedStyles hst
  have hfits : fitsWidth st w s.arg = false := by
    rw [← Bool.not_eq_true, fitsWidth_iff]
    rintro ⟨hsigned, hunsigned⟩
    obtain ⟨hs, hout⟩ | ⟨hs, hout⟩ := hrange
    · have := hsigned hs
      omega
    · have := hunsigned hs
      omega
  have hnone : encodePrefix st ord s.arg = none := by simp only [encodePrefix, hw, hfits, Bool.false_eq_true, if_false]
  rw [exec_encOf, encBody, hnone]
  rfl

/-- A prefix that decodes is answered by its string and the count of its bytes (R123). -/
theorem exec_decOf_prefix {st : Style} {ord : ByteOrder} {s : State} {V : Scalar} {c : Nat}
    (h : decodePrefix st ord s.din = some (V, c)) :
    exec (decOf ord st) s = .next (s.endCommand .codec { res := V, cnt := cntOf c }) := by
  rw [exec_decOf, decBody, h]
  rfl

/-- Settles O24: the front of the source is a whole prefix, and its bytes are one number whatever the order. -/
theorem decodeFixedWidthValue : Obligations.DecodeFixedWidthValue := by
  unfold Obligations.DecodeFixedWidthValue
  intro st sg w ord s X hst hlen hX
  obtain ⟨hw, rfl⟩ := width_signed_of_mem_fixedStyles hst
  have hpos := (width_bounds hw).1
  have hfront : (s.din.take w).length = w := by rw [List.length_take, Nat.min_eq_left hlen]
  have hdecode := decodePrefix_fixed hw ord hfront (s.din.drop w)
  rw [← leNat_wireOrder] at hX
  have hlt : X < 2 ^ (8 * w) := by
    have := leNat_lt (wireOrder ord (s.din.take w))
    rwa [wireOrder_length, hfront, ← hX] at this
  rw [List.take_append_drop, prefixValue_fixed hw, ← hX, signExtend_ofNat (by omega) hlt, zeroExtend_ofNat hlt]
    at hdecode
  rw [exec_decOf_prefix hdecode]
  cases Style.signed st with
  | true =>
    simp only [if_true, true_and]
    rfl
  | false =>
    simp only [Bool.false_eq_true, if_false, false_and]
    rfl

/-- Settles O25: the prefix ends with the first byte with bit 7 clear, and its groups add up. -/
theorem decodeVarintValue : Obligations.DecodeVarintValue := by
  unfold Obligations.DecodeVarintValue
  intro st ord s cont x rest hst hdin hcont hx
  have hw := width_of_mem_variableStyles hst
  have hdecode := decodePrefix_variable hw ord hcont hx rest
  rw [← hdin, prefixValue_variable hw] at hdecode
  exact exec_decOf_prefix hdecode

/-- `MAXLEN` answers the style's bound, all ones if it has none (R138). -/
theorem exec_maxlen_bound (st : Style) (ord : ByteOrder) (s : State) :
    exec (.maxlen ord st) s =
      .next (s.endCommand .codec (.scalar ((Style.maxLen st).elim (BitVec.allOnes 64) resOf))) := by
  rw [exec_maxlen, maxlenBody]
  split <;> rename_i h <;> rw [h] <;> rfl

/-- Settles O28: each row of the table holds the style's bound. -/
theorem maxLenTable : Obligations.MaxLenTable := by
  unfold Obligations.MaxLenTable
  intro st v ord s hrow
  have hall : ∀ r ∈ maxLenRows, (Style.maxLen r.1).elim (BitVec.allOnes 64) resOf = r.2 := by decide
  rw [exec_maxlen_bound, hall (st, v) hrow]
  rfl

/-! ## A message written and read back (R164, R192) -/

/-- The length of a message a command can carry is its prefix's integer under every style (R7, R16). -/
theorem ival_resOf (st : Style) {n : Nat} (h : n ≤ PAYLOAD_MAX) : Style.ival st (resOf n) = (n : Int) := by
  have hn : n ≤ 2147483647 := h
  have hnat : (resOf n).toNat = n := by rw [resOf, BitVec.toNat_ofNat, Nat.mod_eq_of_lt (by omega)]
  have hint : (resOf n).toInt = (n : Int) := by rw [BitVec.toInt_eq_toNat_of_lt (by omega), hnat]
  rw [Style.ival, hnat, hint, ite_self]

theorem Straps.CAP_le (c : Straps) : c.CAP ≤ PAYLOAD_MAX := c.capLess1.isLt

/-- With no length cached and the encoder's bytes at the front of a finite stream, their string is the next
length, and the transport stands behind them (R134, R161). -/
theorem State.upcoming_encoded {s : State} {V : Scalar} {pre rest : Bytes} (hnext : s.rd.next = none)
    (htail : s.rx.tail = .ends) (hpre : encodePrefix s.cfg.rd.style s.cfg.rd.order V = some pre)
    (hstream : s.rx.stream = pre ++ rest) : s.upcoming = some (V, { s.rx with stream := rest }) := by
  have hall : s.rx.front s.rx.reach = pre ++ rest := by
    rw [RxPort.front_finite htail, List.take_of_length_le (by rw [RxPort.reach]; omega), hstream]
  simp only [State.upcoming, hnext, hall, decodePrefix_encodePrefix hpre, RxPort.drop_finite htail, hstream,
    List.drop_left]

/-- With no record and a next length below 1, `RD.READMSG` answers no data and takes the prefix (R163, R164). -/
theorem exec_rdReadMsg_empty {s : State} {V : Scalar} {rest : RxPort} (hready : s.readerReady = true)
    (hcalm : s.rxCalm = true) (hq : s.rb.queue = []) (hup : s.upcoming = some (V, rest))
    (hlt : Style.ival s.cfg.rd.style V < 1) :
    ∃ sc, exec .rdReadMsg s = .next ((s.rxAt rest s.rx.eof sc).forgetNext.endCommand .reader .done) := by
  obtain ⟨sc, -, hpull⟩ := pullFrame_calm hcalm
  simp only [hup, hlt, if_true] at hpull
  refine ⟨sc, ?_⟩
  change (readMsgBody s).finish .reader = _
  simp only [readMsgBody, readerChecks_ready hready, Run.bind_done, rbDrainMsg_nil hq, List.length_nil, lt_irrefl,
    if_false, hpull, Run.finish_done]

/-- A frame alone on a finite stream is the message `RD.READMSG` returns, if the buffer has room for it. -/
theorem exec_rdReadMsg_encoded {s : State} {pre p : Bytes} (hready : s.readerReady = true) (hcalm : s.rxCalm = true)
    (hinv : s.rb.inv s.cfg.CAP = true) (hq : s.rb.queue = []) (hnext : s.rd.next = none) (htail : s.rx.tail = .ends)
    (hpre : encodePrefix s.cfg.rd.style s.cfg.rd.order (resOf p.length) = some pre) (hstream : s.rx.stream = pre ++ p)
    (hroom : p.length ≤ s.cfg.CAP - s.rb.stop) :
    ∃ u, exec .rdReadMsg s = .next u ∧ u.rsp = some ⟨s.txn.who, .data p⟩ ∧ u.rx.stream = [] ∧ u.rd.next = none := by
  have hmax := s.cfg.CAP_le
  have hup := State.upcoming_encoded hnext htail hpre hstream
  have hival := ival_resOf s.cfg.rd.style (n := p.length) (by omega)
  rcases Nat.eq_zero_or_pos p.length with hzero | hpos
  · obtain ⟨sc, hexec⟩ := exec_rdReadMsg_empty hready hcalm hq hup (by omega)
    obtain rfl : p = [] := List.length_eq_zero_iff.1 hzero
    exact ⟨_, hexec, rfl, rfl, rfl⟩
  · have hfront := RxPort.front_finite (p := { s.rx with stream := p }) htail p.length
    have hdrop := RxPort.drop_finite (p := { s.rx with stream := p }) htail p.length
    rw [List.take_length] at hfront
    rw [List.drop_length] at hdrop
    obtain ⟨u, hexec, -, hrsp, hrd, hrx, -⟩ := readMsgReturnsNextFrame s .rdReadMsg _ _ p.length (.inl rfl) hready
      hcalm hinv hq hup hival hpos (RxPort.holds_iff.2 (congrArg List.length hfront)) hroom
    rw [hfront] at hrsp
    rw [hdrop] at hrx
    exact ⟨u, hexec, hrsp, by rw [hrx], by rw [hrd]⟩

/-- Settles O60: what the writer appends is a frame alone on the looped-back stream. -/
theorem writeThenReadReturnsMessage : Obligations.WriteThenReadReturnsMessage := by
  unfold Obligations.WriteThenReadReturnsMessage
  intro s hwr hrd htx hrx hstyle horder htail hstream hinv hq hnext hwithin hroom
  have hlen : s.din.length ≤ PAYLOAD_MAX := by
    have := s.cfg.CAP_le
    omega
  obtain ⟨pre, sc, hpre, hwrite⟩ := writeMsgAppendsFrame s hwr htx hlen hwithin
  rw [← hstyle, ← horder] at hpre
  refine ⟨_, exists_and_left.2 ⟨hwrite, ?_⟩⟩
  have hloop : (s.tx.stream ++ pre ++ s.din).drop s.tx.stream.length = pre ++ s.din := by
    rw [List.append_assoc, List.drop_left]
  exact exec_rdReadMsg_encoded hrd hrx hinv hq hnext htail hpre hloop hroom

end Sys2Proof.Machine
end

section
/-! PROOFS. The family of spec/41_rbuf.md: what the fills and drains of the buffer do, byte by byte and message by
message, and the zero-length record that a message read removes. -/

namespace Sys2Proof.Machine

/-! ## Compaction on empty (R149) -/

@[simp] theorem RBuf.normalize_mem (b : RBuf) : b.normalize.mem = b.mem := by
  unfold RBuf.normalize
  split <;> rfl

/-- A buffer that meets I1 and I2 of R28 is left alone. -/
theorem RBuf.normalize_compact {start stop : Nat} (h : start = stop → stop = 0) (m : List Host.Cell)
    (q : List (Nat × Nat)) : RBuf.normalize ⟨m, start, stop, q⟩ = ⟨m, start, stop, q⟩ := by
  rw [RBuf.normalize, if_neg]
  rintro ⟨he, hne⟩
  exact hne (he.trans (h he))

theorem RBuf.normalize_emptied {start stop : Nat} (he : start = stop) (hpos : 0 < stop) (m : List Host.Cell)
    (q : List (Nat × Nat)) : RBuf.normalize ⟨m, start, stop, q⟩ = ⟨m, 0, 0, q.map fun r => (0, r.2)⟩ := by
  rw [RBuf.normalize, if_pos ⟨he, by dsimp only; omega⟩]

/-! ## The gap-closing move (R150) -/

/-- The byte that a move of `n` bytes down by `l` leaves at `a` stood `l` above it. -/
theorem memGet_moveDown {m : List Host.Cell} (h : memRising 0 m = true) {o l n a : Nat} (hlo : o ≤ a)
    (hhi : a < o + n) : memGet (memSetN m o (memGetN m (o + l) n)) a = memGet m (a + l) := by
  rw [memGet_memSetN h (Nat.zero_le o), memGetN_length, if_pos ⟨hlo, hhi⟩,
    memGetN_getElem? _ _ _ _ (by omega), Option.getD_some]
  congr 1
  omega

/-! ## The recorded messages (R141, R150) -/

/-- The messages the records stand for, oldest first (R27). -/
def RBuf.messages (b : RBuf) : List Bytes := b.queue.map fun r => memGetN b.mem r.1 r.2

/-- A message fill adds its bytes as the newest message (R141). -/
theorem RBuf.fill_messages {cap : Nat} {b : RBuf} (h : b.inv cap = true) {bs : Bytes}
    (hs : bs.length ≤ cap - b.stop) :
    ∃ b' : RBuf, b.fill cap bs true = .ok b' ∧ b'.queue = b.queue ++ [(b.stop, bs.length)] ∧
      b'.messages = b.messages ++ [bs] := by
  have hok := (RBuf.inv_iff cap b).1 h
  refine ⟨_, RBuf.fill_fits h hs true, rfl, ?_⟩
  have hold : ∀ r ∈ b.queue, memGetN (memSetN b.mem b.stop bs) r.1 r.2 = memGetN b.mem r.1 r.2 := fun r hr =>
    memGetN_memSetN_other hok.rising (Nat.zero_le _) bs (.inl (hok.inside r hr).2)
  simp only [RBuf.messages, if_true, List.map_append, List.map_cons, List.map_nil, List.map_congr_left hold,
    memGetN_memSetN_same hok.rising (Nat.zero_le _) bs]

/-- A message drain answers the oldest message and keeps the others, wherever their bytes come to stand (R150). -/
theorem RBuf.drainMsg_messages {cap : Nat} {b b' : RBuf} (h : b.inv cap = true) {r : Nat × Nat}
    {q : List (Nat × Nat)} (hq : b.queue = r :: q) {out : Bytes} (hd : b.drainMsg cap = some (out, b')) :
    out :: b'.messages = b.messages := by
  obtain ⟨o, l⟩ := r
  obtain ⟨hle, -, hempty, hinside, hordered, hrising, -⟩ := (RBuf.inv_iff cap b).1 h
  rw [hq] at hinside hordered
  have hhead : b.start ≤ o ∧ o + l ≤ b.stop := hinside (o, l) List.mem_cons_self
  have hbehind : ∀ r ∈ q, o + l ≤ r.1 ∧ r.1 + r.2 ≤ b.stop := fun r hr =>
    ⟨(List.pairwise_cons.1 hordered).1 r hr, (hinside r (List.mem_cons_of_mem _ hr)).2⟩
  by_cases ho : o = b.start
  · subst ho
    rw [RBuf.drainMsg_front h hq, Option.some.injEq, Prod.mk.injEq] at hd
    obtain ⟨rfl, rfl⟩ := hd
    simp only [RBuf.messages, hq, List.map_cons, RBuf.normalize_mem, List.cons.injEq, true_and]
    by_cases hall : b.start + l = b.stop ∧ 0 < b.stop
    · obtain ⟨he, hpos⟩ := hall
      rw [RBuf.normalize_emptied he hpos, List.map_map]
      refine List.map_congr_left fun r hr => ?_
      have hzero : r.2 = 0 := by have := hbehind r hr; omega
      simp only [Function.comp_apply, hzero, memGetN]
    · have hcompact : b.start + l = b.stop → b.stop = 0 := by omega
      rw [RBuf.normalize_compact hcompact]
  · rw [RBuf.drainMsg_behind h hq ho, Option.some.injEq, Prod.mk.injEq] at hd
    obtain ⟨rfl, rfl⟩ := hd
    simp only [RBuf.messages, hq, List.map_cons, List.map_map, List.cons.injEq, true_and]
    refine List.map_congr_left fun r hr => memGetN_congr fun k hk => ?_
    have := hbehind r hr
    dsimp only at hk ⊢
    rw [memGet_moveDown hrising (by omega) (by omega)]
    congr 1
    omega

/-- A zero-length head record goes without a trace (R144, R150). -/
theorem RBuf.drainMsg_emptyHead {cap : Nat} {b : RBuf} (h : b.inv cap = true) {o : Nat} {q : List (Nat × Nat)}
    (hq : b.queue = (o, 0) :: q) : b.drainMsg cap = some ([], { b with queue := q }) := by
  obtain ⟨-, -, hempty, -, -, hrising, -⟩ := (RBuf.inv_iff cap b).1 h
  by_cases ho : o = b.start
  · subst ho
    rw [RBuf.drainMsg_front h hq, Nat.add_zero, RBuf.normalize_compact hempty]
    rfl
  · rw [RBuf.drainMsg_behind h hq ho]
    simp only [Nat.add_zero, memSetN_memGetN hrising (Nat.zero_le o), Nat.sub_zero, Prod.mk.eta, List.map_id', memGetN]

/-! ## The commands of a ready reader -/

/-- The two fills differ in the record alone (R142, R143). -/
theorem exec_rbFill_ready {s : State} {i : Instr} (hi : i = .rbFillRaw ∨ i = .rbFillMsg)
    (hready : s.readerReady = true) :
    exec i s = ((rbFill s.din (decide (i = .rbFillMsg)) s).bind fun _ s => .done .done s).finish .reader := by
  rcases hi with rfl | rfl
  all_goals
    change ((readerChecks s).bind _).finish .reader = _
    rw [readerChecks_ready hready]
    rfl

theorem exec_rbDrain_ready {s : State} {out : Bytes} {b : RBuf} (hready : s.readerReady = true)
    (hd : s.rb.drain s.cfg.CAP s.arg.toNat = some (out, b)) :
    exec .rbDrain s = .next (State.endCommand { s with rb := b } .reader (.data out)) := by
  change ((readerChecks s).bind _).finish .reader = _
  rw [readerChecks_ready hready, Run.bind_done, State.argNat_eq, rbDrain_eq hd]
  rfl

theorem exec_rbDrainMsg_ready {s : State} {out : Bytes} {b : RBuf} (hready : s.readerReady = true)
    (hd : s.rb.drainMsg s.cfg.CAP = some (out, b)) :
    exec .rbDrainMsg s = .next (State.endCommand { s with rb := b } .reader (.data out)) := by
  change ((readerChecks s).bind _).finish .reader = _
  rw [readerChecks_ready hready, Run.bind_done, rbDrainMsg_eq hd]
  rfl

/-- Settles O32: a ready reader answers at once. -/
theorem lenCountsUnreadBytes : Obligations.LenCountsUnreadBytes := by
  unfold Obligations.LenCountsUnreadBytes
  intro s hready
  change ((readerChecks s).bind _).finish .reader = _
  rw [readerChecks_ready hready]
  rfl

/-! ## Fill and drain (R141 to R151) -/

/-- Settles O29: the fill is one write at RB.end, or finds no room before it writes. -/
theorem fillAppendsBytesOrFaults : Obligations.FillAppendsBytesOrFaults := by
  unfold Obligations.FillAppendsBytesOrFaults
  intro s i hi hready hinv
  have hrising := ((RBuf.inv_iff _ s.rb).1 hinv).rising
  refine ⟨fun hfits => ⟨memSetN s.rb.mem s.rb.stop s.din, ?_, fun k hk => ?_, sameOutside_memSetN hrising _ _⟩,
    fun hbig => ?_⟩
  · simp only [exec_rbFill_ready hi hready, rbFill_fits hinv hfits, decide_eq_true_eq]
    rfl
  · rw [← memGetN_getElem? _ _ _ _ hk, memGetN_memSetN_same hrising (Nat.zero_le _)]
  · rw [exec_rbFill_ready hi hready, rbFill_exhausted hbig]
    rfl

/-- The response that answers `n` bytes of the store. -/
theorem data_memGetN (m : List Host.Cell) (a n : Nat) :
    Response.data (memGetN m a n) = { dout := memGetN m a n, cnt := BitVec.ofNat 32 n } := by
  rw [Response.data, memGetN_length]
  rfl

/-- The response that answers up to `m` of the unread bytes. -/
theorem data_unread_take (b : RBuf) (m : Nat) :
    Response.data (b.unread.take m) =
      { dout := b.unread.take (min m (b.stop - b.start)), cnt := BitVec.ofNat 32 (min m (b.stop - b.start)) } := by
  rw [Response.data, List.length_take, RBuf.unread_length, List.take_eq_take_min, RBuf.unread_length]
  rfl

/-- Settles O30: the drain leaves something or takes nothing, or it empties the buffer. -/
theorem drainReturnsOldestBytes : Obligations.DrainReturnsOldestBytes := by
  unfold Obligations.DrainReturnsOldestBytes
  rintro s k hready hinv rfl
  have hle := ((RBuf.inv_iff _ s.rb).1 hinv).le
  by_cases hpart : s.arg.toNat < s.rb.stop - s.rb.start ∨ s.rb.start = s.rb.stop
  · have hexec := exec_rbDrain_ready hready (RBuf.drain_part hinv hpart)
    rw [data_unread_take] at hexec
    refine ⟨_, hexec, rfl, fun _ => ⟨rfl, rfl, rfl⟩, fun hall => ?_⟩
    omega
  · have hdrain := RBuf.drain_all hinv (m := s.arg.toNat) (by omega) (by omega)
    rw [← List.take_of_length_le (l := s.rb.unread) (i := s.arg.toNat) (by rw [RBuf.unread_length]; omega)] at hdrain
    have hexec := exec_rbDrain_ready hready hdrain
    rw [data_unread_take] at hexec
    refine ⟨_, hexec, rfl, fun hsome => ?_, fun _ => ⟨rfl, rfl, rfl⟩⟩
    omega

/-- Settles O31: no record, the head record at the front, the head record behind raw bytes. -/
theorem drainMsgReturnsHeadRecord : Obligations.DrainMsgReturnsHeadRecord := by
  unfold Obligations.DrainMsgReturnsHeadRecord
  refine ⟨fun s hready hq => exec_rbDrainMsg_ready hready (RBuf.drainMsg_nil hq),
    fun s l q hready hinv hq => ?_, fun s o l q hready hinv hq ho => ?_⟩
  · have hempty := ((RBuf.inv_iff _ s.rb).1 hinv).empty
    have hexec := exec_rbDrainMsg_ready hready (RBuf.drainMsg_front hinv hq)
    rw [data_memGetN] at hexec
    refine ⟨_, hexec, RBuf.normalize_mem _, fun hleft => ?_, fun ⟨hpos, he⟩ => ?_⟩
    · have hcompact : s.rb.start + l = s.rb.stop → s.rb.stop = 0 := by omega
      rw [RBuf.normalize_compact hcompact]
      exact ⟨rfl, rfl, rfl⟩
    · rw [RBuf.normalize_emptied he (by omega)]
      exact ⟨rfl, rfl, rfl⟩
  · have hok := (RBuf.inv_iff _ s.rb).1 hinv
    have hhead : s.rb.start ≤ o ∧ o + l ≤ s.rb.stop := hok.inside (o, l) (by rw [hq]; exact List.mem_cons_self)
    have hexec := exec_rbDrainMsg_ready hready (RBuf.drainMsg_behind hinv hq ho)
    rw [data_memGetN] at hexec
    refine ⟨_, hexec, fun a hlo hhi => memGet_moveDown hok.rising hlo (by omega), ?_⟩
    have hmoved : (memGetN s.rb.mem (o + l) (s.rb.stop - (o + l))).length = s.rb.stop - l - o := by
      rw [memGetN_length]
      omega
    exact hmoved ▸ sameOutside_memSetN hok.rising o _

/-! ## A message fill and the drain after it (R154) -/

/-- The drain takes back what a message fill into a buffer without records put there, a message of no bytes too,
whose record is zero-length (R144). -/
theorem RBuf.drainMsg_filled {cap : Nat} {b : RBuf} (h : b.inv cap = true) (hq : b.queue = []) {bs : Bytes}
    (hs : bs.length ≤ cap - b.stop) :
    RBuf.drainMsg cap ⟨memSetN b.mem b.stop bs, b.start, b.stop + bs.length, [(b.stop, bs.length)]⟩ =
      some (bs, b.passed bs) := by
  cases bs with
  | nil => exact RBuf.drainMsg_emptyHead (RBuf.fill_inv h (RBuf.fill_message h hq hs)) rfl
  | cons x bs => exact RBuf.drainMsg_message h hq (Nat.le_add_left 1 _) hs

/-- Settles O33: the message has passed through the store behind RB.end. -/
theorem fillThenDrainMsgRestores : Obligations.FillThenDrainMsgRestores := by
  unfold Obligations.FillThenDrainMsgRestores
  intro cap b b1 m hinv hq hfill
  have hs : m.length ≤ cap - b.stop := by
    by_contra hbig
    rw [RBuf.fill_exhausted (by omega)] at hfill
    cases hfill
  rw [RBuf.fill_message hinv hq hs] at hfill
  cases hfill
  exact ⟨b.passed m, RBuf.drainMsg_filled hinv hq hs, rfl, rfl, rfl, RBuf.passed_unread hinv m⟩

/-! ## A zero-length record at the head (R144, R164, R165) -/

/-- `TakeMsg` into a destination large enough for the head record (R165). -/
theorem takeMsg_fits {s : State} {dstCap : Nat} {r : Nat × Nat} {q : List (Nat × Nat)} (hq : s.rb.queue = r :: q)
    (hr : r.2 ≤ dstCap) : takeMsg dstCap s = rbDrainMsg s := by
  simp only [takeMsg, hq]
  exact if_neg (Nat.not_lt.2 hr)

/-- The first drain of a message read takes a lone zero-length record away and answers nothing, as it does with no
record. -/
theorem exec_readMsg_loneEmpty {s : State} {i : Instr} {o : Nat} (hi : i = .rdReadMsg ∨ i = .rdReadMsgC)
    (hinv : s.rb.inv s.cfg.CAP = true) (hready : s.readerReady = true) (hq : s.rb.queue = [(o, 0)]) :
    exec i s = exec i { s with rb := { s.rb with queue := [] } } := by
  have hskip := rbDrainMsg_eq (RBuf.drainMsg_emptyHead hinv hq)
  have hready' : State.readerReady { s with rb := { s.rb with queue := [] } } = true := hready
  have hnone : rbDrainMsg { s with rb := { s.rb with queue := [] } } =
    .done [] { s with rb := { s.rb with queue := [] } } := rbDrainMsg_nil rfl
  rcases hi with rfl | rfl
  · change (readMsgBody s).finish .reader = (readMsgBody _).finish .reader
    simp only [readMsgBody, readerChecks_ready hready, readerChecks_ready hready', Run.bind_done, hskip, hnone]
  · change (readMsgCBody s.argNat s).finish .reader = (readMsgCBody s.argNat _).finish .reader
    have htake := takeMsg_fits (dstCap := s.argNat) hq (Nat.zero_le _)
    simp only [readMsgCBody, readerChecks_ready hready, readerChecks_ready hready', Run.bind_done, htake, hskip]
    simp only [takeMsg, hnone, Run.bind_done]

/-- An empty head record before another one: the next frame is filled in as a record, and the older record is
drained. -/
theorem exec_readMsg_emptyHead {s : State} {i : Instr} {o o' l' : Nat} {q q' : List (Nat × Nat)} {rest : RxPort}
    {L : Nat} {b1 b2 : RBuf} {out : Bytes}
    (hi : i = .rdReadMsg ∨ (i = .rdReadMsgC ∧ L ≤ s.arg.toNat ∧ l' ≤ s.arg.toNat))
    (hready : s.readerReady = true) (hinv : s.rb.inv s.cfg.CAP = true) (hq : s.rb.queue = (o, 0) :: q)
    (h : s.FrameNext rest L) (hfill : RBuf.fill s.cfg.CAP { s.rb with queue := q } (rest.front L) true = .ok b1)
    (hq1 : b1.queue = (o', l') :: q') (hdrain : b1.drainMsg s.cfg.CAP = some (out, b2)) :
    ∃ sc, exec i s =
      .next (State.endCommand { s.frameTaken rest L sc with rb := b2 } .reader (.data out)) := by
  have hskip := rbDrainMsg_eq (RBuf.drainMsg_emptyHead hinv hq)
  have hframe := h.withRb { s.rb with queue := q }
  have hfilled : ∀ sc,
      rbFill (rest.front L) true (State.frameTaken { s with rb := { s.rb with queue := q } } rest L sc) =
        .done .unit { s.frameTaken rest L sc with rb := b1 } := fun sc => rbFill_eq hfill
  have hdrained : ∀ sc, rbDrainMsg { s.frameTaken rest L sc with rb := b1 } =
      .done out { s.frameTaken rest L sc with rb := b2 } := fun sc => rbDrainMsg_eq hdrain
  rcases hi with rfl | ⟨rfl, hcap, hcap'⟩
  · obtain ⟨sc, hpull⟩ := hframe.pulls
    refine ⟨sc, ?_⟩
    change (readMsgBody s).finish .reader = _
    simp only [readMsgBody, readerChecks_ready hready, Run.bind_done, hskip, List.length_nil, lt_irrefl, if_false,
      hpull, hfilled, hdrained, Run.finish_done]
  · obtain ⟨t, hresolve, sc, hpull⟩ := hframe.resolves
    refine ⟨sc, ?_⟩
    have hlong : ¬ (1 ≤ (L : Int) ∧ ((s.argNat : Nat) : Int) < L) := by rw [State.argNat_eq]; omega
    have htake := takeMsg_fits (dstCap := s.argNat) hq (Nat.zero_le _)
    have htake' := takeMsg_fits (s := { s.frameTaken rest L sc with rb := b1 }) (dstCap := s.argNat) hq1 hcap'
    change (readMsgCBody s.argNat s).finish .reader = _
    simp only [readMsgCBody, readerChecks_ready hready, Run.bind_done, htake, hskip, List.length_nil, lt_irrefl,
      if_false, hresolve, hlong, hpull, hfilled, htake', hdrained, Run.finish_done]

/-- Settles O35: the read goes on in the buffer without the empty record, where the fill makes the frame the
newest message and the drain answers the oldest. -/
theorem emptyHeadRecordIsSkipped : Obligations.EmptyHeadRecordIsSkipped := by
  unfold Obligations.EmptyHeadRecordIsSkipped
  refine ⟨fun s o i hi hinv hready hq => exec_readMsg_loneEmpty hi hinv hready hq, ?_⟩
  intro s o o' l' q i V rest L hi hready hcalm hinv hq hup hL hpos hholds hfits
  have hframe : s.FrameNext rest L := ⟨hcalm, ⟨V, hup, hL⟩, hpos, hholds⟩
  have hlen := hframe.length_front
  have hinv0 := RBuf.drainMsg_inv hinv (RBuf.drainMsg_emptyHead hinv hq)
  obtain ⟨b1, hfill, hq1, hmsgs1⟩ := RBuf.fill_messages hinv0 (bs := rest.front L) (by rwa [hlen])
  have hinv1 := RBuf.fill_inv hinv0 hfill
  obtain ⟨out, b2, hdrain⟩ := RBuf.drainMsg_isSome hinv1
  have hfifo := RBuf.drainMsg_messages hinv1 hq1 hdrain
  rw [hmsgs1] at hfifo
  obtain ⟨rfl, hmsgs2⟩ := List.cons.inj hfifo
  obtain ⟨sc, hexec⟩ := exec_readMsg_emptyHead hi hready hinv hq hframe hfill hq1 hdrain
  refine ⟨_, hexec, rfl, by rw [State.endCommand_rsp, data_memGetN]; rfl, rfl, rfl, ?_, fun o'' l'' hlast => ?_⟩
  · simpa [RBuf.messages] using congrArg List.length hmsgs2
  · have hmsg : memGetN b2.mem o'' l'' = rest.front L := by
      have hlast' : b2.messages.getLast? = some (memGetN b2.mem o'' l'') := by
        rw [RBuf.messages, List.getLast?_map, show b2.queue.getLast? = some (o'', l'') from hlast]
        rfl
      rw [hmsgs2] at hlast'
      simpa using hlast'.symm
    obtain rfl : l'' = L := by rw [← hlen, ← hmsg, memGetN_length]
    exact ⟨rfl, hmsg⟩

end Sys2Proof.Machine
end

section
/-! PROOFS. The family of spec/42_reader.md: reads that the buffer answers, empty frames, frames that are cut short
or too long for the destination, the length that is looked at, and reads one after another. -/

namespace Sys2Proof.Machine

/-! ## Where a finite stream can end (R36, R161, R163) -/

/-- Taking a prefix off a finite stream changes only the bytes still to come. -/
theorem State.upcoming_finite {s : State} {V : Scalar} {rest : RxPort} (htail : s.rx.tail = .ends)
    (hup : s.upcoming = some (V, rest)) : rest = { s.rx with stream := rest.stream } := by
  unfold State.upcoming at hup
  split at hup
  · cases hup; rfl
  · split at hup
    · cases hup
      rw [RxPort.drop_finite htail]
    · cases hup

/-- With no length cached, an exhausted finite stream has none to come. -/
theorem State.upcoming_exhausted {s : State} (hnext : s.rd.next = none) (htail : s.rx.tail = .ends)
    (hstream : s.rx.stream = []) : s.upcoming = none := by
  simp only [State.upcoming, hnext, RxPort.front_finite htail, hstream, List.take_nil, decodePrefix, decodeLoop]

/-- `s` with its finite receive stream exhausted and the end seen. -/
def State.exhausted (s : State) (sc : List Answer) : State :=
  { s with rx := { s.rx with stream := [], eof := true, script := sc } }

/-- The end inside a prefix: the stream is exhausted and its end seen. -/
theorem pullFrame_end {s : State} (hcalm : s.rxCalm = true) (hup : s.upcoming = none) (htail : s.rx.tail = .ends) :
    ∃ sc, pullFrame s = .done none (s.exhausted sc) := by
  obtain ⟨sc, -, hpull⟩ := pullFrame_calm hcalm
  rw [hup] at hpull
  exact ⟨sc, hpull.trans (if_pos htail)⟩

/-- A length below 1: the frame is its prefix. -/
theorem pullFrame_empty {s : State} {V : Scalar} {rest : RxPort} (hcalm : s.rxCalm = true)
    (hup : s.upcoming = some (V, rest)) (hlt : Style.ival s.cfg.rd.style V < 1) : ∃ sc, pullFrame s =
      .done none { s with rd := { s.rd with next := none }, rx := { rest with script := sc } } := by
  obtain ⟨sc, -, hpull⟩ := pullFrame_calm hcalm
  simp only [hup, hlt, if_true] at hpull
  exact ⟨sc, by rw [hpull, ← State.upcoming_eof hup]; rfl⟩

/-- Fewer bytes left than the frame has: they are gone, and the end has been seen. -/
theorem pullFrame_short {s : State} {V : Scalar} {rest : RxPort} (hcalm : s.rxCalm = true)
    (htail : s.rx.tail = .ends) (hup : s.upcoming = some (V, rest)) (hpos : 1 ≤ Style.ival s.cfg.rd.style V)
    (hshort : (rest.stream.length : Int) < Style.ival s.cfg.rd.style V) : ∃ sc, pullFrame s =
      .raised .incompleteFrame
        { s with rd := { s.rd with next := none }, rx := { s.rx with stream := [], eof := true, script := sc } } := by
  obtain ⟨sc, -, hpull⟩ := pullFrame_calm hcalm
  have hrest := State.upcoming_finite htail hup
  have hends : rest.tail = .ends := by rw [hrest]; exact htail
  have hnot : rest.holds (Style.ival s.cfg.rd.style V).toNat = false := by
    rw [← Bool.not_eq_true, RxPort.holds_iff, RxPort.front_finite hends, List.length_take]
    omega
  have hdrop : rest.stream.drop (Style.ival s.cfg.rd.style V).toNat = [] := by
    rw [List.drop_eq_nil_iff]
    omega
  have hnlt : ¬ Style.ival s.cfg.rd.style V < 1 := by omega
  simp only [hup, hnlt, hnot, Bool.false_eq_true, if_false, RxPort.drop_finite hends, hdrop] at hpull
  refine ⟨sc, hpull.trans ?_⟩
  rw [hrest]
  rfl

/-! ## What a message read does when its first drain answers nothing (R164, R165) -/

/-- The frame that has been pulled, if there is one, goes into the buffer as a record, and `take` takes the oldest
message out. -/
def storeFrame (take : State → Run Bytes) (p : Option Bytes) (s : State) : Run Response :=
  match p with
  | none => .done .done s
  | some p => (rbFill p true s).bind fun _ s => (take s).bind fun m s => .done (.data m) s

/-- The rest of `RD.READMSG`. -/
def fetchMsg (s : State) : Run Response := (pullFrame s).bind (storeFrame rbDrainMsg)

/-- The rest of `RD.READMSGC`. -/
def fetchMsgC (dstCap : Nat) (s : State) : Run Response :=
  (resolve s).bind fun L s =>
    if 1 ≤ L ∧ (dstCap : Int) < L then .raised .destTooSmall s
    else (pullFrame s).bind (storeFrame (takeMsg dstCap))

/-- `RD.READMSG` behind its checks. -/
theorem readMsgBody_eq (s : State) : readMsgBody s = (readerChecks s).bind fun _ s =>
    (rbDrainMsg s).bind fun m s => if m.length > 0 then .done (.data m) s else fetchMsg s := rfl

/-- `RD.READMSGC` behind its checks. -/
theorem readMsgCBody_eq (dstCap : Nat) (s : State) : readMsgCBody dstCap s = (readerChecks s).bind fun _ s =>
    (takeMsg dstCap s).bind fun m s => if m.length > 0 then .done (.data m) s else fetchMsgC dstCap s := rfl

theorem readMsgBody_fetches {s t : State} (hready : s.readerReady = true) (h : rbDrainMsg s = .done [] t) :
    readMsgBody s = fetchMsg t := by
  simp only [readMsgBody_eq, readerChecks_ready hready, Run.bind_done, h, List.length_nil, gt_iff_lt, lt_irrefl,
    if_false]

theorem readMsgCBody_fetches {s t : State} {dstCap : Nat} (hready : s.readerReady = true)
    (h : takeMsg dstCap s = .done [] t) : readMsgCBody dstCap s = fetchMsgC dstCap t := by
  simp only [readMsgCBody_eq, readerChecks_ready hready, Run.bind_done, h, List.length_nil, gt_iff_lt, lt_irrefl,
    if_false]

theorem exec_rdReadMsg (s : State) : exec .rdReadMsg s = (readMsgBody s).finish .reader := rfl

theorem exec_rdReadMsgC (s : State) : exec .rdReadMsgC s = (readMsgCBody s.arg.toNat s).finish .reader := rfl

/-- `TakeMsg` into a destination large enough for every record (R165). -/
theorem takeMsg_eq_drain {s : State} {dstCap : Nat} (h : ∀ r ∈ s.rb.queue, r.2 ≤ dstCap) :
    takeMsg dstCap s = rbDrainMsg s := by
  rcases hq : s.rb.queue with _ | ⟨r, q⟩
  · simp only [takeMsg, hq]
  · exact takeMsg_fits hq (h r (by rw [hq]; exact List.mem_cons_self))

/-- With no record, every record fits. -/
theorem records_le_of_nil {q : List (Nat × Nat)} (hq : q = []) (n : Nat) : ∀ r ∈ q, r.2 ≤ n := by
  subst hq
  nofun

theorem takeMsg_nil {s : State} (hq : s.rb.queue = []) (dstCap : Nat) : takeMsg dstCap s = .done [] s := by
  rw [takeMsg_eq_drain (records_le_of_nil hq dstCap), rbDrainMsg_nil hq]

/-- With no record the first drain of either read answers nothing. -/
theorem exec_readMsg_noRecord {s : State} (hready : s.readerReady = true) (hq : s.rb.queue = []) :
    exec .rdReadMsg s = (fetchMsg s).finish .reader ∧
      exec .rdReadMsgC s = (fetchMsgC s.arg.toNat s).finish .reader := by
  rw [exec_rdReadMsg, exec_rdReadMsgC, readMsgBody_fetches hready (rbDrainMsg_nil hq),
    readMsgCBody_fetches hready (takeMsg_nil hq _)]
  exact ⟨rfl, rfl⟩

/-- `PullFrame` goes on from a length that has been resolved (R161, R163). -/
theorem pullFrame_resolved {s t : State} {V : Scalar} (hr : resolve s = .done (Style.ival t.cfg.rd.style V) t)
    (hnext : t.rd.next = some V) : pullFrame t = pullFrame s := by
  have ht : resolve t = .done (Style.ival t.cfg.rd.style V) t := by simp only [resolve, hnext]
  rw [pullFrame, pullFrame, hr, ht]

/-- A frame that fits into the destination is stored among records that do: the final drain is not refused. -/
theorem storeFrame_takeMsg {s : State} {p : Bytes} {dstCap : Nat} (hq : ∀ r ∈ s.rb.queue, r.2 ≤ dstCap)
    (hp : p.length ≤ dstCap) : storeFrame (takeMsg dstCap) (some p) s = storeFrame rbDrainMsg (some p) s := by
  rcases hf : s.rb.fill s.cfg.CAP p true with b | _ | _
  · have hb : ∀ r ∈ b.queue, r.2 ≤ dstCap := by
      rw [RBuf.fill_queue hf, if_pos rfl]
      simpa [or_imp, forall_and] using ⟨fun a b h => hq (a, b) h, hp⟩
    simp only [storeFrame, rbFill_eq hf, Run.bind_done]
    rw [takeMsg_eq_drain (s := { s with rb := b }) hb]
  · simp only [storeFrame, rbFill, hf, Run.bind_raised]
  · simp only [storeFrame, rbFill, hf, Run.bind_stop]

/-- With a length to come, and every message no longer than the destination, the capacity tests all pass. -/
theorem fetchMsgC_eq_fetchMsg {s : State} {dstCap : Nat} {V : Scalar} {rest : RxPort} (hcalm : s.rxCalm = true)
    (hup : s.upcoming = some (V, rest)) (hfits : Style.ival s.cfg.rd.style V ≤ (dstCap : Int))
    (hq : ∀ r ∈ s.rb.queue, r.2 ≤ dstCap) : fetchMsgC dstCap s = fetchMsg s := by
  obtain ⟨sc, -, hr⟩ := resolve_calm hcalm
  rw [hup] at hr
  have hpasses : ¬ (1 ≤ Style.ival s.cfg.rd.style V ∧ (dstCap : Int) < Style.ival s.cfg.rd.style V) := by omega
  rw [fetchMsgC, hr, Run.bind_done, if_neg hpasses, pullFrame_resolved hr rfl, fetchMsg]
  obtain ⟨sc', -, hpull⟩ := pullFrame_calm hcalm
  simp only [hup] at hpull
  rw [hpull]
  split
  · rfl
  · split
    · exact storeFrame_takeMsg hq (Nat.le_trans (rest.front_length_le _) (by omega))
    · rfl

/-- A frame longer than the destination stays on the transport, its length cached (R165, R213). -/
theorem fetchMsgC_tooLong {s : State} {dstCap : Nat} {V : Scalar} {rest : RxPort} (hcalm : s.rxCalm = true)
    (hup : s.upcoming = some (V, rest)) (hpos : 1 ≤ Style.ival s.cfg.rd.style V)
    (hlong : (dstCap : Int) < Style.ival s.cfg.rd.style V) : ∃ sc, fetchMsgC dstCap s =
      .raised .destTooSmall { s with rd := { s.rd with next := some V }, rx := { rest with script := sc } } := by
  obtain ⟨sc, -, hr⟩ := resolve_calm hcalm
  rw [hup] at hr
  refine ⟨sc, ?_⟩
  rw [fetchMsgC, hr, Run.bind_done, if_pos ⟨hpos, hlong⟩, ← State.upcoming_eof hup]
  rfl

theorem fetchMsg_end {s : State} (hcalm : s.rxCalm = true) (hup : s.upcoming = none) (htail : s.rx.tail = .ends) :
    ∃ sc, fetchMsg s = .done .done (s.exhausted sc) := by
  obtain ⟨sc, hpull⟩ := pullFrame_end hcalm hup htail
  exact ⟨sc, by rw [fetchMsg, hpull]; rfl⟩

/-- `RD.READMSGC` looks for the length a second time, and finds the end again. -/
theorem fetchMsgC_end {s : State} {dstCap : Nat} (hcalm : s.rxCalm = true) (hup : s.upcoming = none)
    (htail : s.rx.tail = .ends) : ∃ sc, fetchMsgC dstCap s = .done .done (s.exhausted sc) := by
  obtain ⟨sc, hsc, hr⟩ := resolve_calm hcalm
  rw [hup] at hr
  have hdone : resolve s = .done 0 (s.exhausted sc) := hr.trans (if_pos htail)
  have hnext := next_of_upcoming_none hup
  have hup' : (s.exhausted sc).upcoming = none := State.upcoming_exhausted hnext htail rfl
  obtain ⟨sc', hpull⟩ := pullFrame_end (s := s.exhausted sc) hsc hup' htail
  refine ⟨sc', ?_⟩
  rw [fetchMsgC, hdone, Run.bind_done, if_neg (by omega), hpull]
  rfl

/-- A prefix that never ends leaves either read stuck at its length (R252 (a)). -/
theorem fetchMsg_stuck {s : State} (hcalm : s.rxCalm = true) (hup : s.upcoming = none) (htail : s.rx.tail ≠ .ends)
    (dstCap : Nat) : fetchMsg s = .stuck s.prefixPending ∧ fetchMsgC dstCap s = .stuck s.prefixPending := by
  obtain ⟨_, -, hr⟩ := resolve_calm hcalm
  obtain ⟨_, -, hpull⟩ := pullFrame_calm hcalm
  rw [hup] at hr hpull
  rw [fetchMsg, fetchMsgC, hr.trans (if_neg htail), hpull.trans (if_neg htail)]
  exact ⟨rfl, rfl⟩

/-! ## Message reads (R164, R165) -/

/-- What the checks refuse does not come to the rest of the command. -/
theorem readerChecks_bind_congr {α : Type} {s : State} {k k' : PUnit → State → Run α} (h : k .unit s = k' .unit s) :
    (readerChecks s).bind k = (readerChecks s).bind k' := by
  rcases readerChecks_cases s with hc | ⟨st, hc⟩ <;> rw [hc]
  · exact h
  · rfl

/-- A message drain answers as many bytes as the head record says (R150). -/
theorem RBuf.drainMsg_length {cap : Nat} {b b' : RBuf} (h : b.inv cap = true) {r : Nat × Nat} {q : List (Nat × Nat)}
    (hq : b.queue = r :: q) {out : Bytes} (hd : b.drainMsg cap = some (out, b')) : out.length = r.2 := by
  have hmsgs := RBuf.drainMsg_messages h hq hd
  rw [RBuf.messages, RBuf.messages, hq, List.map_cons] at hmsgs
  rw [(List.cons.inj hmsgs).1, memGetN_length]

/-- Settles O34: the first drain answers the message, and the command ends there. -/
theorem recordedMessageComesFirst : Obligations.RecordedMessageComesFirst := by
  unfold Obligations.RecordedMessageComesFirst
  intro s o l q hinv hq hpos
  obtain ⟨out, b, hdrain, hd, -⟩ := rbDrainMsg_inv hinv
  have hlen : out.length > 0 := by rw [RBuf.drainMsg_length hinv hq hd]; exact hpos
  refine ⟨?_, fun hfits => ?_⟩
  · rw [exec_rdReadMsg, readMsgBody_eq]
    refine congrArg (Run.finish .reader) (readerChecks_bind_congr ?_)
    simp only [hdrain, Run.bind_done, hlen, if_true]
  · rw [exec_rdReadMsgC, readMsgCBody_eq]
    refine congrArg (Run.finish .reader) (readerChecks_bind_congr ?_)
    simp only [takeMsg_fits hq hfits, hdrain, Run.bind_done, hlen, if_true]

/-- Settles O37: `PullFrame` answers no frame, and the buffer is not filled. -/
theorem readMsgOfEmptyFrameOrEnd : Obligations.ReadMsgOfEmptyFrameOrEnd := by
  unfold Obligations.ReadMsgOfEmptyFrameOrEnd
  intro s i hi hready hcalm hq
  obtain ⟨hmsg, hmsgC⟩ := exec_readMsg_noRecord hready hq
  refine ⟨fun V rest hup hlt => ?_, fun hup htail => ?_⟩
  · have hsame : fetchMsgC s.arg.toNat s = fetchMsg s :=
      fetchMsgC_eq_fetchMsg hcalm hup (by omega) (records_le_of_nil hq _)
    obtain ⟨sc, hpull⟩ := pullFrame_empty hcalm hup hlt
    have hexec : exec i s = (fetchMsg s).finish .reader := by
      rcases hi with rfl | rfl
      · exact hmsg
      · rw [hmsgC, hsame]
    exact ⟨sc, by rw [hexec, fetchMsg, hpull]; rfl⟩
  · rcases hi with rfl | rfl
    · obtain ⟨sc, hfetch⟩ := fetchMsg_end hcalm hup htail
      exact ⟨sc, by rw [hmsg, hfetch]; rfl⟩
    · obtain ⟨sc, hfetch⟩ := fetchMsgC_end (dstCap := s.arg.toNat) hcalm hup htail
      exact ⟨sc, by rw [hmsgC, hfetch]; rfl⟩

/-- `TakeMsg` removes a zero-length record at the head, and answers nothing (R144, R165). -/
theorem takeMsg_emptyHead {s : State} {o : Nat} {q : List (Nat × Nat)} (hinv : s.rb.inv s.cfg.CAP = true)
    (hq : s.rb.queue = (o, 0) :: q) (dstCap : Nat) :
    takeMsg dstCap s = .done [] { s with rb := { s.rb with queue := q } } := by
  rw [takeMsg_fits hq (Nat.zero_le dstCap), rbDrainMsg_eq (RBuf.drainMsg_emptyHead hinv hq)]

/-- `TakeMsg` refuses a head record longer than the destination (R165). -/
theorem takeMsg_tooLong {s : State} {dstCap : Nat} {r : Nat × Nat} {q : List (Nat × Nat)}
    (hq : s.rb.queue = r :: q) (hlong : dstCap < r.2) : takeMsg dstCap s = .raised .destTooSmall s := by
  simp only [takeMsg, hq]
  exact if_pos hlong

/-- A frame that fits is stored behind an older record, which the final drain refuses. -/
theorem fetchMsgC_olderTooLong {s : State} {dstCap L : Nat} {rest : RxPort} {r : Nat × Nat} {q : List (Nat × Nat)}
    {b : RBuf} (h : s.FrameNext rest L) (hfits : L ≤ dstCap) (hfill : s.rb.fill s.cfg.CAP (rest.front L) true = .ok b)
    (hq : b.queue = r :: q) (hlong : dstCap < r.2) :
    ∃ sc, fetchMsgC dstCap s = .raised .destTooSmall { s.frameTaken rest L sc with rb := b } := by
  obtain ⟨t, hresolve, sc, hpull⟩ := h.resolves
  refine ⟨sc, ?_⟩
  rw [fetchMsgC, hresolve, Run.bind_done, if_neg (by omega), hpull]
  simp only [Run.bind_done, storeFrame, rbFill_eq (s := s.frameTaken rest L sc) hfill]
  rw [takeMsg_tooLong hq hlong, Run.bind_raised]

/-- Settles O38: the head record is refused, the next frame is, or the older record is after the next frame has
been stored. -/
theorem readMsgCTooSmallConsumesNothing : Obligations.ReadMsgCTooSmallConsumesNothing := by
  unfold Obligations.ReadMsgCTooSmallConsumesNothing
  refine ⟨fun s o l q hready hq hlong => ?_, fun s V rest hready hcalm hq hup hpos hlong => ?_,
    fun s o o' l' q V rest hready hcalm hinv hq _ hup hpos hlong => ?_,
    fun s o o' l' q V rest L hready hcalm hinv hq hup hL hpos hfits hlong hholds hroom => ?_⟩
  · rw [exec_rdReadMsgC, readMsgCBody_eq, readerChecks_ready hready, Run.bind_done, takeMsg_tooLong hq hlong]
    rfl
  · obtain ⟨sc, hfetch⟩ := fetchMsgC_tooLong hcalm hup hpos hlong
    exact ⟨sc, by rw [(exec_readMsg_noRecord hready hq).2, hfetch]; rfl⟩
  · obtain ⟨sc, hfetch⟩ := fetchMsgC_tooLong (s := { s with rb := { s.rb with queue := (o', l') :: q } }) hcalm hup
      hpos hlong
    refine ⟨State.raise { s with
        rb := { s.rb with queue := (o', l') :: q }, rd := { s.rd with next := some V },
        rx := { rest with script := sc } } .reader .destTooSmall,
      ?_, rfl, rfl, rfl, rfl, rfl, rfl, rfl, fun _ _ => rfl⟩
    rw [exec_rdReadMsgC, readMsgCBody_fetches hready (takeMsg_emptyHead hinv hq _), hfetch]
    rfl
  · have hframe : s.FrameNext rest L := ⟨hcalm, ⟨V, hup, hL⟩, hpos, hholds⟩
    have hlen := hframe.length_front
    have hinv' := RBuf.drainMsg_inv hinv (RBuf.drainMsg_emptyHead hinv hq)
    have hrising := ((RBuf.inv_iff _ s.rb).1 hinv).rising
    have hfill := RBuf.fill_fits hinv' (bs := rest.front L) (by rwa [hlen]) true
    have hhere := memGetN_memSetN_same hrising (Nat.zero_le s.rb.stop) (rest.front L)
    have houtside := sameOutside_memSetN hrising s.rb.stop (rest.front L)
    rw [if_pos rfl, hlen] at hfill
    rw [hlen] at hhere houtside
    have hframe' := hframe.withRb { s.rb with queue := (o', l') :: q }
    obtain ⟨sc, hfetch⟩ := fetchMsgC_olderTooLong hframe' hfits hfill rfl hlong
    refine ⟨State.raise { s.frameTaken rest L sc with
        rb := ⟨memSetN s.rb.mem s.rb.stop (rest.front L), s.rb.start, s.rb.stop + L,
          (o', l') :: q ++ [(s.rb.stop, L)]⟩ } .reader .destTooSmall,
      ?_, rfl, rfl, rfl, rfl, rfl, rfl, rfl, hhere, houtside⟩
    rw [exec_rdReadMsgC, readMsgCBody_fetches hready (takeMsg_emptyHead hinv hq _), hfetch]
    rfl

/-- The largest capacity is no smaller than any length (R16, R165). -/
theorem ival_le_allOnes (st : Style) (V : Scalar) : Style.ival st V ≤ ((BitVec.allOnes 64).toNat : Int) := by
  have hnat := V.isLt
  have hint := BitVec.toInt_lt (x := V)
  have hones : (BitVec.allOnes 64).toNat = 2 ^ 64 - 1 := BitVec.toNat_allOnes
  unfold Style.ival
  split <;> omega

/-- No record is longer than the largest capacity (R7, R28). -/
theorem RBuf.records_le_allOnes {c : Straps} {b : RBuf} (h : b.inv c.CAP = true) :
    ∀ r ∈ b.queue, r.2 ≤ (BitVec.allOnes 64).toNat := by
  intro r hr
  obtain ⟨-, hfits, -, hinside, -, -, -⟩ := (RBuf.inv_iff _ b).1 h
  have hlast := hinside r hr
  have hcap : c.CAP ≤ 2147483647 := c.CAP_le
  have hones : (BitVec.allOnes 64).toNat = 2 ^ 64 - 1 := BitVec.toNat_allOnes
  omega

/-- With the largest capacity the rest of the command is the same, but for the answers that the second look for a
length uses up. -/
theorem fetchMsgC_allOnes {s : State} (hcalm : s.rxCalm = true) (hinv : s.rb.inv s.cfg.CAP = true) :
    forgetScripts ((fetchMsgC (BitVec.allOnes 64).toNat s).finish .reader) =
      forgetScripts ((fetchMsg s).finish .reader) := by
  rcases hup : s.upcoming with _ | ⟨V, rest⟩
  · by_cases htail : s.rx.tail = .ends
    · obtain ⟨sc, hfetch⟩ := fetchMsg_end hcalm hup htail
      obtain ⟨sc', hfetchC⟩ := fetchMsgC_end (dstCap := (BitVec.allOnes 64).toNat) hcalm hup htail
      rw [hfetch, hfetchC]
      rfl
    · obtain ⟨hfetch, hfetchC⟩ := fetchMsg_stuck hcalm hup htail (BitVec.allOnes 64).toNat
      rw [hfetch, hfetchC]
  · rw [fetchMsgC_eq_fetchMsg hcalm hup (ival_le_allOnes _ V) (RBuf.records_le_allOnes hinv)]

/-- Settles O39: the first drain is the same, and so is what follows it. -/
theorem readMsgCWithLargestDstCap : Obligations.ReadMsgCWithLargestDstCap := by
  unfold Obligations.ReadMsgCWithLargestDstCap
  intro s harg hcalm hinv
  obtain ⟨out, b, hdrain, -, hinvb⟩ := rbDrainMsg_inv hinv
  have htake := takeMsg_eq_drain (RBuf.records_le_allOnes hinv)
  rw [exec_rdReadMsgC, exec_rdReadMsg, readMsgCBody_eq, readMsgBody_eq, harg]
  rcases readerChecks_cases s with hc | ⟨st, hc⟩ <;> rw [hc]
  · simp only [Run.bind_done, htake, hdrain]
    split
    · rfl
    · exact fetchMsgC_allOnes (s := { s with rb := b }) hcalm hinvb
  · rfl

/-! ## What of the request a read looks at (R85, R167)

The parts of a read look at no field of the executing command; what `RD.READ` reads from its request is its count. -/

section Requests

variable {α β δ : Type}

/-- `s` with another command executing. -/
def State.withTxn (s : State) (x : Transaction) : State := { s with txn := x }

/-- The run with `g` applied to its state. -/
def Run.mapState (g : State → State) : Run α → Run α
  | .done a s => .done a (g s)
  | .raised st s => .raised st (g s)
  | .interrupted why s => .interrupted why (g s)
  | .stuck s => .stuck (g s)
  | .stop f => .stop f

/-- With another command executing the part `f` does the same. -/
def IgnoresTxn (f : State → Run α) : Prop :=
  ∀ s x, f (s.withTxn x) = (f s).mapState fun t => t.withTxn x

theorem IgnoresTxn.bind {f : State → Run α} {k : α → State → Run β} (hf : IgnoresTxn f) (hk : ∀ a, IgnoresTxn (k a)) :
    IgnoresTxn fun s => (f s).bind k := by
  intro s x
  dsimp only
  rw [hf s x]
  cases f s with
  | done a t => exact hk a t x
  | _ => rfl

theorem IgnoresTxn.pure (a : α) : IgnoresTxn fun s => .done a s := fun _ _ => rfl

/-- A part may depend on anything but the executing command. -/
theorem IgnoresTxn.on (d : State → δ) {g : δ → State → Run α} (hd : ∀ s x, d (s.withTxn x) = d s)
    (hg : ∀ v, IgnoresTxn (g v)) : IgnoresTxn fun s => g (d s) s := by
  intro s x
  dsimp only
  rw [hd s x]
  exact hg (d s) s x

theorem IgnoresTxn.ite {c : Prop} [Decidable c] {f g : State → Run α} (hf : IgnoresTxn f) (hg : IgnoresTxn g) :
    IgnoresTxn fun s => if c then f s else g s := by
  split
  · exact hf
  · exact hg

theorem Run.mapState_ite {c : Prop} [Decidable c] (g : State → State) (r r' : Run α) :
    (if c then r else r').mapState g = if c then r.mapState g else r'.mapState g := apply_ite _ _ _ _

theorem readerChecks_ignoresTxn : IgnoresTxn readerChecks := by
  intro s x
  simp only [readerChecks, State.withTxn, Run.mapState_ite]
  rfl

theorem rbFill_ignoresTxn (bytes : Bytes) (asMsg : Bool) : IgnoresTxn (rbFill bytes asMsg) := by
  intro s x
  simp only [rbFill, State.withTxn]
  cases s.rb.fill s.cfg.CAP bytes asMsg <;> rfl

theorem rbDrain_ignoresTxn (m : Nat) : IgnoresTxn (rbDrain m) := by
  intro s x
  simp only [rbDrain, State.withTxn]
  cases s.rb.drain s.cfg.CAP m <;> rfl

theorem rxRead_ignoresTxn (k : Nat) : IgnoresTxn (rxRead k) := by
  intro s x
  simp only [rxRead, State.withTxn]
  rcases s.rx.script.head? with _ | ⟨n | ⟨n, why⟩⟩ <;> simp only [Run.mapState_ite] <;> rfl

theorem rxNext_ignoresTxn : IgnoresTxn rxNext := (rxRead_ignoresTxn 1).bind fun c => .pure c.head?

theorem decodeRxLoop_ignoresTxn (st : Style) (ord : ByteOrder) (turns : Nat) (got : Bytes) :
    IgnoresTxn (decodeRxLoop st ord turns got) := by
  induction turns generalizing got with
  | zero => exact fun _ _ => rfl
  | succ turns ih =>
    refine rxNext_ignoresTxn.bind fun x => ?_
    cases x with
    | none => exact .pure none
    | some x => exact .ite (.pure _) (ih _)

theorem resolve_ignoresTxn : IgnoresTxn resolve := by
  intro s x
  have hloop : decodeRxLoop (s.withTxn x).cfg.rd.style (s.withTxn x).cfg.rd.order (decodeTurns (s.withTxn x)) []
      (s.withTxn x) =
        (decodeRxLoop s.cfg.rd.style s.cfg.rd.order (decodeTurns s) [] s).mapState fun t => t.withTxn x :=
    decodeRxLoop_ignoresTxn _ _ _ _ s x
  have hnext : (s.withTxn x).rd.next = s.rd.next := rfl
  simp only [resolve, hnext, hloop]
  cases s.rd.next with
  | some V => rfl
  | none =>
    cases decodeRxLoop s.cfg.rd.style s.cfg.rd.order (decodeTurns s) [] s with
    | done r t => cases r <;> rfl
    | _ => rfl

theorem readExactLoop_ignoresTxn (n fuel : Nat) (got : Bytes) : IgnoresTxn (readExactLoop n fuel got) := by
  induction fuel generalizing got with
  | zero => exact .pure _
  | succ fuel ih => exact .ite ((rxRead_ignoresTxn _).bind fun c => .ite (.pure _) (ih _)) (.pure _)

theorem pullFrame_ignoresTxn : IgnoresTxn pullFrame := by
  have hforget : IgnoresTxn fun s => .done (none : Option Bytes) s.forgetNext := fun _ _ => rfl
  refine resolve_ignoresTxn.bind fun L => .ite hforget ((readExactLoop_ignoresTxn _ _ []).bind fun g => ?_)
  cases g <;> exact fun _ _ => rfl

theorem readBody_ignoresTxn (count : Nat) : IgnoresTxn (readBody count) := by
  refine readerChecks_ignoresTxn.bind fun _ => (rbDrain_ignoresTxn count).bind fun d => .ite (.pure _) <|
    pullFrame_ignoresTxn.bind fun p => ?_
  cases p with
  | none => exact .pure _
  | some p => exact (rbFill_ignoresTxn p false).bind fun _ => (rbDrain_ignoresTxn _).bind fun _ => .pure _

/-- Of the command that ended nothing is left but the requester its response goes to (R22, R223). -/
theorem Run.finish_withTxn (u : BlockUnit) (r : Run Response) {x y : Transaction} (hwho : x.who = y.who) :
    (r.mapState fun t => t.withTxn x).finish u = (r.mapState fun t => t.withTxn y).finish u := by
  obtain ⟨who, req, chunk⟩ := x
  obtain rfl : who = y.who := hwho
  cases r with
  | interrupted why s =>
    cases why with
    | reset pins =>
      simp only [Run.mapState, Run.finish_interrupted, State.interrupted_reset, State.assertReset]
      cases StrapPins.load pins <;> rfl
    | _ => cases u <;> rfl
  | stop f => rfl
  | _ => cases u <;> rfl

theorem IgnoresTxn.finish {f : State → Run Response} (hf : IgnoresTxn f) (s : State) {x : Transaction}
    (hwho : x.who = s.txn.who) : (f (s.withTxn x)).finish .reader = (f s).finish .reader := by
  rw [hf s x, Run.finish_withTxn .reader (f s) hwho, ← hf s s.txn]
  rfl

end Requests

/-! ## Raw reads (R166, R167) -/

/-- What `RD.READ` does when its first drain has answered the `d` bytes there were, fewer than asked for (R166). -/
def fetchRaw (count : Nat) (d : Bytes) (s : State) : Run Response :=
  (pullFrame s).bind fun p s =>
    match p with
    | none => .done (.shortRead d) s
    | some p =>
      (rbFill p false s).bind fun _ s =>
        (rbDrain (count - d.length) s).bind fun d' s => .done (.data (d ++ d')) s

/-- `RD.READ` behind its checks. -/
theorem readBody_eq (count : Nat) (s : State) : readBody count s = (readerChecks s).bind fun _ s =>
    (rbDrain count s).bind fun d s => if d.length = count then .done (.data d) s else fetchRaw count d s := rfl

theorem exec_rdRead (s : State) : exec .rdRead s = (readBody s.arg.toNat s).finish .reader := rfl

theorem exec_rdReadByte (s : State) : exec .rdReadByte s = (readBody 1 s).finish .reader := rfl

/-- With fewer bytes unread than asked for, the buffer is drained and a frame fetched. -/
theorem readBody_fetches {s : State} {count : Nat} (hready : s.readerReady = true) (hinv : s.rb.inv s.cfg.CAP = true)
    (hcount : s.rb.stop - s.rb.start < count) :
    readBody count s = fetchRaw count s.rb.unread { s with rb := s.rb.drained } := by
  have hshort : s.rb.unread.length ≠ count := by rw [RBuf.unread_length]; omega
  rw [readBody_eq, readerChecks_ready hready, Run.bind_done, rbDrain_eq (RBuf.drain_short hinv hcount), Run.bind_done,
    if_neg hshort]

/-- The first drain of a read of no more than is unread is the whole of it. -/
theorem readBody_drains {s : State} {count : Nat} (hinv : s.rb.inv s.cfg.CAP = true)
    (hcount : count ≤ s.rb.stop - s.rb.start) : readBody count s =
      (readerChecks s).bind fun _ s => (rbDrain count s).bind fun d s => .done (.data d) s := by
  rw [readBody_eq]
  refine readerChecks_bind_congr ?_
  obtain ⟨b, hdrain, -⟩ := rbDrain_inv hinv count
  have hlen : (s.rb.unread.take count).length = count := by rw [List.length_take, RBuf.unread_length]; omega
  rw [hdrain, Run.bind_done, Run.bind_done, if_pos hlen]

/-- Settles O40: the count is met by the first drain. -/
theorem readFromBufferIsDrain : Obligations.ReadFromBufferIsDrain := by
  unfold Obligations.ReadFromBufferIsDrain
  refine ⟨fun s hinv hcount => ?_, fun s => ?_, fun s hready hinv hlt => ?_⟩
  · rw [exec_rdRead, readBody_drains hinv hcount]
    exact congrArg (Run.finish .reader) (readerChecks_bind_congr rfl)
  · exact ((readBody_ignoresTxn 1).finish s (x := { s.txn with req := { s.txn.req with arg := 1#64 } }) rfl).symm
  · obtain ⟨b, hdrain, -, hmem, hunread⟩ := rbDrain_inv hinv 1
    have hfirst : s.rb.unread.take 1 = [memGet s.rb.mem s.rb.start] := by
      rw [RBuf.unread, memGetN_take _ _ _ _ (by omega)]
      rfl
    refine ⟨b, ?_, hmem, hunread⟩
    rw [exec_rdReadByte, readBody_drains hinv (by omega), readerChecks_ready hready, Run.bind_done, hdrain, hfirst]
    rfl

/-- `PullFrame` answers no frame: the length is below 1, or a finite stream ends inside the prefix. No length is
cached then. -/
theorem pullFrame_none {s : State} (hcalm : s.rxCalm = true)
    (h : (s.upcoming = none ∧ s.rx.tail = .ends) ∨
      ∃ V rest, s.upcoming = some (V, rest) ∧ Style.ival s.cfg.rd.style V < 1) :
    ∃ p, pullFrame s = .done none { s with rd := { s.rd with next := none }, rx := p } ∧
      (∀ V rest, s.upcoming = some (V, rest) → p = { rest with script := p.script }) ∧
      (s.upcoming = none → p = { s.rx with stream := [], eof := true, script := p.script }) := by
  obtain ⟨hup, htail⟩ | ⟨V, rest, hup, hlt⟩ := h
  · obtain ⟨sc, hpull⟩ := pullFrame_end hcalm hup htail
    have hnext := next_of_upcoming_none hup
    refine ⟨(s.exhausted sc).rx, ?_, fun V rest h => ?_, fun _ => rfl⟩
    · rw [hpull]
      exact congrArg (Run.done none) (State.forgetNext_of_none (s := s.exhausted sc) hnext).symm
    · rw [hup] at h
      cases h
  · obtain ⟨sc, hpull⟩ := pullFrame_empty hcalm hup hlt
    refine ⟨{ rest with script := sc }, hpull, fun V' rest' h => ?_, fun h => ?_⟩ <;> rw [hup] at h <;> cases h
    rfl

/-- Settles O42: everything unread has been drained, and no frame comes. -/
theorem readOfEmptyFrameOrEnd : Obligations.ReadOfEmptyFrameOrEnd := by
  unfold Obligations.ReadOfEmptyFrameOrEnd
  intro s i count hi hready hcalm hinv hcount hnone
  obtain ⟨p, hpull, hsome, hend⟩ := pullFrame_none (s := { s with rb := s.rb.drained }) hcalm hnone
  refine ⟨State.endCommand { s with rb := s.rb.drained, rd := { s.rd with next := none }, rx := p } .reader
    (.shortRead s.rb.unread), ?_, rfl, ?_, rfl, rfl, rfl, rfl, hsome, hend⟩
  · rw [exec_readCount hi, readBody_fetches hready hinv hcount, fetchRaw, hpull]
    rfl
  · rw [State.endCommand_rsp, Response.shortRead, RBuf.unread_length]
    rfl

/-- A raw read of more than is unread, by its count. -/
theorem exists_readCount {s : State} {i : Instr}
    (hi : (i = .rdRead ∧ s.rb.stop - s.rb.start < s.arg.toNat) ∨ (i = .rdReadByte ∧ s.rb.start = s.rb.stop)) :
    ∃ count, s.rb.stop - s.rb.start < count ∧ exec i s = (readBody count s).finish .reader := by
  obtain ⟨rfl, hcount⟩ | ⟨rfl, he⟩ := hi
  · exact ⟨_, hcount, exec_rdRead s⟩
  · exact ⟨1, by omega, exec_rdReadByte s⟩

/-- Settles O43: the frame is pulled before the buffer is filled, and after a raw read has drained it. -/
theorem incompleteFrameLosesPayload : Obligations.IncompleteFrameLosesPayload := by
  unfold Obligations.IncompleteFrameLosesPayload
  refine ⟨fun s i V rest hi hready hcalm htail hq hup hpos hshort => ?_,
    fun s i V rest hi hready hcalm htail hinv hup hpos hshort => ?_⟩
  · have hexec : exec i s = (fetchMsg s).finish .reader := by
      obtain ⟨hmsg, hmsgC⟩ := exec_readMsg_noRecord hready hq
      rcases hi with rfl | ⟨rfl, hfits⟩
      · exact hmsg
      · rw [hmsgC, fetchMsgC_eq_fetchMsg hcalm hup hfits (records_le_of_nil hq _)]
    obtain ⟨sc, hpull⟩ := pullFrame_short hcalm htail hup hpos hshort
    exact ⟨sc, by rw [hexec, fetchMsg, hpull]; rfl⟩
  · obtain ⟨count, hcount, hexec⟩ := exists_readCount hi
    obtain ⟨sc, hpull⟩ := pullFrame_short (s := { s with rb := s.rb.drained }) hcalm htail hup hpos hshort
    exact ⟨sc, by rw [hexec, readBody_fetches hready hinv hcount, fetchRaw, hpull]; rfl⟩

/-! ## The length that is looked at (R168) -/

theorem exec_rdPeekLen {s : State} (hready : s.readerReady = true) : exec .rdPeekLen s =
    ((resolve s).bind fun _ t => .done (.scalar (t.rd.next.getD 0#64)) t).finish .reader := by
  change (peekLenBody s).finish .reader = _
  rw [peekLenBody, readerChecks_ready hready, Run.bind_done]
  congr! with _ t
  cases t.rd.next <;> rfl

/-- Settles O45: what `Resolve` leaves cached is what is answered. -/
theorem peekLenResolvesOnce : Obligations.PeekLenResolvesOnce := by
  unfold Obligations.PeekLenResolvesOnce
  intro s hready hcalm
  obtain ⟨sc, -, hr⟩ := resolve_calm hcalm
  rw [exec_rdPeekLen hready]
  refine ⟨fun v hv => ?_, fun V rest _ hup => ⟨sc, ?_⟩, fun hup htail => ⟨sc, ?_⟩⟩
  · have hr : resolve s = .done (Style.ival s.cfg.rd.style v) s := by simp only [resolve, hv]
    rw [hr, Run.bind_done, hv]
    rfl
  · rw [hup] at hr
    rw [hr, ← State.upcoming_eof hup]
    rfl
  · rw [hup] at hr
    rw [hr.trans (if_pos htail), Run.bind_done, State.rxAt_rd, next_of_upcoming_none hup]
    rfl

/-! ## Commands that no strike cuts short (R60, R172) -/

section Unstruck

variable {α β : Type} {P Q : State → Prop}

/-- Nothing cuts the run short, and whichever way it comes out its state satisfies `P`. -/
abbrev Run.Unstruck (r : Run α) (P : State → Prop) : Prop := r.Leaves .reader (fun _ => False) P

/-- A command that nothing cuts short ends with the buffer and the receive transport that its body leaves. -/
theorem Run.Unstruck.finish {r : Run Response} {t : State} (h : r.Unstruck P) (ht : r.finish .reader = .next t) :
    ∃ v, P v ∧ t.rb = v.rb ∧ t.rx = v.rx := by
  cases r with
  | done rsp v => cases ht; exact ⟨v, h, rfl, rfl⟩
  | raised st v => cases ht; exact ⟨v, h, rfl, rfl⟩
  | interrupted why v => exact h.1.elim
  | stuck v => cases ht; exact ⟨v, h.2, rfl, rfl⟩
  | stop f => cases ht

theorem not_struck_of_calm {s : State} (hcalm : s.rxCalm = true) (why : Interruption) : ¬ Struck s.rx.script why := by
  rintro ⟨n, hn⟩
  simpa [Answer.isMove] using List.all_eq_true.1 hcalm _ hn

/-- A read over a calm transport leaves it calm, and keeps the buffer's invariants. -/
theorem Reads.finish_calm {f : State → Run Response} (hf : Reads f) {s t : State} (hcalm : s.rxCalm = true)
    (hinv : s.rb.inv s.cfg.CAP = true) (ht : (f s).finish .reader = .next t) :
    t.rxCalm = true ∧ t.rb.inv s.cfg.CAP = true := by
  have hleaves : (f s).Unstruck (ReadPart s) :=
    Run.Leaves.imp (hf.leaves s) (fun why h => not_struck_of_calm hcalm why h) fun _ => id
  obtain ⟨v, hv, hrb, hrx⟩ := hleaves.finish ht
  have hscript := hv.script
  obtain ⟨b, _, _, _, _, _, hb⟩ := hv
  refine ⟨List.all_eq_true.2 fun a ha => List.all_eq_true.1 hcalm a (hscript.subset ?_), ?_⟩
  · rwa [← hrx]
  · rw [hrb]
    exact hb hinv

/-- The receive calls leave the buffer alone. -/
theorem resolve_unstruck {s : State} (hcalm : s.rxCalm = true) : (resolve s).Unstruck fun t => t.rb = s.rb := by
  obtain ⟨sc, -, hr⟩ := resolve_calm hcalm
  rw [hr]
  split
  · rfl
  · split
    · rfl
    · exact ⟨rfl, rfl⟩

theorem pullFrame_unstruck {s : State} (hcalm : s.rxCalm = true) : (pullFrame s).Unstruck fun t => t.rb = s.rb := by
  obtain ⟨sc, -, hpull⟩ := pullFrame_calm hcalm
  rw [hpull]
  split
  · split
    · rfl
    · exact ⟨rfl, rfl⟩
  · dsimp only
    split
    · rfl
    · split <;> rfl

/-- No message is recorded. -/
def State.NoRecord (s : State) : Prop := s.rb.queue = []

/-- The buffer without records is the one that a part began with. -/
theorem Run.Unstruck.noRecord {s : State} {r : Run α} (h : r.Unstruck fun t => t.rb = s.rb) (hs : s.NoRecord) :
    r.Unstruck State.NoRecord :=
  Run.Leaves.imp h (fun _ => id) fun t ht => show t.rb.queue = [] by rw [ht]; exact hs

theorem RBuf.drain_noRecord {cap m : Nat} {b b' : RBuf} {out : Bytes} (hq : b.queue = [])
    (hd : b.drain cap m = some (out, b')) : b'.queue = [] := by
  simp only [RBuf.drain, hq, List.filter_nil] at hd
  split at hd
  · cases hd
  · cases hd
    simp only [RBuf.normalize]
    split <;> rfl

theorem rbDrain_noRecord {s : State} (hs : s.NoRecord) (m : Nat) : (rbDrain m s).Unstruck State.NoRecord := by
  unfold rbDrain
  split
  · exact RBuf.drain_noRecord hs ‹_›
  · trivial

theorem rbFill_noRecord {s : State} (hs : s.NoRecord) (bytes : Bytes) :
    (rbFill bytes false s).Unstruck State.NoRecord := by
  unfold rbFill
  split
  · rename_i b hf
    exact (show b.queue = s.rb.queue from RBuf.fill_queue hf).trans hs
  · exact hs
  · trivial

/-- The one record that is stored is the one that is drained. -/
theorem storeFrame_noRecord {s : State} (hs : s.NoRecord) (p : Option Bytes) :
    (storeFrame rbDrainMsg p s).Unstruck State.NoRecord := by
  rcases p with _ | p
  · exact hs
  · rcases hf : s.rb.fill s.cfg.CAP p true with b | _ | _
    · rw [storeFrame, rbFill_eq hf, Run.bind_done]
      rcases hd : b.drainMsg s.cfg.CAP with _ | ⟨out, b'⟩
      · simp only [rbDrainMsg, hd, Run.bind_stop]
        trivial
      · rw [rbDrainMsg_eq (s := { s with rb := b }) hd, Run.bind_done]
        have hlen := RBuf.drainMsg_queue_length hd
        rw [RBuf.fill_queue hf, if_pos rfl, show s.rb.queue = [] from hs] at hlen
        exact List.length_eq_zero_iff.1 hlen
    · simp only [storeFrame, rbFill, hf, Run.bind_raised]
      exact hs
    · simp only [storeFrame, rbFill, hf, Run.bind_stop]
      trivial

theorem fetchMsg_noRecord {s : State} (hcalm : s.rxCalm = true) (hs : s.NoRecord) :
    (fetchMsg s).Unstruck State.NoRecord :=
  ((pullFrame_unstruck hcalm).noRecord hs).bind fun p _ ht => storeFrame_noRecord ht p

/-- The frame that `RD.READMSGC` stores is one that its final drain takes. -/
theorem fetchMsgC_noRecord {s : State} (hcalm : s.rxCalm = true) (hs : s.NoRecord) (dstCap : Nat) :
    (fetchMsgC dstCap s).Unstruck State.NoRecord := by
  rcases hup : s.upcoming with _ | ⟨V, rest⟩
  · by_cases htail : s.rx.tail = .ends
    · obtain ⟨sc, hfetch⟩ := fetchMsgC_end (dstCap := dstCap) hcalm hup htail
      rw [hfetch]
      exact hs
    · rw [(fetchMsg_stuck hcalm hup htail dstCap).2]
      exact ⟨rfl, hs⟩
  · by_cases hfits : Style.ival s.cfg.rd.style V ≤ (dstCap : Int)
    · rw [fetchMsgC_eq_fetchMsg hcalm hup hfits (records_le_of_nil hs dstCap)]
      exact fetchMsg_noRecord hcalm hs
    · obtain ⟨sc, hfetch⟩ := fetchMsgC_tooLong (dstCap := dstCap) hcalm hup (by omega) (by omega)
      rw [hfetch]
      exact hs

theorem fetchRaw_noRecord {s : State} (hcalm : s.rxCalm = true) (hs : s.NoRecord) (count : Nat) (d : Bytes) :
    (fetchRaw count d s).Unstruck State.NoRecord := by
  refine ((pullFrame_unstruck hcalm).noRecord hs).bind fun p t ht => ?_
  rcases p with _ | p
  · exact ht
  · exact (rbFill_noRecord ht p).bind fun _ v hv => (rbDrain_noRecord hv _).bind fun _ _ h => h

theorem readerChecks_noRecord {s : State} {k : PUnit → State → Run α} (hs : s.NoRecord)
    (hk : (k .unit s).Unstruck State.NoRecord) : ((readerChecks s).bind k).Unstruck State.NoRecord := by
  rcases readerChecks_cases s with hc | ⟨st, hc⟩ <;> rw [hc]
  · exact hk
  · exact hs

theorem readBody_noRecord {s : State} (hcalm : s.rxCalm = true) (hs : s.NoRecord) (count : Nat) :
    (readBody count s).Unstruck State.NoRecord := by
  rw [readBody_eq]
  refine readerChecks_noRecord hs ?_
  rcases hd : s.rb.drain s.cfg.CAP count with _ | ⟨d, b⟩
  · simp only [rbDrain, hd, Run.bind_stop]
    trivial
  · have hb : State.NoRecord { s with rb := b } := RBuf.drain_noRecord hs hd
    rw [rbDrain_eq hd, Run.bind_done]
    split
    · exact hb
    · exact fetchRaw_noRecord (s := { s with rb := b }) hcalm hb count d

theorem readMsgBody_noRecord {s : State} (hcalm : s.rxCalm = true) (hs : s.NoRecord) :
    (readMsgBody s).Unstruck State.NoRecord := by
  rw [readMsgBody_eq]
  refine readerChecks_noRecord hs ?_
  rw [rbDrainMsg_nil hs]
  exact fetchMsg_noRecord hcalm hs

theorem readMsgCBody_noRecord {s : State} (hcalm : s.rxCalm = true) (hs : s.NoRecord) (dstCap : Nat) :
    (readMsgCBody dstCap s).Unstruck State.NoRecord := by
  rw [readMsgCBody_eq]
  refine readerChecks_noRecord hs ?_
  rw [takeMsg_nil hs]
  exact fetchMsgC_noRecord hcalm hs dstCap

theorem peekLenBody_noRecord {s : State} (hcalm : s.rxCalm = true) (hs : s.NoRecord) :
    (peekLenBody s).Unstruck State.NoRecord := by
  refine readerChecks_noRecord hs (((resolve_unstruck hcalm).noRecord hs).bind fun _ t ht => ?_)
  split <;> exact ht

theorem rdCloseBody_noRecord {s : State} (hcalm : s.rxCalm = true) (hs : s.NoRecord) :
    (rdCloseBody s).Unstruck State.NoRecord := by
  unfold rdCloseBody
  split
  · exact hs
  · dsimp only
    split
    · exact hs
    · rw [rxClose_calm (s := { s with rd := { s.rd with closed := true } }) hcalm]
      exact hs

end Unstruck

/-- Settles O49: a record that a command stores it takes out again. -/
theorem readerCommandsLeaveNoRecord : Obligations.ReaderCommandsLeaveNoRecord := by
  unfold Obligations.ReaderCommandsLeaveNoRecord
  intro s t i hi hcalm hs ht
  suffices h : ∃ r : Run Response, exec i s = r.finish .reader ∧ r.Unstruck State.NoRecord by
    obtain ⟨r, hexec, hr⟩ := h
    obtain ⟨v, hv, hrb, -⟩ := hr.finish (hexec.symm.trans ht)
    rw [hrb]
    exact hv
  simp only [List.mem_cons, List.not_mem_nil, or_false] at hi
  rcases hi with rfl | rfl | rfl | rfl | rfl | rfl
  · exact ⟨_, rfl, readMsgBody_noRecord hcalm hs⟩
  · exact ⟨_, rfl, readMsgCBody_noRecord hcalm hs _⟩
  · exact ⟨_, rfl, readBody_noRecord hcalm hs _⟩
  · exact ⟨_, rfl, readBody_noRecord hcalm hs 1⟩
  · exact ⟨_, rfl, peekLenBody_noRecord hcalm hs⟩
  · exact ⟨_, rfl, rdCloseBody_noRecord hcalm hs⟩

/-! ## Reads one after another (R173, R174) -/

/-- The reader is ready to take the frames of `ps` off a calm, finite stream that holds nothing else. -/
structure State.FramesAhead (s : State) (ps : List Bytes) : Prop where
  ready : s.readerReady = true
  calm : s.rxCalm = true
  finite : s.rx.tail = .ends
  inv : s.rb.inv s.cfg.CAP = true
  noRecord : s.rb.queue = []
  unknown : s.rd.next = none
  stream : s.rx.stream = (ps.map (frameOf s.cfg.rd)).flatten

theorem State.FramesAhead.withTxn {s : State} {ps : List Bytes} (h : s.FramesAhead ps) (x : Transaction) :
    (s.withTxn x).FramesAhead ps := ⟨h.ready, h.calm, h.finite, h.inv, h.noRecord, h.unknown, h.stream⟩

/-- Where no length is cached, forgetting it changes nothing. -/
theorem State.FramesAhead.rd_freed {s : State} {ps : List Bytes} (h : s.FramesAhead ps) :
    { s.rd with lock := .free } = { s.rd with next := none, lock := .free } := by
  rw [← h.unknown]

theorem OnlyReaderDiffers.cfg {s t : State} (h : OnlyReaderDiffers s t) : t.cfg = s.cfg := by
  rw [show t = _ from h]

/-- A read that leaves the frames of `ps'` on the stream, no record and no cached length can be followed by the
next. -/
theorem State.FramesAhead.after {f : State → Run Response} (hf : Reads f) {s t : State} {ps ps' : List Bytes}
    (h : s.FramesAhead ps) (ht : (f s).finish .reader = .next t) (honly : OnlyReaderDiffers s t)
    (hrd : t.rd = { s.rd with next := none, lock := .free }) (htail : t.rx.tail = s.rx.tail)
    (hstream : t.rx.stream = (ps'.map (frameOf s.cfg.rd)).flatten) (hq : t.rb.queue = []) : t.FramesAhead ps' := by
  obtain ⟨hcalm, hinv⟩ := hf.finish_calm h.calm h.inv ht
  have hcfg := honly.cfg
  refine ⟨?_, hcalm, htail.trans h.finite, by rwa [hcfg], hq, by rw [hrd], by rwa [hcfg]⟩
  rw [State.readerReady, hrd]
  exact h.ready

theorem State.FramesAhead.upcoming_nil {s : State} (h : s.FramesAhead []) : s.upcoming = none :=
  State.upcoming_exhausted h.unknown h.finite h.stream

/-- The payload lies behind its encoded length, and the other frames behind it (R86, R134). -/
theorem State.FramesAhead.upcoming_cons {s : State} {p : Bytes} {ps : List Bytes} (h : s.FramesAhead (p :: ps))
    (hcap : p.length ≤ s.cfg.CAP) (hwithin : Style.within s.cfg.rd.style p.length = true) :
    s.upcoming = some (resOf p.length, { s.rx with stream := p ++ (ps.map (frameOf s.cfg.rd)).flatten }) ∧
      Style.ival s.cfg.rd.style (resOf p.length) = (p.length : Int) := by
  have hmax := Nat.le_trans hcap s.cfg.CAP_le
  obtain ⟨pre, hpre⟩ := encodePrefix_within s.cfg.rd.order hwithin hmax
  refine ⟨State.upcoming_encoded h.unknown h.finite hpre ?_, ival_resOf _ hmax⟩
  rw [h.stream, List.map_cons, List.flatten_cons, frameOf, hpre, Option.getD_some, List.append_assoc]

/-- A finite stream that begins with the bytes of `p`. -/
theorem RxPort.finite_front {q : RxPort} (h : q.tail = .ends) (p r : Bytes) :
    RxPort.front { q with stream := p ++ r } p.length = p ∧ RxPort.holds { q with stream := p ++ r } p.length = true ∧
      RxPort.drop { q with stream := p ++ r } p.length = { q with stream := r } := by
  have hfront : RxPort.front { q with stream := p ++ r } p.length = p := by
    rw [RxPort.front_finite (p := { q with stream := p ++ r }) h, List.take_left]
  refine ⟨hfront, RxPort.holds_iff.2 (congrArg List.length hfront), ?_⟩
  rw [RxPort.drop_finite (p := { q with stream := p ++ r }) h, List.drop_left]

/-! ### `RD.READMSG` -/

/-- One payload comes, empty or not. -/
theorem State.FramesAhead.readMsg_cons {s : State} {p : Bytes} {ps : List Bytes} (h : s.FramesAhead (p :: ps))
    (hfits : p.length ≤ s.cfg.CAP - s.rb.stop) (hwithin : Style.within s.cfg.rd.style p.length = true) :
    ∃ t, exec .rdReadMsg s = .next t ∧ t.rsp = some ⟨s.txn.who, .data p⟩ ∧ t.FramesAhead ps ∧ t.cfg = s.cfg ∧
      t.rb.stop = s.rb.stop := by
  obtain ⟨hup, hival⟩ := h.upcoming_cons (by omega) hwithin
  rcases Nat.eq_zero_or_pos p.length with hzero | hpos
  · obtain rfl : p = [] := List.length_eq_zero_iff.1 hzero
    obtain ⟨sc, hexec⟩ := (readMsgOfEmptyFrameOrEnd s .rdReadMsg (.inl rfl) h.ready h.calm h.noRecord).1 _ _ hup
      (by rw [hival]; decide)
    exact ⟨_, hexec, rfl, h.after readMsgBody_reads hexec rfl rfl rfl rfl h.noRecord, rfl, rfl⟩
  · obtain ⟨hfront, hholds, hdrop⟩ := RxPort.finite_front h.finite p (ps.map (frameOf s.cfg.rd)).flatten
    obtain ⟨t, hexec, honly, hrsp, hrd, hrx, -, hstop, hq, -⟩ := readMsgReturnsNextFrame s .rdReadMsg _ _ p.length
      (.inl rfl) h.ready h.calm h.inv h.noRecord hup hival hpos hholds hfits
    rw [hfront] at hrsp
    rw [hdrop] at hrx
    exact ⟨t, hexec, hrsp, h.after readMsgBody_reads hexec honly hrd (by rw [hrx]) (by rw [hrx]) hq, honly.cfg, hstop⟩

/-- Then no data comes. -/
theorem State.FramesAhead.readMsg_nil {s : State} (h : s.FramesAhead []) :
    ∃ t, exec .rdReadMsg s = .next t ∧ t.rsp = some ⟨s.txn.who, .data []⟩ ∧ t.FramesAhead [] := by
  obtain ⟨sc, hexec⟩ := (readMsgOfEmptyFrameOrEnd s .rdReadMsg (.inl rfl) h.ready h.calm h.noRecord).2 h.upcoming_nil
    h.finite
  exact ⟨_, hexec, rfl, h.after readMsgBody_reads hexec rfl h.rd_freed rfl rfl h.noRecord⟩

theorem readMsgs_succ {s t : State} {w : Nat} {d : Bytes} (hexec : exec .rdReadMsg s = .next t)
    (hrsp : t.rsp = some ⟨w, .data d⟩) (n : Nat) : readMsgs (n + 1) s = (readMsgs n t).map (d :: ·) := by
  simp only [readMsgs, hexec, hrsp, Response.data]

theorem State.FramesAhead.readMsgs_nil (k : Nat) {s : State} (h : s.FramesAhead []) :
    readMsgs k s = some (List.replicate k []) := by
  induction k generalizing s with
  | zero => rfl
  | succ k ih =>
    obtain ⟨t, hexec, hrsp, ht⟩ := h.readMsg_nil
    rw [readMsgs_succ hexec hrsp, ih ht]
    rfl

theorem State.FramesAhead.readMsgs {ps : List Bytes} (k : Nat) {s : State} (h : s.FramesAhead ps)
    (hps : ∀ p ∈ ps, p.length ≤ s.cfg.CAP - s.rb.stop ∧ Style.within s.cfg.rd.style p.length = true) :
    Machine.readMsgs (ps.length + k) s = some (ps ++ List.replicate k []) := by
  induction ps generalizing s with
  | nil =>
    rw [List.length_nil, Nat.zero_add]
    exact h.readMsgs_nil k
  | cons p ps ih =>
    obtain ⟨hfits, hwithin⟩ := hps p List.mem_cons_self
    obtain ⟨t, hexec, hrsp, ht, hcfg, hstop⟩ := h.readMsg_cons hfits hwithin
    rw [List.length_cons, Nat.succ_add, readMsgs_succ hexec hrsp,
      ih ht (by rw [hcfg, hstop]; exact fun p hp => hps p (List.mem_cons_of_mem _ hp))]
    rfl

/-- Settles O50: each command takes one frame, and keeps what the next one needs. -/
theorem readMsgsReturnPayloadsInOrder : Obligations.ReadMsgsReturnPayloadsInOrder := by
  unfold Obligations.ReadMsgsReturnPayloadsInOrder
  intro s ps hready hcalm hfinite hinv hq hnext hps hstream k
  exact State.FramesAhead.readMsgs k ⟨hready, hcalm, hfinite, hinv, hq, hnext, hstream⟩ hps

/-! ### `RD.READ` -/

/-- The bytes that raw reads have still to return: those in the buffer, then those of the frames to come. -/
def State.ahead (s : State) (ps : List Bytes) : Bytes := s.rb.unread ++ ps.flatten

/-- The frame can be a raw read's: not empty, and no longer than the buffer. -/
def RawFrame (c : Straps) (p : Bytes) : Prop :=
  1 ≤ p.length ∧ p.length ≤ c.CAP ∧ Style.within c.rd.style p.length = true

/-- What a raw read of a non-zero count does: it answers `d`, the first of the bytes ahead, and `eos` if there is
none. -/
structure ReadsAhead (s : State) (ps : List Bytes) (t : State) (d : Bytes) (eos : Bool) (ps' : List Bytes) :
    Prop where
  exec : exec .rdRead s = .next t
  rsp : t.rsp = some ⟨s.txn.who, { dout := d, cnt := BitVec.ofNat 32 d.length, eos := eos }⟩
  frames : t.FramesAhead ps'
  fewer : ps' <:+ ps
  cfg : t.cfg = s.cfg
  ahead : d ++ t.ahead ps' = s.ahead ps
  ends : eos = true ↔ d = []
  last : eos = true → s.ahead ps = []

/-- The buffer holds enough. -/
theorem State.FramesAhead.read_buffered {s : State} {ps : List Bytes} (h : s.FramesAhead ps) (hpos : 1 ≤ s.arg.toNat)
    (hcount : s.arg.toNat ≤ s.rb.stop - s.rb.start) : ∃ t d, ReadsAhead s ps t d false ps := by
  obtain ⟨d, b, hdrain⟩ := RBuf.drain_isSome h.inv s.arg.toNat
  obtain ⟨-, -, rfl, hunread⟩ := RBuf.drain_inv h.inv hdrain
  have hexec := (readFromBufferIsDrain.1 s h.inv hcount).trans (exec_rbDrain_ready h.ready hdrain)
  refine ⟨_, _, hexec, rfl, h.after (readBody_reads _) hexec rfl h.rd_freed rfl h.stream
    (RBuf.drain_noRecord h.noRecord hdrain), List.suffix_refl ps, rfl, ?_, ?_, nofun⟩
  · rw [State.ahead, State.ahead, State.endCommand_rb, hunread, ← List.append_assoc, List.take_append_drop]
  · have hlen : (s.rb.unread.take s.arg.toNat).length = s.arg.toNat := by
      rw [List.length_take, RBuf.unread_length]
      omega
    rw [← List.length_eq_zero_iff, hlen]
    simp only [Bool.false_eq_true, false_iff]
    omega

/-- A frame comes. -/
theorem State.FramesAhead.read_cons {s : State} {p : Bytes} {ps : List Bytes} (h : s.FramesAhead (p :: ps))
    (hp : RawFrame s.cfg p) (hcount : s.rb.stop - s.rb.start < s.arg.toNat) :
    ∃ t d, ReadsAhead s (p :: ps) t d false ps := by
  obtain ⟨hpos, hcap, hwithin⟩ := hp
  obtain ⟨hup, hival⟩ := h.upcoming_cons hcap hwithin
  obtain ⟨hfront, hholds, hdrop⟩ := RxPort.finite_front h.finite p (ps.map (frameOf s.cfg.rd)).flatten
  obtain ⟨t, k, hk, hexec, honly, hrsp, hrd, hrx, hunread, hq, -⟩ := readPullsOneFrame s .rdRead _ _ _ p.length
    (.inl ⟨rfl, rfl⟩) h.ready h.calm h.inv hcount hup hival hpos hholds hcap
  have hkp : k ≤ p.length := by omega
  rw [← RxPort.take_front _ hkp, hfront] at hrsp
  rw [hfront] at hunread
  rw [hdrop] at hrx
  have hlen : (s.rb.unread ++ p.take k).length = s.rb.stop - s.rb.start + k := by
    rw [List.length_append, RBuf.unread_length, List.length_take, Nat.min_eq_left hkp]
  refine ⟨t, s.rb.unread ++ p.take k, hexec, by rw [hrsp, hlen],
    h.after (readBody_reads _) hexec honly hrd (by rw [hrx]) (by rw [hrx]) hq, List.suffix_cons p ps, honly.cfg,
    ?_, ?_, nofun⟩
  · rw [State.ahead, State.ahead, hunread, List.flatten_cons, List.append_assoc, ← List.append_assoc (p.take k),
      List.take_append_drop]
  · rw [← List.length_eq_zero_iff, hlen]
    simp only [Bool.false_eq_true, false_iff]
    omega

/-- No frame is left: the rest of the buffer comes, or the end. -/
theorem State.FramesAhead.read_nil {s : State} (h : s.FramesAhead [])
    (hcount : s.rb.stop - s.rb.start < s.arg.toNat) : ∃ t d eos, ReadsAhead s [] t d eos [] := by
  obtain ⟨t, hexec, honly, hrsp, hrd, hstart, hstop, -, -, hrx⟩ := readOfEmptyFrameOrEnd s .rdRead _ (.inl ⟨rfl, rfl⟩)
    h.ready h.calm h.inv hcount (.inl ⟨h.upcoming_nil, h.finite⟩)
  have hrx := hrx h.upcoming_nil
  have hq := readerCommandsLeaveNoRecord s t .rdRead (by simp) h.calm h.noRecord hexec
  have hnone : t.rb.unread = [] := by rw [← List.length_eq_zero_iff, RBuf.unread_length, hstart, hstop]
  refine ⟨t, s.rb.unread, _, hexec, by rw [hrsp, RBuf.unread_length],
    h.after (readBody_reads _) hexec honly hrd (by rw [hrx]) (by rw [hrx]; rfl) hq, List.suffix_refl [], honly.cfg,
    ?_, List.isEmpty_iff, fun he => ?_⟩
  · rw [State.ahead, State.ahead, hnone, List.nil_append]
  · rw [State.ahead, List.isEmpty_iff.1 he]
    rfl

theorem State.FramesAhead.read {s : State} {ps : List Bytes} (h : s.FramesAhead ps) (hpos : 1 ≤ s.arg.toNat)
    (hps : ∀ p ∈ ps, RawFrame s.cfg p) : ∃ t d eos ps', ReadsAhead s ps t d eos ps' := by
  by_cases hcount : s.arg.toNat ≤ s.rb.stop - s.rb.start
  · obtain ⟨t, d, hr⟩ := h.read_buffered hpos hcount
    exact ⟨t, d, _, _, hr⟩
  · rw [Nat.not_le] at hcount
    cases ps with
    | nil =>
      obtain ⟨t, d, eos, hr⟩ := h.read_nil hcount
      exact ⟨t, d, eos, _, hr⟩
    | cons p ps =>
      obtain ⟨t, d, hr⟩ := h.read_cons (hps p List.mem_cons_self) hcount
      exact ⟨t, d, _, _, hr⟩

/-- `s` about to run a raw read of `c` bytes. -/
def State.withCount (s : State) (c : Nat) : State :=
  s.withTxn { s.txn with req := { s.txn.req with arg := BitVec.ofNat 64 c } }

theorem rawReads_cons {s t : State} {c w : Nat} {r : List Nat} {d rest : Bytes} {n : Count} {eos last : Bool}
    (hexec : exec .rdRead (s.withCount c) = .next t) (hrsp : t.rsp = some ⟨w, { dout := d, cnt := n, eos := eos }⟩)
    (hrest : rawReads r t = some (rest, last)) :
    rawReads (c :: r) s = some (d ++ rest, if r.isEmpty then eos else last) := by
  change (match exec .rdRead (s.withCount c) with | .next t => _ | _ => none) = _
  simp only [hexec, hrsp, hrest]

/-- Raw reads return the bytes ahead, from the first on; each but one that finds the end returns some. -/
theorem State.FramesAhead.rawReads {counts : List Nat} {s : State} {ps : List Bytes} (h : s.FramesAhead ps)
    (hps : ∀ p ∈ ps, RawFrame s.cfg p) (hcounts : ∀ c ∈ counts, 1 ≤ c ∧ c < 2 ^ 64) :
    ∃ out last, Machine.rawReads counts s = some (out, last) ∧ out <+: s.ahead ps ∧
      (last = true → out = s.ahead ps) ∧ ((s.ahead ps).length < counts.length → last = true) := by
  induction counts generalizing s ps with
  | nil => exact ⟨[], false, rfl, List.nil_prefix, nofun, nofun⟩
  | cons c r ih =>
    obtain ⟨hpos, hlt⟩ := hcounts c List.mem_cons_self
    have harg : (s.withCount c).arg.toNat = c := (BitVec.toNat_ofNat c 64).trans (Nat.mod_eq_of_lt hlt)
    obtain ⟨t, d, eos, ps', hread⟩ := (h.withTxn _).read (s := s.withCount c) (by rwa [harg]) hps
    have hahead : d ++ t.ahead ps' = s.ahead ps := hread.ahead
    have hend : eos = true → s.ahead ps = [] := hread.last
    obtain ⟨rest, last, hrest, hprefix, hlast, hlen⟩ := ih hread.frames
      (by rw [hread.cfg]; exact fun p hp => hps p (hread.fewer.subset hp))
      fun c hc => hcounts c (List.mem_cons_of_mem _ hc)
    have hall : d ++ rest <+: s.ahead ps := by
      rw [← hahead]
      exact (List.prefix_append_right_inj d).2 hprefix
    have hcount : d.length + (t.ahead ps').length = (s.ahead ps).length := by rw [← hahead, List.length_append]
    have hsome : d.length = 0 → (s.ahead ps).length = 0 := fun hd => by
      rw [hend (hread.ends.2 (List.length_eq_zero_iff.1 hd)), List.length_nil]
    refine ⟨d ++ rest, _, rawReads_cons hread.exec hread.rsp hrest, hall, ?_⟩
    cases r with
    | nil =>
      refine ⟨fun he => ?_, fun hmany => hread.ends.2 (List.length_eq_zero_iff.1 ?_)⟩
      · rw [hend he] at hall ⊢
        exact List.prefix_nil.1 hall
      · rw [List.length_singleton] at hmany
        omega
    | cons c' r =>
      refine ⟨fun he => ?_, fun hmany => hlen ?_⟩
      · rw [hlast he, hahead]
      · simp only [List.length_cons] at hmany ⊢
        omega

/-- Settles O51: no bytes are unread at first, so those ahead are the payloads'. -/
theorem rawReadsReconstructStream : Obligations.RawReadsReconstructStream := by
  unfold Obligations.RawReadsReconstructStream
  intro s ps counts hready hcalm hfinite hinv he hq hnext hps hstream hcounts
  have hnone : s.rb.unread = [] := by rw [← List.length_eq_zero_iff, RBuf.unread_length, he, Nat.sub_self]
  have hahead : s.ahead ps = ps.flatten := by rw [State.ahead, hnone, List.nil_append]
  have hframes : s.FramesAhead ps := ⟨hready, hcalm, hfinite, hinv, hq, hnext, hstream⟩
  rw [← hahead]
  exact hframes.rawReads hps hcounts

end Sys2Proof.Machine
end

section
/-! PROOFS. The family of spec/43_writer.md: what the writer's commands put on the wire over a calm transport,
chunk by chunk and grant by grant, and why TX.stream stays a concatenation of whole frames. -/

namespace Sys2Proof.Machine

/-! ## A frame that joins TX.stream -/

/-- `s` with these bytes behind TX.stream and these answers left. -/
def State.wrote (s : State) (bytes : Bytes) (sc : List Answer) : State :=
  { s with tx := { s.tx with stream := s.tx.stream ++ bytes, script := sc } }

@[simp] theorem State.wrote_txn (s : State) (bytes : Bytes) (sc : List Answer) : (s.wrote bytes sc).txn = s.txn := rfl
@[simp] theorem State.wrote_waiting (s : State) (bytes : Bytes) (sc : List Answer) :
    (s.wrote bytes sc).waiting = s.waiting := rfl
@[simp] theorem State.wrote_tx (s : State) (bytes : Bytes) (sc : List Answer) :
    (s.wrote bytes sc).tx = { s.tx with stream := s.tx.stream ++ bytes, script := sc } := rfl

/-- A style of the bounded ones has its row's maximum, which a command's payload can reach (R7, R137). -/
theorem maxLen_of_bounded {st : Style} {M : Nat} (h : (st, M) ∈ boundedStyles) :
    Style.maxLen st = some M ∧ 0 < M ∧ M ≤ PAYLOAD_MAX := by
  simp only [boundedStyles, List.mem_cons, Prod.mk.injEq, List.not_mem_nil, or_false] at h
  rcases h with ⟨rfl, rfl⟩ | ⟨rfl, rfl⟩ | ⟨rfl, rfl⟩ | ⟨rfl, rfl⟩ <;> decide

theorem lastChunk_bounded {st : Style} {M : Nat} (h : (st, M) ∈ boundedStyles) (count i : Nat) :
    lastChunk st count i = true ↔ count ≤ (i + 1) * M := by
  simp only [lastChunk, (maxLen_of_bounded h).1, decide_eq_true_eq]

theorem lastChunk_unbounded {st : Style} (h : st ∈ unboundedStyles) (count i : Nat) : lastChunk st count i = true := by
  simp only [unboundedStyles, List.mem_cons, List.not_mem_nil, or_false] at h
  rcases h with rfl | rfl | rfl | rfl | rfl | rfl <;> rfl

/-- Every style can hold a payload of one byte (R137). -/
theorem within_one (st : Style) : Style.within st 1 = true := by cases st <;> rfl

theorem one_le_payloadMax : 1 ≤ PAYLOAD_MAX := by decide

/-! ## `WR.WRITE`, one chunk (R193) -/

/-- The payload of the chunk whose turn it is. -/
def State.chunkNow (s : State) : Bytes := chunkOf s.cfg.wr.style (s.din.take s.argNat) s.txn.chunk

/-- The frame of the chunk joins TX.stream; the command ends with its last chunk and else waits again. -/
theorem exec_wrWrite_chunk {s : State} (hready : s.writerReady = true) (hcalm : s.txCalm = true)
    (harg : s.arg.toNat ≤ s.din.length) (hlen : s.chunkNow.length ≤ PAYLOAD_MAX) :
    ∃ sc, sc.all Answer.isMove = true ∧ exec .wrWrite s = .next
      (if lastChunk s.cfg.wr.style s.arg.toNat s.txn.chunk
        then (s.wrote (frameOf s.cfg.wr s.chunkNow) sc).endCommand .writer {}
        else (s.wrote (frameOf s.cfg.wr s.chunkNow) sc).requeue .writer) := by
  obtain ⟨sc, hsc, hemit⟩ := emitFrame_fits hcalm (chunkOf_within s.cfg.wr.style _ _) hlen
  refine ⟨sc, hsc, ?_⟩
  change (writeBody s).finishChunk .writer = _
  rw [writeBody, writerChecks_ready hready, Run.bind_done, if_neg (by simpa using harg), hemit]
  rfl

/-- Settles O54: under an unbounded style the first chunk is all of the payload, and the last. -/
theorem writeUnboundedIsOneFrame : Obligations.WriteUnboundedIsOneFrame := by
  unfold Obligations.WriteUnboundedIsOneFrame
  intro s hready hcalm hst hdin harg
  have hchunk : s.chunkNow = s.din.take s.arg.toNat := chunkOf_unbounded hst _ _
  have hlen : s.chunkNow.length ≤ PAYLOAD_MAX := by
    rw [hchunk, List.length_take]
    exact (Nat.min_le_right _ _).trans hdin
  obtain ⟨sc, -, hexec⟩ := exec_wrWrite_chunk hready hcalm harg hlen
  rw [lastChunk_unbounded hst, if_pos rfl, hchunk] at hexec
  exact ⟨sc, hexec⟩

/-- Under a bounded style every chunk is short enough for a command to carry. -/
theorem State.chunkNow_length_le {s : State} {M : Nat} (hst : (s.cfg.wr.style, M) ∈ boundedStyles) :
    s.chunkNow.length ≤ PAYLOAD_MAX := by
  rw [State.chunkNow, chunkOf_bounded hst, List.length_take]
  exact (Nat.min_le_left _ _).trans (maxLen_of_bounded hst).2.2

/-- Settles O55: the chunk's frame, and the two ways the command goes on. -/
theorem writeEmitsOneChunk : Obligations.WriteEmitsOneChunk := by
  unfold Obligations.WriteEmitsOneChunk
  intro s M hready hcalm hst harg
  have hchunk : s.chunkNow = ((s.din.take s.arg.toNat).drop (s.txn.chunk * M)).take M := chunkOf_bounded hst _ _
  obtain ⟨sc, -, hexec⟩ := exec_wrWrite_chunk hready hcalm harg (State.chunkNow_length_le hst)
  simp only [lastChunk_bounded hst, hchunk] at hexec
  exact ⟨sc, _, rfl, hexec⟩

/-! ## `WR.WRITE`, grant by grant (R193, R199) -/

theorem decode_wrWrite : decode 0x0041#16 = .command .wrWrite := by decide

/-- One requester's `WR.WRITE` is all that waits, and nothing keeps the writer from its next chunk. -/
structure State.WriteWaits (s : State) (M : Nat) (t : Transaction) : Prop where
  ready : s.writerReady = true
  calm : s.txCalm = true
  lock : s.wr.lock = .free
  bounded : (s.cfg.wr.style, M) ∈ boundedStyles
  cmd : t.req.cmd = 0x0041#16
  count : t.req.arg.toNat ≤ t.req.din.length
  sole : s.waiting = [t]

/-- Chunk `k` of the `WR.WRITE` that `t` is, under a style with maximum `M`. -/
def Transaction.chunkAt (t : Transaction) (M k : Nat) : Bytes :=
  ((t.req.din.take t.req.arg.toNat).drop (k * M)).take M

/-- A grant puts out the frame of the chunk whose turn it is (R193). -/
theorem State.WriteWaits.step_grant {s : State} {M : Nat} {t : Transaction} (h : s.WriteWaits M t)
    {rest : List Event} (hs : s.schedule = .grant t.who :: rest) :
    ∃ sc, sc.all Answer.isMove = true ∧ step s = .next
      (let v := ((s.beginStep rest).granted .writer t).wrote (frameOf s.cfg.wr (t.chunkAt M t.chunk)) sc
      if t.req.arg.toNat ≤ (t.chunk + 1) * M then v.endCommand .writer {} else v.requeue .writer) := by
  have hsel : s.select t.who = .run .wrWrite t :=
    State.select_run (State.pending_sole h.sole) (by rw [h.cmd, decode_wrWrite]) h.lock
  rw [Machine.step_grant hs hsel]
  have hst : (((s.beginStep rest).granted .writer t).cfg.wr.style, M) ∈ boundedStyles := h.bounded
  have hchunk : ((s.beginStep rest).granted .writer t).chunkNow = t.chunkAt M t.chunk := chunkOf_bounded hst _ _
  obtain ⟨sc, hsc, hexec⟩ := exec_wrWrite_chunk (s := (s.beginStep rest).granted .writer t) h.ready h.calm h.count
    (State.chunkNow_length_le hst)
  simp only [lastChunk_bounded hst, hchunk] at hexec
  exact ⟨sc, hsc, hexec⟩

/-- Once the command has been put back with chunks to come, it waits as before. -/
theorem State.WriteWaits.requeue {s : State} {M : Nat} {t : Transaction} (h : s.WriteWaits M t) (rest : List Event)
    (bytes : Bytes) {sc : List Answer} (hsc : sc.all Answer.isMove = true) :
    ((((s.beginStep rest).granted .writer t).wrote bytes sc).requeue .writer).WriteWaits M
      { t with chunk := t.chunk + 1 } where
  ready := h.ready
  calm := hsc
  lock := rfl
  bounded := h.bounded
  cmd := h.cmd
  count := h.count
  sole := by
    have hnone : (s.beginStep rest).without t.who = [] := State.without_sole h.sole
    simp [hnone]

/-- A run goes on from where its first step leaves the machine. -/
theorem run_succ {s t : State} (h : step s = .next t) (k : Nat) :
    Host.Core.run Sys2Proof.core (k + 1) s = Host.Core.run Sys2Proof.core k t := by
  simp only [Host.Core.run, show Sys2Proof.core.step s = .next t from h]

/-- As many grants as the command has chunks left, `m + 1`, put the chunks' frames on the wire in order, and the
command ends. -/
theorem State.WriteWaits.run {s : State} {M : Nat} {t : Transaction} {rest : List Event} (m : Nat)
    (h : s.WriteWaits M t) (hs : s.schedule = List.replicate (m + 1) (.grant t.who) ++ rest)
    (hlast : t.req.arg.toNat ≤ (t.chunk + m + 1) * M) (hmore : m = 0 ∨ (t.chunk + m) * M < t.req.arg.toNat) :
    ∃ u : State, Host.Core.run Sys2Proof.core (m + 1) s = .next u ∧
      u.tx.stream = s.tx.stream ++
        ((List.range' t.chunk (m + 1)).map fun k => frameOf s.cfg.wr (t.chunkAt M k)).flatten ∧
      u.rsp = some ⟨t.who, {}⟩ ∧ u.waiting = [] ∧ u.schedule = rest ∧ u.wr.lock = .free := by
  induction m generalizing s t with
  | zero =>
    obtain ⟨sc, -, hstep⟩ := h.step_grant hs
    rw [if_pos hlast] at hstep
    refine ⟨_, by rw [run_succ hstep]; rfl, ?_, rfl, ?_, rfl, rfl⟩
    · simp
    · exact State.without_sole (s := s.beginStep rest) h.sole
  | succ m ih =>
    have hmore : (t.chunk + (m + 1)) * M < t.req.arg.toNat := hmore.resolve_left (Nat.succ_ne_zero m)
    have hnext : ¬ t.req.arg.toNat ≤ (t.chunk + 1) * M := by
      have : (t.chunk + 1) * M ≤ (t.chunk + (m + 1)) * M := Nat.mul_le_mul_right M (by omega)
      omega
    obtain ⟨sc, hsc, hstep⟩ := h.step_grant (rest := List.replicate (m + 1) (.grant t.who) ++ rest)
      (by rw [hs, List.replicate_succ, List.cons_append])
    rw [if_neg hnext] at hstep
    obtain ⟨u, hrun, hstream, hu⟩ := ih (h.requeue _ _ hsc) rfl
      (by rwa [show t.chunk + 1 + m + 1 = t.chunk + (m + 1) + 1 by omega])
      (.inr (by rwa [show t.chunk + 1 + m = t.chunk + (m + 1) by omega]))
    refine ⟨u, by rw [run_succ hstep, hrun], ?_, hu⟩
    rw [hstream, List.range'_succ (s := t.chunk), List.map_cons, List.flatten_cons, ← List.append_assoc]
    rfl

/-- Settles O56: the grants put out chunks 0 to n - 1, of which the last alone reaches the count. -/
theorem writeRunsToGreedyFrames : Obligations.WriteRunsToGreedyFrames := by
  unfold Obligations.WriteRunsToGreedyFrames
  intro s t M n rest hready hcalm hlock hst hcmd hchunk hcount hsole hn hs
  have hM : 0 < M := (maxLen_of_bounded hst).2.1
  rw [← Nat.add_sub_assoc hM, ← Nat.ceilDiv_eq_add_pred_div] at hn
  have hreach : ∀ k, t.req.arg.toNat ≤ k * M ↔ t.req.arg.toNat ⌈/⌉ M ≤ k := fun k => by
    rw [ceilDiv_le_iff_le_mul hM, Nat.mul_comm]
  obtain ⟨m, rfl⟩ : ∃ m, n = m + 1 := ⟨n - 1, by omega⟩
  have hlast : t.req.arg.toNat ≤ (m + 1) * M := by rw [hreach]; omega
  have hmore : m = 0 ∨ m * M < t.req.arg.toNat := by rw [← Nat.not_le, hreach]; omega
  have hwaits : s.WriteWaits M t := ⟨hready, hcalm, hlock, hst, hcmd, hcount, hsole⟩
  have hrun := hwaits.run m hs (by rwa [hchunk, Nat.zero_add]) (by rwa [hchunk, Nat.zero_add])
  rwa [hchunk, ← List.range_eq_range'] at hrun

/-! ## `WR.WRITEBYTE` (R194)

The parts of a write look at no field of the executing command once the payload is given, and the end of the
command keeps nothing of it but its requester. -/

theorem writerChecks_ignoresTxn : IgnoresTxn writerChecks := by
  intro s x
  simp only [writerChecks, State.withTxn, Run.mapState_ite]
  rfl

theorem txWriteLoop_ignoresTxn (fuel : Nat) (bytes : Bytes) : IgnoresTxn (txWriteLoop fuel bytes) := by
  induction fuel generalizing bytes with
  | zero => exact .pure _
  | succ fuel ih =>
    refine .ite (.pure _) fun s x => ?_
    have htx : (s.withTxn x).tx = s.tx := rfl
    rw [htx]
    rcases s.tx.script.head? with _ | ⟨n | ⟨n, why⟩⟩
    · exact ih _ (s.wrote (bytes.take (movedBy none bytes.length)) s.tx.script.tail) x
    · exact ih _ (s.wrote (bytes.take (movedBy (some (.move n)) bytes.length)) s.tx.script.tail) x
    · rfl

theorem emitFrame_ignoresTxn (p : Bytes) : IgnoresTxn (emitFrame p) := by
  intro s x
  have hcfg : (s.withTxn x).cfg = s.cfg := rfl
  unfold emitFrame
  rw [hcfg]
  split
  · split
    · exact txWriteLoop_ignoresTxn _ _ s x
    · rfl
  · rfl

/-- A writer command that emits the frame of `p`. -/
def emitBody (p : Bytes) (s : State) : Run Response :=
  (writerChecks s).bind fun _ s => (emitFrame p s).bind fun _ s => .done .done s

/-- The checks write nothing, so what follows them may speak of the state before them. -/
theorem writerChecks_bind_congr {α : Type} {s : State} {k k' : PUnit → State → Run α} (h : k .unit s = k' .unit s) :
    (writerChecks s).bind k = (writerChecks s).bind k' := by
  rcases writerChecks_cases s with hc | ⟨st, hc⟩ <;> rw [hc]
  · exact h
  · rfl

theorem exec_wrWriteMsg (s : State) : exec .wrWriteMsg s = (emitBody s.din s).finish .writer :=
  congrArg (Run.finish .writer) (writerChecks_bind_congr rfl)

theorem exec_wrWriteByte (s : State) : exec .wrWriteByte s = (emitBody [s.argByte] s).finish .writer :=
  congrArg (Run.finish .writer) (writerChecks_bind_congr rfl)

theorem emitBody_ignoresTxn (p : Bytes) : IgnoresTxn (emitBody p) :=
  writerChecks_ignoresTxn.bind fun _ => (emitFrame_ignoresTxn p).bind fun _ => .pure _

/-- A writer command of the same requester comes to the same, whatever else is asked for. -/
theorem IgnoresTxn.finish_writer {f : State → Run Response} (hf : IgnoresTxn f) (s : State) {x : Transaction}
    (hwho : x.who = s.txn.who) : (f (s.withTxn x)).finish .writer = (f s).finish .writer := by
  rw [hf s x, Run.finish_withTxn .writer (f s) hwho, ← hf s s.txn]
  rfl

/-- Settles O57: the command as the other one, and the frame of its byte. -/
theorem writeByteIsWriteMsgOfOne : Obligations.WriteByteIsWriteMsgOfOne := by
  unfold Obligations.WriteByteIsWriteMsgOfOne
  refine ⟨fun s => ?_, fun s hready hcalm => ?_⟩
  · rw [exec_wrWriteByte, exec_wrWriteMsg]
    exact ((emitBody_ignoresTxn [s.argByte]).finish_writer s
      (x := { s.txn with req := { s.txn.req with din := [s.argByte] } }) rfl).symm
  · obtain ⟨sc, -, hemit⟩ := emitFrame_fits hcalm (p := [s.argByte]) (within_one _) one_le_payloadMax
    refine ⟨sc, ?_⟩
    rw [exec_wrWriteByte, emitBody, writerChecks_ready hready, Run.bind_done, hemit]
    rfl

/-! ## `WR.FLUSH` (R195) -/

/-- A flush that the transport does not fail, a cancel or no cancel (R226 (c)). -/
theorem txFlush_done {s : State} (h : s.txCalm = true ∨ ∃ n sc, s.tx.script = .interrupt n .cancelled :: sc) :
    txFlush s = .done .unit { s with tx := TxPort.flush { s.tx with script := s.tx.script.tail } } := by
  rcases h with hc | ⟨n, sc, hs⟩
  · exact txControl_calm hc _
  · simp [txFlush, txControl, hs]

/-- A flush that the transport fails; the answer says whether it counts (R221, log 25). -/
theorem txFlush_fails {s : State} {n : Nat} {sc : List Answer} (hs : s.tx.script = .interrupt n .ioFail :: sc) :
    txFlush s = .interrupted .ioFail
      { s with tx := { s.tx with flushes := if n = 0 then s.tx.flushes else s.tx.flushes + 1, script := sc } } := by
  by_cases hn : n = 0 <;> simp [txFlush, txControl, hs, hn, TxPort.flush]

theorem exec_wrFlush_ready {s : State} (h : s.writerReady = true) :
    exec .wrFlush s = ((txFlush s).bind fun _ s => .done .done s).finish .writer := by
  change ((writerChecks s).bind fun _ s => (txFlush s).bind _).finish .writer = _
  rw [writerChecks_ready h, Run.bind_done]

/-- Settles O58: the flush that is done, and the flush that fails. -/
theorem flushCountsOneFlush : Obligations.FlushCountsOneFlush := by
  unfold Obligations.FlushCountsOneFlush
  refine ⟨fun s hready h => ?_, fun s n sc hready hs => ?_⟩
  · rw [exec_wrFlush_ready hready, txFlush_done h]
    rfl
  · rw [exec_wrFlush_ready hready, txFlush_fails hs]
    rfl

/-! ## Whole frames on the wire (R197) -/

/-- TX.stream is in `t` what it was in `s`, or has gained one whole frame. -/
def State.Gains (s t : State) : Prop :=
  t.tx.stream = s.tx.stream ∨ ∃ p : Bytes, Style.within s.cfg.wr.style p.length = true ∧ p.length ≤ PAYLOAD_MAX ∧
    t.tx.stream = s.tx.stream ++ frameOf s.cfg.wr p

theorem State.Gains.of_tx {s t : State} (h : t.tx = s.tx) : s.Gains t := .inl (by rw [h])

theorem State.Gains.wholeFrames {s t : State} (h : s.Gains t) (hs : WholeFrames s.cfg.wr s.tx.stream) :
    WholeFrames s.cfg.wr t.tx.stream := by
  obtain ⟨ps, hps, hwire⟩ := hs
  rcases h with h | ⟨p, hwithin, hlen, h⟩
  · exact ⟨ps, hps, h.trans hwire⟩
  · refine ⟨ps ++ [p], ?_, by rw [h, hwire]; simp⟩
    intro q hq
    rcases List.mem_append.1 hq with hq | hq
    · exact hps q hq
    · obtain rfl : q = p := List.mem_singleton.1 hq
      exact ⟨hwithin, hlen⟩

section Gains

variable {α : Type} {s t : State}

/-- Whatever strikes or ends a command, TX stays as its body left it. -/
theorem Ended.tx {u : BlockUnit} {I : Interruption → Prop} {P : State → Prop} (h : Ended u I P t) :
    ∃ v, P v ∧ t.tx = v.tx := by
  cases h with
  | answered h r => exact ⟨_, h, State.endCommand_tx ..⟩
  | poisoned h st => exact ⟨_, h, by rw [State.raise_tx, State.poison_tx]⟩
  | requeued h hu => exact ⟨_, h, State.requeue_tx ..⟩
  | stuck h hu => exact ⟨_, h, State.hang_tx ..⟩
  | reset h hI cfg => exact ⟨_, h, State.afterReset_tx ..⟩

/-- A part of a writer command that nothing cuts short, and that has put at most one frame on the wire. -/
abbrev Run.GainsFrom (s : State) (r : Run α) : Prop := r.Leaves .writer (fun _ => False) s.Gains

theorem writerChecks_gains {k : PUnit → State → Run α} (hk : (k .unit s).GainsFrom s) :
    ((writerChecks s).bind k).GainsFrom s := by
  rcases writerChecks_cases s with hc | ⟨st, hc⟩ <;> rw [hc]
  · exact hk
  · exact .of_tx rfl

theorem emitFrame_gains (hcalm : s.txCalm = true) {p : Bytes} (hlen : p.length ≤ PAYLOAD_MAX) :
    (emitFrame p s).GainsFrom s := by
  cases hw : Style.within s.cfg.wr.style p.length with
  | false =>
    rw [emitFrame_long hw]
    exact .of_tx rfl
  | true =>
    obtain ⟨sc, -, hr⟩ := emitFrame_fits hcalm hw hlen
    rw [hr]
    exact .inr ⟨p, hw, hlen, rfl⟩

theorem writeBody_gains (hcalm : s.txCalm = true) (hdin : s.din.length ≤ PAYLOAD_MAX) :
    (writeBody s).GainsFrom s := by
  refine writerChecks_gains ?_
  split
  · exact .of_tx rfl
  · refine (emitFrame_gains hcalm ?_).bind fun _ _ h => h
    exact (chunkOf_length_le ..).trans ((List.length_take_le' ..).trans hdin)

theorem txFlush_gains (hcalm : s.txCalm = true) : (txFlush s).GainsFrom s := by
  rw [txFlush_done (.inl hcalm)]
  exact .inl rfl

theorem wrCloseBody_gains (hcalm : s.txCalm = true) : (wrCloseBody s).GainsFrom s := by
  unfold wrCloseBody
  split
  · exact .of_tx rfl
  · dsimp only
    split
    · exact .of_tx rfl
    · rw [txClose_done (s := { s with wr := { s.wr with closed := true } }) (.inl hcalm), TxPort.close_eq]
      exact .inl rfl

/-- A writer command over a calm transport puts at most one frame on the wire (R191 to R196). -/
theorem exec_writer_gains {i : Instr} (hu : Instr.unit i = .writer) (hcalm : s.txCalm = true)
    (hdin : s.din.length ≤ PAYLOAD_MAX) (ht : exec i s = .next t) : Ended .writer (fun _ => False) s.Gains t := by
  cases i with
  | wrWriteMsg =>
    refine Run.Leaves.finish ?_ ht
    exact writerChecks_gains ((emitFrame_gains hcalm hdin).bind fun _ _ h => h)
  | wrWrite => exact (writeBody_gains hcalm hdin).finishChunk ht
  | wrWriteByte =>
    refine Run.Leaves.finish ?_ ht
    exact writerChecks_gains ((emitFrame_gains hcalm (p := [s.argByte]) one_le_payloadMax).bind fun _ _ h => h)
  | wrFlush =>
    refine Run.Leaves.finish ?_ ht
    exact writerChecks_gains ((txFlush_gains hcalm).bind fun _ _ h => h)
  | wrClose => exact (wrCloseBody_gains hcalm).finish ht
  | _ => cases hu

/-- A command of another unit leaves TX alone (R71, R110). -/
theorem exec_other_tx {i : Instr} (hu : Instr.unit i ≠ .writer) (ht : exec i s = .next t) : t.tx = s.tx := by
  obtain ⟨v, hv, htx⟩ := (exec_ended ht).tx
  rw [htx]
  have hframe := hv.frame
  cases hi : Instr.unit i with
  | writer => exact absurd hi hu
  | _ =>
    rw [hi, FramedBy] at hframe
    rw [hframe]

theorem exec_gains {i : Instr} (hcalm : s.txCalm = true) (hdin : s.din.length ≤ PAYLOAD_MAX)
    (ht : exec i s = .next t) : s.Gains t := by
  by_cases hu : Instr.unit i = .writer
  · obtain ⟨v, hv, htx⟩ := (exec_writer_gains hu hcalm hdin ht).tx
    rwa [State.Gains, htx]
  · exact .of_tx (exec_other_tx hu ht)

/-- A stuck reader command that is cut short leaves TX alone. -/
theorem State.strike_tx {who : Nat} {why : Interruption} (ht : s.strike who why = .next t) : t.tx = s.tx := by
  obtain ⟨v, hv, htx⟩ :=
    (State.interrupted_ended (I := fun _ => True) (P := fun v => v.tx = s.tx) ht trivial rfl).tx
  exact htx.trans hv

/-- Whatever a step comes to over a calm transmit transport, TX.stream gains at most one frame. -/
theorem Moved.gains {e : Option Event} (h : Moved e s t) (hinv : s.Inv) (hcalm : s.txCalm = true) : s.Gains t := by
  cases h with
  | nothing => exact .of_tx rfl
  | joined => exact .of_tx rfl
  | dismissed v st => exact .of_tx rfl
  | arrived bytes =>
    unfold State.rxArrive
    split <;> exact .of_tx rfl
  | settled rx tx => exact .inl rfl
  | fed rx tx k => exact .inl rfl
  | cancelled hstuck ht => exact .of_tx (State.strike_tx ht)
  | @struck who k why rx tx sc _ hstuck he hwhy ht => exact .inl (by rw [State.strike_tx ht]; rfl)
  | @served who v i _ hv hlock ht =>
    obtain ⟨-, -, -, hqueued, -⟩ := s.inv_iff.1 hinv
    have hreq : v.req.wellFormed = true := (hqueued.domain v (State.pending_mem hv)).2
    have hgains := exec_gains (s := s.granted (Instr.unit i) v) (by simpa [State.txCalm] using hcalm)
      (by simpa [State.din, Request.wellFormed] using hreq) ht
    simpa only [State.Gains, State.granted_tx, State.granted_cfg] using hgains
  | reset he cfg => exact .of_tx rfl

end Gains

/-- Settles O13: a step begins, and what it then comes to puts at most one more frame on the wire. -/
theorem wireHoldsWholeFrames : Obligations.WireHoldsWholeFrames := by
  unfold Obligations.WireHoldsWholeFrames
  intro s t hinv hcalm hwhole ht hcfg
  obtain ⟨v, hv, hm⟩ := step_moved ht
  have hbegun : v.tx = s.tx ∧ v.cfg = s.cfg := by rw [show v = _ from hv]; exact ⟨rfl, rfl⟩
  obtain ⟨htx, hvcfg⟩ := hbegun
  have hgains := hm.gains (hv.inv hinv) (by rw [State.txCalm, htx]; exact hcalm)
  rw [hcfg, ← hvcfg]
  exact hgains.wholeFrames (by rwa [hvcfg, htx])

end Sys2Proof.Machine
end

section
/-! PROOFS. The family of spec/60_exceptions.md: the status codes, the faults that are answered before anything else,
and what a cancel or a failure leaves of a command. -/

namespace Sys2Proof.Machine

/-! ## The status codes (R210) -/

/-- Settles O18: each code is the table's. -/
theorem statusCodesAreTheTable : Obligations.StatusCodesAreTheTable := by
  unfold Obligations.StatusCodesAreTheTable
  decide

/-! ## A strike that is no reset (R221, R226 (b)) -/

/-- The status a cancelled or failed command answers. -/
theorem State.interrupted_poisons {why : Interruption} (h : why = .cancelled ∨ why = .ioFail) (s : State)
    (u : BlockUnit) : s.interrupted u why =
      .next ((s.poison u).raise u (if why = .cancelled then .cancelled else .ioFail)) := by
  rcases h with rfl | rfl <;> rfl

/-- Answers that hold no reset strike only by a cancel or a failure. -/
theorem struck_cases {l : List Answer} (h : l.all Answer.notReset = true) {why : Interruption} (hw : Struck l why) :
    why = .cancelled ∨ why = .ioFail := by
  cases why with
  | cancelled => exact .inl rfl
  | ioFail => exact .inr rfl
  | reset pins => exact absurd hw (not_struck_reset h pins)

/-! ### Inside a receive call -/

/-- Settles O47: the call that is struck is one the read makes, and poisoning writes a buffer that keeps the
invariants. -/
theorem interruptedReadPoisons : Obligations.InterruptedReadPoisons := by
  unfold Obligations.InterruptedReadPoisons
  rintro s i moves sc m n why calm hi hwhy - hm hs rfl ⟨v, hv, hmade⟩
  obtain ⟨b, next, k, eof, hexec, hcalm⟩ := exec_read_struck hi hm hs hv hmade
  rw [State.interrupted_poisons hwhy] at hexec
  refine ⟨_, k, hexec, rfl, rfl, rfl, fun u hu hrsp => ?_, cancelledBuffer_inv _ _, rfl⟩
  obtain rfl : v = u := Host.Outcome.next.inj (hv.symm.trans hu)
  exact hcalm hrsp

/-! ### Inside a transmit call -/

/-- A write goes on from its frame as a chunk of a `WR.WRITE` does; the other two writes are one chunk, their
last (R192 to R194). -/
theorem exec_emits {s : State} {i : Instr} {p : Bytes} (h : Emits s i p) :
    exec i s = ((emitFrame p s).bind fun _ t =>
      .done (decide (i ≠ .wrWrite) || lastChunk t.cfg.wr.style t.argNat t.txn.chunk) t).finishChunk .writer := by
  obtain ⟨hready, hform, -, -⟩ := h
  have hchecks := writerChecks_ready hready
  have hone : ((emitFrame p s).bind fun _ t => .done Response.done t).finish .writer =
      ((emitFrame p s).bind fun _ t => .done true t).finishChunk .writer := by cases emitFrame p s <;> rfl
  rcases hform with ⟨rfl, rfl⟩ | ⟨rfl, rfl⟩ | ⟨rfl, harg, hchunk⟩
  · rw [exec_wrWriteMsg_ready hready]
    exact hone
  · rw [exec_wrWriteByte, emitBody, hchecks]
    exact hone
  · have hp : chunkOf s.cfg.wr.style (s.din.take s.argNat) s.txn.chunk = p := by
      rcases hchunk with ⟨hst, rfl⟩ | ⟨M, hst, rfl⟩
      · exact chunkOf_unbounded hst _ _
      · exact chunkOf_bounded hst _ _
    change (writeBody s).finishChunk .writer = _
    rw [writeBody, hchecks, Run.bind_done, if_neg (by simpa using harg), hp]
    rfl

/-- A write whose frame has gone out whole ends as it does over a transport with no answers written down. -/
theorem exec_emits_whole {s : State} {i : Instr} {p : Bytes} {sc : List Answer} (h : Emits s i p)
    (hr : emitFrame p s = .done .unit (s.wrote (frameOf s.cfg.wr p) sc)) :
    forgetScripts (exec i s) = forgetScripts (exec i { s with tx := { s.tx with script := [] } }) := by
  have ⟨_, _, hlen, hwithin⟩ := h
  have hempty : Emits { s with tx := { s.tx with script := [] } } i p := h
  obtain ⟨sc', -, hr'⟩ := emitFrame_fits (s := { s with tx := { s.tx with script := [] } }) rfl hwithin hlen
  have hends : ∀ (last : Bool) (sc : List Answer),
      forgetScripts (.next (if last then (s.wrote (frameOf s.cfg.wr p) sc).endCommand .writer .done
        else (s.wrote (frameOf s.cfg.wr p) sc).requeue .writer)) =
      forgetScripts (.next (if last then (s.wrote (frameOf s.cfg.wr p) []).endCommand .writer .done
        else (s.wrote (frameOf s.cfg.wr p) []).requeue .writer)) := by
    intro last sc
    cases last <;> rfl
  rw [exec_emits h, exec_emits hempty, hr, hr']
  exact (hends _ sc).trans (hends _ sc').symm

/-- Settles O59: the frame goes out whole, or the strike leaves a front part of it. -/
theorem interruptedWriteLeavesFrontPart : Obligations.InterruptedWriteLeavesFrontPart := by
  unfold Obligations.InterruptedWriteLeavesFrontPart
  intro s i p h
  refine ⟨fun hreset => ?_, fun moves sc n why hwhy hm hs ha => ?_⟩
  · have ⟨_, _, hlen, hwithin⟩ := h
    have hframe := emitFrame_eq_txWrite hwithin hlen
    obtain ⟨sc, -, hr | ⟨k, n, why, hmem, hr⟩⟩ := txWrite_cases (frameOf s.cfg.wr p) s
    · exact .inl (exec_emits_whole h (hframe.trans hr))
    · have hexec := exec_emits_interrupted h (hframe.trans hr)
      rw [State.interrupted_poisons (struck_cases hreset ⟨n, hmem⟩)] at hexec
      exact .inr ⟨k, _, sc, by split <;> simp, hexec⟩
  · rw [exec_emits_struck h hm hs ha, State.interrupted_poisons hwhy]
    rfl

/-! ## A prefix cut short in the source (R211) -/

/-- A source that decodes to nothing answers TRUNCATED_PREFIX (R123). -/
theorem exec_decOf_truncated {st : Style} {ord : ByteOrder} {s : State} (h : decodePrefix st ord s.din = none) :
    exec (decOf ord st) s = .next (s.raise .codec .truncatedPrefix) := by
  rw [exec_decOf, decBody, h]
  rfl

/-- Fewer bytes than the width are no fixed-width prefix. -/
theorem decodePrefix_short {st : Style} {w : Nat} (hw : Style.width st = some w) (ord : ByteOrder) {src : Bytes}
    (hlen : src.length < w) : decodePrefix st ord src = none := by
  refine decodeLoop_none.2 fun m _ hm => ?_
  simp only [prefixComplete, hw, List.nil_append, List.length_take, beq_eq_false_iff_ne]
  omega

/-- Settles O26: in neither case is a front of the source a complete prefix. -/
theorem decodeTruncatedFaults : Obligations.DecodeTruncatedFaults := by
  unfold Obligations.DecodeTruncatedFaults
  refine ⟨fun st sg w ord s hst hlen => ?_, fun st ord s hst hall => ?_⟩
  · exact exec_decOf_truncated (decodePrefix_short (width_signed_of_mem_fixedStyles hst).1 ord hlen)
  · exact exec_decOf_truncated ((decodeLoop_none_variable (width_of_mem_variableStyles hst)).2 hall)

/-! ## A closed or poisoned unit (R160, R190, R219, R220) -/

theorem readerChecks_closed {s : State} (h : s.rd.closed = true) : readerChecks s = .raised .unitClosed s := by
  simp only [readerChecks, h, if_true]

theorem readerChecks_poisoned {s : State} (h : s.rd.closed = false) (hp : s.rd.poisoned = true) :
    readerChecks s = .raised .unitPoisoned s := by
  simp only [readerChecks, h, hp, Bool.false_eq_true, if_false, if_true]

theorem writerChecks_closed {s : State} (h : s.wr.closed = true) : writerChecks s = .raised .unitClosed s := by
  simp only [writerChecks, h, if_true]

theorem writerChecks_poisoned {s : State} (h : s.wr.closed = false) (hp : s.wr.poisoned = true) :
    writerChecks s = .raised .unitPoisoned s := by
  simp only [writerChecks, h, hp, Bool.false_eq_true, if_false, if_true]

/-- Every reader's command but `RD.CLOSE` begins with the checks, and ends with what they raise (R160, R222). -/
theorem exec_reader_raised {i : Instr} (hu : Instr.unit i = .reader) (hi : i ≠ .rdClose) {s : State} {st : Status}
    (hc : readerChecks s = .raised st s) : exec i s = .next (s.raise .reader st) := by
  have hbegins : ∃ k, exec i s = ((readerChecks s).bind k).finish .reader := by
    cases i with
    | rbFillRaw | rbFillMsg | rbDrain | rbDrainMsg | rbLen => exact ⟨_, rfl⟩
    | rdReadMsg | rdReadMsgC | rdRead | rdReadByte | rdPeekLen => exact ⟨_, rfl⟩
    | rdClose => exact absurd rfl hi
    | _ => cases hu
  obtain ⟨k, hk⟩ := hbegins
  rw [hk, hc]
  rfl

/-- Every writer's command but `WR.CLOSE` begins with the checks, and ends with what they raise (R190, R222). -/
theorem exec_writer_raised {i : Instr} (hu : Instr.unit i = .writer) (hi : i ≠ .wrClose) {s : State} {st : Status}
    (hc : writerChecks s = .raised st s) : exec i s = .next (s.raise .writer st) := by
  have hbegins : (∃ k, exec i s = ((writerChecks s).bind k).finish .writer) ∨
      ∃ k, exec i s = ((writerChecks s).bind k).finishChunk .writer := by
    cases i with
    | wrWriteMsg | wrWriteByte | wrFlush => exact .inl ⟨_, rfl⟩
    | wrWrite => exact .inr ⟨_, rfl⟩
    | wrClose => exact absurd rfl hi
    | _ => cases hu
  obtain ⟨k, hk⟩ | ⟨k, hk⟩ := hbegins <;> rw [hk, hc] <;> rfl

/-- Settles O20: the checks come first, and closed comes before poisoned. -/
theorem closedOrPoisonedUnitAnswersSo : Obligations.ClosedOrPoisonedUnitAnswersSo := by
  unfold Obligations.ClosedOrPoisonedUnitAnswersSo
  refine fun i s => ⟨fun hu hi => ⟨fun h => ?_, fun h hp => ?_⟩, fun hu hi => ⟨fun h => ?_, fun h hp => ?_⟩⟩
  · exact exec_reader_raised hu hi (readerChecks_closed h)
  · exact exec_reader_raised hu hi (readerChecks_poisoned h hp)
  · exact exec_writer_raised hu hi (writerChecks_closed h)
  · exact exec_writer_raised hu hi (writerChecks_poisoned h hp)

/-! ## Writes that write nothing (R214, R218 (b)) -/

/-- Settles O53: both tests stand before the frame's first byte. -/
theorem writeFaultsWriteNothing : Obligations.WriteFaultsWriteNothing := by
  unfold Obligations.WriteFaultsWriteNothing
  refine ⟨fun s M hready hst hlong => ?_, fun s hready hcount => ?_⟩
  · have hwithin : Style.within s.cfg.wr.style s.din.length = false := by
      simpa only [Style.within, (maxLen_of_bounded hst).1, decide_eq_false_iff_not, not_le] using hlong
    rw [exec_wrWriteMsg_ready hready, emitFrame_long hwithin]
    rfl
  · change (writeBody s).finishChunk .writer = _
    rw [writeBody, writerChecks_ready hready, Run.bind_done, if_pos (by simpa using hcount)]
    rfl

/-! ## An illegal word (R93, R217) -/

/-- A word that selects no row is what its requester's turn comes to, whatever the locks (R222). -/
theorem State.select_illegal {s : State} {who : Nat} {t : Transaction} {e : DecodeError}
    (hp : s.pending who = some t) (hd : decode t.req.cmd = .illegal e) : s.select who = .illegal t := by
  simp only [State.select, hp, hd]

/-- A grant that can be served is the requester's turn. -/
theorem step_grant_serves {s : State} {who : Nat} {rest : List Event} (hs : s.schedule = .grant who :: rest)
    (hserve : s.servable who = true) : step s = (s.beginStep rest).serve who := by
  have hahead := State.lookAhead_cons hs
  rw [step_of_due_none (by rw [hahead, State.due_grant hs hserve]), hahead, State.move, hs]

/-- Settles O5: the word is served before any lock is asked for. -/
theorem illegalWordChangesNothing : Obligations.IllegalWordChangesNothing := by
  unfold Obligations.IllegalWordChangesNothing
  intro s r rest t e hs hp hd
  have hsel := State.select_illegal (s := s) hp hd
  rw [step_grant_serves hs (by simp [State.servable, hsel]), State.serve, State.select_beginStep, hsel]
  rfl

/-! ## A cancel between transport calls (R226 (a), (c)) -/

/-- A CODEC command or an illegal word waits for no lock (R35, R93). -/
def NeedsNoLock (w : CommandWord) : Prop :=
  (∃ i, decode w = .command i ∧ Instr.unit i = .codec) ∨ ∃ e, decode w = .illegal e

/-- What needs no lock can be served at any time. -/
theorem NeedsNoLock.servable {s : State} {who : Nat} {t : Transaction} (h : NeedsNoLock t.req.cmd)
    (hp : s.pending who = some t) : s.servable who = true := by
  rcases h with ⟨i, hd, hu⟩ | ⟨e, hd⟩
  · exact State.servable_run (State.select_run hp hd (by rw [hu]; rfl))
  · simp [State.servable, State.select_illegal hp hd]

theorem NeedsNoLock.uncontested {s : State} {t : Transaction} (h : NeedsNoLock t.req.cmd)
    (hp : s.pending t.who = some t) : s.uncontested t = true := by
  rw [State.uncontested, h.servable hp, Bool.true_and]
  rcases h with ⟨i, hd, hu⟩ | ⟨e, hd⟩
  · simp only [wordUnit, hd, hu]
  · simp only [wordUnit, hd]

/-- Nothing contests a command at the moment of a cancel, so one that need not wait is served first (R251). -/
theorem NeedsNoLock.due {s : State} {r : Nat} {rest : List Event} {t : Transaction} (h : NeedsNoLock t.req.cmd)
    (hs : s.schedule = .cancel r :: rest) (hp : s.pending t.who = some t) : s.due ≠ none := by
  intro hdue
  simp only [State.due, hs, Option.map_eq_none_iff, List.find?_eq_none] at hdue
  exact hdue t (State.pending_mem hp) (by rw [h.uncontested hp]; rfl)

/-- A cancel that is the next move, when no command is to be served and the requester has none stuck. -/
theorem step_cancel {s : State} {who : Nat} {rest : List Event} (hs : s.schedule = .cancel who :: rest)
    (hdue : s.due = none) (hl : s.rd.lock ≠ .held who) : step s = .next ((s.beginStep rest).cancelWaiting who) := by
  have hahead := State.lookAhead_cons hs
  rw [step_of_due_none (by rw [hahead, hdue]), hahead, State.move, hs]
  exact if_neg (State.stuck_eq_some.not.2 hl)

/-- Settles O8: a command that is still there when the cancel comes waits for a lock, and one that needs none is
served as a grant would have it. -/
theorem cancelWhileWaiting : Obligations.CancelWhileWaiting := by
  unfold Obligations.CancelWhileWaiting
  refine ⟨fun s r rest t i hs hdue hp hl hd => ?_, fun s r rest t hs hw hr hfree => ?_,
    fun s r rest hs hdue hnone hl => ?_⟩
  · replace hp : s.pending r = some t := hp
    have hwho := State.pending_who hp
    have hcodec : Instr.unit i ≠ .codec := fun hu =>
      NeedsNoLock.due (.inl ⟨i, hd, hu⟩) hs (by rw [hwho, hp]) hdue
    have hp' : (s.beginStep rest).pending r = some t := hp
    rw [step_cancel hs hdue hl, State.cancelWaiting, hp']
    simp only [hd, hcodec, if_false]
    rfl
  · subst hr
    have hserve := NeedsNoLock.servable hfree (State.pending_sole hw)
    have hdue : s.due = some t.who := by
      refine State.due_sole hw hserve ?_ ?_ ?_ <;> simp [hs, Event.contests]
    have hahead := State.lookAhead_cons hs
    rw [step_of_due_some (by rw [hahead, hdue]), hahead,
      step_grant_serves (s := { s with schedule := .grant t.who :: s.schedule, turns := s.turns + 1 }) rfl hserve]
    rfl
  · have hp : (s.beginStep rest).pending r = none := by simpa [State.pending] using hnone
    rw [step_cancel hs hdue hl, State.cancelWaiting, hp]
    rfl

end Sys2Proof.Machine
end

section
/-! PROOFS. The family of spec/70_reset_and_hazards.md: a block that is left alone, and the prefix that never
ends. -/

namespace Sys2Proof.Machine

/-! ## A step that serves no command (R62, R233, R244) -/

/-- With no command to be served, the move that is written down next is what the step does. -/
theorem step_move {s : State} {e : Event} {rest : List Event} (hs : s.schedule = e :: rest) (hdue : s.due = none) :
    step s = s.move := by
  have hahead := State.lookAhead_cons hs
  rw [step_of_due_none (by rw [hahead, hdue]), hahead]

/-- With no command to be served and no move to come nothing is left to do. -/
theorem step_nothing {s : State} (hs : s.schedule = []) (ha : s.agenda = .ends) (hdue : s.due = none) :
    step s = .next { s with rsp := none } := by
  have hahead := State.lookAhead_ends hs ha
  rw [step_of_due_none (by rw [hahead, hdue]), hahead, State.move, hs]
  dsimp only
  rw [State.beginStep, ← hs]

/-- Once the end is reported for ever no byte arrives (R62, log 21). -/
theorem State.rxArrive_ended {s : State} (heof : s.rx.eof = true) (hsticky : s.rxEofSticky = true) (bytes : Bytes) :
    s.rxArrive bytes = s := by
  simp only [State.rxArrive, heof, hsticky, Bool.and_self, Bool.true_or, if_true]

/-- Otherwise the bytes join a finite stream (R62). -/
theorem State.rxArrive_joins {s : State} (htail : s.rx.tail = .ends)
    (h : s.rx.eof = false ∨ s.rxEofSticky = false) (bytes : Bytes) :
    s.rxArrive bytes = { s with rx := { s.rx with stream := s.rx.stream ++ bytes } } := by
  have hopen : (s.rx.eof && s.rxEofSticky) = false := Bool.and_eq_false_iff.2 h
  simp [State.rxArrive, hopen, htail]

/-- Settles O6: no turn comes by itself, and of the moves only the bytes that arrive do anything. -/
theorem blockDoesNothingOnItsOwn : Obligations.BlockDoesNothingOnItsOwn := by
  unfold Obligations.BlockDoesNothingOnItsOwn
  refine ⟨fun s hs ha hw => step_nothing hs ha (State.due_idle hw), fun s bytes rest hs htail hdue => ?_⟩
  have hstep : step s = .next ((s.beginStep rest).rxArrive bytes) := by rw [step_move hs hdue, State.move, hs]
  refine ⟨fun ⟨heof, hsticky⟩ => ?_, fun hopen => ?_⟩
  · rw [hstep, State.rxArrive_ended (s := s.beginStep rest) heof hsticky]
    rfl
  · rw [hstep, State.rxArrive_joins (s := s.beginStep rest) htail hopen]
    rfl

/-! ## The prefix that never ends (R252 (a)) -/

/-- No length is cached, and under a variable-width style every byte of an endless stream has bit 7 set. -/
structure State.EndlessPrefix (s : State) : Prop where
  unknown : s.rd.next = none
  varWidth : s.cfg.rd.style ∈ variableStyles
  infinite : s.rx.tail ≠ .ends
  continues : ∀ k, ∀ b ∈ s.rx.front k, b.getLsbD 7 = true

theorem mem_variableStyles_of_width {st : Style} (h : Style.width st = none) : st ∈ variableStyles := by
  revert h
  cases st <;> decide

/-- An infinite stream gives a fixed-width prefix all its bytes, so only a variable-width one can fail to end. -/
theorem width_of_endless {st : Style} {ord : ByteOrder} {p : RxPort} (htail : p.tail ≠ .ends)
    (hd : decodePrefix st ord (p.front p.reach) = none) : Style.width st = none := by
  by_contra hne
  obtain ⟨w, hw⟩ := Option.ne_none_iff_exists'.1 hne
  have hreach : w ≤ (p.front p.reach).length := by
    rw [RxPort.holds_iff.1 (RxPort.holds_infinite htail _), RxPort.reach]
    have := (width_bounds hw).2
    omega
  have hwhole := decodePrefix_fixed hw ord (List.length_take_of_le hreach) ((p.front p.reach).drop w)
  rw [List.take_append_drop, hd] at hwhole
  cases hwhole

/-- The prefixes that never end are those that an endless stream gives no length. -/
theorem State.endlessPrefix_iff {s : State} : s.EndlessPrefix ↔ s.upcoming = none ∧ s.rx.tail ≠ .ends := by
  refine ⟨fun ⟨hnext, hst, htail, hall⟩ => ⟨?_, htail⟩, fun ⟨hup, htail⟩ => ?_⟩
  · have hnone := (decodeLoop_none_variable (width_of_mem_variableStyles hst) (ord := s.cfg.rd.order)).2
      (hall s.rx.reach)
    simp only [State.upcoming, hnext, decodePrefix, hnone]
  · have hnext := next_of_upcoming_none hup
    have hd : decodePrefix s.cfg.rd.style s.cfg.rd.order (s.rx.front s.rx.reach) = none := by
      simp only [State.upcoming, hnext] at hup
      split at hup
      · cases hup
      · assumption
    have hw := width_of_endless htail hd
    refine ⟨hnext, mem_variableStyles_of_width hw, htail, fun k b hb => ?_⟩
    have hlonger : decodeLoop s.cfg.rd.style s.cfg.rd.order [] (s.rx.front (k + s.rx.reach)) = none :=
      (decodeLoop_front_reach _ _ _ (Nat.le_add_left _ _)).trans hd
    rw [← s.rx.take_front (Nat.le_add_right k s.rx.reach)] at hb
    exact (decodeLoop_none_variable hw).1 hlonger b (List.mem_of_mem_take hb)

/-! ### The commands that it leaves stuck -/

theorem resolve_stuck {s : State} (hcalm : s.rxCalm = true) (h : s.EndlessPrefix) :
    resolve s = .stuck s.prefixPending := by
  obtain ⟨hup, htail⟩ := State.endlessPrefix_iff.1 h
  obtain ⟨_, -, hr⟩ := resolve_calm hcalm
  rw [hup] at hr
  exact hr.trans (if_neg htail)

theorem pullFrame_stuck {s : State} (hcalm : s.rxCalm = true) (h : s.EndlessPrefix) :
    pullFrame s = .stuck s.prefixPending := by
  rw [pullFrame, resolve_stuck hcalm h, Run.bind_stuck]

theorem exec_peekLen_stuck {s : State} (hready : s.readerReady = true) (hcalm : s.rxCalm = true)
    (h : s.EndlessPrefix) : exec .rdPeekLen s = .next (s.prefixPending.hang .reader) := by
  rw [exec_rdPeekLen hready, resolve_stuck hcalm h]
  rfl

/-- A message read finds no record, and looks for a length. -/
theorem exec_readMsg_stuck {s : State} {i : Instr} (hi : i = .rdReadMsg ∨ i = .rdReadMsgC)
    (hready : s.readerReady = true) (hcalm : s.rxCalm = true) (hq : s.rb.queue = []) (h : s.EndlessPrefix) :
    exec i s = .next (s.prefixPending.hang .reader) := by
  obtain ⟨hup, htail⟩ := State.endlessPrefix_iff.1 h
  obtain ⟨hmsg, hmsgC⟩ := exec_readMsg_noRecord hready hq
  obtain ⟨hfetch, hfetchC⟩ := fetchMsg_stuck hcalm hup htail s.arg.toNat
  rcases hi with rfl | rfl
  · rw [hmsg, hfetch]
    rfl
  · rw [hmsgC, hfetchC]
    rfl

/-- A raw read drains what is unread first. -/
theorem exec_rawRead_stuck {s : State} {i : Instr}
    (hi : (i = .rdRead ∧ s.rb.stop - s.rb.start < s.arg.toNat) ∨ (i = .rdReadByte ∧ s.rb.start = s.rb.stop))
    (hready : s.readerReady = true) (hcalm : s.rxCalm = true) (hinv : s.rb.inv s.cfg.CAP = true)
    (h : s.EndlessPrefix) :
    exec i s = .next (State.hang (State.prefixPending { s with rb := s.rb.drained }) .reader) := by
  have hdrained : State.EndlessPrefix { s with rb := s.rb.drained } :=
    ⟨h.unknown, h.varWidth, h.infinite, h.continues⟩
  obtain ⟨count, hcount, hexec⟩ := exists_readCount hi
  rw [hexec, readBody_fetches hready hinv hcount, fetchRaw,
    pullFrame_stuck (s := { s with rb := s.rb.drained }) hcalm hdrained]
  rfl

/-! ### No other command gets stuck -/

section Responds

variable {α β : Type} {P Q : State → Prop}

/-- The run is neither cut short nor stuck, and where it goes on its state satisfies `P`. -/
def Run.Responds (P : State → Prop) : Run α → Prop
  | .done _ s => P s
  | .raised _ _ => True
  | .interrupted _ _ => False
  | .stuck _ => False
  | .stop _ => True

theorem Run.Responds.bind {r : Run α} {k : α → State → Run β} (h : r.Responds P)
    (hk : ∀ a s, P s → (k a s).Responds Q) : (r.bind k).Responds Q := by
  cases r with
  | done a s => exact hk a s h
  | raised st s => trivial
  | interrupted why s => exact h
  | stuck s => exact h
  | stop f => trivial

/-- Where nothing is claimed of the state, nothing need be carried on. -/
theorem Run.Responds.andThen {r : Run α} {k : α → State → Run β} (h : r.Responds fun _ => True)
    (hk : ∀ a s, (k a s).Responds Q) : (r.bind k).Responds Q := h.bind fun a s _ => hk a s

theorem Run.Responds.finish {u : BlockUnit} {r : Run Response} {t : State} (h : r.Responds P)
    (ht : r.finish u = .next t) : t.rsp ≠ none := by
  cases r with
  | done rsp s =>
    cases ht
    rw [State.endCommand_rsp]
    nofun
  | raised st s =>
    cases ht
    rw [State.raise_rsp]
    nofun
  | interrupted why s => exact h.elim
  | stuck s => exact h.elim
  | stop f => cases ht

theorem readerChecks_responds {s : State} (h : P s) : (readerChecks s).Responds P := by
  rcases readerChecks_cases s with hc | ⟨st, hc⟩ <;> rw [hc]
  · exact h
  · trivial

/-! The buffer's operations write the buffer alone. -/

theorem rbFill_responds {s : State} (h : ∀ b, P { s with rb := b }) (bytes : Bytes) (asMsg : Bool) :
    (rbFill bytes asMsg s).Responds P := by
  unfold rbFill
  split
  · exact h _
  · trivial
  · trivial

theorem rbDrain_responds {s : State} (h : ∀ b, P { s with rb := b }) (m : Nat) : (rbDrain m s).Responds P := by
  unfold rbDrain
  split
  · exact h _
  · trivial

theorem rbDrainMsg_responds {s : State} (h : ∀ b, P { s with rb := b }) : (rbDrainMsg s).Responds P := by
  unfold rbDrainMsg
  split
  · exact h _
  · trivial

theorem takeMsg_responds {s : State} (h : ∀ b, P { s with rb := b }) (dstCap : Nat) :
    (takeMsg dstCap s).Responds P := by
  unfold takeMsg
  split
  · exact rbDrainMsg_responds h
  · split
    · trivial
    · exact rbDrainMsg_responds h

/-- No receive call is cut short, and a length comes or the stream ends inside the prefix. -/
structure State.PrefixEnds (s : State) : Prop where
  calm : s.rxCalm = true
  ends : s.upcoming = none → s.rx.tail = .ends

theorem State.PrefixEnds.withRb {s : State} (h : s.PrefixEnds) (b : RBuf) : State.PrefixEnds { s with rb := b } :=
  ⟨h.calm, h.ends⟩

/-- The length that has come is cached, so that it comes again. -/
theorem resolve_responds {s : State} (h : s.PrefixEnds) : (resolve s).Responds State.PrefixEnds := by
  obtain ⟨sc, hsc, hr⟩ := resolve_calm h.calm
  rw [hr]
  rcases hup : s.upcoming with _ | ⟨V, q⟩
  · have htail := h.ends hup
    dsimp only
    rw [if_pos htail]
    exact ⟨hsc, fun _ => htail⟩
  · exact ⟨hsc, fun hnone => absurd (next_of_upcoming_none hnone) nofun⟩

theorem pullFrame_responds {s : State} (h : s.PrefixEnds) : (pullFrame s).Responds fun _ => True := by
  obtain ⟨sc, -, hpull⟩ := pullFrame_calm h.calm
  rw [hpull]
  rcases hup : s.upcoming with _ | ⟨V, q⟩
  · dsimp only
    rw [if_pos (h.ends hup)]
    trivial
  · dsimp only
    split
    · trivial
    · split <;> trivial

theorem storeFrame_responds {take : State → Run Bytes} (htake : ∀ s, (take s).Responds fun _ => True)
    (p : Option Bytes) (s : State) : (storeFrame take p s).Responds fun _ => True := by
  cases p with
  | none => trivial
  | some p =>
    exact Run.Responds.andThen (rbFill_responds (fun _ => trivial) p true) fun _ s =>
      Run.Responds.andThen (htake s) fun _ _ => trivial

theorem readMsgBody_responds {s : State} (h : s.PrefixEnds) : (readMsgBody s).Responds fun _ => True := by
  rw [readMsgBody_eq]
  refine (readerChecks_responds h).bind fun _ s h => (rbDrainMsg_responds h.withRb).bind fun m s h => ?_
  split
  · trivial
  · exact (pullFrame_responds h).bind fun p s _ =>
      storeFrame_responds (fun _ => rbDrainMsg_responds fun _ => trivial) p s

theorem readMsgCBody_responds {s : State} (h : s.PrefixEnds) (dstCap : Nat) :
    (readMsgCBody dstCap s).Responds fun _ => True := by
  rw [readMsgCBody_eq]
  refine (readerChecks_responds h).bind fun _ s h => (takeMsg_responds h.withRb dstCap).bind fun m s h => ?_
  split
  · trivial
  · refine (resolve_responds h).bind fun L s h => ?_
    split
    · trivial
    · exact (pullFrame_responds h).bind fun p s _ =>
        storeFrame_responds (fun _ => takeMsg_responds (fun _ => trivial) dstCap) p s

theorem readBody_responds {s : State} (h : s.PrefixEnds) (count : Nat) :
    (readBody count s).Responds fun _ => True := by
  rw [readBody_eq]
  refine (readerChecks_responds h).bind fun _ s h => (rbDrain_responds h.withRb count).bind fun d s h => ?_
  split
  · trivial
  · refine (pullFrame_responds h).bind fun p s _ => ?_
    cases p with
    | none => trivial
    | some p =>
      exact Run.Responds.andThen (rbFill_responds (fun _ => trivial) p false) fun _ _ =>
        Run.Responds.andThen (rbDrain_responds (fun _ => trivial) _) fun _ _ => trivial

theorem peekLenBody_responds {s : State} (h : s.PrefixEnds) : (peekLenBody s).Responds fun _ => True := by
  refine (readerChecks_responds h).bind fun _ s h => (resolve_responds h).bind fun _ s _ => ?_
  split <;> trivial

theorem rdCloseBody_responds {s : State} (hcalm : s.rxCalm = true) : (rdCloseBody s).Responds fun _ => True := by
  unfold rdCloseBody
  split
  · trivial
  · dsimp only
    split
    · trivial
    · rw [rxClose_calm (s := { s with rd := { s.rd with closed := true } }) hcalm]
      trivial

/-- The checks, one operation of the buffer and a response: what an `RB.*` command is, but for `RB.LEN`. -/
theorem rbBody_responds {f : State → Run α} (hf : ∀ s, (f s).Responds fun _ => True) {rsp : α → Response}
    (s : State) : ((readerChecks s).bind fun _ s => (f s).bind fun a s => .done (rsp a) s).Responds fun _ => True :=
  Run.Responds.andThen (readerChecks_responds trivial) fun _ s => Run.Responds.andThen (hf s) fun _ _ => trivial

/-- A reader's command that finds no endless prefix gives its response. -/
theorem exec_reader_responds {i : Instr} (hu : Instr.unit i = .reader) {s t : State} (h : s.PrefixEnds)
    (ht : exec i s = .next t) : t.rsp ≠ none := by
  suffices hr : ∃ r : Run Response, exec i s = r.finish .reader ∧ r.Responds fun _ => True by
    obtain ⟨r, hexec, hresponds⟩ := hr
    exact hresponds.finish (hexec.symm.trans ht)
  cases i with
  | rbFillRaw => exact ⟨_, rfl, rbBody_responds (fun t => rbFill_responds (fun _ => trivial) t.din false) s⟩
  | rbFillMsg => exact ⟨_, rfl, rbBody_responds (fun t => rbFill_responds (fun _ => trivial) t.din true) s⟩
  | rbDrain => exact ⟨_, rfl, rbBody_responds (fun t => rbDrain_responds (fun _ => trivial) t.argNat) s⟩
  | rbDrainMsg => exact ⟨_, rfl, rbBody_responds (fun _ => rbDrainMsg_responds fun _ => trivial) s⟩
  | rbLen => exact ⟨_, rfl, Run.Responds.andThen (readerChecks_responds trivial) fun _ _ => trivial⟩
  | rdReadMsg => exact ⟨_, rfl, readMsgBody_responds h⟩
  | rdReadMsgC => exact ⟨_, rfl, readMsgCBody_responds h _⟩
  | rdRead => exact ⟨_, rfl, readBody_responds h _⟩
  | rdReadByte => exact ⟨_, rfl, readBody_responds h 1⟩
  | rdPeekLen => exact ⟨_, rfl, peekLenBody_responds h⟩
  | rdClose => exact ⟨_, rfl, rdCloseBody_responds h.calm⟩
  | _ => cases hu

end Responds

/-- A reader's command that gives no response has found an endless prefix. -/
theorem endlessPrefix_of_noResponse {i : Instr} (hu : Instr.unit i = .reader) {s t : State}
    (hcalm : s.rxCalm = true) (ht : exec i s = .next t) (hrsp : t.rsp = none) : s.EndlessPrefix := by
  by_contra hne
  rw [State.endlessPrefix_iff, not_and, not_not] at hne
  exact exec_reader_responds hu ⟨hcalm, hne⟩ ht hrsp

/-! ### While a command is stuck -/

/-- A command whose unit's lock is held waits on (R70, log 15). -/
theorem State.select_locked {s : State} {who : Nat} {t : Transaction} {i : Instr} (hp : s.pending who = some t)
    (hd : decode t.req.cmd = .command i) (hl : s.lockOf (Instr.unit i) ≠ .free) : s.select who = .nothing := by
  simp only [State.select, hp, hd, hl, if_false]

theorem State.lockOf_reader_of_held {s : State} {who : Nat} {i : Instr} (hl : s.rd.lock = .held who)
    (hu : Instr.unit i = .reader) : s.lockOf (Instr.unit i) ≠ .free := by
  rw [hu, show s.lockOf .reader = _ from hl]
  nofun

/-- A grant that cannot be served does nothing (log 15). -/
theorem step_grant_nothing {s : State} {who : Nat} {rest : List Event} (hs : s.schedule = .grant who :: rest)
    (hdue : s.due = none) (hsel : s.select who = .nothing) : step s = .next (s.beginStep rest) := by
  rw [step_move hs hdue, State.move, hs]
  simp only [State.serve, State.select_beginStep, hsel]

/-- No turn comes by itself to the only command waiting while its unit's lock is held. -/
theorem State.due_sole_locked {s : State} {t : Transaction} {i : Instr} (hw : s.waiting = [t])
    (hd : decode t.req.cmd = .command i) (hl : s.lockOf (Instr.unit i) ≠ .free) : s.due = none := by
  by_contra hne
  obtain ⟨who, hwho⟩ := Option.ne_none_iff_exists'.1 hne
  have hserve := State.due_servable hwho
  obtain rfl : who = t.who := by
    by_contra hother
    rw [State.not_servable_of_sole hw hother] at hserve
    cases hserve
  simp [State.servable, State.select_locked (State.pending_sole hw) hd hl] at hserve

/-- With no move to come the only command waiting is served at once, its unit's lock free (R251). -/
theorem step_sole {s : State} {t : Transaction} {i : Instr} (hs : s.schedule = []) (ha : s.agenda = .ends)
    (hw : s.waiting = [t]) (hd : decode t.req.cmd = .command i) (hl : s.lockOf (Instr.unit i) = .free) :
    step s = exec i { s.setLock (Instr.unit i) (.held t.who) with
      rsp := none, txn := t, waiting := [], turns := s.turns + 1 } := by
  have hahead := State.lookAhead_ends hs ha
  have hcoming : s.coming = none := by rw [State.coming, hahead, hs, List.head?_nil]
  obtain ⟨-, hserves, -⟩ := stepRunsGrantedCommand
  rw [hserves s t i hw hd hl (by simp [hcoming]) (by simp [hcoming]) (by simp [hcoming]), hahead]

/-! ### The end of a stuck command (R226 (b), R221) -/

/-- What a cancel or a failure leaves of the machine in which a command was stuck. -/
theorem State.strike_leaves (s : State) (who : Nat) {why : Interruption} (hwhy : why = .cancelled ∨ why = .ioFail) :
    ∃ t, s.strike who why = .next t ∧
      t.rsp = some ⟨who, { status := if why = .cancelled then .cancelled else .ioFail }⟩ ∧
      t.rd = { s.rd with next := t.rd.next, lock := .free, poisoned := true } ∧ t.rb.inv s.cfg.CAP = true ∧
      t = { s with rb := t.rb, rd := t.rd, rsp := t.rsp, txn := .idle, freeIdx := t.freeIdx } :=
  ⟨_, State.interrupted_poisons hwhy _ _, rfl, rfl, cancelledBuffer_inv _ _, rfl⟩

theorem step_cancel_stuck {s : State} {who : Nat} {rest : List Event} (hs : s.schedule = .cancel who :: rest)
    (hdue : s.due = none) (hl : s.rd.lock = .held who) : step s = (s.beginStep rest).strike who .cancelled := by
  rw [step_move hs hdue, State.move, hs]
  exact if_pos (State.stuck_eq_some.2 hl)

/-- The prefix loses a byte for each move, and up to one more to the answer that strikes (log 28). -/
theorem State.feed_struck (who : Nat) (moves : List Answer) (n : Nat) (why : Interruption) (rest : List Answer)
    (s : State) (hm : moves.all Answer.isMove = true) : State.feed who (moves ++ .interrupt n why :: rest) s =
      State.strike { s with rx := { s.rx.drop (moves.length + min n 1) with script := rest } } who why := by
  induction moves generalizing s with
  | nil => simp [State.feed]
  | cons a moves ih =>
    cases a with
    | interrupt n why => simp [Answer.isMove] at hm
    | move k =>
      rw [List.cons_append, State.feed, ih _ (by simpa [Answer.isMove] using hm), ← RxPort.drop_add,
        List.length_cons, Nat.add_right_comm, Nat.add_comm 1]

/-- The answers written down for a port are not what is dropped from its stream. -/
theorem RxPort.drop_script (p : RxPort) (j : Nat) (sc sc' : List Answer) :
    { RxPort.drop { p with script := sc } j with script := sc' } = { p.drop j with script := sc' } := by
  obtain ⟨heof, -⟩ := p.drop_fields j
  rw [p.drop_at p.eof sc j, ← heof]

theorem step_answers_struck {s : State} {who n : Nat} {why : Interruption} {moves sc tx : List Answer}
    {rest : List Event} (hs : s.schedule = .answers (moves ++ .interrupt n why :: sc) tx :: rest)
    (hdue : s.due = none) (hl : s.rd.lock = .held who) (hscript : s.rx.script = [])
    (hm : moves.all Answer.isMove = true) : step s = State.strike { s with
      schedule := rest, rsp := none, rx := { s.rx.drop (moves.length + min n 1) with script := sc },
      tx := { s.tx with script := s.tx.script ++ tx } } who why := by
  have hstuck : (s.beginStep rest).stuck = some who := State.stuck_eq_some.2 hl
  have hnone : (s.beginStep rest).rx.script = [] := hscript
  rw [step_move hs hdue, State.move, hs]
  simp only [State.answered, hstuck, hnone, List.nil_append]
  rw [State.feed_struck _ _ _ _ _ _ hm]
  simp only [State.settle_rx, RxPort.drop_script]
  rfl

/-- Settles O48: the prefixes that never end are those that leave a command stuck, and such a command holds
`RD.lock` alone until it is struck. -/
theorem endlessPrefixHasNoSuccessor : Obligations.EndlessPrefixHasNoSuccessor := by
  unfold Obligations.EndlessPrefixHasNoSuccessor
  refine ⟨fun s i hi hready hcalm hinv hnext hst htail hall => ?_, fun s t i hu hcalm ht hrsp => ?_,
    fun s who r rest t i hl hs hdue hp hd hu => ?_,
    fun s who t i hl hwr hs ha hw hd => ⟨fun hu => ?_, fun hu => ?_, fun hu => ?_⟩,
    fun s who rest hl hdue hs => ?_, fun s who n why moves sc tx rest hl hdue hscript hwhy hm hs => ?_⟩
  · have hendless : s.EndlessPrefix := ⟨hnext, hst, htail, hall⟩
    rcases hi with rfl | ⟨hi, hq⟩ | hi
    · exact exec_peekLen_stuck hready hcalm hendless
    · rw [exec_readMsg_stuck hi hready hcalm hq hendless]
      rcases hi with rfl | rfl <;> rfl
    · rw [exec_rawRead_stuck hi hready hcalm hinv hendless]
      rcases hi with ⟨rfl, -⟩ | ⟨rfl, -⟩ <;> rfl
  · obtain ⟨hnext, hst, htail, hall⟩ := endlessPrefix_of_noResponse hu hcalm ht hrsp
    exact ⟨hnext, hst, htail, hall⟩
  · exact step_grant_nothing hs hdue (State.select_locked hp hd (State.lockOf_reader_of_held hl hu))
  · exact step_nothing hs ha (State.due_sole_locked hw hd (State.lockOf_reader_of_held hl hu))
  · rw [step_sole hs ha hw hd (by rw [hu]; exact hwr), hu]
    rfl
  · rw [step_sole hs ha hw hd (by rw [hu]; rfl), hu]
    rfl
  · rw [step_cancel_stuck hs hdue hl]
    exact (s.beginStep rest).strike_leaves who (.inl rfl)
  · rw [step_answers_struck hs hdue hl hscript hm]
    obtain ⟨t, ht, hrsp, hrd, hinv, hframe⟩ := State.strike_leaves _ who hwhy
    have hrx := congrArg State.rx hframe
    refine ⟨t, ht, hrsp, hrd, hinv, hrx, ?_⟩
    rw [hrx]
    exact hframe

end Sys2Proof.Machine
end
